-- ==== Sys2Proof/Word.lean ====
section
/-!
DEFINITION. The machine's words and the plainest arithmetic on them (00 R3, R7).
-/
namespace Sys2Proof

/-- A byte of memory. -/
abbrev Byte := BitVec 8
/-- A 32-bit lane of code. -/
abbrev W32 := BitVec 32
/-- A 64-bit scalar register. -/
abbrev Word := BitVec 64
/-- A 4 KiB vector register or queue entry (01 R17). -/
abbrev VWord := BitVec 32768
/-- A mask register, one bit an element (01 R17). -/
abbrev MWord := BitVec 8192

end Sys2Proof
end

