-- ==== Sys2Proof/Config.lean ====
section
/-!
DEFINITION. What an implementation fixes, and the free values: constants with no body, so that
nothing in Lean can tell what they are.
-/
namespace Sys2Proof.Config

/-- Task state that a program reads before writing it, without DET (01 R20, 04 R116): the n-th such
word of a run; and a word that an SRAM error has lost. Log entries 4, 57. -/
opaque freeWord : Nat → BitVec 64
/-- The same for a vector register, a queue entry's worth of bits. Log entries 4, 57. -/
opaque freeVec : Nat → BitVec 32768
/-- A function result whose enclosure the model's bounded refinement does not decide (04 R117, R119):
function number, type code, mode code, operand code. Log entry 10. -/
opaque freeFun : Nat → Nat → Nat → Nat → Nat
/-- A byte the memory controller decrypts under a key it was not written with (14 R390). Log entry 13. -/
opaque freeByte : Nat → BitVec 8
/-- What another chip holds that this one cannot know: contributions to a collective, the values another rank's
deterministic requests leave, the tables of a rank that arrives. Log entry 20. -/
opaque freeRemote : Nat → Nat
/-- Whether the job's ranks on other chips meet a condition at a time: 0, all have finished with no command left; 1, all have
finished or triggered; 2, a write log there asks for the interval's close. By job, condition and TICKS. Log entry 20. -/
opaque farState : Nat → Nat → Nat → Bool
/-- Extra cycles of a function instruction on the slow path, from 1 to 96, or none: by function, type, mode and the operand codes of
the active elements (04 R119). Log entry 53. -/
opaque slowPath : Nat → Nat → Nat → List Nat → Nat
/-- Cycles of a wait for which the architecture fixes no figure (08 R236). Log entry 5. -/
opaque freeWait : Nat → Nat
/-- A fresh key, nonce or signature of the security controller (14 R385 to R397). Log entry 14. -/
opaque freeSecret : Nat → Nat
/-- SHA-384 of words, whose values nothing here computes (14 R387, R394). Log entry 14. -/
opaque sha384 : List Nat → Nat
/-- Of a TDI's interface report the interface information (item 0) and the attributes of its pages (1, 2), which the spec does not give
(14 R394). Log entry 14. -/
opaque tdispInfo : Nat → Nat → Nat
/-- The hash of the device's identity certificate (14 R394). Log entry 14. -/
opaque idCertHash : Nat

/-- Lines an instruction cache holds: 64 KiB of 32-byte lines (01 R23). -/
def icacheLines : Nat := 2048
/-- Entries of CTL's translation cache (13 R367). -/
def ctlTlbEntries : Nat := 128
/-- Entries of each stream translation cache (13 R367). -/
def streamTlbEntries : Nat := 32
/-- Cores of a chip (00 R1). -/
def chipCores : Nat := 128

end Sys2Proof.Config
end

