-- ==== Sys2Proof/Syntax.lean ====
section
/-!
DEFINITION. The instructions of the five sequencers and the device, engine and host steps: one
constructor of Instr for each row of spec/opcode_table.json (02 R59 to R63; 95_what_each_step_holds).
-/
namespace Sys2Proof

/-! ## Names -/

/-- The four fetching sequencers (01 R12). -/
inductive Seqr | ctl | acs | vec | mov
deriving DecidableEq, Repr

/-- The agents a trap frame names (15 R410). -/
inductive Agent | ctl | acs | vec | mov | mtx | drn | rs
deriving DecidableEq, Repr

/-- Engines a marker names (07 R215). -/
inductive Engine | acs | vec | mov | mtx | drn
deriving DecidableEq, Repr

/-- Element types (02 R53). -/
inductive ETy | f32 | bf16 | f16 | e4m3 | e5m2 | cb4 | i32 | i16 | i8 | n8 | n32 | i64
deriving DecidableEq, Repr

/-- Rounding codes 0 to 5 (02 R54); `dflt` is code 0. -/
inductive Rnd | dflt | rne | rtz | rup | rdn | rna
deriving DecidableEq, Repr

/-- Fault causes (15 R401). -/
inductive Cause
  | encHdr | modeMix | encTag | encOp | encRsv | encType | encReg | encLatch | pcAlign | loopDepth
  | loopEmpty | rsvField | priv | forkBusy | uhIllegal | uhState | rftState | trapUser | queBound
  | spField | spBusy | spRec | mxField | mxSlot | mxType | mxShape | mxNest | mxKlong | drnProg
  | overlap | watchAddr | watchFull | ringNone | ringDesc | movLocal | movWindow | leaseArg | jobCtl
  | tiReserved | tiDesc | tiInvalid | tiType | tiShape | arrvOverflow | arrvUnderflow | memAlign
  | vaHole | spadHole | fabRank | fabRange | xlMiss | xlEntry | xlPerm | xlScheme | tiComp | genStale
  | memPoison | rankLost | sramUe
  | detViolation | detGroup | detLimit | grpLimit | grpMember | grpEdit | barvAhead | barvMix
  | fcolMismatch | detResult
  | preTimeout | migTimeout | launchEntry | launchImage | launchBusy | launchCores | launchLimited
  | placeArg | placeRoom | placeBusy | quotaOver | allocQuota | mapRegion | mapSingular | mapBusy
  | attestExhausted | ckptNone | ckptHole | ckptLogfull | dieMapout | launchPlace | portTable
deriving DecidableEq, Repr

/-- A scalar source: a register of the sequencer, or one of its latches b0 to b3 (02 R46). -/
inductive Src
  | r (n : BitVec 6)
  | b (n : BitVec 2)
deriving DecidableEq, Repr

/-- A vector operand (02 R51). -/
inductive VOp
  | v (n : BitVec 8)
  | lq (n : BitVec 3)
  | sq (n : BitVec 2)
  | b (n : BitVec 2)
deriving DecidableEq, Repr

inductive MulSel | lo | hi | hiu deriving DecidableEq, Repr
inductive DivSel | q | qu | m | mu deriving DecidableEq, Repr
inductive LogSel | and | or | xor deriving DecidableEq, Repr
inductive ShSel | l | rl | ra deriving DecidableEq, Repr
inductive CmpSel | eq | ne | lt | ltu | ge | geu deriving DecidableEq, Repr
inductive BrSel | eqz | nez | ltz | gez deriving DecidableEq, Repr
/-- Access sizes (08 R234). -/
inductive Size | b | h | w | d deriving DecidableEq, Repr
/-- Atomic operations (08 R237). -/
inductive AtomSel | add | min | max | umin | umax | and | or | xor | swap deriving DecidableEq, Repr
/-- Where SIDX takes its indices (05 R137). -/
inductive IdxSrc | none | lq (n : BitVec 3) | p (n : BitVec 4) deriving DecidableEq, Repr
inductive RedSel | sum | max | min deriving DecidableEq, Repr
/-- Vector compare conditions (05 R152). -/
inductive VCond | eq | ne | lt | le | gt | ge | un deriving DecidableEq, Repr
inductive MlogSel | and | or | xor | andn deriving DecidableEq, Repr
inductive VatomSel | add | min | max deriving DecidableEq, Repr
/-- Operand types of MXMMA (06 R180). -/
inductive MmaTy | bf16 | f16 | e4m3 | e5m2 | cb4 deriving DecidableEq, Repr
/-- FCOL operations (09 R284). -/
inductive ColSel | allreduce | reducescatter | allgather | alltoall | bcast deriving DecidableEq, Repr
/-- RNKQ fields (09 R288). -/
inductive RnkSel | rank | nranks | width | ngroups | step | gmemb | gpos | gphase deriving DecidableEq, Repr
/-- LSID modes (06 R190). -/
inductive SidSel | row | col | elem | const deriving DecidableEq, Repr
/-- LIDX selects (06 R190). -/
inductive LidxSel | row | col | flat | diag deriving DecidableEq, Repr
/-- LSTS sources (06 R192). -/
inductive StsSel | max | sum | val deriving DecidableEq, Repr

/-! ## Operand bundles of the scalar sequencers -/

/-- Form S with a destination and two sources (02 R42). -/
structure S3 where
  nw : Bool
  d : BitVec 6
  a : Src
  b : Src
deriving DecidableEq, Repr

/-- A destination and one source. -/
structure S2 where
  nw : Bool
  d : BitVec 6
  a : Src
deriving DecidableEq, Repr

/-- Form I with an immediate of w bits. -/
structure SI (w : Nat) where
  nw : Bool
  d : BitVec 6
  a : Src
  imm : BitVec w
deriving DecidableEq, Repr

/-- LDI, LDIH, ALDI, DLDI (02 R45). -/
structure SL where
  nw : Bool
  d : BitVec 6
  imm : W32
deriving DecidableEq, Repr

/-- A load (08 R234). -/
structure SLd where
  nw : Bool
  d : BitVec 6
  a : Src
  sx : Bool
  size : Size
  off : BitVec 8
deriving DecidableEq, Repr

/-- A store (08 R234): `d` is the data source. -/
structure SSt where
  d : Src
  a : Src
  size : Size
  off : BitVec 8
deriving DecidableEq, Repr

/-- A conditional branch (02 R44). -/
structure SBr where
  cond : BrSel
  a : Src
  off : BitVec 15
deriving DecidableEq, Repr

/-- Own slot and predecessors of an engine command (07 R208). -/
structure Toks where
  k : BitVec 6
  ka : BitVec 6
  kb : BitVec 6
  kc : BitVec 6
deriving DecidableEq, Repr

/-- MXMMA (06 R180). -/
structure Mma where
  t : Toks
  zero : Bool
  den : Bool
  rnd : Rnd
  acc : BitVec 4
  osA : BitVec 5
  osB : BitVec 5
  entry : BitVec 6
  tyA : MmaTy
  tyB : MmaTy
deriving DecidableEq, Repr

/-- COPY (09 R277): coordinates in d registers, arrival register when AE = 1. -/
structure CopyOps where
  t : Toks
  arrive : Option (BitVec 4)
  tiD : BitVec 8
  tiS : BitVec 8
  dcD : BitVec 5
  dcS : BitVec 5
deriving DecidableEq, Repr

/-- COPYS (09 R277). -/
structure CopysOps where
  t : Toks
  arrive : Option (BitVec 4)
  tiD : BitVec 8
  dcD : BitVec 5
  src : BitVec 5
deriving DecidableEq, Repr

/-- COPYO (09 R277). -/
structure CopyoOps where
  t : Toks
  arrive : Option (BitVec 4)
  os : BitVec 5
  tiS : BitVec 8
  dcS : BitVec 5
deriving DecidableEq, Repr

/-- FST and FLD (09 R281). -/
structure XferOps where
  t : Toks
  dst : BitVec 5
  src : BitVec 5
  len : BitVec 5
  flag : BitVec 5
deriving DecidableEq, Repr

/-- FATM (09 R283). -/
structure FatmOps where
  t : Toks
  op : AtomSel
  det : Bool
  addr : BitVec 5
  val : BitVec 5
  res : BitVec 5
deriving DecidableEq, Repr

/-- FCOL (09 R284). -/
structure FcolOps where
  t : Toks
  op : ColSel
  red : RedSel
  g : BitVec 8
  tiD : BitVec 8
  tiS : BitVec 8
deriving DecidableEq, Repr

/-! ## Operand bundles of the vector sequencer (02 R50) -/

/-- One source, with rounding. -/
structure VUr where
  ty : ETy
  vd : VOp
  va : VOp
  m : BitVec 4
  nw : Bool
  rnd : Rnd
  sat : Bool
deriving DecidableEq, Repr

/-- Two sources, with rounding. -/
structure VBr where
  ty : ETy
  vd : VOp
  va : VOp
  vb : VOp
  m : BitVec 4
  nw : Bool
  rnd : Rnd
  sat : Bool
deriving DecidableEq, Repr

/-- Three sources, with rounding. -/
structure VTr where
  ty : ETy
  vd : VOp
  va : VOp
  vb : VOp
  vc : VOp
  m : BitVec 4
  nw : Bool
  rnd : Rnd
  sat : Bool
deriving DecidableEq, Repr

/-- One source, no rounding. -/
structure VU where
  ty : ETy
  vd : VOp
  va : VOp
  m : BitVec 4
  nw : Bool
deriving DecidableEq, Repr

/-- Two sources, no rounding. -/
structure VB where
  ty : ETy
  vd : VOp
  va : VOp
  vb : VOp
  m : BitVec 4
  nw : Bool
deriving DecidableEq, Repr

/-- Two sources with saturation (05 R156). -/
structure VBs where
  ty : ETy
  vd : VOp
  va : VOp
  vb : VOp
  m : BitVec 4
  nw : Bool
  sat : Bool
deriving DecidableEq, Repr

/-- VCVT (05 R146). -/
structure VCvtOps where
  d : ETy
  s : ETy
  vd : VOp
  va : VOp
  m : BitVec 4
  nw : Bool
  rnd : Rnd
  sat : Bool
  part : BitVec 3
deriving DecidableEq, Repr

/-- VCBX and VCBQ (05 R147, R148); `wide` is VCBQ's f32 source. -/
structure VCbOps where
  vd : VOp
  va : VOp
  cb : BitVec 4
  wide : Bool
  part : BitVec 3
  m : BitVec 4
  nw : Bool
deriving DecidableEq, Repr

/-- VLDX (05 R149). -/
structure VLdxOps where
  u : VUr
  imm : BitVec 8
deriving DecidableEq, Repr

/-- VDOT (05 R150). -/
structure VDotOps where
  t : ETy
  u : ETy
  vd : VOp
  va : VOp
  vb : VOp
  vc : VOp
  cbA : BitVec 4
  cbB : BitVec 4
  m : BitVec 4
  nw : Bool
  rnd : Rnd
deriving DecidableEq, Repr

/-- VRED (05 R151). -/
structure VRedOps where
  op : RedSel
  u : VUr
deriving DecidableEq, Repr

/-- VCMP (05 R152). -/
structure VCmpOps where
  cond : VCond
  ty : ETy
  md : BitVec 4
  va : VOp
  vb : VOp
  m : BitVec 4
deriving DecidableEq, Repr

/-- VCLS (05 R154): the nine-bit class set. -/
structure VClsOps where
  ty : ETy
  md : BitVec 4
  va : VOp
  classes : BitVec 9
  m : BitVec 4
deriving DecidableEq, Repr

/-- MLOG (05 R155). -/
structure MlogOps where
  op : MlogSel
  md : BitVec 4
  ma : BitVec 4
  mb : BitVec 4
  m : BitVec 4
deriving DecidableEq, Repr

/-- MPOP (05 R155). -/
structure MpopOps where
  vd : VOp
  ma : BitVec 4
  m : BitVec 4
  nw : Bool
deriving DecidableEq, Repr

/-- VSHF (05 R156). -/
structure VShfOps where
  op : ShSel
  o : VB
deriving DecidableEq, Repr

/-- VBCST, immediate form (05 R158). -/
structure VBcstOps where
  ty : ETy
  vd : VOp
  imm : W32
  m : BitVec 4
deriving DecidableEq, Repr

/-- VBCST, element form (05 R158). -/
structure VBcstElemOps where
  ty : ETy
  vd : VOp
  va : VOp
  e : BitVec 13
  m : BitVec 4
deriving DecidableEq, Repr

/-- VIOTA (05 R159). -/
structure ViotaOps where
  vd : VOp
  start : W32
  m : BitVec 4
deriving DecidableEq, Repr

/-- VPERM (05 R160). -/
structure VPermOps where
  o : VB
  part : BitVec 3
deriving DecidableEq, Repr

/-- VSLIDE (05 R161). -/
structure VSlideOps where
  o : VB
  imm : BitVec 8
deriving DecidableEq, Repr

/-- VCMPRS (05 R162). -/
structure VCmprsOps where
  ty : ETy
  vd : VOp
  md : BitVec 4
  va : VOp
  half : BitVec 1
deriving DecidableEq, Repr

/-- VXPND (05 R163). -/
structure VXpndOps where
  ty : ETy
  vd : VOp
  va : VOp
  ma : BitVec 4
  half : BitVec 1
  m : BitVec 4
  nw : Bool
deriving DecidableEq, Repr

/-- VRNG (05 R164). -/
structure VRngOps where
  vd : VOp
  vidx : VOp
  ti : BitVec 8
  s : BitVec 8
  m : BitVec 4
  nw : Bool
deriving DecidableEq, Repr

/-- VATOM (05 R165). -/
structure VAtomOps where
  op : VatomSel
  va : VOp
  vb : VOp
  m : BitVec 4
deriving DecidableEq, Repr

/-! ## Operands of the device steps -/

/-- States of a placement entry (12 R342). -/
inductive PlaceState | absent | active | cold | moving | forward | withdrawn
deriving DecidableEq, Repr

/-- A placement entry's first word and its bases (12 R342). -/
structure PlaceEntry where
  chip : Nat := 0
  ocol : Nat := 0
  orow : Nat := 0
  state : PlaceState := .absent
  pendack : Nat := 0
  wake : Bool := false
  pgen : BitVec 16 := 0
  phaseBase : BitVec 52 := 0
  stageBase : BitVec 52 := 0
  exportBase : BitVec 52 := 0
  watchBase : BitVec 52 := 0
  frameBase : BitVec 52 := 0
  accBase : BitVec 52 := 0
  ctxBase : BitVec 52 := 0
deriving DecidableEq, Repr

/-- A deterministic request as it travels to the chip that holds its word: its key, interval, operation and result address (04 R112
to R115). -/
structure DetTx where
  rank : Nat
  core : Nat
  task : Nat
  order : Nat
  mov : Bool
  idx : Nat
  g : Nat
  phase : Nat
  op : Option AtomSel
  x : Word
  exp : Word
  res : Nat
deriving DecidableEq, Repr

/-- What a fabric transaction asks of the target (11 R320): a deterministic request, a read, a write, an atomic, a CAS; of a rank that
moves, a line of its pages that the old home's Fabric Migration Engine has copied, by address, with its page's level and leaf and whether
it is poisoned (12 R349, R350); a placement request passed on to the chip of its rank (12 R343). -/
inductive FabOp
  | copy (va lvl : Nat) (leaf : Word) (bad : Bool) (bytes : List Byte)
  | place (w0 w1 w2 : Word)
  | det (r : DetTx)
  | read (n : Nat)
  | write (bytes : List Byte)
  | atomic (op : AtomSel) (x : Word)
  | cas (x new : Word)
deriving DecidableEq, Repr

/-- A fabric transaction received from another chip (11 R324): source chip, its number in the sequence of the chip that sent it
toward this one, whether that is the old home, which forwarded it, the job, target rank and offset; the ingress lane it came on with
its number on that link (11 R320), and the number of the transaction before it in its sequence that names the same line, 0 for none. -/
structure FabTx where
  src : Nat
  seq : Nat
  viaOld : Bool
  job : Nat
  rank : Nat
  off : BitVec 33
  op : FabOp
  lane : Nat := 0
  link : Nat := 0
  after : Nat := 0
deriving DecidableEq, Repr

/-- What one Prism asks or tells another about lanes (11 R322, R326 to R330, R333, R334): fibres offered, for a rank's lease or, of
job 0, a baseline lane; ingress lanes that now stand in a state, by its code in R321; a shortfall of ingress lanes for a forced
request; lanes of a rank to be revoked; an Aperture image. -/
inductive PrismMsg
  | offer (fibres : List Nat)
  | lanes (st : Nat) (ks : List Nat)
  | force (n : Nat)
  | revoke (n : Nat)
  | aperture (image : List Byte)
deriving DecidableEq, Repr

/-- A host access's TDI stream: none for an access outside IDE, else the TDI whose stream carries it
with the T bit set (14 R391). -/
abbrev Ide := Option Nat

/-- A lane of the link from another chip (11 R320, R338). -/
structure PeerLane where
  src : Nat
  lane : Nat
deriving DecidableEq, Repr

/-- What an error strikes in an array of a core (15 R416): a register of CTL, ACS, MOV or VEC, a mask, an operand slot, an accumulator
tile, an entry of a load or store queue, a word of drain memory, a watch entry, a token. -/
inductive CoreItem
  | scalar (n : Nat) | shadow (n : Nat) | addr (n : Nat) | delta (n : Nat) | vreg (n : Nat) | mask (n : Nat) | slot (n : Nat)
  | tile (n : Nat) | entry (store : Bool) (q n : Nat) | drain (n : Nat) | watch (n : Nat) | token (n : Nat)
deriving DecidableEq, Repr

/-- Where an uncorrectable SRAM error strikes (15 R416). -/
inductive SramSite
  | spad (off : BitVec 29)
  | coreArray (x : CoreItem)
  | chipArray (job : Nat)
deriving DecidableEq, Repr

/-- A firmware image as the verifier sees it (14 R385): its hash, its security version number and
whether its signature verifies. -/
structure FwImage where
  hash : Nat
  svn : BitVec 16
  sigOk : Bool
deriving DecidableEq, Repr

/-- A debug authorization (14 R397): the nonce it names and whether the owner's key signed it for this
device and state. -/
structure DebugAuth where
  nonce : Nat
  device : Nat
  toHalt : Bool
  keyHash : Nat
  sigOk : Bool
deriving DecidableEq, Repr

/-- Security states (14 R388). -/
inductive SecState | manufacturing | development | production
deriving DecidableEq, Repr

/-- Every instruction and every step of spec/opcode_table.json, in its order. -/
inductive Instr
  -- CTL (02 R59)
  | add (o : S3) | addi (o : SI 11) | sub (o : S3) | mul (f : MulSel) (o : S3) | div (f : DivSel) (o : S3)
  | and (o : S3) | or (o : S3) | xor (o : S3) | logi (f : LogSel) (o : SI 9)
  | shf (f : ShSel) (o : S3) | shfi (f : ShSel) (o : SI 6) | cmp (f : CmpSel) (o : S3)
  | cmpi (f : CmpSel) (o : SI 8) | sel (o : S3) | min (u : Bool) (o : S3) | max (u : Bool) (o : S3)
  | clz (o : S2) | popc (o : S2) | ldi (o : SL) | ldih (o : SL)
  | br (o : SBr) | jmp (off : BitVec 15) | jal (d : BitVec 6) (off : BitVec 15) | jr (a : Src)
  | loop (a : Src) (e : BitVec 15) | loopi (c : BitVec 16) (e : BitVec 8) | brkl
  | ld (o : SLd) | st (o : SSt) | atom (op : AtomSel) (o : S3) | atomDet (op : AtomSel) (r a b : Src)
  | cas (o : S3) (c : Src) | casDet (r a b c : Src)
  | mark (e : BitVec 5) | join | fork (s : BitVec 3) (off : BitVec 15) | rdv (id : BitVec 4)
  | susp (a b : Src) (off : W32) | suspEnd | trig | barv (nw : Bool) (d : BitVec 6) (step : Bool) (g : BitVec 8)
  | mxcfg (level : BitVec 3) (field : BitVec 5) (a : Src) | mxgo (t : Toks) | mxclm (n : BitVec 5)
  | mxrel (n : BitVec 5) | mxmma (o : Mma) | tidw (n : BitVec 8) (a : Src)
  | mfsr (nw : Bool) (d : BitVec 6) (r : BitVec 11) | mtsr (r : BitVec 11) (a : Src)
  | trap (imm : BitVec 11) | rft | rftU | chkpt | nop
  -- ACS (02 R60)
  | aadd (o : S3) | aaddi (o : SI 11) | asub (o : S3) | amul (o : S3) | ashfi (right : Bool) (o : SI 6)
  | aldi (o : SL) | abr (o : SBr) | aloop (c : BitVec 15) (e : BitVec 8) | aloopReg (r : Src) (e : BitVec 8)
  | spw (p : BitVec 4) (field : BitVec 5) (a : Src) | sload (q : BitVec 3) (p : BitVec 4)
  | sstore (q : BitVec 2) (p : BitVec 4) | sidx (p : BitVec 4) (src : IdxSrc) | amark | asusp
  | aqres (p : BitVec 4) | anop
  -- VEC (02 R61)
  | vadd (o : VBr) | vsub (o : VBr) | vmul (o : VBr) | vfma (o : VTr) | vfms (o : VTr) | vfnma (o : VTr)
  | vmax (o : VB) | vmin (o : VB) | vabs (o : VU) | vneg (o : VU) | vdiv (o : VBr) | vsqrt (o : VUr)
  | vrcp (o : VUr) | vrsq (o : VUr) | vexp (o : VUr) | vexp2 (o : VUr) | vln (o : VUr) | vlog2 (o : VUr)
  | vtanh (o : VUr) | vsigm (o : VUr) | verf (o : VUr) | vsin (o : VUr) | vcos (o : VUr)
  | vcvt (o : VCvtOps) | vcbx (o : VCbOps) | vcbq (o : VCbOps) | vldx (o : VLdxOps) | vdot (o : VDotOps)
  | vred (o : VRedOps) | vscan (o : VUr) | vcmp (o : VCmpOps) | vsel (o : VB) | vcls (o : VClsOps)
  | mlog (o : MlogOps) | mpop (o : MpopOps) | viadd (o : VBs) | visub (o : VBs) | vimul (o : VBs)
  | vimin (o : VB) | vimax (o : VB) | vand (o : VB) | vor (o : VB) | vxor (o : VB) | vshf (o : VShfOps)
  | vmov (o : VU) | vbcst (o : VBcstOps) | vbcstElem (o : VBcstElemOps) | viota (o : ViotaOps)
  | vperm (o : VPermOps) | vslide (o : VSlideOps) | vcmprs (o : VCmprsOps) | vxpnd (o : VXpndOps)
  | vrng (o : VRngOps) | vatom (o : VAtomOps) | vloop (c : BitVec 16) (e : BitVec 8)
  | vbrm (none : Bool) (m : BitVec 4) (off : BitVec 16) | vsusp | vjmp (off : BitVec 16) | vnop
  -- MOV (02 R62)
  | dadd (o : S3) | daddi (o : SI 11) | dsub (o : S3) | dmul (o : S3) | dshfi (f : ShSel) (o : SI 6)
  | dlogi (f : LogSel) (o : SI 9) | dldi (o : SL) | dcmp (f : CmpSel) (o : S3) | dbr (o : SBr)
  | djmp (off : BitVec 15) | dloop (c : BitVec 15) (e : BitVec 8) | dloopReg (r : Src) (e : BitVec 8)
  | dld (o : SLd) | dst (o : SSt) | copy (o : CopyOps) | copys (o : CopysOps) | copyo (o : CopyoOps)
  | cring (n : BitVec 3) (a : Src) | cringSelect (n : BitVec 3) | batch | suspb (n : BitVec 6) (off : BitVec 15)
  | expct (a b : Src) | arrv (a b : Src) | fst (o : XferOps) | fld (o : XferOps) | fatm (o : FatmOps)
  | fcol (o : FcolOps) | bwls (p c m : Src) | bwrl (p c : Src) | bwsl (a : Src)
  | grped (g : BitVec 8) (a : Src) | rnkq (nw : Bool) (d : BitVec 6) (f : RnkSel) (g : BitVec 8)
  | dsusp | dnop
  -- DRN (02 R63)
  | ladd (td ta tb : BitVec 3) (r : Rnd) | lmul (td ta tb : BitVec 3) (r : Rnd)
  | lfma (td ta tb tc : BitVec 3) (r : Rnd) | lmax (td ta tb : BitVec 3) | lmin (td ta tb : BitVec 3)
  | lsel (td ta tb tc : BitVec 3) | lcmp (c : VCond) (td ta tb : BitVec 3)
  | lexp (td ta : BitVec 3) (r : Rnd) | lrcp (td ta : BitVec 3) (r : Rnd) | ltanh (td ta : BitVec 3) (r : Rnd)
  | lcvt (td ta : BitVec 3) (ty : ETy) (r : Rnd) (sat : Bool) | lrng (td : BitVec 3) (s : BitVec 8)
  | ldrp (td ta tb : BitVec 3) (s : BitVec 8) (r : Rnd) | lrmx (ta : BitVec 3) | lrsm (ta : BitVec 3)
  | lsid (td : BitVec 3) (mode : SidSel) (ds : BitVec 1) (k : BitVec 2)
  | lst (ta : BitVec 3) (r : Rnd) (sat : Bool)
  | lsts (src : StsSel) (ta : BitVec 3) (k : BitVec 3) (r : Rnd) (sat : Bool)
  | lidx (td : BitVec 3) (what : LidxSel) | lend
  -- Steps inside a core
  | lineAdvance (q : Seqr) | modeCrossing | instructionCacheMiss (q : Seqr) | resultWriteback
  | scratchpadAccessComplete (q : Seqr) | memoryAccessPerform (q : Seqr) | genStaleRetry (q : Seqr)
  | translationWalk (q : Seqr) | faultBatchClose | streamLoadEntryDeliver (p : BitVec 4)
  | streamStoreEntryWrite (p : BitVec 4) | streamFaultHalt (p : BitVec 4) (c : Cause) (fva : BitVec 52)
  | taskDispatch (job rank : Nat) | userHandlerEntry | markerReachHead (e : Engine) | trigRelease
  | barvArrive (job rank : Nat) (g : Nat) (step : Bool) | phaseComplete (job g : Nat)
  | rankQuiesced (job rank : Nat) | migTimeout (job rank : Nat) | migrationLineFlip (job rank : Nat) (line : Nat)
  | checkpointCommit (job : Nat) | rollback (job : Nat)
  | mtxCommandStart | nestLoaderFill | nestLoaderFault | tileStep | drainRow | drainFaultHalt
  | mtxCommandRetire (seq : W32) | movCommandStart (seq : W32) | copyArrival (seq : W32)
  | fstFlagIncrement (seq : W32) | movCommandHalt (seq : W32) (c : Cause) (fva : BitVec 52)
  | movCommandRetire (seq : W32) | ringRecordWrite (ring : BitVec 3)
  | collectiveStart (job g n : Nat) | collectiveItemDeliver (job g n rank block : Nat)
  | collectiveMemberFault (job g n rank : Nat) (c : Cause) (fva : BitVec 52)
  | trapEntry | forwardReply (job rank : Nat)
  | preemptRequest (job rank : Nat) | coreStop | preTimeout (job rank : Nat) | contextSaveDone (job rank : Nat)
  -- Steps of a chip's controllers
  | queueUnmapComplete (q : Nat) | launchEntryTake (q : Nat) | successorStart (job rank : Nat) | programRetire (job : Nat)
  | apertureActivate (job : Nat) | apertureSlotStart (job : Nat) | apertureWindowOpen (job : Nat) (i : Nat)
  | apertureWindowClose (job : Nat) (i : Nat) | laneRepairStart (lane : Nat) | laneRetire (lane : Nat)
  | errcntWindowEnd (lane : Nat) | dieMapoutTrigger (stack die : Nat) | dieMapoutDone (stack die : Nat)
  -- What other chips and the host send
  | placementEntryUpdate (job rank : Nat) (e : PlaceEntry) | generationMarkerReceive (job rank src : Nat)
  | chipLost (chip : Nat) | fabricTransactionReceive (tx : FabTx)
  -- Front end and ports
  | doorbell (tdi off width : Nat) (value : Word) (ide : Ide) | quantumBoundary
  | portSlotAdvance | portRotationBoundary
  -- Prism
  | leaseRound | leaseOfferReceive (src : Nat) (job rank : Nat) (m : PrismMsg) (time : Nat)
  | leaseCommit (job rank peer : Nat) (pairs : List (Nat × Nat)) | guardIntervalEnd | leaseForce | noticeExpire
  | pidExchange (job peer : Nat) (pid : Word)
  | flitCrcError (lane : Nat) | replayRequestReceive (at' : PeerLane) (seq : Nat) | flitAckReceive (at' : PeerLane) (seq : Nat)
  -- Tier Manager and errors
  | tierMoveStart | tierMoveLineFlip | tierMoveDone | memoryUncorrectableError (pa : Nat)
  | sramCorrectableError | sramUncorrectableError (site : SramSite)
  -- Bring-up and security
  | deviceReset | firmwareImageLoad (img : FwImage) | lpddrTrainingDone | hbmTrainingDone (failed : List Nat)
  | opticalCalibrationDone | measurements | ideKm (tdi : Nat) (key : Nat) | lockInterfaceRequest (tdi : Nat)
  | startInterfaceRequest (tdi : Nat) | stopInterfaceRequest (tdi : Nat) | getDeviceInterfaceReport (tdi : Nat)
  | ideIntegrityFailure (tdi : Nat) | hostBar4Read (off n : Nat) (ide : Ide)
  | hostBar4Write (off : Nat) (bytes : List Byte) (ide : Ide)
  | loupeObserveEnter (a : DebugAuth) | loupeHaltEnter (a : DebugAuth) | loupeOff
  -- Operations and management
  | frameAlloc | pageMove | resolve | asAdvance | quotaSet | mapLoad | actSet | resumeRank | place
  | svnCommit | portSet | ckptSet | mapout | placeStage | operationDone | mgmtRegWrite (off : Nat) (value : Word)
  -- Power
  | pwrTargetFull | pwrTargetReduced | pwrTargetIdle | pwrTargetRetain | pwrTargetOff | powerTransitionDone
  | powerWake | powerOn | throttleEnter (draw : Nat) | gateRaise (draw : Nat) | gateLower (draw : Nat)
  | throttleExit (draw : Nat) | thermalReduce (tj : Nat) | thermalOff (tj : Nat) | powerLoss
  | securityStateTransition (dest : SecState) | identityKeyGeneration
  | frameFree (job : Nat) (pa : Nat) | jobEnd (job : Nat) | debugNonceIssue | ownerKeyProvision (hash : Nat)
deriving DecidableEq, Repr

end Sys2Proof
end

