-- ==== Sys2Proof/Machine/Numbers.lean ====
section
/-!
DEFINITION. Number formats, rounding, conversions and sums (03 R75 to R91; 04 R99 to R121).

An exact value is a dyadic number with a sign, so that a zero keeps its sign; every rounding is RoundTo.
-/
namespace Sys2Proof.Machine

/-- Bits of an element type (03 R75, R79, R81). -/
def tyBits : ETy → Nat
  | .f32 | .i32 | .n32 => 32
  | .bf16 | .f16 | .i16 => 16
  | .e4m3 | .e5m2 | .i8 | .n8 => 8
  | .cb4 => 4
  | .i64 => 64

/-- The type code of 02 R53. -/
def tyCode : ETy → Nat
  | .f32 => 0 | .bf16 => 1 | .f16 => 2 | .e4m3 => 3 | .e5m2 => 4 | .cb4 => 5
  | .i32 => 6 | .i16 => 7 | .i8 => 8 | .n8 => 9 | .n32 => 10 | .i64 => 11

/-- The type a code names; 12 to 15 are reserved (02 R53). -/
def tyOf : Nat → Option ETy
  | 0 => some .f32 | 1 => some .bf16 | 2 => some .f16 | 3 => some .e4m3 | 4 => some .e5m2
  | 5 => some .cb4 | 6 => some .i32 | 7 => some .i16 | 8 => some .i8 | 9 => some .n8
  | 10 => some .n32 | 11 => some .i64 | _ => none

/-- The five floating types (05 R144). -/
def isFloat : ETy → Bool
  | .f32 | .bf16 | .f16 | .e4m3 | .e5m2 => true
  | _ => false

/-- The six integer types (05 R156). -/
def isInt : ETy → Bool
  | .i32 | .i16 | .i8 | .n8 | .n32 | .i64 => true
  | _ => false

/-- Two's-complement types (03 R79). -/
def isSigned : ETy → Bool
  | .i32 | .i16 | .i8 | .i64 => true
  | _ => false

/-- The five modes of 03 R85. -/
inductive Mode | rne | rtz | rup | rdn | rna
deriving DecidableEq, Repr

/-- The rnd field resolved, code 0 standing for `d` (02 R54, 03 R94). -/
def rndMode (d : Mode) : Rnd → Mode
  | .dflt => d | .rne => .rne | .rtz => .rtz | .rup => .rup | .rdn => .rdn | .rna => .rna

/-- A rounding code 0 to 5 as a descriptor or a nest holds it: 0 is RNE (03 R92, 06 R172). -/
def modeOfCode : Nat → Mode
  | 2 => .rtz | 3 => .rup | 4 => .rdn | 5 => .rna | _ => .rne

/-- Mode number, for naming a free function value. -/
def modeIx : Mode → Nat
  | .rne => 1 | .rtz => 2 | .rup => 3 | .rdn => 4 | .rna => 5

/-- Exact values: NaN, an infinity, or (−1)^neg × sig × 2^exp. -/
inductive XVal
  | nan
  | inf (neg : Bool)
  | fin (neg : Bool) (sig : Nat) (exp : Int)
deriving DecidableEq, Repr

/-- A floating format: width, fraction bits, bias, largest finite significand and its exponent, and
whether it has infinities (03 R75). -/
structure Fmt where
  bits : Nat
  man : Nat
  bias : Nat
  maxSig : Nat
  maxExp : Int
  hasInf : Bool
deriving DecidableEq, Repr

/-- The floating formats of 03 R75; for the other types this is f32's and is not used. -/
def fmt : ETy → Fmt
  | .bf16 => ⟨16, 7, 127, 255, 120, true⟩
  | .f16 => ⟨16, 10, 15, 2047, 5, true⟩
  | .e4m3 => ⟨8, 3, 7, 14, 5, false⟩
  | .e5m2 => ⟨8, 2, 15, 7, 13, true⟩
  | _ => ⟨32, 23, 127, 16777215, 104, true⟩

/-- Exponent of the smallest normal (03 R85). -/
def Fmt.emin (f : Fmt) : Int := 1 - (f.bias : Int)

/-- Exponent field of a code. -/
def Fmt.expField (f : Fmt) (c : Nat) : Nat := (c >>> f.man) % 2 ^ (f.bits - 1 - f.man)
/-- Fraction field of a code. -/
def Fmt.fracField (f : Fmt) (c : Nat) : Nat := c % 2 ^ f.man
/-- Sign bit of a code. -/
def Fmt.signBit (f : Fmt) (c : Nat) : Bool := c.testBit (f.bits - 1)
/-- All ones in the exponent field. -/
def Fmt.expOnes (f : Fmt) : Nat := 2 ^ (f.bits - 1 - f.man) - 1

/-- IsNaNCode (03 R76). -/
def isNaNCode (t : ETy) (c : Nat) : Bool :=
  let f := fmt t
  if f.hasInf then f.expField c == f.expOnes && f.fracField c != 0
  else f.expField c == f.expOnes && f.fracField c == 2 ^ f.man - 1

/-- Decode of a floating code (03 R76). -/
def decodeF (t : ETy) (c : Nat) : XVal :=
  let f := fmt t
  let e := f.expField c
  let m := f.fracField c
  let s := f.signBit c
  if isNaNCode t c then .nan
  else if f.hasInf && e == f.expOnes then .inf s
  else if e == 0 then .fin s m (f.emin - f.man)
  else .fin s (2 ^ f.man + m) ((e : Int) - f.bias - f.man)

/-- The integer a code of an integer type stands for (03 R79). -/
def intOf (t : ETy) (c : Nat) : Int :=
  let n := tyBits t
  if isSigned t && c.testBit (n - 1) then (c : Int) - 2 ^ n else c

/-- Minimum and maximum of an integer type (03 R79). -/
def minI (t : ETy) : Int := if isSigned t then -(2 ^ (tyBits t - 1) : Int) else 0
def maxI (t : ETy) : Int := if isSigned t then 2 ^ (tyBits t - 1) - 1 else 2 ^ tyBits t - 1

/-- The code of an integer taken modulo 2^n. -/
def wrapI (t : ETy) (x : Int) : Nat := (x % (2 ^ tyBits t : Int)).toNat

/-- Integer result: wrap, or clamp with .sat (03 R79). -/
def narrowI (t : ETy) (sat : Bool) (x : Int) : Nat :=
  if sat then wrapI t (max (minI t) (min x (maxI t))) else wrapI t x

/-- An integer as an exact value. -/
def XVal.ofInt (x : Int) : XVal := .fin (decide (x < 0)) x.natAbs 0

/-- The canonical NaN (03 R75, R77). -/
def canonNaN : ETy → Nat
  | .bf16 => 0x7FC0 | .f16 => 0x7E00 | .e4m3 => 0x7F | .e5m2 => 0x7E | _ => 0x7FC00000

/-- A sign put on a magnitude code. -/
def withSign (t : ETy) (neg : Bool) (c : Nat) : Nat :=
  if neg then c + 2 ^ ((fmt t).bits - 1) else c

/-- The code of the exactly representable magnitude sig × 2^exp (03 R85, Encode). -/
def encodeMag (t : ETy) (sig : Nat) (exp : Int) : Nat :=
  let f := fmt t
  if sig = 0 then 0
  else
    let e := (Nat.log2 sig : Int) + exp
    let sh (q : Int) : Nat := if 0 ≤ exp - q then sig <<< (exp - q).toNat else sig >>> (q - exp).toNat
    if e < f.emin then sh (f.emin - f.man)
    else (e + f.bias).toNat <<< f.man ||| (sh (e - f.man) - 2 ^ f.man)

/-- The largest finite code (03 R75). -/
def maxCode (t : ETy) : Nat := encodeMag t (fmt t).maxSig (fmt t).maxExp

/-- Infinity, or the canonical NaN where the format has none (03 R75, R86). -/
def infCode (t : ETy) (neg : Bool) : Nat :=
  if (fmt t).hasInf then withSign t neg ((fmt t).expOnes <<< (fmt t).man) else canonNaN t

/-- InfResult (03 R85). -/
def infResult (t : ETy) (neg : Bool) (sat : Bool) : Nat :=
  if sat then withSign t neg (maxCode t) else infCode t neg

/-- Overflow (03 R86). -/
def overflow (t : ETy) (neg : Bool) (mode : Mode) (sat : Bool) : Nat :=
  if sat then withSign t neg (maxCode t)
  else match mode, neg with
    | .rtz, _ => withSign t neg (maxCode t)
    | .rup, true => withSign t true (maxCode t)
    | .rdn, false => withSign t false (maxCode t)
    | _, _ => infCode t neg

/-- Pick on a magnitude (03 R85): `fl` units below, a remainder `rem` of `den`, rem < den. -/
def pickUp (mode : Mode) (neg : Bool) (fl rem den : Nat) : Nat :=
  if rem = 0 then fl
  else match mode with
    | .rtz => fl
    | .rup => if neg then fl else fl + 1
    | .rdn => if neg then fl + 1 else fl
    | .rna => if den ≤ 2 * rem then fl + 1 else fl
    | .rne => if den < 2 * rem || (den == 2 * rem && fl % 2 == 1) then fl + 1 else fl

/-- The exponent of the quantum at a nonzero magnitude (03 R85). -/
def quantum (t : ETy) (sig : Nat) (exp : Int) : Int :=
  max ((Nat.log2 sig : Int) + exp) (fmt t).emin - (fmt t).man

/-- The rounded magnitude in units of 2^q. -/
def roundUnits (mode : Mode) (neg : Bool) (sig : Nat) (exp q : Int) : Nat :=
  if q ≤ exp then sig <<< (exp - q).toNat
  else
    let k := (q - exp).toNat
    pickUp mode neg (sig >>> k) (sig % 2 ^ k) (2 ^ k)

/-- Is sig × 2^exp above the largest finite value (03 R85). -/
def aboveMax (t : ETy) (sig : Nat) (exp : Int) : Bool :=
  let f := fmt t
  if exp ≤ f.maxExp then decide (f.maxSig <<< (f.maxExp - exp).toNat < sig)
  else decide (f.maxSig < sig <<< (exp - f.maxExp).toNat)

/-- RoundTo (03 R85). -/
def roundTo (t : ETy) (mode : Mode) (sat : Bool) : XVal → Nat
  | .nan => canonNaN t
  | .inf neg => infResult t neg sat
  | .fin neg sig exp =>
    if sig = 0 then withSign t neg 0
    else
      let q := quantum t sig exp
      let r := roundUnits mode neg sig exp q
      if aboveMax t r q then overflow t neg mode sat
      else withSign t neg (encodeMag t r q)

/-- ConvertToInt (03 R89). -/
def convertToInt (t : ETy) (mode : Mode) : XVal → Int
  | .nan => 0
  | .inf neg => if neg then minI t else maxI t
  | .fin neg sig exp =>
    let r := roundUnits mode neg sig exp 0
    let x : Int := if neg then -(r : Int) else r
    min (max x (minI t)) (maxI t)

/-- Multiply by 2^k, exactly (03 R94). -/
def XVal.scale (k : Int) : XVal → XVal
  | .fin n s e => .fin n s (e + k)
  | v => v

/-- The sign changed. -/
def XVal.neg : XVal → XVal
  | .nan => .nan
  | .inf n => .inf (!n)
  | .fin n s e => .fin (!n) s e

/-- A zero of either sign. -/
def XVal.isZero : XVal → Bool
  | .fin _ 0 _ => true
  | _ => false

/-- Exact sum with the sign of a zero by IEEE 754 under `mode` (03 R78). -/
def XVal.addM (mode : Mode) : XVal → XVal → XVal
  | .nan, _ => .nan
  | _, .nan => .nan
  | .inf a, .inf b => if a == b then .inf a else .nan
  | .inf a, _ => .inf a
  | _, .inf b => .inf b
  | .fin na sa ea, .fin nb sb eb =>
    let e := min ea eb
    let x : Int := (if na then -1 else 1) * ((sa <<< (ea - e).toNat : Nat) : Int)
    let y : Int := (if nb then -1 else 1) * ((sb <<< (eb - e).toNat : Nat) : Int)
    let z := x + y
    if z = 0 then
      .fin (if sa = 0 && sb = 0 && na == nb then na else mode == .rdn) 0 0
    else .fin (decide (z < 0)) z.natAbs e

/-- Exact product; ∞ × 0 is NaN (04 R99). -/
def XVal.mul : XVal → XVal → XVal
  | .nan, _ => .nan
  | _, .nan => .nan
  | .inf a, .inf b => .inf (a != b)
  | .inf a, .fin b s _ => if s = 0 then .nan else .inf (a != b)
  | .fin a s _, .inf b => if s = 0 then .nan else .inf (a != b)
  | .fin a s e, .fin b r f => .fin (a != b) (s * r) (e + f)

/-- Compare two finite values or infinities: −1, 0 or 1 (NaN is not given). -/
def XVal.cmp : XVal → XVal → Int
  | .inf a, .inf b => if a == b then 0 else if a then -1 else 1
  | .inf a, _ => if a then -1 else 1
  | _, .inf b => if b then 1 else -1
  | .fin na sa ea, .fin nb sb eb =>
    let e := min ea eb
    let x : Int := (if na then -1 else 1) * ((sa <<< (ea - e).toNat : Nat) : Int)
    let y : Int := (if nb then -1 else 1) * ((sb <<< (eb - e).toNat : Nat) : Int)
    if x < y then -1 else if x = y then 0 else 1
  | _, _ => 0

/-- The exact value of a code of any type but cb4 (03 R76, R79). -/
def decodeT (t : ETy) (c : Nat) : XVal :=
  if isFloat t then decodeF t c else .ofInt (intOf t c)

/-- The exact value of a code; a cb4 code reads its codebook (03 R81). -/
def decodeCb (cb : Nat → Nat) (t : ETy) (c : Nat) : XVal :=
  match t with
  | .cb4 => decodeF .bf16 (cb c)
  | _ => decodeT t c

/-- |x − y| of two finite values, as numerator and exponent. -/
def absDiff (nx : Bool) (sx : Nat) (ex : Int) (ny : Bool) (sy : Nat) (ey : Int) : Nat × Int :=
  match XVal.addM .rne (.fin nx sx ex) (.fin (!ny) sy ey) with
  | .fin _ s e => (s, e)
  | _ => (0, 0)

/-- A distance of CbNearest: finite, or infinite. -/
abbrev Dist := Option (Nat × Int)

/-- The distance from x to the entry v (03 R84). -/
def cbDist : XVal → XVal → Dist
  | .fin nx sx ex, .fin ny sy ey => some (absDiff nx sx ex ny sy ey)
  | .inf a, .inf b => if a == b then some (0, 0) else none
  | _, _ => none

/-- Strictly smaller distance. -/
def distLt : Dist → Dist → Bool
  | none, _ => false
  | some _, none => true
  | some (a, e), some (b, f) => XVal.cmp (.fin false a e) (.fin false b f) == -1

/-- The lowest entry that is NaN, or 0 (03 R84). -/
def cbFirstNaN (cb : Nat → Nat) : Nat :=
  ((List.range 16).find? fun j => isNaNCode .bf16 (cb j)).getD 0

/-- CbNearest (03 R84). -/
def cbNearest (cb : Nat → Nat) (x : XVal) : Nat :=
  if x = .nan then cbFirstNaN cb
  else
    let pick (best : Option (Nat × Dist)) (j : Nat) : Option (Nat × Dist) :=
      let v := decodeF .bf16 (cb j)
      if v = .nan then best
      else
        let d := cbDist x v
        match best with
        | none => some (j, d)
        | some (_, db) => if distLt d db then some (j, d) else best
    (((List.range 16).foldl pick none).map (·.1)).getD 0

/-- A conversion pair of VCVT: neither side cb4 (03 R88). -/
def cvtOk (d s : ETy) : Bool := d != .cb4 && s != .cb4

/-- Does integer type d hold every value of s (03 R88). -/
def holds (d s : ETy) : Bool := decide (minI d ≤ minI s ∧ maxI s ≤ maxI d)

/-- One element converted (03 R88, R89). -/
def convert (d s : ETy) (mode : Mode) (sat : Bool) (c : Nat) : Nat :=
  if d = s then
    if isFloat d then (if isNaNCode d c then canonNaN d else c) else c
  else match isFloat s, isFloat d with
    | true, true => roundTo d mode sat (decodeF s c)
    | false, true => roundTo d mode sat (.ofInt (intOf s c))
    | true, false => wrapI d (convertToInt d mode (decodeF s c))
    | false, false => if holds d s then wrapI d (intOf s c) else narrowI d sat (intOf s c)

/-- The class of a floating code (03 R91). -/
def classOf (t : ETy) (c : Nat) : Nat :=
  match decodeF t c with
  | .nan => 8
  | .inf neg => if neg then 0 else 7
  | .fin neg sig exp =>
    if sig = 0 then (if neg then 3 else 4)
    else if (Nat.log2 sig : Int) + exp < (fmt t).emin then (if neg then 2 else 5)
    else (if neg then 1 else 6)

/-- Turn a value into a stored code of a tensor (03 R94): RoundTo, ConvertToInt or CbNearest. -/
def storeCode (cb : Nat → Nat) (t : ETy) (mode : Mode) (sat : Bool) (v : XVal) : Nat :=
  match t with
  | .cb4 => cbNearest cb v
  | _ => if isFloat t then roundTo t mode sat v else wrapI t (convertToInt t mode v)

/-! ## Aligned sums (04 R99 to R102) -/

/-- Floor(Log2(|t|)) of a nonzero finite term. -/
def termE : XVal → Option Int
  | .fin _ s e => if s = 0 then none else some ((Nat.log2 s : Int) + e)
  | _ => none

/-- sign(t) × Floor(|t| / 2^q) of a finite term (04 R100). -/
def termUnits (q : Int) : XVal → Int
  | .fin n s e =>
    let u : Nat := if q ≤ e then s <<< (e - q).toNat else s >>> (q - e).toNat
    if n then -(u : Int) else u
  | _ => 0

/-- The largest exponent of a term list. -/
def maxE (T : List XVal) : Option Int :=
  T.foldl (fun m t => match m, termE t with
    | none, e => e
    | some a, none => some a
    | some a, some b => some (max a b)) none

/-- AlignedSum (04 R100). -/
def alignedSum (G : Int) (T : List XVal) : XVal :=
  if T.any (· == .nan) then .nan
  else if T.any (· == .inf false) && T.any (· == .inf true) then .nan
  else if T.any (· == .inf false) then .inf false
  else if T.any (· == .inf true) then .inf true
  else match maxE T with
    | none => .fin (!T.isEmpty && T.all (fun t => match t with | .fin n _ _ => n | _ => false)) 0 0
    | some E =>
      let q := E - G
      let S := T.foldl (fun a t => a + termUnits q t) 0
      if S = 0 then .fin false 0 0 else .fin (decide (S < 0)) S.natAbs q

/-- Accumulate (04 R102): f32 code, group value, mode. -/
def accumulate (mode : Mode) (acc : Nat) (g : XVal) : Nat :=
  roundTo .f32 mode false (XVal.addM mode (decodeF .f32 acc) g)

/-- Sum group of an operand pair: terms a group and G (04 R101). -/
def sumGroup (a b : ETy) : Nat × Int :=
  let f8 (t : ETy) : Bool := t == .e4m3 || t == .e5m2
  if a = .cb4 || b = .cb4 then (32, 27)
  else if f8 a && f8 b then (16, 19)
  else (8, 27)

/-- KS of an operand pair of the matrix engine; none for a pair it does not take (06 R167). -/
def pairKS (a b : ETy) : Option Nat :=
  let f16 (t : ETy) : Bool := t == .bf16 || t == .f16
  let f8 (t : ETy) : Bool := t == .e4m3 || t == .e5m2
  if f16 a && f16 b then some 128
  else if f8 a && f8 b then some 256
  else if a == .cb4 && b == .cb4 then some 512
  else if (a == .cb4 && b == .bf16) || (a == .bf16 && b == .cb4) then some 128
  else none

/-- The groups of a step of length L, n terms each (04 R103, 06 R168). -/
def accGroups (mode : Mode) (n : Nat) (G : Int) : List XVal → Nat → Nat → Nat
  | _, 0, acc => acc
  | T, fuel + 1, acc =>
    if T.isEmpty then acc
    else accGroups mode n G (T.drop n) fuel (accumulate mode acc (alignedSum G (T.take n)))

/-- The larger or smaller of two floating codes, NaN canonical, +0 above −0 (05 R144). -/
def maxF (t : ETy) (mx : Bool) (a b : Nat) : Nat :=
  if isNaNCode t a || isNaNCode t b then canonNaN t
  else
    let c := XVal.cmp (decodeF t a) (decodeF t b)
    let aBig : Bool := c == 1 || (c == 0 && !(fmt t).signBit a)
    if aBig == mx then a else b

/-- Floating compare of 05 R152. -/
def condF (c : VCond) (x y : XVal) : Bool :=
  let un := x == .nan || y == .nan
  let k := XVal.cmp x y
  match c with
  | .eq => !un && k == 0
  | .ne => un || k != 0
  | .lt => !un && k == -1
  | .le => !un && k != 1
  | .gt => !un && k == 1
  | .ge => !un && k != -1
  | .un => un

/-- Integer compare of 05 R152. -/
def condI (c : VCond) (x y : Int) : Bool :=
  match c with
  | .eq => x == y
  | .ne => x != y
  | .lt => decide (x < y)
  | .le => decide (x ≤ y)
  | .gt => decide (y < x)
  | .ge => decide (y ≤ x)
  | .un => false

/-! ## The random stream (04 R120, R121) -/

/-- JcgDraw (04 R120). -/
def jcgDraw (seed v s step ti i : Nat) : Nat :=
  let m := 2 ^ 64
  let K := seed ^^^ (v <<< 48) ^^^ (s <<< 40)
  let c := ((step % 2 ^ 24) <<< 40) ^^^ (ti <<< 32) ^^^ (i % 2 ^ 32)
  let x := K ^^^ (c * 0xD1B54A32D192ED03 % m)
  let x := x ^^^ (x >>> 31)
  let x := x * 0x8CB92BA72F3D8DD7 % m
  let x := x ^^^ (x >>> 27)
  x >>> 32

/-- DropKeep (04 R121). -/
def dropKeep (out k24 : Nat) : Bool := decide (out >>> 8 < k24)

/-- The draw of LRNG as an exact value: (out >> 8) × 2^−24 (06 R189). -/
def drawVal (out : Nat) : XVal := .fin false (out >>> 8) (-24)

end Sys2Proof.Machine
end

