-- ==== Sys2Proof/WellFormed.lean ====
section
/-!
DEFINITION. What makes an instruction one that some encoding of the spec stands for: the limits that the
operand types of Syntax leave open (02 R42 to R55, R64).
-/
namespace Sys2Proof

open Machine (tyBits isFloat isInt)

/-- Elements of a 4 KiB register: N(t) (05 R141). -/
def elems (t : ETy) : Nat := 32768 / tyBits t

/-- A source is a register below `lim` or a latch (02 R46). -/
def Src.ok (lim : Nat) : Src → Bool
  | .r n => n.toNat < lim
  | .b _ => true

/-- A destination register below `lim` (02 R46). -/
def dstOk (lim : Nat) (d : BitVec 6) : Bool := d.toNat < lim

/-- A vector source (02 R51). -/
def VOp.srcOk : VOp → Bool
  | .v n => n.toNat < 192
  | .lq _ | .b _ => true
  | .sq _ => false

/-- A vector destination (02 R51). -/
def VOp.dstOk : VOp → Bool
  | .v n => n.toNat < 192
  | .sq _ => true
  | .lq _ | .b _ => false

/-- Types of VRED and VSCAN (05 R151). -/
def redTy (t : ETy) : Bool := isFloat t || isInt t

/-- Types of VCMPRS and VXPND (05 R162). -/
def packTy (t : ETy) : Bool := isFloat t || t == .i8 || t == .i16 || t == .i32 || t == .i64

/-- Pairs of VDOT (05 R150). -/
def dotPair (t u : ETy) : Bool :=
  let h (x : ETy) : Bool := x == .bf16 || x == .f16
  let e (x : ETy) : Bool := x == .e4m3 || x == .e5m2
  (h t && h u) || (e t && e u) || (t == .cb4 && u == .cb4)

/-- Element types of MXMMA's codes (06 R180). -/
def MmaTy.ety : MmaTy → ETy
  | .bf16 => .bf16 | .f16 => .f16 | .e4m3 => .e4m3 | .e5m2 => .e5m2 | .cb4 => .cb4

/-- Parts of VCVT (05 R146). -/
def cvtParts (d s : ETy) : Nat := max (tyBits d) (tyBits s) / min (tyBits d) (tyBits s)

/-- Elements VPERM writes (05 R160). -/
def permElems (t : ETy) : Nat := min (elems t) 1024

/-- System register numbers of 08 R254, 10 R305, 12 R348, 15 R406 and 18 R440. -/
def sysRegOk (n : BitVec 11) : Bool := n.toNat ≤ 0x23

/-- Field codes of MXCFG at a level (06 R181). -/
def mxFieldCount (level : BitVec 3) : Nat :=
  if level.toNat ≤ 5 then 7 else if level = 6 then 23 else 9

def S3.ok (lim : Nat) (o : S3) : Bool := dstOk lim o.d && o.a.ok lim && o.b.ok lim
def S2.ok (lim : Nat) (o : S2) : Bool := dstOk lim o.d && o.a.ok lim
def SI.ok {w : Nat} (lim : Nat) (o : SI w) : Bool := dstOk lim o.d && o.a.ok lim
def SL.ok (lim : Nat) (o : SL) : Bool := dstOk lim o.d
/-- A load: .d has no sign-extended form (08 R234); MOV has no .b and .h (09 R263). -/
def SLd.ok (lim : Nat) (mov : Bool) (o : SLd) : Bool :=
  dstOk lim o.d && o.a.ok lim && !(o.sx && o.size == .d) && !(mov && (o.size == .b || o.size == .h))
def SSt.ok (lim : Nat) (mov : Bool) (o : SSt) : Bool :=
  o.d.ok lim && o.a.ok lim && !(mov && (o.size == .b || o.size == .h))
def VUr.ok (tys : ETy → Bool) (o : VUr) : Bool := tys o.ty && o.vd.dstOk && o.va.srcOk
def VBr.ok (tys : ETy → Bool) (o : VBr) : Bool := tys o.ty && o.vd.dstOk && o.va.srcOk && o.vb.srcOk
def VTr.ok (tys : ETy → Bool) (o : VTr) : Bool :=
  tys o.ty && o.vd.dstOk && o.va.srcOk && o.vb.srcOk && o.vc.srcOk
def VU.ok (tys : ETy → Bool) (o : VU) : Bool := tys o.ty && o.vd.dstOk && o.va.srcOk
def VB.ok (tys : ETy → Bool) (o : VB) : Bool := tys o.ty && o.vd.dstOk && o.va.srcOk && o.vb.srcOk
def VBs.ok (tys : ETy → Bool) (o : VBs) : Bool := tys o.ty && o.vd.dstOk && o.va.srcOk && o.vb.srcOk

/-- Every type. -/
def anyTy (_ : ETy) : Bool := true

/-- The instruction is one an encoding stands for; every device, engine and host step is. -/
def Instr.wf : Instr → Bool
  | .add o | .sub o | .mul _ o | .div _ o | .and o | .or o | .xor o | .shf _ o | .cmp _ o | .sel o
  | .min _ o | .max _ o | .atom _ o => o.ok 48
  | .cas o c => o.ok 48 && c.ok 48
  | .addi o => o.ok 48
  | .logi _ o => o.ok 48
  | .shfi _ o => o.ok 48
  | .cmpi _ o => o.ok 48
  | .clz o | .popc o => o.ok 48
  | .ldi o | .ldih o => o.ok 48
  | .br o => o.a.ok 48
  | .jmp _ => true
  | .jal d _ => dstOk 48 d
  | .jr a => a.ok 48
  | .loop a e => a.ok 48 && e != 0
  | .loopi _ e => e != 0
  | .brkl => true
  | .ld o => o.ok 48 false
  | .st o => o.ok 48 false
  | .atomDet _ r a b => r.ok 48 && a.ok 48 && b.ok 48
  | .casDet r a b c => r.ok 48 && a.ok 48 && b.ok 48 && c.ok 48
  | .mark e => e != 0
  | .fork s _ => s != 0
  | .susp a b _ => a.ok 48 && b.ok 48 && a != .r 0
  | .barv _ d step g => dstOk 48 d && (!step || g == 0)
  | .mxcfg l f a => a.ok 48 && f.toNat < mxFieldCount l
  | .mxmma o => (Machine.pairKS o.tyA.ety o.tyB.ety).isSome
  | .tidw _ a => a.ok 48
  | .mfsr _ d r => dstOk 48 d && sysRegOk r
  | .mtsr r a => sysRegOk r && a.ok 48
  | .aadd o | .asub o | .amul o => o.ok 32
  | .aaddi o => o.ok 32
  | .ashfi _ o => o.ok 32
  | .aldi o => o.ok 32
  | .abr o => o.a.ok 32
  | .aloop _ e => e != 0
  | .aloopReg r e => r.ok 32 && e != 0
  | .spw _ f a => f.toNat ≤ 20 && a.ok 32
  | .vadd o | .vsub o | .vmul o | .vdiv o => o.ok isFloat
  | .vfma o | .vfms o | .vfnma o => o.ok isFloat
  | .vmax o | .vmin o => o.ok isFloat
  | .vabs o | .vneg o => o.ok isFloat
  | .vsqrt o | .vrcp o | .vrsq o | .vexp o | .vexp2 o | .vln o | .vlog2 o | .vtanh o | .vsigm o
  | .verf o | .vsin o | .vcos o => o.ok isFloat
  | .vcvt o =>
    Machine.cvtOk o.d o.s && o.vd.dstOk && o.va.srcOk && o.part.toNat < cvtParts o.d o.s
  | .vcbx o => o.vd.dstOk && o.va.srcOk && !o.wide && o.part.toNat < 4
  | .vcbq o => o.vd.dstOk && o.va.srcOk && (o.wide || o.part.toNat < 4)
  | .vldx o => o.u.ok isFloat
  | .vdot o =>
    dotPair o.t o.u && o.vd.dstOk && o.va.srcOk && o.vb.srcOk && o.vc.srcOk
      && (o.t == .cb4 || (o.cbA == 0 && o.cbB == 0))
  | .vred o =>
    o.u.ok redTy && (if o.op == .sum then isFloat o.u.ty || o.u.rnd == .dflt
      else o.u.rnd == .dflt && !o.u.sat)
  | .vscan o => o.ok redTy && (isFloat o.ty || o.rnd == .dflt)
  | .vcmp o => o.ty != .cb4 && o.va.srcOk && o.vb.srcOk && o.md != 0
  | .vsel o => o.ok anyTy
  | .vcls o => isFloat o.ty && o.va.srcOk && o.md != 0
  | .mlog o => o.md != 0
  | .mpop o => o.vd.dstOk
  | .viadd o | .visub o | .vimul o => o.ok isInt
  | .vimin o | .vimax o | .vand o | .vor o | .vxor o => o.ok isInt
  | .vshf o => o.o.ok isInt
  | .vmov o => o.ok anyTy
  | .vbcst o => o.vd.dstOk && (32 ≤ tyBits o.ty || o.imm.toNat < 2 ^ tyBits o.ty)
  | .vbcstElem o => o.vd.dstOk && o.va.srcOk && o.va != .v 0 && o.e.toNat < elems o.ty
  | .viota o => o.vd.dstOk
  | .vperm o => o.o.ok anyTy && o.part.toNat < elems o.o.ty / permElems o.o.ty
  | .vslide o => o.o.ok anyTy
  | .vcmprs o => packTy o.ty && o.vd.dstOk && o.va.srcOk && o.md != 0
  | .vxpnd o => packTy o.ty && o.vd.dstOk && o.va.srcOk
  | .vrng o => o.vd.dstOk && o.vidx.srcOk
  | .vatom o => o.va.srcOk && o.vb.srcOk
  | .vloop _ e => e != 0
  | .dadd o | .dsub o | .dmul o | .dcmp _ o => o.ok 32
  | .daddi o => o.ok 32
  | .dshfi _ o => o.ok 32
  | .dlogi _ o => o.ok 32
  | .dldi o => o.ok 32
  | .dbr o => o.a.ok 32
  | .dloop _ e => e != 0
  | .dloopReg r e => r.ok 32 && e != 0
  | .dld o => o.ok 32 true
  | .dst o => o.ok 32 true
  | .cring _ a => a.ok 32
  | .expct a b | .arrv a b => a.ok 32 && b.ok 32
  | .fcol o => o.op == .allreduce || o.op == .reducescatter || o.red == .sum
  | .bwls p c m => p.ok 32 && c.ok 32 && m.ok 32
  | .bwrl p c => p.ok 32 && c.ok 32
  | .bwsl a => a.ok 32
  | .grped _ a => a.ok 32
  | .rnkq _ d f g => dstOk 32 d && (f == .gmemb || f == .gpos || f == .gphase || g == 0)
  | .lcvt _ _ ty _ _ => isFloat ty
  | .lsid _ mode ds k => if mode == .const then ds == 0 else k == 0
  | .lsts src ta _ _ _ => src == .val || ta == 0
  | _ => true

end Sys2Proof
end

