-- ==== Sys2Proof/Decode.lean ====
section
/-!
DEFINITION. The decoder of the five sequencers' words, with the encoding faults in the order of 02 R64, and
the encoder (02 R42 to R63; 05 R133, R141 to R166; 06 R180, R189; 08 R227; 09 R262 to R288).

The tags of a line are checked where lines are walked (Machine/Step.lean); here a word and, for a two-lane
instruction, its CONT word are read. A one-lane decoder ignores the second word it is given.
-/
namespace Sys2Proof

open Machine (tyBits isFloat isInt tyOf tyCode)

/-! ## Fields -/

/-- Opcode of a scalar or vector first word (02 R42, R50). -/
def opF (w : W32) : BitVec 8 := w.extractLsb' 24 8
def nwF (w : W32) : BitVec 1 := w.extractLsb' 23 1
def rdF (w : W32) : BitVec 6 := w.extractLsb' 17 6
def raF (w : W32) : BitVec 6 := w.extractLsb' 11 6
def rbF (w : W32) : BitVec 6 := w.extractLsb' 5 6
def fnF (w : W32) : BitVec 5 := w.extractLsb' 0 5
def immF (w : W32) : BitVec 11 := w.extractLsb' 0 11
/-- Form B (02 R42). -/
def condF3 (w : W32) : BitVec 3 := w.extractLsb' 21 3
def rlF (w : W32) : BitVec 6 := w.extractLsb' 15 6
def offF (w : W32) : BitVec 15 := w.extractLsb' 0 15
/-- The LOOPI-form count and end (02 R42, R43). -/
def cntF (w : W32) : BitVec 16 := w.extractLsb' 8 16
def endF (w : W32) : BitVec 8 := w.extractLsb' 0 8

/-- Form S as a word. -/
def packS (op : BitVec 8) (nw : BitVec 1) (rd ra rb : BitVec 6) (fn : BitVec 5) : W32 :=
  op ++ nw ++ rd ++ ra ++ rb ++ fn
/-- Form I as a word. -/
def packI (op : BitVec 8) (nw : BitVec 1) (rd ra : BitVec 6) (imm : BitVec 11) : W32 :=
  op ++ nw ++ rd ++ ra ++ imm
/-- Form B as a word. -/
def packB (op : BitVec 8) (cond : BitVec 3) (ra : BitVec 6) (off : BitVec 15) : W32 :=
  op ++ cond ++ ra ++ off
/-- The LOOPI form as a word. -/
def packL (op : BitVec 8) (count : BitVec 16) (e : BitVec 8) : W32 := op ++ count ++ e

/-- A cause or an instruction, in the order of 02 R64 past the opcode: reserved fields, then types, then
registers. -/
def judge (rsv ty : Bool) (i : Option Instr) : Except Cause Instr :=
  if rsv then .error .encRsv
  else if ty then .error .encType
  else match i with
    | some i => .ok i
    | none => .error .encReg

/-- An undefined select raises ENC_OP before anything else (02 R64). -/
def onSel {α : Type} (f : Option α) (k : α → Except Cause Instr) : Except Cause Instr :=
  match f with
  | some x => k x
  | none => .error .encOp

/-- A source code (02 R46). -/
def srcOf (lim : Nat) (c : BitVec 6) : Option Src :=
  if c.toNat < lim then some (.r c)
  else if 48 ≤ c.toNat ∧ c.toNat < 52 then some (.b (c.extractLsb' 0 2))
  else none

/-- A destination code (02 R46). -/
def dstOf (lim : Nat) (c : BitVec 6) : Option (BitVec 6) := if c.toNat < lim then some c else none

/-- The code of a source. -/
def Src.code : Src → BitVec 6
  | .r n => n
  | .b n => (12 : BitVec 4) ++ n

/-! ## Selects -/

def mulOf : Nat → Option MulSel | 0 => some .lo | 1 => some .hi | 2 => some .hiu | _ => none
def MulSel.code : MulSel → Nat | .lo => 0 | .hi => 1 | .hiu => 2
def divOf : Nat → Option DivSel | 0 => some .q | 1 => some .qu | 2 => some .m | 3 => some .mu | _ => none
def DivSel.code : DivSel → Nat | .q => 0 | .qu => 1 | .m => 2 | .mu => 3
def logOf : Nat → Option LogSel | 0 => some .and | 1 => some .or | 2 => some .xor | _ => none
def LogSel.code : LogSel → Nat | .and => 0 | .or => 1 | .xor => 2
def shOf : Nat → Option ShSel | 0 => some .l | 1 => some .rl | 2 => some .ra | _ => none
def ShSel.code : ShSel → Nat | .l => 0 | .rl => 1 | .ra => 2
/-- ASHFI has no .ra (05 R133). -/
def ashOf : Nat → Option Bool | 0 => some false | 1 => some true | _ => none
def cmpOf : Nat → Option CmpSel
  | 0 => some .eq | 1 => some .ne | 2 => some .lt | 3 => some .ltu | 4 => some .ge | 5 => some .geu | _ => none
def CmpSel.code : CmpSel → Nat | .eq => 0 | .ne => 1 | .lt => 2 | .ltu => 3 | .ge => 4 | .geu => 5
def brOf : Nat → Option BrSel
  | 0 => some .eqz | 1 => some .nez | 2 => some .ltz | 3 => some .gez | _ => none
def BrSel.code : BrSel → Nat | .eqz => 0 | .nez => 1 | .ltz => 2 | .gez => 3
def sizeOf : Nat → Size | 0 => .b | 1 => .h | 2 => .w | _ => .d
def Size.code : Size → Nat | .b => 0 | .h => 1 | .w => 2 | .d => 3
def atomOf : Nat → Option AtomSel
  | 0 => some .add | 1 => some .min | 2 => some .max | 3 => some .umin | 4 => some .umax | 5 => some .and
  | 6 => some .or | 7 => some .xor | 8 => some .swap | _ => none
def AtomSel.code : AtomSel → Nat
  | .add => 0 | .min => 1 | .max => 2 | .umin => 3 | .umax => 4 | .and => 5 | .or => 6 | .xor => 7 | .swap => 8
def vcondOf : Nat → Option VCond
  | 0 => some .eq | 1 => some .ne | 2 => some .lt | 3 => some .le | 4 => some .gt | 5 => some .ge
  | 6 => some .un | _ => none
def VCond.code : VCond → Nat | .eq => 0 | .ne => 1 | .lt => 2 | .le => 3 | .gt => 4 | .ge => 5 | .un => 6
def redOf : Nat → Option RedSel | 0 => some .sum | 1 => some .max | 2 => some .min | _ => none
def RedSel.code : RedSel → Nat | .sum => 0 | .max => 1 | .min => 2
def mlogOf : Nat → Option MlogSel
  | 0 => some .and | 1 => some .or | 2 => some .xor | 3 => some .andn | _ => none
def MlogSel.code : MlogSel → Nat | .and => 0 | .or => 1 | .xor => 2 | .andn => 3
def vatomOf : Nat → Option VatomSel | 0 => some .add | 1 => some .min | 2 => some .max | _ => none
def VatomSel.code : VatomSel → Nat | .add => 0 | .min => 1 | .max => 2
def colOf : Nat → Option ColSel
  | 0 => some .allreduce | 1 => some .reducescatter | 2 => some .allgather | 3 => some .alltoall
  | 4 => some .bcast | _ => none
def ColSel.code : ColSel → Nat
  | .allreduce => 0 | .reducescatter => 1 | .allgather => 2 | .alltoall => 3 | .bcast => 4
def rnkOf : Nat → RnkSel
  | 0 => .rank | 1 => .nranks | 2 => .width | 3 => .ngroups | 4 => .step | 5 => .gmemb | 6 => .gpos | _ => .gphase
def RnkSel.code : RnkSel → Nat
  | .rank => 0 | .nranks => 1 | .width => 2 | .ngroups => 3 | .step => 4 | .gmemb => 5 | .gpos => 6 | .gphase => 7
def mmaOf : Nat → Option MmaTy
  | 0 => some .bf16 | 1 => some .f16 | 2 => some .e4m3 | 3 => some .e5m2 | 4 => some .cb4 | _ => none
def MmaTy.code : MmaTy → Nat | .bf16 => 0 | .f16 => 1 | .e4m3 => 2 | .e5m2 => 3 | .cb4 => 4
/-- A rounding field; 6 and 7 are refused before it is read (02 R54). -/
def rndOf : Nat → Rnd | 1 => .rne | 2 => .rtz | 3 => .rup | 4 => .rdn | 5 => .rna | _ => .dflt
def Rnd.code : Rnd → Nat | .dflt => 0 | .rne => 1 | .rtz => 2 | .rup => 3 | .rdn => 4 | .rna => 5
def sidOf : Nat → SidSel | 0 => .row | 1 => .col | 2 => .elem | _ => .const
def SidSel.code : SidSel → Nat | .row => 0 | .col => 1 | .elem => 2 | .const => 3
def lidxOf : Nat → LidxSel | 0 => .row | 1 => .col | 2 => .flat | _ => .diag
def LidxSel.code : LidxSel → Nat | .row => 0 | .col => 1 | .flat => 2 | .diag => 3
def stsOf : Nat → StsSel | 0 => .max | 1 => .sum | _ => .val
def StsSel.code : StsSel → Nat | .max => 0 | .sum => 1 | .val => 2

def bitOf (b : Bool) : BitVec 1 := BitVec.ofBool b
def isOne (b : BitVec 1) : Bool := b == 1

/-! ## Scalar forms shared by CTL, ACS and MOV -/

/-- Destination and two sources; `fn` already judged. -/
def dS3 (lim : Nat) (w : W32) (rsv : Bool) (k : S3 → Instr) : Except Cause Instr :=
  judge rsv false (do
    let d ← dstOf lim (rdF w); let a ← srcOf lim (raF w); let b ← srcOf lim (rbF w)
    pure (k ⟨isOne (nwF w), d, a, b⟩))

/-- The same with fn 0. -/
def dS3z (lim : Nat) (w : W32) (k : S3 → Instr) : Except Cause Instr := dS3 lim w (fnF w != 0) k

/-- CLZ and POPC. -/
def dS2 (lim : Nat) (w : W32) (k : S2 → Instr) : Except Cause Instr :=
  judge (rbF w != 0 || fnF w != 0) false (do
    let d ← dstOf lim (rdF w); let a ← srcOf lim (raF w)
    pure (k ⟨isOne (nwF w), d, a⟩))

/-- Form I whose immediate keeps `n` low bits. -/
def dSI (lim n : Nat) (w : W32) (k : SI n → Instr) : Except Cause Instr :=
  judge false false (do
    let d ← dstOf lim (rdF w); let a ← srcOf lim (raF w)
    pure (k ⟨isOne (nwF w), d, a, w.extractLsb' 0 n⟩))

/-- LDI, LDIH, ALDI, DLDI (02 R45). -/
def dSL (lim : Nat) (w w1 : W32) (k : SL → Instr) : Except Cause Instr :=
  judge (raF w != 0 || immF w != 0) false (do
    let d ← dstOf lim (rdF w)
    pure (k ⟨isOne (nwF w), d, w1⟩))

/-- A load (08 R234, 09 R263). -/
def dLd (lim : Nat) (mov : Bool) (w : W32) (k : SLd → Instr) : Except Cause Instr :=
  let size := sizeOf (w.extractLsb' 8 2).toNat
  let sx := w.getLsbD 10
  if (sx && size == .d) || (mov && (size == .b || size == .h)) then .error .encOp
  else judge false false (do
    let d ← dstOf lim (rdF w); let a ← srcOf lim (raF w)
    pure (k ⟨isOne (nwF w), d, a, sx, size, w.extractLsb' 0 8⟩))

/-- A store (08 R234, 09 R263). -/
def dSt (lim : Nat) (mov : Bool) (w : W32) (k : SSt → Instr) : Except Cause Instr :=
  let size := sizeOf (w.extractLsb' 8 2).toNat
  if w.getLsbD 10 || (mov && (size == .b || size == .h)) then .error .encOp
  else judge (nwF w != 0) false (do
    let d ← srcOf lim (rdF w); let a ← srcOf lim (raF w)
    pure (k ⟨d, a, size, w.extractLsb' 0 8⟩))

/-- BR, ABR, DBR (02 R44). -/
def dBr (lim : Nat) (w : W32) (k : SBr → Instr) : Except Cause Instr :=
  onSel (brOf (condF3 w).toNat) fun c => judge false false (do
    let a ← srcOf lim (rlF w)
    pure (k ⟨c, a, offF w⟩))

/-- JMP and DJMP. -/
def dJmp (w : W32) (k : BitVec 15 → Instr) : Except Cause Instr :=
  judge (condF3 w != 0 || rlF w != 0) false (some (k (offF w)))

/-- Every field zero. -/
def dZero (w : W32) (i : Instr) : Except Cause Instr := judge (w.extractLsb' 0 24 != 0) false (some i)

/-- ALOOP and DLOOP (02 R43). -/
def dLoop (lim : Nat) (w : W32) (k : BitVec 15 → BitVec 8 → Instr) (kr : Src → BitVec 8 → Instr) :
    Except Cause Instr :=
  if w.getLsbD 23 then
    judge (endF w == 0 || w.getLsbD 22 || w.extractLsb' 8 8 != 0) false (do
      let r ← srcOf lim (w.extractLsb' 16 6)
      pure (kr r (endF w)))
  else judge (endF w == 0) false (some (k (w.extractLsb' 8 15) (endF w)))

/-- Own slot and predecessors from the first word and CONT (07 R208). -/
def toksOf (w w1 : W32) : Toks := ⟨rdF w, raF w, rbF w, w1.extractLsb' 0 6⟩

/-! ## CTL (02 R59, 08 R227, 06 R180) -/

/-- Is a CTL opcode two-lane. -/
def ctlWide (op : Nat) : Bool :=
  op == 0x13 || op == 0x14 || op == 0x1F || op == 0x24 || op == 0x28 || op == 0x2B

/-- ATOM and ATOM.det (08 R237, R238). -/
def dAtom (w : W32) : Except Cause Instr :=
  onSel (atomOf (w.extractLsb' 0 4).toNat) fun op =>
    if w.getLsbD 4 then judge (nwF w != 0) false (do
      let r ← srcOf 48 (rdF w); let a ← srcOf 48 (raF w); let b ← srcOf 48 (rbF w)
      pure (.atomDet op r a b))
    else dS3 48 w false (.atom op)

/-- CAS and CAS.det (08 R227, R238). -/
def dCas (w w1 : W32) : Except Cause Instr :=
  if w.extractLsb' 0 4 != 0 then .error .encOp
  else if w.getLsbD 4 then judge (nwF w != 0 || w1.extractLsb' 6 26 != 0) false (do
    let r ← srcOf 48 (rdF w); let a ← srcOf 48 (raF w); let b ← srcOf 48 (rbF w)
    let c ← srcOf 48 (w1.extractLsb' 0 6)
    pure (.casDet r a b c))
  else judge (w1.extractLsb' 6 26 != 0) false (do
    let d ← dstOf 48 (rdF w); let a ← srcOf 48 (raF w); let b ← srcOf 48 (rbF w)
    let c ← srcOf 48 (w1.extractLsb' 0 6)
    pure (.cas ⟨isOne (nwF w), d, a, b⟩ c))

/-- SUSP and SUSP.end (08 R242, R243). -/
def dSusp (w w1 : W32) : Except Cause Instr :=
  let rsv := nwF w != 0 || rdF w != 0 || fnF w != 0
  if raF w = 0 then judge (rsv || rbF w != 0 || w1 != 0) false (some .suspEnd)
  else judge rsv false (do
    let a ← srcOf 48 (raF w); let b ← srcOf 48 (rbF w)
    pure (.susp a b w1))

/-- MXMMA (06 R180). -/
def dMxmma (w w1 : W32) : Except Cause Instr :=
  let rnd := (w.extractLsb' 2 3).toNat
  if nwF w != 0 || 5 < rnd then .error .encRsv
  else match mmaOf (w1.extractLsb' 26 3).toNat, mmaOf (w1.extractLsb' 29 3).toNat with
    | some a, some b =>
      if (Machine.pairKS a.ety b.ety).isSome then
        .ok (.mxmma ⟨toksOf w w1, w.getLsbD 0, w.getLsbD 1, rndOf rnd, w1.extractLsb' 6 4, w1.extractLsb' 10 5,
          w1.extractLsb' 15 5, w1.extractLsb' 20 6, a, b⟩)
      else .error .encType
    | _, _ => .error .encType

/-- CTL's words. -/
def decodeCtl (w w1 : W32) : Except Cause Instr :=
  match (opF w).toNat with
  | 0x01 => dS3z 48 w .add
  | 0x02 => dSI 48 11 w .addi
  | 0x03 => dS3z 48 w .sub
  | 0x04 => onSel (mulOf (fnF w).toNat) fun f => dS3 48 w false (.mul f)
  | 0x05 => onSel (divOf (fnF w).toNat) fun f => dS3 48 w false (.div f)
  | 0x06 => dS3z 48 w .and
  | 0x07 => dS3z 48 w .or
  | 0x08 => dS3z 48 w .xor
  | 0x09 => onSel (logOf (w.extractLsb' 9 2).toNat) fun f => dSI 48 9 w (.logi f)
  | 0x0A => onSel (shOf (fnF w).toNat) fun f => dS3 48 w false (.shf f)
  | 0x0B => onSel (shOf (w.extractLsb' 6 5).toNat) fun f => dSI 48 6 w (.shfi f)
  | 0x0C => onSel (cmpOf (fnF w).toNat) fun f => dS3 48 w false (.cmp f)
  | 0x0D => onSel (cmpOf (w.extractLsb' 8 3).toNat) fun f => dSI 48 8 w (.cmpi f)
  | 0x0E => dS3z 48 w .sel
  | 0x0F => onSel (ashOf (fnF w).toNat) fun u => dS3 48 w false (.min u)
  | 0x10 => onSel (ashOf (fnF w).toNat) fun u => dS3 48 w false (.max u)
  | 0x11 => dS2 48 w .clz
  | 0x12 => dS2 48 w .popc
  | 0x13 => dSL 48 w w1 .ldi
  | 0x14 => dSL 48 w w1 .ldih
  | 0x15 => dBr 48 w .br
  | 0x16 => dJmp w .jmp
  | 0x17 => judge (condF3 w != 0) false (do let d ← dstOf 48 (rlF w); pure (.jal d (offF w)))
  | 0x18 => judge (nwF w != 0 || rdF w != 0 || rbF w != 0 || fnF w != 0) false
      (do let a ← srcOf 48 (raF w); pure (.jr a))
  | 0x19 => judge (nwF w != 0 || w.extractLsb' 15 2 != 0 || offF w == 0) false
      (do let a ← srcOf 48 (rdF w); pure (.loop a (offF w)))
  | 0x1A => judge (endF w == 0) false (some (.loopi (cntF w) (endF w)))
  | 0x1B => dZero w .brkl
  | 0x1C => dLd 48 false w .ld
  | 0x1D => dSt 48 false w .st
  | 0x1E => dAtom w
  | 0x1F => dCas w w1
  | 0x20 => judge (w.extractLsb' 5 19 != 0 || fnF w == 0) false (some (.mark (fnF w)))
  | 0x21 => dZero w .join
  | 0x22 => judge (condF3 w == 0 || rlF w != 0) false (some (.fork (condF3 w) (offF w)))
  | 0x23 => judge (w.extractLsb' 4 20 != 0) false (some (.rdv (w.extractLsb' 0 4)))
  | 0x24 => dSusp w w1
  | 0x25 => dZero w .trig
  | 0x26 => judge (raF w != 0 || w.extractLsb' 9 2 != 0 || (w.getLsbD 8 && w.extractLsb' 0 8 != 0)) false
      (do let d ← dstOf 48 (rdF w); pure (.barv (isOne (nwF w)) d (w.getLsbD 8) (w.extractLsb' 0 8)))
  | 0x27 =>
    if 8 ≤ (rdF w).toNat then .error .encRsv
    else if mxFieldCount ((rdF w).extractLsb' 0 3) ≤ (immF w).toNat then .error .encOp
    else judge (nwF w != 0) false
      (do let a ← srcOf 48 (raF w); pure (.mxcfg ((rdF w).extractLsb' 0 3) (fnF w) a))
  | 0x28 => judge (nwF w != 0 || fnF w != 0 || w1.extractLsb' 6 26 != 0) false (some (.mxgo (toksOf w w1)))
  | 0x29 => judge (w.extractLsb' 5 19 != 0) false (some (.mxclm (fnF w)))
  | 0x2A => judge (w.extractLsb' 5 19 != 0) false (some (.mxrel (fnF w)))
  | 0x2B => dMxmma w w1
  | 0x2C => judge (nwF w != 0 || rdF w != 0 || w.extractLsb' 8 3 != 0) false
      (do let a ← srcOf 48 (raF w); pure (.tidw (w.extractLsb' 0 8) a))
  | 0x2D =>
    if sysRegOk (immF w) then judge (raF w != 0) false
      (do let d ← dstOf 48 (rdF w); pure (.mfsr (isOne (nwF w)) d (immF w)))
    else .error .encOp
  | 0x2E =>
    if sysRegOk (immF w) then judge (nwF w != 0 || rdF w != 0) false
      (do let a ← srcOf 48 (raF w); pure (.mtsr (immF w) a))
    else .error .encOp
  | 0x2F => judge (w.extractLsb' 11 13 != 0) false (some (.trap (immF w)))
  | 0x30 => onSel (ashOf (fnF w).toNat) fun u =>
      judge (w.extractLsb' 5 19 != 0) false (some (if u then .rftU else .rft))
  | 0x31 => dZero w .chkpt
  | 0x32 => dZero w .nop
  | _ => .error .encOp

/-! ## ACS (02 R60, 05 R133) -/

/-- Is an ACS opcode two-lane. -/
def acsWide (op : Nat) : Bool := op == 0x06

/-- A record, queue or index number in a 6-bit field (05 R133). -/
def numOf (lim : Nat) (c : BitVec 6) : Option (BitVec 6) := if c.toNat < lim then some c else none

/-- SIDX (05 R133, R137). -/
def dSidx (w : W32) : Except Cause Instr :=
  let rsv := nwF w != 0 || rbF w != 0
  match (fnF w).toNat with
  | 0 => judge (rsv || raF w != 0) false (do
      let m ← numOf 16 (rdF w); pure (.sidx (m.extractLsb' 0 4) .none))
  | 1 => judge rsv false (do
      let m ← numOf 16 (rdF w); let q ← numOf 8 (raF w)
      pure (.sidx (m.extractLsb' 0 4) (.lq (q.extractLsb' 0 3))))
  | 2 => judge rsv false (do
      let m ← numOf 16 (rdF w); let p ← numOf 16 (raF w)
      pure (.sidx (m.extractLsb' 0 4) (.p (p.extractLsb' 0 4))))
  | _ => .error .encOp

/-- ACS's words. -/
def decodeAcs (w w1 : W32) : Except Cause Instr :=
  match (opF w).toNat with
  | 0x01 => dS3z 32 w .aadd
  | 0x02 => dSI 32 11 w .aaddi
  | 0x03 => dS3z 32 w .asub
  | 0x04 => dS3z 32 w .amul
  | 0x05 => onSel (ashOf (w.extractLsb' 6 5).toNat) fun r => dSI 32 6 w (.ashfi r)
  | 0x06 => dSL 32 w w1 .aldi
  | 0x07 => dBr 32 w .abr
  | 0x08 => dLoop 32 w .aloop .aloopReg
  | 0x09 =>
    if 20 < (immF w).toNat then .error .encOp
    else judge (nwF w != 0) false (do
      let p ← numOf 16 (rdF w); let a ← srcOf 32 (raF w)
      pure (.spw (p.extractLsb' 0 4) (fnF w) a))
  | 0x0A => judge (nwF w != 0 || rbF w != 0 || fnF w != 0) false (do
      let q ← numOf 8 (rdF w); let p ← numOf 16 (raF w)
      pure (.sload (q.extractLsb' 0 3) (p.extractLsb' 0 4)))
  | 0x0B => judge (nwF w != 0 || rbF w != 0 || fnF w != 0) false (do
      let q ← numOf 4 (rdF w); let p ← numOf 16 (raF w)
      pure (.sstore (q.extractLsb' 0 2) (p.extractLsb' 0 4)))
  | 0x0C => dSidx w
  | 0x0D => dZero w .amark
  | 0x0E => dZero w .asusp
  | 0x0F => judge (nwF w != 0 || rdF w != 0 || rbF w != 0 || fnF w != 0) false (do
      let p ← numOf 16 (raF w); pure (.aqres (p.extractLsb' 0 4)))
  | 0x10 => dZero w .anop
  | _ => .error .encOp

/-! ## VEC (02 R50 to R54, R61; 05 R144 to R166) -/

def vTy (a : W32) : BitVec 4 := a.extractLsb' 20 4
def vVd (a : W32) : BitVec 8 := a.extractLsb' 12 8
def vVa (a : W32) : BitVec 8 := a.extractLsb' 4 8
def vM (a : W32) : BitVec 4 := a.extractLsb' 0 4
def vVb (b : W32) : BitVec 8 := b.extractLsb' 24 8
def vVc (b : W32) : BitVec 8 := b.extractLsb' 16 8
def vNw (b : W32) : BitVec 1 := b.extractLsb' 15 1
def vRnd (b : W32) : BitVec 3 := b.extractLsb' 12 3
def vSat (b : W32) : BitVec 1 := b.extractLsb' 11 1
def vSub (b : W32) : BitVec 3 := b.extractLsb' 8 3
def vImm (b : W32) : BitVec 8 := b.extractLsb' 0 8
/-- The signed line offset of VBRM and VJMP, and VLOOP's count. -/
def vHi (b : W32) : BitVec 16 := b.extractLsb' 16 16

/-- Lane A as a word. -/
def packVA (op : BitVec 8) (ty : BitVec 4) (vd va : BitVec 8) (m : BitVec 4) : W32 := op ++ ty ++ vd ++ va ++ m
/-- Lane B as a word. -/
def packVB (vb vc : BitVec 8) (nw : BitVec 1) (rnd : BitVec 3) (sat : BitVec 1) (sub : BitVec 3) (imm : BitVec 8) :
    W32 := vb ++ vc ++ nw ++ rnd ++ sat ++ sub ++ imm

/-- A vector source (02 R51). -/
def vsrcOf (c : BitVec 8) : Option VOp :=
  if c.toNat < 192 then some (.v c)
  else if c.toNat < 200 then some (.lq (c.extractLsb' 0 3))
  else if c.toNat < 204 then none
  else if c.toNat < 208 then some (.b (c.extractLsb' 0 2))
  else none

/-- A vector destination (02 R51). -/
def vdstOf (c : BitVec 8) : Option VOp :=
  if c.toNat < 192 then some (.v c)
  else if 200 ≤ c.toNat ∧ c.toNat < 204 then some (.sq (c.extractLsb' 0 2))
  else none

/-- The code of a vector operand. -/
def VOp.code : VOp → BitVec 8
  | .v n => n
  | .lq n => (24 : BitVec 5) ++ n
  | .sq n => (50 : BitVec 6) ++ n
  | .b n => (51 : BitVec 6) ++ n

/-- A mask destination in a field of 8 bits: m0 and a nonzero upper half are refused (02 R52). -/
def mdOf (c : BitVec 8) : Option (BitVec 4) :=
  if c.toNat = 0 ∨ 16 ≤ c.toNat then none else some (c.extractLsb' 0 4)

/-- Which fields of Form V an instruction uses (02 R50). -/
structure VUse where
  vd : Bool := false
  va : Bool := false
  m : Bool := false
  vb : Bool := false
  vc : Bool := false
  nw : Bool := false
  rnd : Bool := false
  sat : Bool := false
  sub : Bool := false
  imm : Bool := false
deriving DecidableEq, Repr

/-- A reserved field is nonzero, or rnd is 6 or 7 (02 R50, R54). -/
def vRsv (u : VUse) (a b : W32) : Bool :=
  (!u.vd && vVd a != 0) || (!u.va && vVa a != 0) || (!u.m && vM a != 0) || (!u.vb && vVb b != 0)
    || (!u.vc && vVc b != 0) || (!u.nw && vNw b != 0) || (if u.rnd then 5 < (vRnd b).toNat else vRnd b != 0)
    || (!u.sat && vSat b != 0) || (!u.sub && vSub b != 0) || (!u.imm && vImm b != 0)

/-- Reserved fields, then the type, then the operand codes (02 R64). -/
def vJudge (rsv : Bool) (tys : ETy → Bool) (a : W32) (k : ETy → Option Instr) : Except Cause Instr :=
  if rsv then .error .encRsv
  else match tyOf (vTy a).toNat with
    | none => .error .encType
    | some t =>
      if tys t then (match k t with | some i => .ok i | none => .error .encReg)
      else .error .encType

/-- The rounding of lane B. -/
def vRndOf (b : W32) : Rnd := rndOf (vRnd b).toNat

def dVUr (tys : ETy → Bool) (a b : W32) (k : VUr → Instr) : Except Cause Instr :=
  vJudge (vRsv { vd := true, va := true, m := true, nw := true, rnd := true, sat := true } a b) tys a fun t => do
    let vd ← vdstOf (vVd a); let va ← vsrcOf (vVa a)
    pure (k ⟨t, vd, va, vM a, isOne (vNw b), vRndOf b, isOne (vSat b)⟩)

def dVBr (tys : ETy → Bool) (a b : W32) (k : VBr → Instr) : Except Cause Instr :=
  vJudge (vRsv { vd := true, va := true, m := true, vb := true, nw := true, rnd := true, sat := true } a b)
    tys a fun t => do
    let vd ← vdstOf (vVd a); let va ← vsrcOf (vVa a); let vb ← vsrcOf (vVb b)
    pure (k ⟨t, vd, va, vb, vM a, isOne (vNw b), vRndOf b, isOne (vSat b)⟩)

def dVTr (tys : ETy → Bool) (a b : W32) (k : VTr → Instr) : Except Cause Instr :=
  vJudge (vRsv { vd := true, va := true, m := true, vb := true, vc := true, nw := true, rnd := true, sat := true }
    a b) tys a fun t => do
    let vd ← vdstOf (vVd a); let va ← vsrcOf (vVa a); let vb ← vsrcOf (vVb b); let vc ← vsrcOf (vVc b)
    pure (k ⟨t, vd, va, vb, vc, vM a, isOne (vNw b), vRndOf b, isOne (vSat b)⟩)

def dVU (tys : ETy → Bool) (a b : W32) (k : VU → Instr) : Except Cause Instr :=
  vJudge (vRsv { vd := true, va := true, m := true, nw := true } a b) tys a fun t => do
    let vd ← vdstOf (vVd a); let va ← vsrcOf (vVa a)
    pure (k ⟨t, vd, va, vM a, isOne (vNw b)⟩)

/-- Two sources; sub and imm8 as `u` says. -/
def dVB' (u : VUse) (tys : ETy → Bool) (a b : W32) (k : VB → Instr) : Except Cause Instr :=
  vJudge (vRsv { u with vd := true, va := true, m := true, vb := true, nw := true } a b) tys a fun t => do
    let vd ← vdstOf (vVd a); let va ← vsrcOf (vVa a); let vb ← vsrcOf (vVb b)
    pure (k ⟨t, vd, va, vb, vM a, isOne (vNw b)⟩)

def dVB (tys : ETy → Bool) (a b : W32) (k : VB → Instr) : Except Cause Instr := dVB' {} tys a b k

def dVBs (a b : W32) (k : VBs → Instr) : Except Cause Instr :=
  vJudge (vRsv { vd := true, va := true, m := true, vb := true, nw := true, sat := true } a b) isInt a fun t => do
    let vd ← vdstOf (vVd a); let va ← vsrcOf (vVa a); let vb ← vsrcOf (vVb b)
    pure (k ⟨t, vd, va, vb, vM a, isOne (vNw b), isOne (vSat b)⟩)

/-- VCVT (05 R146). -/
def dVcvt (a b : W32) : Except Cause Instr :=
  let rsv := vRsv { vd := true, va := true, m := true, nw := true, rnd := true, sat := true, sub := true, imm := true }
    a b || b.extractLsb' 4 4 != 0
  let d := tyOf (vTy a).toNat
  let s := tyOf (b.extractLsb' 0 4).toNat
  let part := (vSub b).toNat
  let badPart := match d, s with
    | some d, some s => Machine.cvtOk d s && decide (cvtParts d s ≤ part)
    | _, _ => false
  if badPart then .error .encOp
  else if rsv then .error .encRsv
  else match d, s with
    | some d, some s =>
      if Machine.cvtOk d s then judge false false (do
        let vd ← vdstOf (vVd a); let va ← vsrcOf (vVa a)
        pure (.vcvt ⟨d, s, vd, va, vM a, isOne (vNw b), vRndOf b, isOne (vSat b), vSub b⟩))
      else .error .encType
    | _, _ => .error .encType

/-- VCBX and VCBQ (05 R147, R148). -/
def dVcb (quant : Bool) (a b : W32) : Except Cause Instr :=
  let wide := quant && b.getLsbD 4
  let rsv := vRsv { vd := true, va := true, m := true, nw := true, sub := true, imm := true } a b
    || b.extractLsb' 5 3 != 0 || (!quant && b.getLsbD 4)
  if !wide && decide (4 ≤ (vSub b).toNat) then .error .encOp
  else vJudge rsv (fun t => t == if quant then .cb4 else .bf16) a fun _ => do
    let vd ← vdstOf (vVd a); let va ← vsrcOf (vVa a)
    let o : VCbOps := ⟨vd, va, b.extractLsb' 0 4, wide, vSub b, vM a, isOne (vNw b)⟩
    pure (if quant then .vcbq o else .vcbx o)

/-- VLDX (05 R149). -/
def dVldx (a b : W32) : Except Cause Instr :=
  vJudge (vRsv { vd := true, va := true, m := true, nw := true, rnd := true, sat := true, imm := true } a b)
    isFloat a fun t => do
    let vd ← vdstOf (vVd a); let va ← vsrcOf (vVa a)
    pure (.vldx ⟨⟨t, vd, va, vM a, isOne (vNw b), vRndOf b, isOne (vSat b)⟩, vImm b⟩)

/-- The type sub names in VDOT, t itself for 0 (05 R150). -/
def dotTy (t : ETy) (sub : Nat) : ETy :=
  match sub with
  | 0 => t | 1 => .bf16 | 2 => .f16 | 3 => .e4m3 | 4 => .e5m2 | _ => .cb4

/-- VDOT (05 R150). -/
def dVdot (a b : W32) : Except Cause Instr :=
  let sub := (vSub b).toNat
  let cb := (vTy a).toNat == 5
  let u : VUse := { vd := true, va := true, m := true, vb := true, vc := true, nw := true, rnd := true, sub := true }
  let rsv := vRsv { u with imm := cb } a b
  if 5 < sub then .error .encOp
  else vJudge rsv (fun t => dotPair t (dotTy t sub)) a fun t => do
    let vd ← vdstOf (vVd a); let va ← vsrcOf (vVa a); let vb ← vsrcOf (vVb b); let vc ← vsrcOf (vVc b)
    pure (.vdot ⟨t, dotTy t sub, vd, va, vb, vc, b.extractLsb' 4 4, b.extractLsb' 0 4, vM a, isOne (vNw b), vRndOf b⟩)

/-- VRED (05 R151): rnd for a floating sum, sat for any sum. -/
def dVred (a b : W32) : Except Cause Instr :=
  onSel (redOf (vSub b).toNat) fun op =>
    let sum : Bool := op == .sum
    let flo : Bool := decide ((vTy a).toNat < 6)
    vJudge (vRsv { vd := true, va := true, m := true, nw := true, sub := true, rnd := sum && flo, sat := sum } a b)
      redTy a fun t => do
      let vd ← vdstOf (vVd a); let va ← vsrcOf (vVa a)
      pure (.vred ⟨op, ⟨t, vd, va, vM a, isOne (vNw b), vRndOf b, isOne (vSat b)⟩⟩)

/-- VSCAN.sum (05 R151). -/
def dVscan (a b : W32) : Except Cause Instr :=
  if vSub b != 0 then .error .encOp
  else vJudge (vRsv { vd := true, va := true, m := true, nw := true, rnd := decide ((vTy a).toNat < 6), sat := true } a b)
    redTy a fun t => do
    let vd ← vdstOf (vVd a); let va ← vsrcOf (vVa a)
    pure (.vscan ⟨t, vd, va, vM a, isOne (vNw b), vRndOf b, isOne (vSat b)⟩)

/-- VCMP (05 R152). -/
def dVcmp (a b : W32) : Except Cause Instr :=
  onSel (vcondOf (vSub b).toNat) fun c =>
    vJudge (vRsv { vd := true, va := true, m := true, vb := true, sub := true } a b) (fun t => t != .cb4) a fun t => do
      let md ← mdOf (vVd a); let va ← vsrcOf (vVa a); let vb ← vsrcOf (vVb b)
      pure (.vcmp ⟨c, t, md, va, vb, vM a⟩)

/-- VCLS (05 R154). -/
def dVcls (a b : W32) : Except Cause Instr :=
  vJudge (vRsv { vd := true, va := true, m := true, sub := true, imm := true } a b || b.extractLsb' 9 2 != 0)
    isFloat a fun t => do
    let md ← mdOf (vVd a); let va ← vsrcOf (vVa a)
    pure (.vcls ⟨t, md, va, b.extractLsb' 8 1 ++ vImm b, vM a⟩)

/-- MLOG (05 R155). -/
def dMlog (a b : W32) : Except Cause Instr :=
  onSel (mlogOf (vSub b).toNat) fun op =>
    judge (vRsv { vd := true, va := true, m := true, vb := true, sub := true } a b || vTy a != 0
      || a.extractLsb' 8 4 != 0 || b.extractLsb' 28 4 != 0) false (do
      let md ← mdOf (vVd a)
      pure (.mlog ⟨op, md, a.extractLsb' 4 4, b.extractLsb' 24 4, vM a⟩))

/-- MPOP (05 R155). -/
def dMpop (a b : W32) : Except Cause Instr :=
  vJudge (vRsv { vd := true, va := true, m := true, nw := true } a b || a.extractLsb' 8 4 != 0)
    (fun t => t == .i32) a fun _ => do
    let vd ← vdstOf (vVd a)
    pure (.mpop ⟨vd, a.extractLsb' 4 4, vM a, isOne (vNw b)⟩)

/-- VBCST (05 R158). -/
def dVbcst (a b : W32) : Except Cause Instr :=
  let t := tyOf (vTy a).toNat
  if vVa a = 0 then
    let big := match t with
      | some t => decide (tyBits t < 32 ∧ 2 ^ tyBits t ≤ b.toNat)
      | none => false
    vJudge big anyTy a fun t => do
      let vd ← vdstOf (vVd a)
      pure (.vbcst ⟨t, vd, b, vM a⟩)
  else
    let out := match t with
      | some t => decide (elems t ≤ (b.extractLsb' 0 13).toNat)
      | none => false
    vJudge (b.extractLsb' 13 19 != 0 || out) anyTy a fun t => do
      let vd ← vdstOf (vVd a); let va ← vsrcOf (vVa a)
      pure (.vbcstElem ⟨t, vd, va, b.extractLsb' 0 13, vM a⟩)

/-- VIOTA (05 R159). -/
def dViota (a b : W32) : Except Cause Instr :=
  vJudge (vVa a != 0) (fun t => t == .i32) a fun _ => do
    let vd ← vdstOf (vVd a)
    pure (.viota ⟨vd, b, vM a⟩)

/-- VPERM (05 R160). -/
def dVperm (a b : W32) : Except Cause Instr :=
  let bad := match tyOf (vTy a).toNat with
    | some t => decide (elems t / permElems t ≤ (vSub b).toNat)
    | none => false
  if bad then .error .encOp
  else dVB' { sub := true } anyTy a b fun o => .vperm ⟨o, vSub b⟩

/-- VCMPRS (05 R162). -/
def dVcmprs (a b : W32) : Except Cause Instr :=
  if 1 < (vSub b).toNat then .error .encOp
  else vJudge (vRsv { vd := true, va := true, vc := true, sub := true } a b || b.extractLsb' 20 4 != 0) packTy a
    fun t => do
    let vd ← vdstOf (vVd a); let va ← vsrcOf (vVa a); let md ← mdOf (vVc b)
    pure (.vcmprs ⟨t, vd, md, va, b.extractLsb' 8 1⟩)

/-- VXPND (05 R163). -/
def dVxpnd (a b : W32) : Except Cause Instr :=
  if 1 < (vSub b).toNat then .error .encOp
  else vJudge (vRsv { vd := true, va := true, m := true, vb := true, nw := true, sub := true } a b
      || b.extractLsb' 28 4 != 0) packTy a fun t => do
    let vd ← vdstOf (vVd a); let va ← vsrcOf (vVa a)
    pure (.vxpnd ⟨t, vd, va, b.extractLsb' 24 4, b.extractLsb' 8 1, vM a, isOne (vNw b)⟩)

/-- VRNG (05 R164). -/
def dVrng (a b : W32) : Except Cause Instr :=
  vJudge (vRsv { vd := true, va := true, m := true, vb := true, nw := true, imm := true } a b)
    (fun t => t == .n32) a fun _ => do
    let vd ← vdstOf (vVd a); let va ← vsrcOf (vVa a)
    pure (.vrng ⟨vd, va, vVb b, vImm b, vM a, isOne (vNw b)⟩)

/-- VATOM (05 R165). -/
def dVatom (a b : W32) : Except Cause Instr :=
  onSel (vatomOf (vSub b).toNat) fun op =>
    vJudge (vRsv { va := true, m := true, vb := true, sub := true } a b) (fun t => t == .i32) a fun _ => do
      let va ← vsrcOf (vVa a); let vb ← vsrcOf (vVb b)
      pure (.vatom ⟨op, va, vb, vM a⟩)

/-- VBRM (05 R166). -/
def dVbrm (a b : W32) : Except Cause Instr :=
  onSel (ashOf (vSub b).toNat) fun n =>
    judge (a.extractLsb' 4 20 != 0 || b.extractLsb' 11 5 != 0 || vImm b != 0) false (some (.vbrm n (vM a) (vHi b)))

/-- VEC's words: lane A and lane B. -/
def decodeVec (a b : W32) : Except Cause Instr :=
  match (opF a).toNat with
  | 0x01 => dVBr isFloat a b .vadd
  | 0x02 => dVBr isFloat a b .vsub
  | 0x03 => dVBr isFloat a b .vmul
  | 0x04 => dVTr isFloat a b .vfma
  | 0x05 => dVTr isFloat a b .vfms
  | 0x06 => dVTr isFloat a b .vfnma
  | 0x07 => dVB isFloat a b .vmax
  | 0x08 => dVB isFloat a b .vmin
  | 0x09 => dVU isFloat a b .vabs
  | 0x0A => dVU isFloat a b .vneg
  | 0x0B => dVBr isFloat a b .vdiv
  | 0x0C => dVUr isFloat a b .vsqrt
  | 0x0D => dVUr isFloat a b .vrcp
  | 0x0E => dVUr isFloat a b .vrsq
  | 0x0F => dVUr isFloat a b .vexp
  | 0x10 => dVUr isFloat a b .vexp2
  | 0x11 => dVUr isFloat a b .vln
  | 0x12 => dVUr isFloat a b .vlog2
  | 0x13 => dVUr isFloat a b .vtanh
  | 0x14 => dVUr isFloat a b .vsigm
  | 0x15 => dVUr isFloat a b .verf
  | 0x16 => dVUr isFloat a b .vsin
  | 0x17 => dVUr isFloat a b .vcos
  | 0x18 => dVcvt a b
  | 0x19 => dVcb false a b
  | 0x1A => dVcb true a b
  | 0x1B => dVldx a b
  | 0x1C => dVdot a b
  | 0x1D => dVred a b
  | 0x1E => dVscan a b
  | 0x1F => dVcmp a b
  | 0x20 => dVB anyTy a b .vsel
  | 0x21 => dVcls a b
  | 0x22 => dMlog a b
  | 0x23 => dMpop a b
  | 0x24 => dVBs a b .viadd
  | 0x25 => dVBs a b .visub
  | 0x26 => dVBs a b .vimul
  | 0x27 => dVB isInt a b .vimin
  | 0x28 => dVB isInt a b .vimax
  | 0x29 => dVB isInt a b .vand
  | 0x2A => dVB isInt a b .vor
  | 0x2B => dVB isInt a b .vxor
  | 0x2C => onSel (shOf (vSub b).toNat) fun f => dVB' { sub := true } isInt a b fun o => .vshf ⟨f, o⟩
  | 0x2D => dVU anyTy a b .vmov
  | 0x2E => dVbcst a b
  | 0x2F => dViota a b
  | 0x30 => dVperm a b
  | 0x31 => dVB' { imm := true } anyTy a b fun o => .vslide ⟨o, vImm b⟩
  | 0x32 => dVcmprs a b
  | 0x33 => dVxpnd a b
  | 0x34 => dVrng a b
  | 0x35 => dVatom a b
  | 0x36 => judge (a.extractLsb' 0 24 != 0 || b.extractLsb' 8 8 != 0 || vImm b == 0) false
      (some (.vloop (vHi b) (vImm b)))
  | 0x37 => dVbrm a b
  | 0x38 => judge (a.extractLsb' 0 24 != 0 || b != 0) false (some .vsusp)
  | 0x39 => judge (a.extractLsb' 0 24 != 0 || b.extractLsb' 0 16 != 0) false (some (.vjmp (vHi b)))
  | 0x3A => judge (a.extractLsb' 0 24 != 0 || b != 0) false (some .vnop)
  | _ => .error .encOp

/-! ## MOV (02 R62, 09) -/

/-- Is a MOV opcode two-lane. -/
def movWide (op : Nat) : Bool :=
  op == 0x07 || op == 0x0E || op == 0x0F || op == 0x10 || op == 0x16 || op == 0x17 || op == 0x18 || op == 0x19

/-- The arrival register of a copy (09 R277). -/
def arriveOf (w : W32) : Option (BitVec 4) := if w.getLsbD 4 then some (w.extractLsb' 0 4) else none
/-- A copy's first-word reserved bits: nw, and fn[3:0] when AE = 0 (09 R277). -/
def copyRsv (w : W32) : Bool := nwF w != 0 || (!w.getLsbD 4 && w.extractLsb' 0 4 != 0)

/-- FST and FLD (09 R281). -/
def dXfer (w w1 : W32) (k : XferOps → Instr) : Except Cause Instr :=
  judge (nwF w != 0 || fnF w != 0 || w1.extractLsb' 26 6 != 0) false
    (some (k ⟨toksOf w w1, w1.extractLsb' 6 5, w1.extractLsb' 11 5, w1.extractLsb' 16 5, w1.extractLsb' 21 5⟩))

/-- FATM (09 R283). -/
def dFatm (w w1 : W32) : Except Cause Instr :=
  onSel (atomOf (w.extractLsb' 0 4).toNat) fun op =>
    judge (nwF w != 0 || w1.extractLsb' 21 11 != 0) false
      (some (.fatm ⟨toksOf w w1, op, w.getLsbD 4, w1.extractLsb' 6 5, w1.extractLsb' 11 5, w1.extractLsb' 16 5⟩))

/-- FCOL (09 R284). -/
def dFcol (w w1 : W32) : Except Cause Instr :=
  onSel (colOf (w.extractLsb' 0 3).toNat) fun op =>
    onSel (redOf (w.extractLsb' 3 2).toNat) fun red =>
      judge (nwF w != 0 || w1.extractLsb' 30 2 != 0
        || (red != .sum && op != .allreduce && op != .reducescatter)) false
        (some (.fcol ⟨toksOf w w1, op, red, w1.extractLsb' 6 8, w1.extractLsb' 14 8, w1.extractLsb' 22 8⟩))

/-- MOV's words. -/
def decodeMov (w w1 : W32) : Except Cause Instr :=
  match (opF w).toNat with
  | 0x01 => dS3z 32 w .dadd
  | 0x02 => dSI 32 11 w .daddi
  | 0x03 => dS3z 32 w .dsub
  | 0x04 => dS3z 32 w .dmul
  | 0x05 => onSel (shOf (w.extractLsb' 6 5).toNat) fun f => dSI 32 6 w (.dshfi f)
  | 0x06 => onSel (logOf (w.extractLsb' 9 2).toNat) fun f => dSI 32 9 w (.dlogi f)
  | 0x07 => dSL 32 w w1 .dldi
  | 0x08 => onSel (cmpOf (fnF w).toNat) fun f => dS3 32 w false (.dcmp f)
  | 0x09 => dBr 32 w .dbr
  | 0x0A => dJmp w .djmp
  | 0x0B => dLoop 32 w .dloop .dloopReg
  | 0x0C => dLd 32 true w .dld
  | 0x0D => dSt 32 true w .dst
  | 0x0E => judge (copyRsv w) false (some (.copy ⟨toksOf w w1, arriveOf w, w1.extractLsb' 6 8, w1.extractLsb' 14 8,
      w1.extractLsb' 22 5, w1.extractLsb' 27 5⟩))
  | 0x0F => judge (copyRsv w || w1.extractLsb' 14 8 != 0) false (some (.copys ⟨toksOf w w1, arriveOf w,
      w1.extractLsb' 6 8, w1.extractLsb' 22 5, w1.extractLsb' 27 5⟩))
  | 0x10 => judge (copyRsv w || w1.extractLsb' 11 3 != 0 || w1.extractLsb' 27 5 != 0) false
      (some (.copyo ⟨toksOf w w1, arriveOf w, w1.extractLsb' 6 5, w1.extractLsb' 14 8, w1.extractLsb' 22 5⟩))
  | 0x11 => judge (nwF w != 0 || rdF w != 0 || w.extractLsb' 4 7 != 0 || (w.getLsbD 3 && raF w != 0)) false
      (if w.getLsbD 3 then some (.cringSelect (w.extractLsb' 0 3))
       else do let a ← srcOf 32 (raF w); pure (.cring (w.extractLsb' 0 3) a))
  | 0x12 => dZero w .batch
  | 0x13 => judge (condF3 w != 0) false (some (.suspb (rlF w) (offF w)))
  | 0x14 => judge (nwF w != 0 || rdF w != 0 || fnF w != 0) false
      (do let a ← srcOf 32 (raF w); let b ← srcOf 32 (rbF w); pure (.expct a b))
  | 0x15 => judge (nwF w != 0 || rdF w != 0 || fnF w != 0) false
      (do let a ← srcOf 32 (raF w); let b ← srcOf 32 (rbF w); pure (.arrv a b))
  | 0x16 => dXfer w w1 .fst
  | 0x17 => dXfer w w1 .fld
  | 0x18 => dFatm w w1
  | 0x19 => dFcol w w1
  | 0x1A => judge (nwF w != 0 || fnF w != 0) false
      (do let p ← srcOf 32 (rdF w); let c ← srcOf 32 (raF w); let m ← srcOf 32 (rbF w); pure (.bwls p c m))
  | 0x1B => judge (nwF w != 0 || fnF w != 0 || rbF w != 0) false
      (do let p ← srcOf 32 (rdF w); let c ← srcOf 32 (raF w); pure (.bwrl p c))
  | 0x1C => judge (nwF w != 0 || fnF w != 0 || rbF w != 0 || rdF w != 0) false
      (do let a ← srcOf 32 (raF w); pure (.bwsl a))
  | 0x1D => judge (nwF w != 0 || rdF w != 0 || w.extractLsb' 8 3 != 0) false
      (do let a ← srcOf 32 (raF w); pure (.grped (w.extractLsb' 0 8) a))
  | 0x1E =>
    let f := rnkOf (w.extractLsb' 8 3).toNat
    judge (raF w != 0 || ((w.extractLsb' 8 3).toNat ≤ 4 && w.extractLsb' 0 8 != 0)) false
      (do let d ← dstOf 32 (rdF w); pure (.rnkq (isOne (nwF w)) d f (w.extractLsb' 0 8)))
  | 0x1F => dZero w .dsusp
  | 0x20 => dZero w .dnop
  | _ => .error .encOp

/-! ## DRN (02 R55, R63; 06 R189) -/

def lOp (w : W32) : BitVec 5 := w.extractLsb' 27 5
def lTd (w : W32) : BitVec 3 := w.extractLsb' 24 3
def lTa (w : W32) : BitVec 3 := w.extractLsb' 21 3
def lTb (w : W32) : BitVec 3 := w.extractLsb' 18 3
def lTc (w : W32) : BitVec 3 := w.extractLsb' 15 3
def lImm (w : W32) : BitVec 15 := w.extractLsb' 0 15

/-- A micro-op as a word. -/
def packL3 (op : BitVec 5) (td ta tb tc : BitVec 3) (imm : BitVec 15) : W32 := op ++ td ++ ta ++ tb ++ tc ++ imm

/-- The mode in imm15[2:0] with the bits above it zero; 6 and 7 are refused (06 R189). -/
def lRndBad (w : W32) : Bool := w.extractLsb' 3 12 != 0 || decide (5 < (w.extractLsb' 0 3).toNat)
def lRnd (w : W32) : Rnd := rndOf (w.extractLsb' 0 3).toNat

/-- DRN's words. -/
def decodeDrn (w : W32) : Except Cause Instr :=
  let td := lTd w
  let ta := lTa w
  let tb := lTb w
  let tc := lTc w
  let noB := tb != 0 || tc != 0
  match (lOp w).toNat with
  | 0x01 => judge (tc != 0 || lRndBad w) false (some (.ladd td ta tb (lRnd w)))
  | 0x02 => judge (tc != 0 || lRndBad w) false (some (.lmul td ta tb (lRnd w)))
  | 0x03 => judge (lRndBad w) false (some (.lfma td ta tb tc (lRnd w)))
  | 0x04 => judge (tc != 0 || lImm w != 0) false (some (.lmax td ta tb))
  | 0x05 => judge (tc != 0 || lImm w != 0) false (some (.lmin td ta tb))
  | 0x06 => judge (lImm w != 0) false (some (.lsel td ta tb tc))
  | 0x07 => onSel (vcondOf (w.extractLsb' 0 3).toNat) fun c =>
      judge (tc != 0 || w.extractLsb' 3 12 != 0) false (some (.lcmp c td ta tb))
  | 0x08 => judge (noB || lRndBad w) false (some (.lexp td ta (lRnd w)))
  | 0x09 => judge (noB || lRndBad w) false (some (.lrcp td ta (lRnd w)))
  | 0x0A => judge (noB || lRndBad w) false (some (.ltanh td ta (lRnd w)))
  | 0x0B =>
    if noB || w.extractLsb' 8 7 != 0 || decide (5 < (w.extractLsb' 0 3).toNat) then .error .encRsv
    else match tyOf (w.extractLsb' 4 4).toNat with
      | none => .error .encType
      | some t => if isFloat t then .ok (.lcvt td ta t (lRnd w) (w.getLsbD 3)) else .error .encType
  | 0x0C => judge (ta != 0 || noB || w.extractLsb' 8 7 != 0) false (some (.lrng td (w.extractLsb' 0 8)))
  | 0x0D => judge (tc != 0 || w.extractLsb' 11 4 != 0 || decide (5 < (w.extractLsb' 8 3).toNat)) false
      (some (.ldrp td ta tb (w.extractLsb' 0 8) (rndOf (w.extractLsb' 8 3).toNat)))
  | 0x0E => judge (td != 0 || noB || lImm w != 0) false (some (.lrmx ta))
  | 0x0F => judge (td != 0 || noB || lImm w != 0) false (some (.lrsm ta))
  | 0x10 =>
    let mode := sidOf (w.extractLsb' 1 2).toNat
    judge (ta != 0 || noB || w.extractLsb' 5 10 != 0
      || (if mode == .const then w.getLsbD 0 else w.extractLsb' 3 2 != 0)) false
      (some (.lsid td mode (w.extractLsb' 0 1) (w.extractLsb' 3 2)))
  | 0x11 => judge (td != 0 || noB || w.extractLsb' 4 11 != 0 || decide (5 < (w.extractLsb' 0 3).toNat)) false
      (some (.lst ta (lRnd w) (w.getLsbD 3)))
  | 0x12 =>
    let src := (w.extractLsb' 0 2).toNat
    judge (td != 0 || noB || w.extractLsb' 9 6 != 0 || decide (5 < (w.extractLsb' 5 3).toNat) || src == 3
      || (src != 2 && ta != 0)) false
      (some (.lsts (stsOf src) ta (w.extractLsb' 2 3) (rndOf (w.extractLsb' 5 3).toNat) (w.getLsbD 8)))
  | 0x13 => judge (ta != 0 || noB || w.extractLsb' 2 13 != 0) false
      (some (.lidx td (lidxOf (w.extractLsb' 0 2).toNat)))
  | 0x14 => judge (w.extractLsb' 0 27 != 0) false (some .lend)
  | _ => .error .encOp

/-! ## By sequencer -/

/-- Is the first word of sequencer q that of a two-lane instruction (02 R35). A word whose opcode is not defined counts as one of one
lane, so that a CONT lane behind it raises ENC_TAG (DESIGN CHOICE, log entry 53). -/
def isWide (q : Seqr) (w : W32) : Bool :=
  match q with
  | .ctl => ctlWide (opF w).toNat
  | .acs => acsWide (opF w).toNat
  | .vec => true
  | .mov => movWide (opF w).toNat

/-- Sequencer q's instruction. -/
def decode (q : Seqr) (w w1 : W32) : Except Cause Instr :=
  match q with
  | .ctl => decodeCtl w w1
  | .acs => decodeAcs w w1
  | .vec => decodeVec w w1
  | .mov => decodeMov w w1

/-- The agent whose words an instruction's are: the fetching sequencer, DRN, or none for a step that has no
encoding. -/
inductive Owner | seq (q : Seqr) | drn | none
deriving DecidableEq, Repr

/-! ## The encoder -/

def bv8 (n : Nat) : BitVec 8 := BitVec.ofNat 8 n
def bv5 (n : Nat) : BitVec 5 := BitVec.ofNat 5 n
def bv4 (n : Nat) : BitVec 4 := BitVec.ofNat 4 n
def bv3 (n : Nat) : BitVec 3 := BitVec.ofNat 3 n
def bv2 (n : Nat) : BitVec 2 := BitVec.ofNat 2 n

def eS3 (op fn : Nat) (o : S3) : W32 := packS (bv8 op) (bitOf o.nw) o.d o.a.code o.b.code (bv5 fn)
def eS2 (op : Nat) (o : S2) : W32 := packS (bv8 op) (bitOf o.nw) o.d o.a.code 0 0
def eI11 (op : Nat) (o : SI 11) : W32 := packI (bv8 op) (bitOf o.nw) o.d o.a.code o.imm
def eI9 (op sel : Nat) (o : SI 9) : W32 := packI (bv8 op) (bitOf o.nw) o.d o.a.code (bv2 sel ++ o.imm)
def eI8 (op sel : Nat) (o : SI 8) : W32 := packI (bv8 op) (bitOf o.nw) o.d o.a.code (bv3 sel ++ o.imm)
def eI6 (op sel : Nat) (o : SI 6) : W32 := packI (bv8 op) (bitOf o.nw) o.d o.a.code (bv5 sel ++ o.imm)
def eSL (op : Nat) (o : SL) : List W32 := [packI (bv8 op) (bitOf o.nw) o.d 0 0, o.imm]
def eLd (op : Nat) (o : SLd) : W32 :=
  packI (bv8 op) (bitOf o.nw) o.d o.a.code (bitOf o.sx ++ bv2 o.size.code ++ o.off)
def eSt (op : Nat) (o : SSt) : W32 := packI (bv8 op) 0 o.d.code o.a.code (bitOf false ++ bv2 o.size.code ++ o.off)
def eBr (op : Nat) (o : SBr) : W32 := packB (bv8 op) (bv3 o.cond.code) o.a.code o.off
def eTok (op : Nat) (t : Toks) (fn : BitVec 5) (c : BitVec 26) : List W32 :=
  [packS (bv8 op) 0 t.k t.ka t.kb fn, c ++ t.kc]
def eArr : Option (BitVec 4) → BitVec 5
  | some d => (1 : BitVec 1) ++ d
  | none => 0

def eVA (op : Nat) (t : ETy) (vd : BitVec 8) (va : BitVec 8) (m : BitVec 4) : W32 :=
  packVA (bv8 op) (bv4 (tyCode t)) vd va m
def eVUr (op : Nat) (o : VUr) (sub : Nat) (imm : BitVec 8) : List W32 :=
  [eVA op o.ty o.vd.code o.va.code o.m,
   packVB 0 0 (bitOf o.nw) (bv3 o.rnd.code) (bitOf o.sat) (bv3 sub) imm]
def eVBr (op : Nat) (o : VBr) : List W32 :=
  [eVA op o.ty o.vd.code o.va.code o.m,
   packVB o.vb.code 0 (bitOf o.nw) (bv3 o.rnd.code) (bitOf o.sat) 0 0]
def eVTr (op : Nat) (o : VTr) : List W32 :=
  [eVA op o.ty o.vd.code o.va.code o.m,
   packVB o.vb.code o.vc.code (bitOf o.nw) (bv3 o.rnd.code) (bitOf o.sat) 0 0]
def eVU (op : Nat) (o : VU) : List W32 :=
  [eVA op o.ty o.vd.code o.va.code o.m, packVB 0 0 (bitOf o.nw) 0 0 0 0]
def eVB (op : Nat) (o : VB) (sub : BitVec 3) (imm : BitVec 8) : List W32 :=
  [eVA op o.ty o.vd.code o.va.code o.m, packVB o.vb.code 0 (bitOf o.nw) 0 0 sub imm]
def eVBs (op : Nat) (o : VBs) : List W32 :=
  [eVA op o.ty o.vd.code o.va.code o.m, packVB o.vb.code 0 (bitOf o.nw) 0 (bitOf o.sat) 0 0]

/-- The sub code of VDOT's second type (05 R150). -/
def dotSub (t u : ETy) : Nat := if u = t then 0 else tyCode u

def md8 (m : BitVec 4) : BitVec 8 := (0 : BitVec 4) ++ m

/-- Whose words an instruction has, and the words (02 R59 to R63); a step without an encoding has none. -/
def encode : Instr → Owner × List W32
  | .add o => (.seq .ctl, [eS3 0x01 0 o])
  | .addi o => (.seq .ctl, [eI11 0x02 o])
  | .sub o => (.seq .ctl, [eS3 0x03 0 o])
  | .mul f o => (.seq .ctl, [eS3 0x04 f.code o])
  | .div f o => (.seq .ctl, [eS3 0x05 f.code o])
  | .and o => (.seq .ctl, [eS3 0x06 0 o])
  | .or o => (.seq .ctl, [eS3 0x07 0 o])
  | .xor o => (.seq .ctl, [eS3 0x08 0 o])
  | .logi f o => (.seq .ctl, [eI9 0x09 f.code o])
  | .shf f o => (.seq .ctl, [eS3 0x0A f.code o])
  | .shfi f o => (.seq .ctl, [eI6 0x0B f.code o])
  | .cmp f o => (.seq .ctl, [eS3 0x0C f.code o])
  | .cmpi f o => (.seq .ctl, [eI8 0x0D f.code o])
  | .sel o => (.seq .ctl, [eS3 0x0E 0 o])
  | .min u o => (.seq .ctl, [eS3 0x0F u.toNat o])
  | .max u o => (.seq .ctl, [eS3 0x10 u.toNat o])
  | .clz o => (.seq .ctl, [eS2 0x11 o])
  | .popc o => (.seq .ctl, [eS2 0x12 o])
  | .ldi o => (.seq .ctl, eSL 0x13 o)
  | .ldih o => (.seq .ctl, eSL 0x14 o)
  | .br o => (.seq .ctl, [eBr 0x15 o])
  | .jmp off => (.seq .ctl, [packB 0x16 0 0 off])
  | .jal d off => (.seq .ctl, [packB 0x17 0 d off])
  | .jr a => (.seq .ctl, [packS 0x18 0 0 a.code 0 0])
  | .loop a e => (.seq .ctl, [(0x19 : BitVec 8) ++ (0 : BitVec 1) ++ a.code ++ (0 : BitVec 2) ++ e])
  | .loopi c e => (.seq .ctl, [packL 0x1A c e])
  | .brkl => (.seq .ctl, [packS 0x1B 0 0 0 0 0])
  | .ld o => (.seq .ctl, [eLd 0x1C o])
  | .st o => (.seq .ctl, [eSt 0x1D o])
  | .atom op o => (.seq .ctl, [eS3 0x1E op.code o])
  | .atomDet op r a b => (.seq .ctl, [packS 0x1E 0 r.code a.code b.code (bitOf true ++ bv4 op.code)])
  | .cas o c => (.seq .ctl, [eS3 0x1F 0 o, (0 : BitVec 26) ++ c.code])
  | .casDet r a b c => (.seq .ctl, [packS 0x1F 0 r.code a.code b.code 16, (0 : BitVec 26) ++ c.code])
  | .mark e => (.seq .ctl, [packS 0x20 0 0 0 0 e])
  | .join => (.seq .ctl, [packS 0x21 0 0 0 0 0])
  | .fork s off => (.seq .ctl, [packB 0x22 s 0 off])
  | .rdv id => (.seq .ctl, [packS 0x23 0 0 0 0 ((0 : BitVec 1) ++ id)])
  | .susp a b off => (.seq .ctl, [packS 0x24 0 0 a.code b.code 0, off])
  | .suspEnd => (.seq .ctl, [packS 0x24 0 0 0 0 0, 0])
  | .trig => (.seq .ctl, [packS 0x25 0 0 0 0 0])
  | .barv nw d st g => (.seq .ctl, [packI 0x26 (bitOf nw) d 0 ((0 : BitVec 2) ++ bitOf st ++ g)])
  | .mxcfg l f a => (.seq .ctl, [packI 0x27 0 ((0 : BitVec 3) ++ l) a.code ((0 : BitVec 6) ++ f)])
  | .mxgo t => (.seq .ctl, eTok 0x28 t 0 0)
  | .mxclm n => (.seq .ctl, [packS 0x29 0 0 0 0 n])
  | .mxrel n => (.seq .ctl, [packS 0x2A 0 0 0 0 n])
  | .mxmma o => (.seq .ctl, eTok 0x2B o.t (bv3 o.rnd.code ++ bitOf o.den ++ bitOf o.zero)
      (bv3 o.tyB.code ++ bv3 o.tyA.code ++ o.entry ++ o.osB ++ o.osA ++ o.acc))
  | .tidw n a => (.seq .ctl, [packI 0x2C 0 0 a.code ((0 : BitVec 3) ++ n)])
  | .mfsr nw d r => (.seq .ctl, [packI 0x2D (bitOf nw) d 0 r])
  | .mtsr r a => (.seq .ctl, [packI 0x2E 0 0 a.code r])
  | .trap imm => (.seq .ctl, [packI 0x2F 0 0 0 imm])
  | .rft => (.seq .ctl, [packS 0x30 0 0 0 0 0])
  | .rftU => (.seq .ctl, [packS 0x30 0 0 0 0 1])
  | .chkpt => (.seq .ctl, [packS 0x31 0 0 0 0 0])
  | .nop => (.seq .ctl, [packS 0x32 0 0 0 0 0])
  | .aadd o => (.seq .acs, [eS3 0x01 0 o])
  | .aaddi o => (.seq .acs, [eI11 0x02 o])
  | .asub o => (.seq .acs, [eS3 0x03 0 o])
  | .amul o => (.seq .acs, [eS3 0x04 0 o])
  | .ashfi r o => (.seq .acs, [eI6 0x05 r.toNat o])
  | .aldi o => (.seq .acs, eSL 0x06 o)
  | .abr o => (.seq .acs, [eBr 0x07 o])
  | .aloop c e => (.seq .acs, [packL 0x08 (bitOf false ++ c) e])
  | .aloopReg r e => (.seq .acs, [packL 0x08 ((2 : BitVec 2) ++ r.code ++ (0 : BitVec 8)) e])
  | .spw p f a => (.seq .acs, [packI 0x09 0 ((0 : BitVec 2) ++ p) a.code ((0 : BitVec 6) ++ f)])
  | .sload q p => (.seq .acs, [packS 0x0A 0 ((0 : BitVec 3) ++ q) ((0 : BitVec 2) ++ p) 0 0])
  | .sstore q p => (.seq .acs, [packS 0x0B 0 ((0 : BitVec 4) ++ q) ((0 : BitVec 2) ++ p) 0 0])
  | .sidx p src => (.seq .acs, [match src with
      | .none => packS 0x0C 0 ((0 : BitVec 2) ++ p) 0 0 0
      | .lq n => packS 0x0C 0 ((0 : BitVec 2) ++ p) ((0 : BitVec 3) ++ n) 0 1
      | .p n => packS 0x0C 0 ((0 : BitVec 2) ++ p) ((0 : BitVec 2) ++ n) 0 2])
  | .amark => (.seq .acs, [packS 0x0D 0 0 0 0 0])
  | .asusp => (.seq .acs, [packS 0x0E 0 0 0 0 0])
  | .aqres p => (.seq .acs, [packS 0x0F 0 0 ((0 : BitVec 2) ++ p) 0 0])
  | .anop => (.seq .acs, [packS 0x10 0 0 0 0 0])
  | .vadd o => (.seq .vec, eVBr 0x01 o)
  | .vsub o => (.seq .vec, eVBr 0x02 o)
  | .vmul o => (.seq .vec, eVBr 0x03 o)
  | .vfma o => (.seq .vec, eVTr 0x04 o)
  | .vfms o => (.seq .vec, eVTr 0x05 o)
  | .vfnma o => (.seq .vec, eVTr 0x06 o)
  | .vmax o => (.seq .vec, eVB 0x07 o 0 0)
  | .vmin o => (.seq .vec, eVB 0x08 o 0 0)
  | .vabs o => (.seq .vec, eVU 0x09 o)
  | .vneg o => (.seq .vec, eVU 0x0A o)
  | .vdiv o => (.seq .vec, eVBr 0x0B o)
  | .vsqrt o => (.seq .vec, eVUr 0x0C o 0 0)
  | .vrcp o => (.seq .vec, eVUr 0x0D o 0 0)
  | .vrsq o => (.seq .vec, eVUr 0x0E o 0 0)
  | .vexp o => (.seq .vec, eVUr 0x0F o 0 0)
  | .vexp2 o => (.seq .vec, eVUr 0x10 o 0 0)
  | .vln o => (.seq .vec, eVUr 0x11 o 0 0)
  | .vlog2 o => (.seq .vec, eVUr 0x12 o 0 0)
  | .vtanh o => (.seq .vec, eVUr 0x13 o 0 0)
  | .vsigm o => (.seq .vec, eVUr 0x14 o 0 0)
  | .verf o => (.seq .vec, eVUr 0x15 o 0 0)
  | .vsin o => (.seq .vec, eVUr 0x16 o 0 0)
  | .vcos o => (.seq .vec, eVUr 0x17 o 0 0)
  | .vcvt o => (.seq .vec, [eVA 0x18 o.d o.vd.code o.va.code o.m,
      packVB 0 0 (bitOf o.nw) (bv3 o.rnd.code) (bitOf o.sat) o.part (bv8 (tyCode o.s))])
  | .vcbx o => (.seq .vec, [eVA 0x19 .bf16 o.vd.code o.va.code o.m,
      packVB 0 0 (bitOf o.nw) 0 0 o.part ((0 : BitVec 4) ++ o.cb)])
  | .vcbq o => (.seq .vec, [eVA 0x1A .cb4 o.vd.code o.va.code o.m,
      packVB 0 0 (bitOf o.nw) 0 0 o.part ((0 : BitVec 3) ++ bitOf o.wide ++ o.cb)])
  | .vldx o => (.seq .vec, eVUr 0x1B o.u 0 o.imm)
  | .vdot o => (.seq .vec, [eVA 0x1C o.t o.vd.code o.va.code o.m,
      packVB o.vb.code o.vc.code (bitOf o.nw) (bv3 o.rnd.code) 0 (bv3 (dotSub o.t o.u)) (o.cbA ++ o.cbB)])
  | .vred o => (.seq .vec, eVUr 0x1D o.u o.op.code 0)
  | .vscan o => (.seq .vec, eVUr 0x1E o 0 0)
  | .vcmp o => (.seq .vec, [eVA 0x1F o.ty (md8 o.md) o.va.code o.m, packVB o.vb.code 0 0 0 0 (bv3 o.cond.code) 0])
  | .vsel o => (.seq .vec, eVB 0x20 o 0 0)
  | .vcls o => (.seq .vec, [eVA 0x21 o.ty (md8 o.md) o.va.code o.m,
      packVB 0 0 0 0 0 ((0 : BitVec 2) ++ o.classes.extractLsb' 8 1) (o.classes.extractLsb' 0 8)])
  | .mlog o => (.seq .vec, [packVA 0x22 0 (md8 o.md) (md8 o.ma) o.m, packVB (md8 o.mb) 0 0 0 0 (bv3 o.op.code) 0])
  | .mpop o => (.seq .vec, [eVA 0x23 .i32 o.vd.code (md8 o.ma) o.m, packVB 0 0 (bitOf o.nw) 0 0 0 0])
  | .viadd o => (.seq .vec, eVBs 0x24 o)
  | .visub o => (.seq .vec, eVBs 0x25 o)
  | .vimul o => (.seq .vec, eVBs 0x26 o)
  | .vimin o => (.seq .vec, eVB 0x27 o 0 0)
  | .vimax o => (.seq .vec, eVB 0x28 o 0 0)
  | .vand o => (.seq .vec, eVB 0x29 o 0 0)
  | .vor o => (.seq .vec, eVB 0x2A o 0 0)
  | .vxor o => (.seq .vec, eVB 0x2B o 0 0)
  | .vshf o => (.seq .vec, eVB 0x2C o.o (bv3 o.op.code) 0)
  | .vmov o => (.seq .vec, eVU 0x2D o)
  | .vbcst o => (.seq .vec, [eVA 0x2E o.ty o.vd.code 0 o.m, o.imm])
  | .vbcstElem o => (.seq .vec, [eVA 0x2E o.ty o.vd.code o.va.code o.m, (0 : BitVec 19) ++ o.e])
  | .viota o => (.seq .vec, [eVA 0x2F .i32 o.vd.code 0 o.m, o.start])
  | .vperm o => (.seq .vec, eVB 0x30 o.o o.part 0)
  | .vslide o => (.seq .vec, eVB 0x31 o.o 0 o.imm)
  | .vcmprs o => (.seq .vec, [eVA 0x32 o.ty o.vd.code o.va.code 0,
      packVB 0 (md8 o.md) 0 0 0 ((0 : BitVec 2) ++ o.half) 0])
  | .vxpnd o => (.seq .vec, [eVA 0x33 o.ty o.vd.code o.va.code o.m,
      packVB (md8 o.ma) 0 (bitOf o.nw) 0 0 ((0 : BitVec 2) ++ o.half) 0])
  | .vrng o => (.seq .vec, [eVA 0x34 .n32 o.vd.code o.vidx.code o.m, packVB o.ti 0 (bitOf o.nw) 0 0 0 o.s])
  | .vatom o => (.seq .vec, [eVA 0x35 .i32 0 o.va.code o.m, packVB o.vb.code 0 0 0 0 (bv3 o.op.code) 0])
  | .vloop c e => (.seq .vec, [packVA 0x36 0 0 0 0, c ++ (0 : BitVec 8) ++ e])
  | .vbrm n m off => (.seq .vec, [packVA 0x37 0 0 0 m, off ++ (0 : BitVec 5) ++ bv3 n.toNat ++ (0 : BitVec 8)])
  | .vsusp => (.seq .vec, [packVA 0x38 0 0 0 0, 0])
  | .vjmp off => (.seq .vec, [packVA 0x39 0 0 0 0, off ++ (0 : BitVec 16)])
  | .vnop => (.seq .vec, [packVA 0x3A 0 0 0 0, 0])
  | .dadd o => (.seq .mov, [eS3 0x01 0 o])
  | .daddi o => (.seq .mov, [eI11 0x02 o])
  | .dsub o => (.seq .mov, [eS3 0x03 0 o])
  | .dmul o => (.seq .mov, [eS3 0x04 0 o])
  | .dshfi f o => (.seq .mov, [eI6 0x05 f.code o])
  | .dlogi f o => (.seq .mov, [eI9 0x06 f.code o])
  | .dldi o => (.seq .mov, eSL 0x07 o)
  | .dcmp f o => (.seq .mov, [eS3 0x08 f.code o])
  | .dbr o => (.seq .mov, [eBr 0x09 o])
  | .djmp off => (.seq .mov, [packB 0x0A 0 0 off])
  | .dloop c e => (.seq .mov, [packL 0x0B (bitOf false ++ c) e])
  | .dloopReg r e => (.seq .mov, [packL 0x0B ((2 : BitVec 2) ++ r.code ++ (0 : BitVec 8)) e])
  | .dld o => (.seq .mov, [eLd 0x0C o])
  | .dst o => (.seq .mov, [eSt 0x0D o])
  | .copy o => (.seq .mov, eTok 0x0E o.t (eArr o.arrive) (o.dcS ++ o.dcD ++ o.tiS ++ o.tiD))
  | .copys o => (.seq .mov, eTok 0x0F o.t (eArr o.arrive) (o.src ++ o.dcD ++ (0 : BitVec 8) ++ o.tiD))
  | .copyo o => (.seq .mov, eTok 0x10 o.t (eArr o.arrive)
      ((0 : BitVec 5) ++ o.dcS ++ o.tiS ++ (0 : BitVec 3) ++ o.os))
  | .cring n a => (.seq .mov, [packI 0x11 0 0 a.code ((0 : BitVec 8) ++ n)])
  | .cringSelect n => (.seq .mov, [packI 0x11 0 0 0 ((1 : BitVec 8) ++ n)])
  | .batch => (.seq .mov, [packS 0x12 0 0 0 0 0])
  | .suspb n off => (.seq .mov, [packB 0x13 0 n off])
  | .expct a b => (.seq .mov, [packS 0x14 0 0 a.code b.code 0])
  | .arrv a b => (.seq .mov, [packS 0x15 0 0 a.code b.code 0])
  | .fst o => (.seq .mov, eTok 0x16 o.t 0 ((0 : BitVec 6) ++ o.flag ++ o.len ++ o.src ++ o.dst))
  | .fld o => (.seq .mov, eTok 0x17 o.t 0 ((0 : BitVec 6) ++ o.flag ++ o.len ++ o.src ++ o.dst))
  | .fatm o => (.seq .mov, eTok 0x18 o.t (bitOf o.det ++ bv4 o.op.code)
      ((0 : BitVec 11) ++ o.res ++ o.val ++ o.addr))
  | .fcol o => (.seq .mov, eTok 0x19 o.t (bv2 o.red.code ++ bv3 o.op.code)
      ((0 : BitVec 2) ++ o.tiS ++ o.tiD ++ o.g))
  | .bwls p c m => (.seq .mov, [packS 0x1A 0 p.code c.code m.code 0])
  | .bwrl p c => (.seq .mov, [packS 0x1B 0 p.code c.code 0 0])
  | .bwsl a => (.seq .mov, [packS 0x1C 0 0 a.code 0 0])
  | .grped g a => (.seq .mov, [packI 0x1D 0 0 a.code ((0 : BitVec 3) ++ g)])
  | .rnkq nw d f g => (.seq .mov, [packI 0x1E (bitOf nw) d 0 (bv3 f.code ++ g)])
  | .dsusp => (.seq .mov, [packS 0x1F 0 0 0 0 0])
  | .dnop => (.seq .mov, [packS 0x20 0 0 0 0 0])
  | .ladd td ta tb r => (.drn, [packL3 0x01 td ta tb 0 ((0 : BitVec 12) ++ bv3 r.code)])
  | .lmul td ta tb r => (.drn, [packL3 0x02 td ta tb 0 ((0 : BitVec 12) ++ bv3 r.code)])
  | .lfma td ta tb tc r => (.drn, [packL3 0x03 td ta tb tc ((0 : BitVec 12) ++ bv3 r.code)])
  | .lmax td ta tb => (.drn, [packL3 0x04 td ta tb 0 0])
  | .lmin td ta tb => (.drn, [packL3 0x05 td ta tb 0 0])
  | .lsel td ta tb tc => (.drn, [packL3 0x06 td ta tb tc 0])
  | .lcmp c td ta tb => (.drn, [packL3 0x07 td ta tb 0 ((0 : BitVec 12) ++ bv3 c.code)])
  | .lexp td ta r => (.drn, [packL3 0x08 td ta 0 0 ((0 : BitVec 12) ++ bv3 r.code)])
  | .lrcp td ta r => (.drn, [packL3 0x09 td ta 0 0 ((0 : BitVec 12) ++ bv3 r.code)])
  | .ltanh td ta r => (.drn, [packL3 0x0A td ta 0 0 ((0 : BitVec 12) ++ bv3 r.code)])
  | .lcvt td ta ty r sat => (.drn,
      [packL3 0x0B td ta 0 0 ((0 : BitVec 7) ++ bv4 (tyCode ty) ++ bitOf sat ++ bv3 r.code)])
  | .lrng td s => (.drn, [packL3 0x0C td 0 0 0 ((0 : BitVec 7) ++ s)])
  | .ldrp td ta tb s r => (.drn, [packL3 0x0D td ta tb 0 ((0 : BitVec 4) ++ bv3 r.code ++ s)])
  | .lrmx ta => (.drn, [packL3 0x0E 0 ta 0 0 0])
  | .lrsm ta => (.drn, [packL3 0x0F 0 ta 0 0 0])
  | .lsid td mode ds k => (.drn, [packL3 0x10 td 0 0 0 ((0 : BitVec 10) ++ k ++ bv2 mode.code ++ ds)])
  | .lst ta r sat => (.drn, [packL3 0x11 0 ta 0 0 ((0 : BitVec 11) ++ bitOf sat ++ bv3 r.code)])
  | .lsts src ta k r sat => (.drn,
      [packL3 0x12 0 ta 0 0 ((0 : BitVec 6) ++ bitOf sat ++ bv3 r.code ++ k ++ bv2 src.code)])
  | .lidx td what => (.drn, [packL3 0x13 td 0 0 0 ((0 : BitVec 13) ++ bv2 what.code)])
  | .lend => (.drn, [packL3 0x14 0 0 0 0 0])
  | _ => (.none, [])

/-- The decoder an owner's words go to. -/
def decodeOwned : Owner → List W32 → Option Instr
  | .seq q, w :: ws => (decode q w (ws.headD 0)).toOption
  | .drn, [w] => (decodeDrn w).toOption
  | _, _ => none

/-- The instruction an opcode-table word stands for. The words of one sequencer coincide with another's, so
the sequencers are tried in the order CTL, ACS, MOV, DRN for a one-lane instruction, and CTL, ACS, VEC, MOV for
a two-lane one, whose second word is bits 63 to 32 (zero when the table gives the row one word). Log entry 9. -/
def decodeTableWord (nbits w : Nat) : Option Instr :=
  let w0 : W32 := BitVec.ofNat 32 w
  let w1 : W32 := BitVec.ofNat 32 (w >>> 32)
  let tries : List (Option Instr) :=
    if 32 < nbits then
      [.ctl, .acs, .vec, .mov].map fun q => if isWide q w0 then (decode q w0 w1).toOption else none
    else
      [(decodeCtl w0 w1).toOption, (decodeAcs w0 w1).toOption, (decodeMov w0 w1).toOption, (decodeDrn w0).toOption,
       (decodeVec w0 w1).toOption]
  tries.findSome? id

end Sys2Proof
end

