-- ==== Sys2Proof/Machine/State.lean ====
section
/-!
DEFINITION. The state of one chip of the pod, every job, rank and core on it, as plain data (01 R17 to R19;
INVENTORY '## State'), the reasons a step can stop, and the state after reset.
-/
namespace Sys2Proof.Machine

/-- A latch entry: its value, the tick from which it may be read, and, while an issued access owes the value,
that access's number (02 R47 to R49); 0 when the value is there. -/
structure Latch (α : Type) where
  val : α
  due : Nat
  owed : Nat
deriving DecidableEq, Repr

/-- A loop entry: remaining count, first and end line (02 R40). -/
structure LoopEnt where
  count : W32
  first : BitVec 47
  last : BitVec 47
deriving DecidableEq, Repr

/-- What an issued instruction has captured that is to go on later (15 R408, R412): operand values by register code, the numbers of the
predecessor slots of a command, and whether it has raised a cause (15 R405). -/
structure Captured where
  ops : List (Nat × Word) := []
  preds : Option (List W32) := none
  flt : Bool := false
deriving DecidableEq, Repr

/-- A fetching sequencer: not idle, line address VA[51:5], lane (1 to 7, or 8 past the last), whether the line
has been entered, the loop stack with the innermost entry first, where a loop of no iterations goes on once its
line is done (02 R40, log entry 16), the next issue time (01 R17, 02 R37), and the number below which CTL's
accesses must perform before this sequencer's work touches memory (07 R206, 08 R240); `point`: it stands at a
pre-emption point (10 R313); `stall`: its next instruction has issued and stalls (07 R215); `count`: the instructions issued so
far; `cap`: what an instruction that is issued again has captured; `last`: when it last issued or stalled; `still`: until when a
freeze has held it (02 R58). -/
structure SeqSt where
  run : Bool := false
  line : BitVec 47 := 0
  lane : Nat := 1
  entered : Bool := false
  loops : List LoopEnt := []
  skip : Option (BitVec 47) := none
  ready : Nat := 0
  gate : Nat := 0
  point : Bool := false
  stall : Bool := false
  count : Nat := 0
  cap : Captured := {}
  last : Nat := 0
  still : Nat := 0
deriving DecidableEq, Repr

/-- States of a stream record (05 R126). -/
inductive StrmSt | idle | running | halted | feed
deriving DecidableEq, Repr

/-- A queue entry of 4 KiB with the type and element count of the stream that fills the queue, and one enable
bit an element (05 R124, R127). -/
structure QEnt where
  data : VWord
  ty : ETy
  epe : Nat
  en : MWord
deriving DecidableEq, Repr

/-- A stream pattern record and its cursor (05 R122, R126, R136): the 64-byte image, the captured descriptor,
the walk position, the held index entry, the index values taken that the entry being formed still needs, the number of
AMARKs before its start, its own number in order of start, and, when halted, the cause and address. -/
structure Strm where
  image : BitVec 512 := 0
  desc : BitVec 512 := 0
  j0 : Nat := 0
  j1 : Nat := 0
  j2 : Nat := 0
  j3 : Nat := 0
  x : Nat := 0
  ipos : Nat := 0
  que : Nat := 0
  store : Bool := false
  st : StrmSt := .idle
  held : Option QEnt := none
  epoch : Nat := 0
  serial : Nat := 0
  cause : Option Cause := none
  fva : Nat := 0
  pages : List Nat := []
  idx : List Int := []
deriving DecidableEq, Repr

/-- Operand slot states (06 R169). -/
inductive SlotSt | free | claimed | nest
deriving DecidableEq, Repr

/-- An operand slot of 16 KiB (06 R169, R170): `rel` is a pending deferred release. -/
structure Slot where
  data : BitVec 131072 := 0
  st : SlotSt := .free
  ty : ETy := .bf16
  cb : Nat := 0
  scale : Int := 0
  klen : Nat := 0
  rel : Bool := false
deriving DecidableEq, Repr

/-- What a footprint names (07 R214): scratchpad bytes as a rank-relative range, any other bytes as a
virtual-address range, an operand slot, an accumulator tile. -/
inductive Res
  | bytes (lo hi : Nat) (atomic : Bool)
  | slot (n : Nat)
  | tile (n : Nat)
deriving DecidableEq, Repr

/-- The captured operands of an engine command (07 R208, 09 R264, 06 R182, R183). Descriptors and codebooks
are captured at acceptance (03 R98); `tis` of a command is the entries they came from (01 R30). An FCOL holds the members at its
issue (04 R110; 09 R284), an MXMMA the tags of its slots at its issue: K length, codebooks and scale bases of A and B (06 R183). -/
inductive CmdOp
  | copy (d s : BitVec 512) (cd cs : Word) (arrive : Option Nat)
  | copys (d : BitVec 512) (cd : Word) (src : Nat) (arrive : Option Nat)
  | copyo (os : Nat) (s : BitVec 512) (cs : Word) (arrive : Option Nat)
  | fst (dst src len flag : Nat)
  | fld (dst src len flag : Nat)
  | fatm (op : AtomSel) (det : Bool) (addr : Nat) (val : Word) (res : Nat)
  | fcol (op : ColSel) (red : RedSel) (g n : Nat) (d s : BitVec 512) (memb : List Nat)
  | bwls (peer count min : Nat)
  | bwrl (peer count : Nat)
  | bwsl (addr : Nat)
  | grped (g addr : Nat)
  | mxgo (nest : BitVec 1536) (ta tb : BitVec 512)
  | mxmma (nest : BitVec 1536) (o : Mma) (klen ca cb : Nat) (sa sb : Int)
deriving DecidableEq, Repr

/-- Where a command stands: waiting for predecessors, running, performed with its flag or arrival still due,
performed with its record still due, halted by a fault (09 R267, 07 R211). -/
inductive CmdSt | waiting | running | flag | record | halted
deriving DecidableEq, Repr

/-- An accepted command that has not retired (07 R208 to R213): among its fields `gate`, the number below which its issuer's
accesses perform before it starts (07 R207), `pos`, the elements it has gone through, `skip`, those of them passed
over for poison (09 R267), and `masks`, the row masks of a COPYS image once read, none for a poisoned one (09 R279). -/
structure Cmd where
  seq : W32
  k : Nat
  preds : List W32
  op : CmdOp
  st : CmdSt
  ring : Nat := 0
  desc : BitVec 256 := 0
  rd : List Res := []
  wr : List Res := []
  cbs : BitVec 4096 := 0
  bind : List (BitVec 512) := []
  prog : List W32 := []
  bytes : Nat := 0
  status : Nat := 0
  fault : Nat := 0
  addr : Nat := 0
  cause : Option Cause := none
  fva : Nat := 0
  halted0 : CmdSt := .waiting
  task : Nat := 0
  tis : List Nat := []
  pins : List Nat := []
  gate : Nat := 0
  pos : Nat := 0
  skip : Nat := 0
  masks : Option (List (Option Nat)) := none
deriving DecidableEq, Repr

/-- A record waiting to be written to a ring (09 R270 to R272): its ring, the descriptor captured, and the
command it retires (0 when none, such as a NOTICE); `task`: the issuing task (08 R258). -/
structure Rec where
  ring : Nat
  desc : BitVec 256
  seq : W32
  status : Nat
  opcode : Nat
  fault : Nat
  bytes : Nat
  addr : Nat
  retires : Bool
  task : Nat
deriving DecidableEq, Repr

/-- The active nest (06 R173, R177): its command, the reduction j, the step within it, the slots its next step's
operands lie in once loaded, whether the reduction has started, and a loader fault. -/
structure Nest where
  seq : W32
  nest : BitVec 1536
  red : Nat
  step : Nat
  started : Bool
  loaded : Option (Nat × Nat)
  rot : Nat
  cause : Option Cause
  fva : Nat
deriving DecidableEq, Repr

/-- A drain waiting or running (06 R188, R195): `red` is the reduction of its command that it stores. -/
structure Drain where
  seq : W32
  red : Nat := 0
  k : Nat
  acc : Nat
  entry : Nat
  m0 : Int
  n0 : Int
  e : Nat
  rmax : W32
  terms : List W32
  nest : BitVec 1536
  halt : Option Cause
  fva : Nat
  cur0 : Nat := 0
  cur1 : Nat := 0
deriving DecidableEq, Repr

/-- A store that an element's program has collected: through DOUT (else DSTAT), the element, its code (06 R188,
R192). -/
structure DStore where
  dout : Bool
  addr : Int
  nib : Nat
  code : Nat
deriving DecidableEq, Repr

/-- A watch entry (08 R244, 10 R308): whether it awaits dispatch, the dispatches counted against it and the
dispatch at which it became urgent. -/
structure WEnt where
  waddr : Nat
  rdy : Bool
  stage : Nat
  thresh : Word
  cont : BitVec 47
  rtime : Nat
  save : List Word
  passed : Nat := 0
  urgent : Option Nat := none
deriving DecidableEq, Repr

/-- What an issued access does when it performs (07 R203; 08 R234 to R237; 06 R185; 09 R263, R268, R275); `again`
stands in a replay queue for an instruction that is issued again at its lane (15 R414), `flight` for one whose result is in
flight at an exposed pre-emption (10 R314). -/
inductive AccOp
  | load (sx : Bool) (d : Nat) (nw : Bool)
  | store (x : Word)
  | atom (op : AtomSel) (x : Word) (d : Nat) (nw : Bool)
  | cas (x new : Word) (d : Nat) (nw : Bool)
  | tidw (n : Nat)
  | expct (n : Nat)
  | arrv (n : Nat)
  | cring (n : Nat)
  | again
  | flight
deriving DecidableEq, Repr

/-- An access of CTL or MOV that has issued and not performed (07 R203, R204), as the replay queue holds it with its
captured operands (15 R408, R412); `rem`: the cycles that remain of one in flight; `snap`: its operands by register code; `preds`: the
captured numbers of a command's predecessor slots (CAP = 1); `num`: its number among its sequencer's instructions. -/
structure Acc where
  id : Nat
  q : Seqr
  op : AccOp
  addr : Nat
  size : Nat
  line : BitVec 47
  lane : Nat
  w0 : W32
  w1 : W32
  uh : Bool
  flt : Bool := false
  opa : Word := 0
  opb : Word := 0
  opc : Word := 0
  rem : Nat := 0
  snap : List (Nat × Word) := []
  preds : Option (List W32) := none
  num : Nat := 0
deriving DecidableEq, Repr

/-- Where a result in flight of an exposed region goes (02 R49): register file and number, and value; of a vector or mask
register also the bits it writes (05 R141, R143), the others staying as they are; a stream record's image (05 R133); or nowhere, of an
instruction that only pushes. -/
inductive Dst
  | none
  | s (n : Nat) (x : Word)
  | a (n : Nat) (x : Word)
  | d (n : Nat) (x : Word)
  | v (n : Nat) (x on : VWord)
  | m (n : Nat) (x on : MWord)
  | p (n : Nat) (x : BitVec 512)
deriving DecidableEq, Repr

/-- A result in flight: where it goes, the tick it is written at, and its instruction as a replay queue records it (15 R408). -/
structure Pend where
  dst : Dst
  due : Nat
  ent : Acc
deriving DecidableEq, Repr

/-- An instruction-cache line (01 R23, 13 R369). -/
structure ILine where
  asid : BitVec 16
  gen : BitVec 12
  line : BitVec 47
  words : List W32
deriving DecidableEq, Repr

/-- A translation-cache entry (13 R367): client 0 CTL, 1 fetch, 2 ACS, 3 MTX, 4 DRN, 5 MOV (the bits of CLIENTS
in R370), 6 VEC; the page's first address, its level, the leaf and the leaf's own address. -/
structure Tlb where
  client : Nat
  asid : BitVec 16
  gen : BitVec 12
  va : Nat
  level : Nat
  leaf : Word
  ea : Nat
deriving DecidableEq, Repr

/-- The work a MARK covers on an engine (07 R215): command numbers, drains by command number and reduction, VEC's instructions
up to number `count`, or the streams started before number `serial`, which stays open
until ACS marks or goes idle. -/
structure Marker where
  eng : Engine
  seqs : List W32
  serial : Nat
  isOpen : Bool
  drns : List (W32 × Nat) := []
  count : Nat := 0
deriving DecidableEq, Repr

/-- A BARV that waits for its release (08 R248). -/
structure BarvWait where
  g : Nat
  step : Bool
  d : Nat
  nw : Bool
deriving DecidableEq, Repr

/-- The action a cause takes (15 R403). -/
inductive Act | kill | replay | park | forward
deriving DecidableEq, Repr

/-- The trapped state of a core (15 R407 to R413): the header's fields, the four sequencers as they stood, the replay queue,
and the words of a faulting instruction that is no entry of it (02 R64; log entry 45). -/
structure Trap where
  cause : Option Cause
  agent : Agent
  fva : Nat
  pc : BitVec 52
  tag : Nat
  aux : Nat
  act : Act
  ticks : Nat
  uh : Bool
  uepc : BitVec 52
  pre : Bool
  ctl : SeqSt
  acs : SeqSt
  vec : SeqSt
  mov : SeqSt
  replay : List Acc
  done : Bool
  words : Option Acc := none
  hStrm : List Nat := []
  hCmds : List W32 := []
  hEng : List W32 := []
deriving DecidableEq, Repr

/-- Where a forward record has gone (15 R406): to the host, to the ring of rank 0 on this chip, with the key of its REPLY word, or on
another chip, with a number of its own. -/
inductive FwdTo
  | host
  | ring (key : Nat)
  | far (n : Nat)
deriving DecidableEq, Repr

/-- A forwarded cause that waits for its reply (15 R404, R406): where its record is, the cause, agent and address, and the first reply
that came. -/
structure Fwd where
  at' : FwdTo
  cause : Cause
  agent : Agent
  fva : Nat
  reply : Nat := 0
deriving DecidableEq, Repr

/-- The action a cause took when it was raised, for the agent it holds, and whether a RESOLVE has come since (15 R402, R403). -/
structure Held where
  agent : Agent
  cause : Cause
  fva : Nat
  act : Act
  resolved : Bool := false
deriving DecidableEq, Repr

/-- One core (01 R12 to R18). `job` 0 means that no rank owns it; `frozen`: until which tick a freeze holds the issue of MTX and
DRN (02 R58); `uhAt` and `uhSkip`: when the user completion handler was entered, and the line, with its target, that a loop of no
iterations was to go on from (08 R258, R259); `trigId`: CTL's accesses below it were issued before TRIG (08 R247); `fresh`: CTL stands
at the entry line of a task just dispatched (02 R56); `acts`: the actions that hold its agents; `drnSlow` and `drnReady`: the slow-path
cycles of the element being drained, and when the drain unit's next row may start (04 R119; 06 R188). -/
structure Core where
  phys : Nat := 0
  job : Nat := 0
  rank : Nat := 0
  coreId : BitVec 7 := 0
  ctl : SeqSt := {}
  s : Vector Word 48 := Vector.replicate 48 0
  shadow : Vector Word 8 := Vector.replicate 8 0
  latC : List (Latch Word) := []
  latSet : List (Latch Word) := []
  sysS : Vector Word 48 := Vector.replicate 48 0
  sysLat : List (Latch Word) := []
  barv : Option BarvWait := none
  trigged : Bool := false
  trigSent : Bool := false
  marks : List Marker := []
  detC : Nat := 0
  acs : SeqSt := {}
  a : Vector Word 32 := Vector.replicate 32 0
  latA : List (Latch Word) := []
  strm : Vector Strm 16 := Vector.replicate 16 {}
  lq : Vector (List QEnt) 8 := Vector.replicate 8 []
  sq : Vector (List QEnt) 4 := Vector.replicate 4 []
  epoch : Nat := 0
  serial : Nat := 0
  vec : SeqSt := {}
  v : Vector VWord 192 := Vector.replicate 192 0
  m : Vector MWord 16 := Vector.replicate 16 0
  latV : List (Latch VWord) := []
  mov : SeqSt := {}
  d : Vector Word 32 := Vector.replicate 32 0
  latM : List (Latch Word) := []
  rings : Vector (Option (BitVec 256)) 8 := Vector.replicate 8 none
  curRing : Nat := 0
  openB : List W32 := []
  batches : List (List W32) := []
  detM : Nat := 0
  accq : List Acc := []
  accId : Nat := 1
  x : Bool := false
  pend : List Pend := []
  icache : List ILine := []
  tlb : List Tlb := []
  tok : Vector W32 64 := Vector.replicate 64 0
  seqCtr : W32 := 1
  tokLast : W32 := 0
  cmds : List Cmd := []
  recs : List Rec := []
  slots : Vector Slot 32 := Vector.replicate 32 {}
  acc : Vector (BitVec 131072) 16 := Vector.replicate 16 0
  held : BitVec 16 := 0
  accTask : Vector Nat 16 := Vector.replicate 16 0
  nestSh : BitVec 1536 := 0
  nest : Option Nest := none
  mtxQ : List W32 := []
  drains : List Drain := []
  t : Vector W32 8 := Vector.replicate 8 0
  rmax : W32 := 0
  terms : List W32 := []
  drnPc : Nat := 0
  drnElem : Nat := 0
  drnStores : List DStore := []
  drnRun : Bool := false
  drnSlow : Nat := 0
  drnReady : Nat := 0
  drnMem : Vector W32 1024 := Vector.replicate 1024 0
  mxKcap : W32 := 4096
  watch : Vector (Option WEnt) 32 := Vector.replicate 32 none
  stage : Option Nat := none
  taskId : Nat := 0
  priv : Bool := false
  divz : Bool := false
  uie : Bool := false
  uh : Bool := false
  uipend : BitVec 8 := 0
  suspending : Bool := false
  atomGroup : BitVec 8 := 0
  atomOrder : BitVec 16 := 0
  uiv : BitVec 47 := 0
  uepc : BitVec 50 := 0
  trap : Option Trap := none
  fwds : List Fwd := []
  trapFrame : BitVec 52 := 0
  accSave : BitVec 52 := 0
  ctxSave : BitVec 52 := 0
  preWait : W32 := 1048576
  migWait : W32 := 4194304
  stopReq : Option Nat := none
  stopped : Bool := false
  saved : Bool := false
  frozen : Nat := 0
  uhAt : Nat := 0
  uhSkip : Option (BitVec 47 × BitVec 47) := none
  trigId : Nat := 0
  fresh : Bool := false
  acts : List Held := []
deriving DecidableEq, Repr

/-- A rank on this chip (01 R19); `saved` holds its cores after a context save, as the save areas hold them in memory
(10 R315, log entry 7); `image` holds a cold rank's watch entries by core and index, RTIME counting the time an entry had been
ready at capture (12 R351, R356); `capAt`: when a quiesced rank was captured. -/
structure Rank where
  job : Nat
  rank : Nat
  asid : BitVec 16 := 0
  gen : BitVec 12 := 0
  ti : Vector (BitVec 512) 256 := Vector.replicate 256 0
  cbs : BitVec 4096 := 0
  stages : Vector (BitVec 128) 16 := Vector.replicate 16 0
  cbBase : BitVec 52 := 0
  cbNext : BitVec 52 := 0
  expBase : BitVec 52 := 0
  expNext : BitVec 52 := 0
  phaseBase : BitVec 52 := 0
  stageBase : BitVec 52 := 0
  watchBase : BitVec 52 := 0
  fwdRing : BitVec 52 := 0
  spill : List (Nat × WEnt) := []
  image : List (Nat × Nat × WEnt) := []
  cold : Bool := false
  noDispatch : Bool := false
  quiet : Bool := false
  capAt : Nat := 0
  parked : Bool := false
  dispatches : Nat := 0
  fcols : List (Nat × Nat) := []
  finished : Bool := false
  saved : List Core := []
  fwds : List Fwd := []
deriving DecidableEq, Repr

/-- An accepted group edit (09 R287). -/
structure Edit where
  mode : Nat
  memb : List Nat
deriving DecidableEq, Repr

/-- A group (01 R15, 08 R248): members in ascending virtual rank, membership generation, completed phases, the
arrivals at the current phase with their .step, accepted edits, members withdrawn by force. -/
structure Group where
  g : Nat
  memb : List Nat
  gen : Nat := 0
  phase : Nat := 0
  arrived : List (Nat × Bool) := []
  edits : List Edit := []
  gone : List Nat := []
  lastAt : Nat := 0
deriving DecidableEq, Repr

/-- A deterministic request (04 R112 to R115): issuer, key, interval, target word by owner and private address,
operation, result address. -/
structure Det where
  rank : Nat
  core : Nat
  task : Nat
  order : Nat
  mov : Bool
  idx : Nat
  g : Nat
  phase : Nat
  trank : Nat
  tva : Nat
  fva : Nat
  op : Option AtomSel
  x : Word
  exp : Word
  res : Nat
  seq : W32
deriving DecidableEq, Repr

/-- A member's source as a collective has read it, once: codes in linear order, and the elements on poisoned lines with their
addresses (04 R108 to R111; 09 R443). -/
structure ColSrc where
  rank : Nat
  codes : List Nat
  bad : List (Nat × Nat)
deriving DecidableEq, Repr

/-- A collective in progress (09 R284, R285, R443): the members' commands that have started, items delivered as
(member, block), items failed as (member, block, by whom), and the sources once read; a joined member is its rank, core and command
number. -/
structure Col where
  g : Nat
  n : Nat
  members : List Nat
  joined : List (Nat × Nat × W32)
  started : Bool
  done : List (Nat × Nat)
  failed : List (Nat × Nat × Nat)
  srcs : Option (List ColSrc) := none
deriving DecidableEq, Repr

/-- A placement request (12 R343). -/
structure PlaceReq where
  kind : Nat
  rank : Nat
  chip : Nat
  ocol : Nat
  orow : Nat
  rimg : Nat
deriving DecidableEq, Repr

/-- A record of the write log (15 R419): physical line address, virtual line, ASID, the old 64 bytes. -/
structure LogRec where
  pa : Nat
  va : Nat
  asid : BitVec 16
  old : List Byte
deriving DecidableEq, Repr

/-- What a checkpoint captures of the job on this chip (15 R418): the ranks, their watch entries by core, the
groups, pending requests, STEP_NO, and the scratchpad cells. -/
structure Ckpt where
  num : Nat
  ranks : List Rank
  watch : List (Nat × Nat × List (Option WEnt))
  groups : List Group
  dets : List Det
  stepNo : W32
  spad : List Host.Cell
deriving DecidableEq, Repr

/-- A successor waiting to start (10 R295, R301): the queue it came from, header address, EARLY, status block. -/
structure Succ where
  q : Nat
  image : Nat
  early : Bool
  done : Nat
  started : List Nat
deriving DecidableEq, Repr

/-- Program status (10 R301, 15 R404); a number that no job holds may have a quota record: `free` (13 R374). -/
inductive ProgSt | free | running | retired | killed
deriving DecidableEq, Repr

/-- A step boundary in progress (12 R346): the part it has reached, the ranks still to quiesce, the requests it takes, which are those
accepted before it began, and the ranks that have come in it from other chips (12 R344, R353). -/
structure Bound where
  part : Nat
  waiting : List Nat
  ckpt : Bool
  moved : Bool
  start : Nat
  reqs : List PlaceReq := []
  came : List Nat := []
deriving DecidableEq, Repr

/-- A resolved Aperture mapping of this chip (11 R331, R333): its slot, the peer chip, WOFF, WLEN; how many lanes it is to have, the lasers it
has with the wavelengths the peer gave, those the peer has been asked for, and those for which it had no wavelength. -/
structure AptMap where
  slot : Nat
  peer : Nat
  lanes : List Nat := []
  woff : Nat
  wlen : Nat
  need : Nat := 0
  waiting : List Nat := []
  tried : List Nat := []
  waves : List (Nat × Nat) := []
deriving DecidableEq, Repr

/-- An Aperture schedule: its slots' lengths, this chip's mappings (11 R331, R333). -/
structure AptPlan where
  lens : List Nat := []
  maps : List AptMap := []
deriving DecidableEq, Repr

/-- The Aperture of a job (11 R331 to R335): accepted image bytes, whether no boundary has resolved them yet, and the slots, chips and quota
they resolved to last, the schedule in force and the next one with its activation time by the pod slot clock, the slot in progress and its
start, the mappings whose windows are open. -/
structure Aperture where
  accepted : Option (List Byte) := none
  fresh : Bool := false
  pod : List (List Nat) := []
  plan : AptPlan := {}
  next : Option AptPlan := none
  act : Bool := false
  at' : Nat := 0
  slot : Nat := 0
  slotAt : Nat := 0
  openW : List Nat := []
deriving DecidableEq, Repr

/-- A job on this chip (01 R14); `oldDone` and `oldCmds`: the status block and the commands of a predecessor program that has
not retired (10 R301, as rank, core, number); `laneqNext`: a lane quota that waits for the next step boundary (16 R432). -/
structure Job where
  num : Nat
  tenant : Nat := 0
  v : Nat := 1
  width : Nat := 4
  det : Bool := true
  seed : Word := 0
  pid : Word := 0
  stepNo : W32 := 0
  lim : Bool := false
  groups : List Group := []
  dets : List Det := []
  cols : List Col := []
  act : List (Nat × BitVec 8) := []
  ckptNo : Nat := 0
  ckptEvery : Nat := 1
  bounds : Nat := 0
  chkpt : List Nat := []
  chkptDue : Bool := false
  ckpt : Option Ckpt := none
  log : List LogRec := []
  logFull : Bool := false
  rollEnd : Option Nat := none
  logLines : Nat := 13421772
  hbmq : Nat := 0
  hbmu : Nat := 0
  lpq : Nat := 0
  lpu : Nat := 0
  coreq : Nat := 0
  laneq : Nat := 0
  laneqNext : Option Nat := none
  repl : Nat := 0
  rnum : Nat := 0
  place : List PlaceEntry := []
  reqs : List PlaceReq := []
  doneAt : Nat := 0
  succ : Option Succ := none
  oldDone : Option Nat := none
  oldCmds : List (Nat × Nat × W32) := []
  status : ProgSt := .running
  bound : Option Bound := none
  apt : Aperture := {}
  sweep : Nat := 0
  rolling : Bool := false
  poisoned : List (Nat × Nat) := []
deriving DecidableEq, Repr

/-- Lane states (11 R321). -/
inductive LaneSt | dark | baseline | leased | notice | aperture | repair | retired | pending
deriving DecidableEq, Repr

/-- A flit in a retry buffer: the chip it goes to, its number on the link, and its transaction's number toward that chip (11 R320, R324,
R338). -/
structure Flit where
  peer : Nat
  link : Nat
  tx : Nat
deriving DecidableEq, Repr

/-- A lane-map entry, keyed by its number; a lane without one is DARK, one that is DARK keeps an entry while it has errors in a
window (11 R321, R340). `peerRank` is the lease it belongs to, `at'` the time of its grant, `links` by chip the last number sent to it or taken
from it on this lane (11 R320), `was` what a lane in repair was before. Lanes
lent to the Fabric Migration Engine belong to peer 16384 (12 R349), lasers that an Aperture awaits to holder 16384 (11 R333). -/
structure Lane where
  k : Nat
  peer : Nat
  wave : Nat
  st : LaneSt
  holder : Nat := 0
  job : Nat := 0
  peerRank : Nat := 0
  err : Nat := 0
  errAt : Nat := 0
  at' : Nat := 0
  unacked : List Flit := []
  links : List (Nat × Nat) := []
  was : LaneSt := .dark
deriving DecidableEq, Repr

/-- A queued lease request (11 R326, R327): its acceptance time, whether it was forced, the record's home, and of the attempt under
way the lasers for which the peer had no wavelength and the pairs it gave. -/
structure LeaseReq where
  job : Nat
  rank : Nat
  peer : Nat
  count : Nat
  min : Nat
  at' : Nat
  core : Nat
  seq : W32
  ring : Nat
  desc : BitVec 256
  repair : Bool := false
  block : Nat := 1
  forced : Bool := false
  task : Nat := 0
  tried : List Nat := []
  got : List (Nat × Nat) := []
deriving DecidableEq, Repr

/-- A grant held (11 R286): where NOTICE and REVOKED records of the lease go. -/
structure Lease where
  job : Nat
  rank : Nat
  peer : Nat
  core : Nat
  seq : W32
  ring : Nat
  desc : BitVec 256
  task : Nat
deriving DecidableEq, Repr

/-- Lanes in notice (11 R328). -/
structure Notice where
  job : Nat
  rank : Nat
  peer : Nat
  lanes : List Nat
  ends : Nat
  reason : Nat
deriving DecidableEq, Repr

/-- A lane change inside its guard interval (11 R319, R327). -/
structure Guard where
  lanes : List Nat
  job : Nat
  rank : Nat
  peer : Nat
  ends : Nat
  req : Option LeaseReq
deriving DecidableEq, Repr

/-- What a message to the host or to another chip is. -/
inductive MsgKind
  | event | interrupt | response | report | fabric | leaseOffer | leaseReply | placement | marker | pid | flit
  | arrival | collective | aperture
deriving DecidableEq, Repr

/-- A message to another chip or an event to the host: what it is, and its words (15 R402, 16, 12 R351). -/
structure Msg where
  kind : MsgKind
  args : List Nat
deriving DecidableEq, Repr

/-- A frame record (13 R373), for a frame that is not all zero. -/
structure Frame where
  pa : Nat
  dirty : BitVec 16 := 0
  pins : Nat := 0
  job : Nat := 0
  alloc : Bool := false
  back : Option Nat := none
deriving DecidableEq, Repr

/-- A tier-move request or move (13 R377, R379): page, destination, and the next line to flip; `locked`: it holds the page's migration lock
and awaits its destination; `evac`: off a die that is mapped out (15 R424). -/
structure Move where
  asid : BitVec 16
  va : Nat
  size : Nat
  tier : Nat
  comp : Nat
  src : Nat := 0
  dst : Nat := 0
  next : Nat := 0
  busy : Bool := false
  evac : Bool := false
  locked : Bool := false
deriving DecidableEq, Repr

/-- A migration (12 R349 to R352): direction, the other chip, the block, the lines already flipped, the chips whose markers have
come, what the new home holds back, whether lines still flip, whether the rank becomes cold, or is recalled, and the pages that came so far with
their levels and leaves. -/
structure Mig where
  job : Nat
  rank : Nat
  inward : Bool
  chip : Nat
  ocol : Nat
  orow : Nat
  flipped : List Nat
  markers : List Nat
  held : List FabTx
  active : Bool
  cold : Bool := false
  recalled : Bool := false
  pages : List (Nat × Nat × Word) := []
deriving DecidableEq, Repr

/-- A gathered page fault (13 R370). -/
structure PFault where
  asid : BitVec 16
  page : Nat
  cause : Cause
  wr : Bool
  rank : Nat
  clients : Nat
  ticks : Nat
deriving DecidableEq, Repr

/-- An engine bitmap fault record that is open (13 R371). -/
structure BFault where
  idx : Nat
  block : Nat
  engine : Nat
  asid : BitVec 16
  cause : Cause
  pages : Word
  ticks : Nat
deriving DecidableEq, Repr

/-- A hardware queue slot's queue (10 R291 to R294). -/
structure MapQ where
  q : Nat
  slot : Nat
  since : Nat
  idle : Bool
  unmapping : Bool := false
deriving DecidableEq, Repr

/-- A runnable queue without a slot: its number and the time it became runnable (10 R293). -/
structure RunQ where
  q : Nat
  since : Nat
deriving DecidableEq, Repr

/-- States of a TDI (14 R395). -/
inductive TdiSt | unlocked | locked | run | error
deriving DecidableEq, Repr

/-- A TDI (14 R389 to R395): memory key and IDE key when held, and the Loupe's state and the hash of the frozen set at the lock; slots
hold a key at reset (log entry 13). -/
structure Tdi where
  st : TdiSt := .unlocked
  reason : Nat := 0
  rej : Nat := 0
  key : Option Nat := some 0
  ide : Option Nat := none
  hash : Nat := 0
  loupe : Nat := 0
deriving DecidableEq, Repr

/-- Loupe states (14 R397). -/
inductive LoupeSt | off | observe | halt
deriving DecidableEq, Repr

/-- Power states (14 R398). -/
inductive PwrSt | full | reduced | idle | retain | off
deriving DecidableEq, Repr

/-- An entry of the Loupe trace (08 R241; 14 R397): the job, the physical core, the id of the RDV, the time. -/
structure TraceEnt where
  job : Nat
  core : Nat
  id : Nat
  ticks : Nat
deriving DecidableEq, Repr

/-- Chip-level state (01 R13; 10 to 16). Among its fields: `baseTried`, the lasers for which a chip had no wavelength for a baseline
lane; `sendQ`, by destination chip, each transaction with its issuing rank (11 R337); `rxNext`, `rxDone` and `rxHeld`, by source the
number below which all have performed, those beyond it that have, and what waits for an earlier one to its line (11 R324); `podOff`: the pod
slot clock less TICKS, in TICKS (11 R334); `sysKey`: the key of slot 16 (14 R390);
`askers`: remote ranks that request ingress lanes and have not been given any (11 R325); `frWait`, records of a closed batch that found the fault ring full (13 R370); `resend`, flits that no lane toward a chip carries (11 R339). -/
structure Chip where
  id : Nat := 0
  ticks : Nat := 0
  outbox : List Msg := []
  frames : List Frame := []
  regions : Vector (BitVec 2304) 8 := Vector.replicate 8 0
  dies : Vector Nat 8 := Vector.replicate 8 16
  outD : Vector (BitVec 16) 8 := Vector.replicate 8 0
  mapBusy : Vector (Option Nat) 8 := Vector.replicate 8 none
  ueRows : List (Nat × Nat × Nat × Nat) := []
  ports : Vector (List (BitVec 5)) 3 := Vector.replicate 3 (List.replicate 64 0)
  portsNext : Option (Vector (List (BitVec 5)) 3) := none
  portsAt : Nat := 0
  portSlot : Nat := 0
  quantum : Nat := 60000
  faults : List PFault := []
  faultsAt : Option Nat := none
  frWait : List (List Nat) := []
  frBase : Word := 0
  frHead : W32 := 0
  frTail : W32 := 0
  fbBase : Word := 0
  bfaults : List BFault := []
  moves : List Move := []
  egress : List Lane := []
  ingress : List Lane := []
  leaseQ : List LeaseReq := []
  leases : List Lease := []
  notices : List Notice := []
  guards : List Guard := []
  baselines : List Nat := []
  baseTried : List (Nat × Nat) := []
  sendQ : List (Nat × List (Nat × FabTx)) := []
  txSeq : List (Nat × Nat) := []
  rxNext : List (Nat × Nat) := []
  rxDone : List (Nat × Nat) := []
  rxHeld : List FabTx := []
  resend : List (Nat × List Nat) := []
  podOff : Nat := 0
  sysKey : Option Nat := some 0
  askers : List (Nat × Nat × Nat) := []
  migs : List Mig := []
  lost : List Nat := []
  mapped : List MapQ := []
  runnable : List RunQ := []
  staged : List (Nat × List Byte) := []
  svc : Nat := 0
  stacksUp : BitVec 8 := 0
  hbmUp : Bool := false
  optics : Bool := false
  target : Nat := 0
  thr : Bool := true
  targetNext : Option Nat := none
  pwr : PwrSt := .full
  pwrPrev : Nat := 0
  pwrTo : Option PwrSt := none
  throt : Bool := false
  refused : Bool := false
  gate : Nat := 0
  lmiss : Bool := false
  draw : Nat := 0
  overAt : Option Nat := none
  underAt : Option Nat := none
  pwrAt : Nat := 0
  tj : Nat := 0
  limit : Nat := 2400
  mgmtLock : Bool := false
  winBase : Word := 0
  qdBase : Word := 0
  asBase : Word := 0
  rptSel : BitVec 16 := 0
  opArg0 : Word := 0
  opArg1 : Word := 0
  opRes : Word := 0
  opBusy : Bool := false
  opDone : Bool := false
  opOvr : Bool := false
  opCause : Nat := 0
  opCmd : Option Nat := none
  opWait : Option (Nat × Nat) := none
  opPorts : Bool := false
  secState : SecState := .manufacturing
  fw : Option FwImage := none
  minSvn : BitVec 16 := 0
  recovery : Bool := false
  idKey : Bool := false
  attKey : Bool := false
  idIdx : Nat := 0
  attIdx : Nat := 0
  tdi : Vector Tdi 16 := Vector.replicate 16 {}
  lastOwner : List (Nat × Nat) := []
  loupe : LoupeSt := .off
  nonce : Option Nat := none
  ownerKey : Option Nat := none
  correctable : Nat := 0
  trace : List TraceEnt := []
deriving DecidableEq, Repr

/-- The machine: the focused core, the chip's other cores, ranks, jobs, chip-level state, memory, poisoned lines,
the inputs and events that wait (oldest first), and the model's own fields (log entries 1, 4, 5, 6). -/
structure State where
  core : Core
  cores : List Core
  ranks : List Rank
  jobs : List Job
  chip : Chip
  mem : List Host.Cell
  poison : List Nat
  agenda : List Instr
  engineTurn : Bool
  turn : Nat
  delay : Bool
  freeCtr : Nat
deriving DecidableEq, Repr

/-- Why the machine stops. -/
inductive Fault
  /-- A power-off or a halted device has nothing left to execute: raised by step when no core, agent or input can
  move. Safe: nothing is claimed of what follows. -/
  | stuck
deriving DecidableEq, Repr

/-- Why a step has no meaning. -/
inductive Refusal
  /-- The instruction has no meaning in the model yet: raised by exec's arms. Safe. -/
  | notModelled (mnemonic : String)
deriving DecidableEq, Repr

/-- The shadow nest after reset (06 R172, reset column): CNT 1 at each level, KSTEP 1, ACCN 1, OSN 2, ZERO 1. -/
def nestReset : BitVec 1536 :=
  let lv : Nat := (List.range 6).foldl (fun a l => a + 2 ^ (128 * l)) 0
  BitVec.ofNat 1536 (lv + 2 ^ 768 * (2 ^ 19 + 2 ^ 33 + 2 * 2 ^ 43 + 2 ^ 49))

/-- A core after device reset. -/
def Core.reset (phys : Nat) : Core := { phys := phys, nestSh := nestReset }

/-- The state after reset (16, 14 R385, R425): no job, no mapped page, memory with nothing listed. -/
def State.reset : State where
  core := Core.reset 0
  cores := (List.range 127).map fun i => Core.reset (i + 1)
  ranks := []
  jobs := []
  chip := {}
  mem := []
  poison := []
  agenda := []
  engineTurn := false
  turn := 0
  delay := false
  freeCtr := 0

end Sys2Proof.Machine
end

