-- ==== Sys2Proof/Machine/Memory.lean ====
section
/-!
DEFINITION. Bit fields, the parts of State, memory as cells, the rank's address space (01 R26 to R29),
translation (13 R363 to R369) and what a store does where it performs (07 R198; 13 R373; 15 R416, R419; 08 R246).
-/
namespace Sys2Proof.Machine

/-! ## Bit fields -/

/-- The n bits of v from bit lo. -/
def fld {w : Nat} (v : BitVec w) (lo n : Nat) : Nat := v.toNat / 2 ^ lo % 2 ^ n
/-- x, of n bits, read as two's complement. -/
def sgn (n x : Nat) : Int := if x < 2 ^ (n - 1) then x else (x : Int) - 2 ^ n
/-- The same bits, signed. -/
def sfld {w : Nat} (v : BitVec w) (lo n : Nat) : Int := sgn n (fld v lo n)
/-- v with the n bits from lo replaced by those of x. -/
def setFld {w : Nat} (v : BitVec w) (lo n x : Nat) : BitVec w :=
  BitVec.ofNat w (v.toNat - fld v lo n * 2 ^ lo + x % 2 ^ n * 2 ^ lo)
/-- One bit. -/
def bitOf {w : Nat} (v : BitVec w) (i : Nat) : Bool := v.toNat.testBit i
def b2n (b : Bool) : Nat := if b then 1 else 0
/-- An integer modulo 2^64, as a register holds it. -/
def wordOf (x : Int) : Word := BitVec.ofInt 64 x

/-- Little-endian value of bytes (00 R3). -/
def leVal : List Byte → Nat
  | [] => 0
  | b :: bs => b.toNat + 256 * leVal bs
/-- The n low bytes of x, lowest first. -/
def leBytes : Nat → Nat → List Byte
  | 0, _ => []
  | n + 1, x => BitVec.ofNat 8 x :: leBytes n (x / 256)

/-! ## Parts of the state -/

def Core.seq (c : Core) : Seqr → SeqSt
  | .ctl => c.ctl | .acs => c.acs | .vec => c.vec | .mov => c.mov
def Core.setSeq (c : Core) (q : Seqr) (x : SeqSt) : Core :=
  match q with
  | .ctl => { c with ctl := x } | .acs => { c with acs := x }
  | .vec => { c with vec := x } | .mov => { c with mov := x }
def Core.modSeq (c : Core) (q : Seqr) (f : SeqSt → SeqSt) : Core := c.setSeq q (f (c.seq q))

namespace State
def modCore (s : State) (f : Core → Core) : State := { s with core := f s.core }
def modChip (s : State) (f : Chip → Chip) : State := { s with chip := f s.chip }
def modSeq (s : State) (q : Seqr) (f : SeqSt → SeqSt) : State := s.modCore (·.modSeq q f)
def allCores (s : State) : List Core := s.core :: s.cores
def mapCores (s : State) (f : Core → Core) : State := { s with core := f s.core, cores := s.cores.map f }
def job? (s : State) (j : Nat) : Option Job := s.jobs.find? (·.num == j)
def rank? (s : State) (j r : Nat) : Option Rank := s.ranks.find? fun k => k.job == j && k.rank == r
def modJob (s : State) (j : Nat) (f : Job → Job) : State :=
  { s with jobs := s.jobs.map fun x => if x.num = j then f x else x }
def modRank (s : State) (j r : Nat) (f : Rank → Rank) : State :=
  { s with ranks := s.ranks.map fun x => if x.job = j ∧ x.rank = r then f x else x }
/-- The job and the rank that own the focused core. -/
def myJob (s : State) : Job := (s.job? s.core.job).getD { num := s.core.job }
def myRank (s : State) : Rank := (s.rank? s.core.job s.core.rank).getD { job := s.core.job, rank := s.core.rank }
def modMyJob (s : State) (f : Job → Job) : State := s.modJob s.core.job f
def modMyRank (s : State) (f : Rank → Rank) : State := s.modRank s.core.job s.core.rank f
/-- TICKS (08 R254). -/
def now (s : State) : Nat := s.chip.ticks
/-- A message or event goes out of the chip. -/
def post (s : State) (k : MsgKind) (args : List Nat) : State :=
  s.modChip fun c => { c with outbox := c.outbox ++ [⟨k, args⟩] }
/-- Does a core belong to rank r of job j (01 R14). -/
def owned (j r : Nat) (c : Core) : Bool := c.job == j && c.rank == r
/-- The cores of a rank, in ascending CORE_ID (01 R10). -/
def coresOf (s : State) (j r : Nat) : List Core :=
  ((List.range 128).filterMap fun i => s.allCores.find? fun c => owned j r c && c.coreId.toNat == i)
/-- Put the core with physical index p in focus. -/
def focus (s : State) (p : Nat) : State :=
  if s.core.phys = p then s
  else match s.cores.find? (·.phys == p) with
    | none => s
    | some c => { s with core := c, cores := s.cores.map fun x => if x.phys = p then s.core else x }
/-- Do something at the core with physical index p, and return the focus. -/
def atCore (s : State) (p : Nat) (f : State → State) : State :=
  let q := s.core.phys
  (f (s.focus p)).focus q
/-- Do something at core i of a rank, on the chip or in its saved state (10 R315). -/
def atMember (s : State) (j r i : Nat) (f : State → State) : State :=
  match (s.coresOf j r).find? (·.coreId.toNat == i) with
  | some c => s.atCore c.phys f
  | none =>
    match (s.rank? j r).bind fun k => k.saved.find? (·.coreId.toNat == i) with
    | none => s
    | some c =>
      let t := f { s with core := c, cores := s.core :: s.cores }
      { t with core := t.cores.head?.getD s.core, cores := t.cores.drop 1 }.modRank j r fun k =>
        { k with saved := k.saved.map fun (x : Core) => if x.coreId.toNat = i then t.core else x }
end State

/-- A rank's cores, on the chip or saved. -/
def rankCores (s : State) (j r : Nat) : List Core := s.coresOf j r ++ ((s.rank? j r).map (·.saved)).getD []

/-! ## Memory as cells -/

/-- A memory in canonical form: addresses strictly rising, no entry zero, which is what an unlisted address
reads as (log entry 3). -/
abbrev Memory.wf (m : List Host.Cell) : Prop := m.Pairwise (fun a b => a.1 < b.1) ∧ ∀ c ∈ m, c.2 ≠ 0

/-- The byte at address a. -/
def Memory.get (m : List Host.Cell) (a : Nat) : Byte := (m.lookup a).getD 0
/-- The entries of bytes from address a. -/
def Memory.cells (a : Nat) : List Byte → List Host.Cell
  | [] => []
  | b :: bs => if b = 0 then Memory.cells (a + 1) bs else (a, b) :: Memory.cells (a + 1) bs
/-- Bytes stored from address a. -/
def Memory.put (m : List Host.Cell) (a : Nat) (bs : List Byte) : List Host.Cell :=
  m.filter (fun c => decide (c.1 < a)) ++ Memory.cells a bs
    ++ m.filter (fun c => decide (a + bs.length ≤ c.1))

/-- Bytes a to a + n - 1 read off cells that do not lie below a. -/
def Memory.run (a : Nat) : Nat → List Host.Cell → List Byte
  | 0, _ => []
  | n + 1, [] => List.replicate (n + 1) 0
  | n + 1, c :: cs => if c.1 = a then c.2 :: Memory.run (a + 1) n cs else 0 :: Memory.run (a + 1) n (c :: cs)
/-- A long range of a memory in canonical form, read in one pass. -/
def Memory.range (m : List Host.Cell) (a n : Nat) : List Byte :=
  Memory.run a n (m.filter fun c => decide (a ≤ c.1) && decide (c.1 < a + n))

/-- Keys of the three kinds of bytes: physical addresses stand for themselves; a rank's scratchpad window and a
far rank's private space lie above them (log entries 1, 11). -/
def spadKey (j r off : Nat) : Nat := 2 ^ 60 + (j * 2 ^ 14 + r) * 2 ^ 29 + off
def farKey (j r va : Nat) : Nat := 2 ^ 61 + (j * 2 ^ 14 + r) * 2 ^ 52 + va

namespace State
def byte (s : State) (k : Nat) : Byte := Memory.get s.mem k
def bytes (s : State) (k n : Nat) : List Byte := (List.range n).map fun i => s.byte (k + i)
/-- The doubleword at key k. -/
def word (s : State) (k : Nat) : Word := BitVec.ofNat 64 (leVal (s.bytes k 8))
/-- Bytes written with nothing else: reads and writes of the device's own tables. -/
def poke (s : State) (k : Nat) (bs : List Byte) : State := { s with mem := Memory.put s.mem k bs }
def pokeWord (s : State) (k : Nat) (x : Word) : State := s.poke k (leBytes 8 x.toNat)
end State

/-! ## The rank's address space (01 R26 to R29) -/

def fabLo : Nat := 0xE000000000000
def fabHi : Nat := 0xE800000000000
def spadLo : Nat := 0xFFF0000000000
def spadHi : Nat := 0xFFF0020000000

/-- Where an access of n bytes lies. -/
inductive Region
  | priv
  | fab (t o : Nat)
  | spad (off : Nat)
deriving DecidableEq, Repr

/-- The checks of R27 and R28 in the order of R235, for a rank of the given width in a job of V ranks. -/
def regionOf (width v va n : Nat) : Except Cause Region :=
  let last := va + (n - 1)
  if last < fabLo then .ok .priv
  else if fabLo ≤ va ∧ last < fabHi then
    let t := (va - fabLo) / 2 ^ 33
    let o := (va - fabLo) % 2 ^ 33
    if v ≤ t then .error .fabRank
    else if 2 ^ 33 < o + n then .error .fabRange
    else .ok (.fab t o)
  else if spadLo ≤ va ∧ last < spadHi then
    let i := (va - spadLo) / 2 ^ 22
    if width ≤ i ∨ (last - spadLo) / 2 ^ 22 ≠ i ∨ 0x2FFFFF < (last - spadLo) % 2 ^ 22 then .error .spadHole
    else .ok (.spad (va - spadLo))
  else .error .vaHole

/-- Who makes an access (13 R365, R367): the rank, its address space, the privilege, the client, whether A is
left alone (tier hint 2, 13 R375), the scheme a descriptor asks of its pages, 0 for any (03 R97); the core, from 1 on, and whether the
access itself minds its way and its send queue, as an agent's does that issues no instruction (10 R311; 11 R337); what a
transaction to another chip asks there: 2 an atomic, with its code and operand, 3 a CAS, with both, 4 an arrival count; else it is a read
or a write, with its bytes (11 R320). -/
structure Req where
  job : Nat
  rank : Nat
  width : Nat
  v : Nat
  asid : BitVec 16
  gen : BitVec 12
  priv : Bool
  client : Nat
  keepA : Bool := false
  comp : Nat := 0
  core : Nat := 0
  agent : Bool := false
  ask : List Nat := []
  bytes : List Byte := []
deriving DecidableEq, Repr

/-- The requester that is client `cl` of the focused core. -/
def State.req (s : State) (cl : Nat) : Req :=
  let j := s.myJob
  let r := s.myRank
  { job := s.core.job, rank := s.core.rank, width := j.width, v := j.v, asid := r.asid, gen := r.gen,
    priv := cl == 0 && s.core.priv, client := cl, core := s.core.phys + 1 }

/-- The same for an agent of the focused core. -/
def State.agentReq (s : State) (cl : Nat) : Req := { s.req cl with agent := true }

/-- A chip unit acting for rank r of job j, at the given privilege. -/
def State.unitReq (s : State) (j r : Nat) (priv : Bool) : Req :=
  let jb := (s.job? j).getD { num := j }
  let rk := (s.rank? j r).getD { job := j, rank := r }
  { job := j, rank := r, width := jb.width, v := jb.v, asid := rk.asid, gen := rk.gen, priv := priv, client := 9 }

inductive Kind | read | write | fetch
deriving DecidableEq, Repr

/-- What else is known of an access that does not perform: where its page fault is to be gathered: address space, page, rank, write (13
R370); or that it is no fault, since its way is shut: the transaction that waits, with its chip and rank, if it leaves the chip (10 R311;
11 R337). -/
inductive Mark
  | page (asid : BitVec 16) (n rank : Nat) (wr : Bool)
  | shut (tx : Option (Nat × Nat × FabTx))
deriving DecidableEq, Repr

/-- A fault met: its cause, the faulting address, and what else is known of it. -/
structure Flt where
  c : Cause
  va : Nat
  page : Option Mark := none
deriving DecidableEq, Repr

/-- Is it no fault: the access waits for its way. -/
def Flt.shut (f : Flt) : Bool :=
  match f.page with
  | some (.shut _) => true
  | _ => false

/-- A contiguous piece of an access after translation: the key of its first byte, the address space and virtual
address that name it in the write log (15 R419), and the address a fault on it reports (13 R366). -/
structure Piece where
  key : Nat
  len : Nat
  asid : BitVec 16
  va : Nat
  fva : Nat
deriving DecidableEq, Repr

/-- A leaf found by a walk (13 R365): its own address, level and word. -/
structure Leaf where
  ea : Nat
  lvl : Nat
  e : Word
deriving DecidableEq, Repr

/-- Does physical memory hold the address (13 R364). -/
def physOk (pa : Nat) : Bool := pa < 0x8000000000 || (0x20000000000 ≤ pa && pa < 0x38000000000)

/-- Level, lowest index bit, index bits (13 R363). -/
def walkLevels : List (Nat × Nat × Nat) := [(0, 42, 10), (1, 32, 10), (2, 26, 6), (3, 21, 5), (4, 16, 5)]
/-- log2 of the bytes a leaf of the level maps. -/
def pageBits : Nat → Nat
  | 1 => 32 | 2 => 26 | 3 => 21 | _ => 16

/-- Where the byte at physical address pa is authoritative: at the destination of a tier move, once its line has flipped
(13 R377). -/
def tierHome (s : State) (pa : Nat) : Nat :=
  match s.chip.moves.find? fun m => m.busy && decide (m.src ≤ pa) && decide (pa < m.src + m.next) with
  | some m => pa - m.src + m.dst
  | none => pa

/-- A doubleword of a translation table or an address space record, at its authoritative copy (13 R363, R369, R377). -/
def entryAt (s : State) (pa : Nat) : Word := s.word (tierHome s pa)
def setEntry (s : State) (pa : Nat) (e : Word) : State := s.pokeWord (tierHome s pa) e

/-- The loop of Translate (13 R365) from table t. A table outside physical memory is no valid entry (DEDUCED, log
entry 15). -/
def walk (s : State) : List (Nat × Nat × Nat) → Nat → Nat → Except Cause Leaf
  | [], _, _ => .error .xlEntry
  | (lvl, lo, n) :: rest, t, va =>
    let ea := t + 8 * (va / 2 ^ lo % 2 ^ n)
    let e := entryAt s ea
    if !physOk ea then .error .xlEntry
    else if !bitOf e 0 then .error .xlMiss
    else if !bitOf e 1 then
      if fld e 2 6 ≠ 0 ∨ fld e 52 12 ≠ 0 ∨ lvl = 4 then .error .xlEntry
      else walk s rest (fld e 8 44 * 256) va
    else if fld e 14 2 ≠ 0 ∨ fld e 52 12 ≠ 0 ∨ lvl = 0 then .error .xlEntry
    else .ok ⟨ea, lvl, e⟩

/-- Bytes of HBM4E that may be allocated: the good dies' capacity without its top 1/64 (13 R376, 15 R423, R424). -/
def hbmAlloc (c : Chip) : Nat := c.dies.toList.foldl (fun a d => a + 4 * d * 2 ^ 30) 0 * 63 / 64
/-- End of the part of LPDDR-6 that may be allocated. -/
def lpAllocEnd : Nat := 0x20000000000 + 0x18000000000 * 63 / 64

/-- Is the range of bytes wholly inside the tier's allocatable range (13 R365, R376). -/
def inTier (c : Chip) (tier pa n : Nat) : Bool :=
  if tier = 0 then pa + n ≤ hbmAlloc c else 0x20000000000 ≤ pa && pa + n ≤ lpAllocEnd

/-- Does some region of the HBM address map hold the line of pa (13 R382, R383). -/
def inMap (c : Chip) (pa : Nat) : Bool :=
  c.regions.toList.any fun r =>
    bitOf r 39 && fld r 0 33 ≤ pa / 64 && pa / 64 < fld r 0 33 + 2 ^ fld r 33 6

/-- CheckLeaf (13 R365), with the map of R383 and Limited Service (15 R426). -/
def checkLeaf (s : State) (l : Leaf) (k : Kind) (priv : Bool) : Except Cause Leaf :=
  let tier := fld l.e 5 2
  let size := 2 ^ pageBits l.lvl
  let pa := fld l.e 16 36 * 2 ^ 16
  let bad := tier = 3 ∨ pa % size ≠ 0 ∨ (tier ≤ 1 ∧ !inTier s.chip tier pa size)
    ∨ (tier = 0 ∧ (!inMap s.chip pa ∨ s.chip.svc = 1))
    ∨ (tier = 2 ∧ (2 ^ 47 ≤ pa ∨ 2 ^ 33 < pa % 2 ^ 33 + size))
  if bad then .error .xlEntry
  else if 4 ≤ fld l.e 7 3 then .error .xlScheme
  else if (bitOf l.e 4 ∧ !priv) ∨ (k = .write ∧ !bitOf l.e 2) ∨ (k = .fetch ∧ !bitOf l.e 3) then .error .xlPerm
  else .ok l

/-- Translate (13 R365): the walk of an existing address space, then CheckLeaf. The bits of the address space's record that must be zero
(13 R369) are not looked at: chapter 13 names no fault for them (DESIGN CHOICE, log entry 56). -/
def translate (s : State) (asid : BitVec 16) (va : Nat) (k : Kind) (priv : Bool) : Except Cause Leaf :=
  let root := entryAt s (s.chip.asBase.toNat + 32 * asid.toNat)
  if !bitOf root 52 then .error .xlMiss
  else match walk s walkLevels (fld root 13 39 * 2 ^ 13) va with
    | .error c => .error c
    | .ok l => checkLeaf s l k priv

/-- Capacity of a client's cache: CTL and fetch share 128 entries (13 R367). -/
def tlbCap (cl : Nat) : Nat := if cl ≤ 1 then Config.ctlTlbEntries else Config.streamTlbEntries
def tlbShare (cl : Nat) : Nat := if cl ≤ 1 then 0 else cl

/-- Does a translation-cache entry serve the access: CTL and fetch share a cache (13 R367). -/
def Tlb.hit (r : Req) (va : Nat) (t : Tlb) : Bool :=
  tlbShare t.client == tlbShare r.client && t.asid == r.asid && t.gen == r.gen && va / 2 ^ pageBits t.level == t.va / 2 ^ pageBits t.level

/-- Keep an entry loaded by a walk; the oldest of a full cache goes (DESIGN CHOICE, log entry 15). -/
def tlbInsert (t : Tlb) (ts : List Tlb) : List Tlb :=
  let mine := (ts.filter fun x => tlbShare x.client == tlbShare t.client).take (tlbCap t.client - 1)
  t :: (mine ++ ts.filter fun x => tlbShare x.client != tlbShare t.client)

/-- A walked leaf enters the client's cache with A set (13 R364, R367). Chip units (client 9) have no cache here. -/
def enterLeaf (s : State) (r : Req) (va : Nat) (l : Leaf) : State × Leaf :=
  let e := if r.keepA then l.e else l.e ||| 0x400
  let s := if e = l.e then s else setEntry s l.ea e
  let t : Tlb := { client := r.client, asid := r.asid, gen := r.gen, va := va, level := l.lvl, leaf := e, ea := l.ea }
  (if r.client = 9 then s else s.modCore fun c => { c with tlb := tlbInsert t c.tlb }, { l with e := e })

/-- Where a stream cache walks next once the n bytes at va touch the last quarter of a page: an entry holds the address that loaded it, so
an access below that address walks down (13 R367; log entry 15). -/
def nextPage (t : Tlb) (va n : Nat) : Option Nat :=
  let b := pageBits t.level
  let page := va / 2 ^ b * 2 ^ b
  if t.va ≤ va then (if 3 * 2 ^ (b - 2) ≤ va + (n - 1) - page then some (page + 2 ^ b) else none)
  else if va - page < 2 ^ (b - 2) ∧ 0 < page then some (page - 1)
  else none

/-- The walk ahead of a stream cache; one that faults leaves nothing (13 R367). -/
def prefetch (s : State) (r : Req) (va n : Nat) : State :=
  if r.client < 2 ∨ 5 < r.client then s
  else match (s.core.tlb.find? (·.hit r va)).bind (nextPage · va n) with
    | none => s
    | some a =>
      match regionOf r.width r.v a 1, translate s r.asid a .read r.priv with
      | .ok .priv, .ok l => if s.core.tlb.any (·.hit r a) then s else (enterLeaf s r a l).1
      | _, _ => s

/-- The leaf by a walk, which sets A and fills the cache. -/
def walkLeaf (s : State) (r : Req) (va : Nat) (k : Kind) : Except Cause (State × Leaf) :=
  match translate s r.asid va k r.priv with
  | .error c => .error c
  | .ok l => .ok (enterLeaf s r va l)

/-- The leaf from the client's cache, else by a walk. -/
def findLeaf (s : State) (r : Req) (va : Nat) (k : Kind) : Except Cause (State × Leaf) :=
  match s.core.tlb.find? (·.hit r va) with
  | none => walkLeaf s r va k
  | some t =>
    match checkLeaf s ⟨t.ea, t.level, t.leaf⟩ k r.priv with
    | .ok l => .ok (s, l)
    | .error _ => walkLeaf s r va k

/-- The leaf for an access of n bytes, the walk ahead of it, and D where it writes (13 R364, R367). -/
def leafFor (s : State) (r : Req) (va n : Nat) (k : Kind) : Except Cause (State × Leaf) :=
  match findLeaf s r va k with
  | .error c => .error c
  | .ok (s, l) =>
    let s := prefetch s r va n
    if k = .write ∧ !bitOf l.e 11 then
      let s := setEntry s l.ea (entryAt s l.ea ||| 0x800)
      let fix (t : Tlb) : Tlb := if t.ea = l.ea then { t with leaf := t.leaf ||| 0x800 } else t
      .ok (s.modCore fun c => { c with tlb := c.tlb.map fix }, { l with e := l.e ||| 0x800 })
    else .ok (s, l)

/-- The chip a line of rank r's private space has moved to, once a migration has flipped it (12 R350). -/
def movedTo (s : State) (j r va : Nat) : Option Nat :=
  (s.chip.migs.find? fun m => m.job == j && m.rank == r && !m.inward && m.flipped.contains (va / 64)).map (·.chip)

/-- Key of a byte of rank r's private space whose page lies at physical address pa: the far chip's, once its line has moved. -/
def homeKey (s : State) (j r va pa : Nat) : Nat := if (movedTo s j r va).isSome then farKey j r va else tierHome s pa

/-- Bytes one piece of an access may span: a page, or a line while lines are moving one by one. -/
def pieceUnit (s : State) : Nat :=
  if (s.chip.moves.any (·.busy)) || (s.chip.migs.any fun m => !m.inward && m.active) then 64 else 2 ^ 16

/-- Placement of rank t of job j (12 R342). -/
def placeOf (s : State) (j t : Nat) : PlaceEntry := ((s.job? j).getD { num := j }).place[t]?.getD {}
def setPlace (s : State) (j t : Nat) (f : PlaceEntry → PlaceEntry) : State :=
  s.modJob j fun x => { x with place := x.place.mapIdx fun i e => if i = t then f e else e }

/-- A list kept in ascending order without repeats. -/
def insAsc (x : Nat) : List Nat → List Nat
  | [] => [x]
  | y :: ys => if x < y then x :: y :: ys else if x = y then y :: ys else y :: insAsc x ys
def ascNats (l : List Nat) : List Nat := l.foldr insAsc []

/-- Words of an entry as a placement message carries them (12 R342, R351). -/
def stateCode : PlaceState → Nat
  | .absent => 0 | .active => 1 | .cold => 2 | .moving => 3 | .forward => 4 | .withdrawn => 5
def entryWord0 (e : PlaceEntry) : Nat :=
  e.chip % 2 ^ 10 + 2 ^ 10 * (e.ocol % 16) + 2 ^ 14 * (e.orow % 8) + 2 ^ 17 * stateCode e.state + 2 ^ 20 * (e.pendack % 2 ^ 11)
    + 2 ^ 31 * b2n e.wake + 2 ^ 32 * e.pgen.toNat
def placeWords (e : PlaceEntry) : List Nat :=
  entryWord0 e :: [e.phaseBase, e.stageBase, e.exportBase, e.watchBase, e.frameBase, e.accBase, e.ctxBase].map (·.toNat)

/-- Chips that hold ranks of the job, other than this one. -/
def farChips (s : State) (j : Nat) : List Nat :=
  (((s.job? j).map (·.place)).getD [] |>.filterMap fun e =>
    if e.chip = s.chip.id ∨ e.state = .absent ∨ e.state = .withdrawn ∨ e.state = .forward then none else some e.chip) |> ascNats

/-- A rank's entry goes to every other chip of the job (12 R342, R351). -/
def tellPlace (j r : Nat) (e : PlaceEntry) (s : State) : State :=
  (farChips s j).foldl (fun s c => s.post .placement ([c, j, r] ++ placeWords e)) s

/-- An access reaches a rank of this chip: a cold one gets WAKE (12 R356). -/
def wakeCold (j t : Nat) (s : State) : State :=
  let e := placeOf s j t
  let up : PlaceEntry := { e with wake := true }
  if (s.rank? j t).any (·.cold) && !e.wake then tellPlace j t up (setPlace s j t fun _ => up) else s

/-! ## Lanes toward other chips (11 R318 to R324, R337) -/

/-- A lane code of R321. -/
def laneCode : LaneSt → Nat
  | .dark => 0 | .baseline => 1 | .leased => 2 | .notice => 3 | .aperture => 4 | .repair => 5 | .retired => 6 | .pending => 7

/-- A lane of some lease: not one lent to the Fabric Migration Engine (12 R349). -/
def Lane.leased (l : Lane) : Bool := l.st == .leased && l.peerRank != 16384

/-- A lane that goes dark: errors of a window that still runs keep its entry (11 R321, R340). -/
def Lane.darken (l : Lane) : List Lane :=
  if l.err = 0 then [] else [{ k := l.k, peer := 0, wave := 0, st := .dark, err := l.err, errAt := l.errAt }]
/-- A dark lane is taken; its errors go on counting. -/
def lightIn (x : Lane) (ls : List Lane) : List Lane :=
  let old := ls.find? (·.k == x.k)
  ls.filter (·.k != x.k) ++ [{ x with err := (old.map (·.err)).getD 0, errAt := (old.map (·.errAt)).getD 0 }]
def laneFree (ls : List Lane) (k : Nat) : Bool := !ls.any fun l => l.k == k && l.st != .dark

/-- The peer hears what became of the ingress lane that an egress lane lands on (11 R318, R321, R327, R328). -/
def tellLane (st : LaneSt) (s : State) (l : Lane) : State :=
  if l.st = .pending ∨ l.st = .dark then s else s.post .leaseOffer [l.peer, l.job, l.holder, 4, laneCode st, l.k / 8 * 8 + l.wave]

/-- Flits toward a chip that no lane carries are kept (11 R328, R339). -/
def keepFlits (c : Nat) (l : List Nat) (r : List (Nat × List Nat)) : List (Nat × List Nat) :=
  if l.isEmpty then r else (c, (r.lookup c).getD [] ++ l) :: r.filter (·.1 != c)
def keepAll (l : List Flit) (r : List (Nat × List Nat)) : List (Nat × List Nat) := l.foldl (fun r f => keepFlits f.peer [f.tx] r) r

/-- Egress lanes go dark: the peers hear of it, and what they still had to carry is kept. -/
def darkenLanes (p : Lane → Bool) (s : State) : State :=
  let out := s.chip.egress.filter fun l => p l && l.st != .dark
  let t := out.foldl (tellLane .dark) s
  t.modChip fun c =>
    { c with egress := c.egress.flatMap fun l => if p l && l.st != .dark then l.darken else [l]
             resend := out.foldl (fun r l => keepAll l.unacked r) c.resend }

def modLane (s : State) (k : Nat) (f : Lane → Lane) : State :=
  s.modChip fun c => { c with egress := c.egress.map fun l => if l.k = k then f l else l }
def laneAt (s : State) (k : Nat) : Option Lane := s.chip.egress.find? (·.k == k)

/-- The last number of a lane's link with a chip (11 R320). -/
def Lane.last (l : Lane) (c : Nat) : Nat := (l.links.lookup c).getD 0
/-- Transactions take the next numbers of the link to a chip, and their flits stay in the lane's retry buffer until acknowledged (11 R320,
R338). -/
def Lane.carry (c : Nat) (txs : List Nat) (l : Lane) : Lane :=
  { l with unacked := l.unacked ++ txs.mapIdx fun i t => ⟨c, l.last c + i + 1, t⟩
           links := (c, l.last c + txs.length) :: l.links.filter (·.1 != c) }
/-- Transactions issued before are issued again on a lane (11 R328, R339). -/
def carryOn (k c : Nat) (txs : List Nat) (s : State) : State := (modLane s k (Lane.carry c txs)).post .flit ([c, k, 0] ++ txs)

/-- A lane that is lit toward a chip carries the flits kept for it (11 R339). -/
def relight (k c : Nat) (s : State) : State :=
  match s.chip.resend.lookup c with
  | none => s
  | some fl => carryOn k c fl (s.modChip fun x => { x with resend := x.resend.filter (·.1 != c) })

/-- The eligible set of rank `me` of job j toward a chip, in ascending k (11 R323). -/
def laneSet (s : State) (j me chip : Nat) : List Nat :=
  let leased := s.chip.egress.filter fun l => l.leased && l.job == j && l.holder == me && l.peer == chip
  let base := s.chip.egress.filter fun l => l.st == .baseline && l.peer == chip
  let apt := ((s.job? j).map (·.apt)).getD {}
  if !leased.isEmpty then ascNats (leased.map (·.k))
  else if apt.act && apt.plan.maps.any (·.peer == chip) then
    let lit (k : Nat) : Bool := s.chip.egress.any fun l => l.k == k && l.st == .aperture
    ascNats ((apt.plan.maps.zipIdx.flatMap fun m => if m.1.peer = chip ∧ apt.openW.contains m.2 then m.1.lanes else []).filter lit)
  else ascNats (base.map (·.k))

/-- PathHash (11 R323). -/
def pathHash (va : Nat) : Nat :=
  let key := va / 64 % 2 ^ 41
  (key % 2 ^ 16).xor ((key / 2 ^ 16 % 2 ^ 16).xor (key / 2 ^ 32))

/-- The lane an access to a fabric address takes (11 R323). -/
def laneFor (s : State) (j me chip va : Nat) : Option Nat :=
  let l := laneSet s j me chip
  if l.isEmpty then none else l[pathHash va % l.length]?

/-- The other chip that holds rank t, when it is not here. -/
def farChip (s : State) (j t : Nat) : Option Nat :=
  match s.rank? j t with
  | some _ => none
  | none => if (placeOf s j t).chip = s.chip.id then none else some (placeOf s j t).chip

/-- What a transaction asks, as its message says it (11 R320). -/
def Req.asks (r : Req) (wr : Bool) : List Nat := if !r.ask.isEmpty then r.ask else if wr then 1 :: r.bytes.map (·.toNat) else [0]

/-- The next number in this chip's sequence toward another (11 R324). -/
def nextTx (s : State) (c : Nat) : Nat := (s.chip.txSeq.lookup c).getD 0 + 1
def takeNumber (c : Nat) (s : State) : State :=
  let i := nextTx s c
  s.modChip fun x => { x with txSeq := (c, i) :: x.txSeq.filter (·.1 != c) }

/-- A transaction toward a chip is numbered and leaves on a lane, under the next number of its link; with none lit it is kept for the next
lane toward that chip (11 R320, R324, R338, R339). -/
def sendOn (c : Nat) (k : Option Nat) (body : List Nat) (s : State) : State :=
  let i := nextTx s c
  let s := takeNumber c s
  match k with
  | none => (s.modChip fun x => { x with resend := keepFlits c [i] x.resend }).post .fabric ([c, 2048, 0, i] ++ body)
  | some k =>
    let m := ((laneAt s k).map (·.last c)).getD 0 + 1
    (modLane s k (Lane.carry c [i])).post .fabric ([c, k, m, i] ++ body)

/-- An access toward a rank of another chip leaves with its target rank and offset and all it asks (11 R320). -/
def sendFlit (s : State) (r : Req) (t va n : Nat) (wr : Bool) : State :=
  match farChip s r.job t with
  | none => s
  | some c => sendOn c (laneFor s r.job r.rank c va) ([r.job, t, (va - fabLo) % 2 ^ 33, n] ++ r.asks wr) s

/-- An access of this chip to a line that has moved goes on to the new chip, as any that reaches the old home (12 R350). -/
def sendMoved (s : State) (r : Req) (t o n va : Nat) (wr : Bool) : State :=
  match movedTo s r.job t va with
  | none => s
  | some c => sendOn c (laneFor s r.job r.rank c (fabLo + t * 2 ^ 33 + o)) ([r.job, t, o, n, 6, s.chip.id, 0] ++ r.asks wr) s

/-- The export access at offset o of rank t, for the requester (01 R28, R29; 13 R366; 12 R356, R360). The fault's address is
`fva`. -/
def serveExport (s : State) (r : Req) (t o n fva : Nat) (k : Kind) : Except Flt (State × Piece) :=
  let j := r.job
  let comp := r.comp
  let pe := placeOf s j t
  match s.rank? j t with
  | none =>
    if pe.state = .withdrawn then .error ⟨.rankLost, fva, none⟩
    else
      let va := pe.exportBase.toNat + o
      .ok (sendFlit s r t fva n (decide (k = .write)), ⟨farKey j t va, n, 0, va, fva⟩)
  | some rk =>
    let va := rk.expBase.toNat + o
    let wr := k = .write
    match leafFor s (s.unitReq j t false) va n k with
    | .error c => .error ⟨c, fva, some (.page rk.asid (va / 2 ^ 16) t wr)⟩
    | .ok (s, l) =>
      if comp ≠ 0 ∧ fld l.e 7 3 ≠ comp then .error ⟨.tiComp, fva, none⟩
      else if fld l.e 5 2 = 2 then .error ⟨.xlEntry, fva, some (.page rk.asid (va / 2 ^ 16) t wr)⟩
      else
        let pa := fld l.e 16 36 * 2 ^ 16 + va % 2 ^ pageBits l.lvl
        .ok (sendMoved (wakeCold j t s) r t o n va wr, ⟨homeKey s j t va pa, n, rk.asid, va, fva⟩)

/-- One access of n bytes inside one 64 KiB page, or anywhere in a scratchpad window (01 R27, R28; 13 R365, R366). -/
def locate (s : State) (r : Req) (va n : Nat) (k : Kind) : Except Flt (State × Piece) :=
  match regionOf r.width r.v va n with
  | .error c => .error ⟨c, va, none⟩
  | .ok (.spad off) => .ok (s, ⟨spadKey r.job r.rank off, n, r.asid, va, va⟩)
  | .ok (.fab t o) => serveExport s r t o n va k
  | .ok .priv =>
    match leafFor s r va n k with
    | .error c => .error ⟨c, va, some (.page r.asid (va / 2 ^ 16) r.rank (decide (k = .write)))⟩
    | .ok (s, l) =>
      let inPage := va % 2 ^ pageBits l.lvl
      if r.comp ≠ 0 ∧ fld l.e 7 3 ≠ r.comp then .error ⟨.tiComp, va, none⟩
      else if fld l.e 5 2 = 2 then
        let f := fld l.e 16 31 * 2 ^ 16 + inPage
        if r.v ≤ f / 2 ^ 33 then .error ⟨.fabRank, fabLo + f, none⟩
        else if 2 ^ 33 < f % 2 ^ 33 + n then .error ⟨.fabRange, fabLo + f, none⟩
        else serveExport s r (f / 2 ^ 33) (f % 2 ^ 33) n (fabLo + f) k
      else .ok (s, ⟨homeKey s r.job r.rank va (fld l.e 16 36 * 2 ^ 16 + inPage), n, r.asid, va, va⟩)

/-- A longer access, piece by piece. -/
def locateAll (s : State) (r : Req) (k : Kind) : Nat → Nat → Nat → Except Flt (State × List Piece)
  | 0, _, _ => .ok (s, [])
  | fuel + 1, va, n =>
    if n = 0 then .ok (s, [])
    else
      let m := min n (pieceUnit s - va % pieceUnit s)
      match locate s { r with bytes := r.bytes.take m } va m k with
      | .error f => .error f
      | .ok (s, p) =>
        match locateAll s { r with bytes := r.bytes.drop m } k fuel (va + m) (n - m) with
        | .error f => .error f
        | .ok (s, ps) => .ok (s, p :: ps)

/-- The rank whose export window an access reaches, and its address in the fabric window (01 R28; 13 R366). -/
def fabTarget (s : State) (r : Req) (va n : Nat) : Option (Nat × Nat) :=
  match regionOf r.width r.v va n with
  | .ok (.fab t _) => some (t, va)
  | .ok .priv =>
    match translate s r.asid va .read true with
    | .ok l =>
      if fld l.e 5 2 = 2 then
        let f := fld l.e 16 31 * 2 ^ 16 + va % 2 ^ pageBits l.lvl
        some (f / 2 ^ 33, fabLo + f)
      else none
    | .error _ => none
  | _ => none

/-- The chip an access goes to and its address in the fabric window, when it leaves this chip. -/
def farAccess (s : State) (r : Req) (va n : Nat) : Option (Nat × Nat) :=
  (fabTarget s r va n).bind fun x => (farChip s r.job x.1).map fun c => (c, x.2)

/-- Does a shared port's table give the job's tenant an entry: of the HBM controllers 0, the fabric injection port 1, the Fabric
Migration Engine 2 (10 R310, R311). -/
def portHeld (s : State) (port j : Nat) : Bool :=
  let t := ((s.job? j).map (·.tenant)).getD 16
  (s.chip.ports[port]?.getD []).any fun e => bitOf e 4 && fld e 0 4 == t

/-- Does an access on the chip reach a line of HBM4E. -/
def hbmAccess (s : State) (r : Req) (va n : Nat) : Bool :=
  match locate s { r with keepA := true } va n .read with
  | .ok (_, p) => p.key < 0x8000000000
  | .error _ => false

/-- Is a rank on its way here, with this chip's own marker not yet back from the old home: accesses to it wait (12 R342, R350,
R352). -/
def arriving (s : State) (j t : Nat) : Bool :=
  s.chip.migs.any fun m => m.job == j && m.rank == t && m.inward && (m.active || !m.markers.contains s.chip.id)

/-- Is the way open: the ports it needs serve the job's tenant, the target rank is not on its way here, and toward another chip the
eligible set holds a lane (10 R311; 11 R323; 12 R352). -/
def wayOpen (s : State) (r : Req) (va n : Nat) : Bool :=
  let onChip := !hbmAccess s r va n || portHeld s 0 r.job
  match fabTarget s r va n with
  | none => onChip
  | some (t, fva) =>
    !arriving s r.job t && (match farChip s r.job t with
      | none => onChip
      | some c => portHeld s 1 r.job && (laneFor s r.job r.rank c fva).isSome)

/-- Bytes of a queued transaction (11 R337): a flit with its data. -/
def FabTx.bytes (x : FabTx) : Nat :=
  match x.op with
  | .write b => 64 + b.length
  | _ => 64

/-- A transaction of rank `me` joins the send queue of its chip; none when all 64 queues are bound or the queue is full (11 R337). -/
def enqueueTx (s : State) (chip me : Nat) (x : FabTx) : Option State :=
  let q := (s.chip.sendQ.lookup chip).getD []
  let used := q.foldl (fun a y => a + FabTx.bytes y.2) 0
  let bound := (s.chip.sendQ.lookup chip).isSome
  if (!bound && 64 ≤ s.chip.sendQ.length) || 131072 < used + FabTx.bytes x then none
  else some (s.modChip fun c => { c with sendQ := c.sendQ.filter (·.1 != chip) ++ [(chip, q ++ [(me, x)])] })

/-- Does the queue of a chip hold a transaction that leaves before this one: any before it, for the queue is first in, first out; for one
that has not joined, any that could leave now (11 R336, R337). -/
def queueAhead (s : State) (chip me : Nat) (x : FabTx) : Bool :=
  let q := (s.chip.sendQ.lookup chip).getD []
  if q.contains (me, x) then q.head? != some (me, x) else q.any fun y => !(laneSet s y.2.job y.1 chip).isEmpty

/-- A queued transaction leaves; an empty queue is freed (11 R337). -/
def dequeueTx (s : State) (chip me : Nat) (x : FabTx) : State :=
  s.modChip fun c =>
    { c with sendQ := (c.sendQ.map fun q => if q.1 = chip then (q.1, q.2.erase (me, x)) else q).filter fun q => !q.2.isEmpty }

/-- The transaction of an access that leaves the chip, and its chip (11 R320, R337). -/
def farTx (s : State) (r : Req) (op : FabOp) (addr size : Nat) : Option (Nat × FabTx) :=
  (farAccess s r addr size).map fun x =>
    (x.1, { src := s.chip.id, seq := r.core, viaOld := false, job := r.job, rank := (x.2 - fabLo) / 2 ^ 33,
            off := BitVec.ofNat 33 (x.2 - fabLo), op := op })

/-- May an access go now: its way is open, and nothing of its send queue leaves first (11 R323, R336, R337). -/
def mayGo (s : State) (r : Req) (op : FabOp) (addr size : Nat) : Bool :=
  wayOpen s r addr size && !((farTx s r op addr size).map fun x => queueAhead s x.1 r.rank x.2).getD false

/-- An access that leaves the chip leaves its send queue (11 R337). -/
def unqueue (s : State) (r : Req) (op : FabOp) (addr size : Nat) : State :=
  match farTx s r op addr size with
  | none => s
  | some (c, x) => dequeueTx s c r.rank x

/-- An agent's access that may not go stands in its chip's send queue, when there is room (11 R337). -/
def joinQueue (f : Flt) (s : State) : State :=
  match f.page with
  | some (.shut (some (c, me, x))) =>
    if ((s.chip.sendQ.lookup c).getD []).contains (me, x) then s else (enqueueTx s c me x).getD s
  | _ => s

/-- What a core had in the send queues leaves them. -/
def quitQueues (phys : Nat) (s : State) : State :=
  s.modChip fun c =>
    { c with sendQ := (c.sendQ.map fun q => (q.1, q.2.filter fun x => x.2.seq != phys + 1)).filter fun q => !q.2.isEmpty }

/-- The parts of a range in the pages of 64 KiB that it touches. -/
def pageParts (va n : Nat) : List (Nat × Nat) :=
  (List.range ((va % 2 ^ 16 + n + (2 ^ 16 - 1)) / 2 ^ 16)).map fun i =>
    let a := max va ((va / 2 ^ 16 + i) * 2 ^ 16)
    (a, min (va + n) ((va / 2 ^ 16 + i + 1) * 2 ^ 16) - a)

/-- An agent's access part by part: each may go, and then leaves its send queue; the first that may not stops it (10 R311; 11 R323, R336,
R337). -/
def agentWay (r : Req) (k : Kind) : List (Nat × Nat) → State → Except Flt State
  | [], s => .ok s
  | (a, n) :: ps, s =>
    let op : FabOp := if k = .write then .write (List.replicate n 0) else .read n
    if mayGo s r op a n then agentWay r k ps (unqueue s r op a n)
    else .error ⟨.genStale, a, some (.shut ((farTx s r op a n).map fun x => (x.1, r.rank, x.2)))⟩

/-- The range as a whole (01 R27, R28), an agent's way, then its pages. -/
def access (s : State) (r : Req) (va n : Nat) (k : Kind) : Except Flt (State × List Piece) :=
  match regionOf r.width r.v va n with
  | .error c => .error ⟨c, va, none⟩
  | .ok _ =>
    match (if r.agent then agentWay r k (pageParts va n) s else .ok s) with
    | .error f => .error f
    | .ok s => locateAll s r k (n / pieceUnit s + 2) va n

/-! ## Performing -/

/-- The first poisoned line a piece touches, as an address in the piece's space; a store that covers a line does not
count (13 R381, 15 R416). -/
def poisonAt (s : State) (wr : Bool) (p : Piece) : Option Nat :=
  let lines := (List.range ((p.key % 64 + p.len + 63) / 64)).map (· + p.key / 64)
  (lines.find? fun l => s.poison.contains l && !(wr && p.key ≤ l * 64 && l * 64 + 64 ≤ p.key + p.len)).map
    fun l => p.fva + l * 64 - p.key

/-- Read pieces. -/
def readPieces (s : State) : List Piece → Except Flt (List Byte)
  | [] => .ok []
  | p :: ps =>
    match poisonAt s false p with
    | some va => .error ⟨.memPoison, va, none⟩
    | none =>
      match readPieces s ps with
      | .error f => .error f
      | .ok bs => .ok (s.bytes p.key p.len ++ bs)

/-- The frame record of a physical address (13 R373). -/
def frameOf (s : State) (pa : Nat) : Option Frame := s.chip.frames.find? (·.pa == pa / 2 ^ 16 * 2 ^ 16)
def modFrame (s : State) (pa : Nat) (f : Frame → Frame) : State :=
  s.modChip fun c => { c with frames := c.frames.map fun x => if x.pa = pa / 2 ^ 16 * 2 ^ 16 then f x else x }

/-- The write log's record for one line about to be written, in an interval that a launch has opened (15 R417, R419, R420). -/
def logLine (s : State) (pa va : Nat) (asid : BitVec 16) : State :=
  match frameOf s pa with
  | none => s
  | some f =>
    if !f.alloc then s
    else match s.job? f.job with
      | none => s
      | some j =>
        if j.ckpt.isNone || j.logFull || j.log.any (·.pa == pa) then s
        else if j.logLines ≤ j.log.length then
          (s.modJob j.num fun x => { x with logFull := true }).post .event [0x0413, j.num]
        else s.modJob j.num fun x => { x with log := x.log ++ [⟨pa, va, asid, s.bytes pa 64⟩] }

/-- The DIRTY bits of the chunks a store touches, on an HBM4E frame (13 R373). -/
def markDirty (s : State) (pa n : Nat) : State :=
  if 0x8000000000 ≤ pa then s
  else
    let lo := pa % 2 ^ 16 / 4096
    let hi := min 15 ((pa % 2 ^ 16 + (n - 1)) / 4096)
    let mask : BitVec 16 := BitVec.ofNat 16 (2 ^ (hi + 1) - 2 ^ lo)
    modFrame s pa fun f => if f.alloc then { f with dirty := f.dirty ||| mask } else f

/-- What the memory controller does before a store to physical memory performs; a store by physical address has no virtual line
to log (log entry 24). -/
def beforeStore (s : State) (p : Piece) : State :=
  if 2 ^ 60 ≤ p.key then s
  else
    let s := (List.range ((p.key % 64 + p.len + 63) / 64)).foldl (fun s i =>
      let l := (p.key / 64 + i) * 64
      logLine s l (if p.asid = 0 ∧ p.va = 0 then 0 else p.va + l - p.key) p.asid) s
    markDirty s p.key p.len

/-- Words as a list of a given length. -/
def padTo (n : Nat) (l : List Nat) : List Nat := l.take n ++ List.replicate (n - l.length) 0
/-- Words as bytes. -/
def wordBytes (l : List Nat) : List Byte := l.flatMap fun x => leBytes 8 x

/-- A watch entry of 16 words (08 R244). -/
def watchWords (spilled : Bool) (e : WEnt) : List Nat :=
  padTo 16 ([e.waddr % 2 ^ 52 + 2 ^ 52 + 2 ^ 53 * b2n e.rdy + 2 ^ 54 * b2n spilled + 2 ^ 55 * e.stage, e.thresh.toNat,
    e.cont.toNat * 32, e.rtime] ++ e.save.map (·.toNat))

/-- The value of a watch word, when its address translates (08 R246). -/
def watchVal (s : State) (j r : Nat) (va : Nat) : Option Nat :=
  match locate s { s.unitReq j r true with keepA := true } va 8 .read with
  | .ok (_, p) => some (s.word p.key).toNat
  | .error _ => none

/-- One entry compared with its word (08 R246): once ready it stays ready. -/
def WEnt.compare (s : State) (j r : Nat) (e : WEnt) : WEnt :=
  if e.rdy then e
  else match watchVal s j r e.waddr with
    | some v => if e.thresh.toNat ≤ v then { e with rdy := true, rtime := s.now } else e
    | none => e

/-- A REPLY word's first nonzero value is taken (15 R406). -/
def Fwd.look (s : State) (f : Fwd) : Fwd :=
  match f.at' with
  | .ring key => if f.reply = 0 then { f with reply := (s.word key).toNat % 4 } else f
  | _ => f

/-- Every watch entry of the chip compared, those of a rank whose cores are saved too, and every REPLY word, after a store has performed
(08 R245, R246; 15 R406). -/
def recheck (s : State) : State :=
  let look (c : Core) : Core :=
    { c with watch := c.watch.map fun o => o.map (·.compare s c.job c.rank), fwds := c.fwds.map (Fwd.look s) }
  { s.mapCores look with
    ranks := s.ranks.map fun k =>
      let k := { k with fwds := k.fwds.map (Fwd.look s) }
      if k.cold then k else { k with saved := k.saved.map look, spill := k.spill.map fun x => (x.1, x.2.compare s k.job k.rank) } }

/-- Lines a store covers are no longer poisoned, and a later error there is a new item (13 R381, 15 R416). -/
def clearPoison (s : State) (p : Piece) : State :=
  let covers (l : Nat) : Bool := p.key ≤ l * 64 && l * 64 + 64 ≤ p.key + p.len
  if s.poison.any covers then
    { s with poison := s.poison.filter fun l => !covers l
             jobs := s.jobs.map fun j => { j with poisoned := j.poisoned.filter fun x => !covers x.2 } }
  else s

/-- The partition a job belongs to, 16 for none: a job has one from its launch on (10 R291; log entry 13). -/
def jobPart (s : State) (j : Nat) : Nat :=
  match s.job? j with
  | none => 16
  | some x => if x.status = .free then 16 else x.tenant

/-- Does key slot t hold no key; slot 16 is the system's (14 R390). -/
def slotBare (s : State) (t : Nat) : Bool := ((s.chip.tdi[t]?).map (·.key)).getD s.chip.sysKey |>.isNone

/-- Does the line's key slot hold no key (14 R390). -/
def noKey (s : State) (pa : Nat) : Bool :=
  match frameOf s pa with
  | none => slotBare s 16
  | some f => slotBare s (if f.alloc then jobPart s f.job else 16)

/-- Write pieces that no poison stops; a write to a line without a key is discarded (14 R390). -/
def writePieces (s : State) : List Piece → List Byte → State
  | [], _ => s
  | p :: ps, bs =>
    let put (s : State) : State := (clearPoison (beforeStore s p) p).poke p.key (bs.take p.len)
    writePieces (if noKey s p.key then s else put s) ps (bs.drop p.len)

/-- Write a spilled entry's bytes at its slot of the spill area, where that translates (08 R245). -/
def writeSpill (s : State) (k : Rank) (slot : Nat) (ws : List Nat) : State :=
  match access s { s.unitReq k.job k.rank true with keepA := true } (k.watchBase.toNat + 128 * slot) 128 .write with
  | .ok (s, ps) => writePieces s ps (wordBytes ws)
  | .error _ => s

/-- Does the spill area hold the entry's bytes as they now are, where it translates. -/
def spillShown (s : State) (k : Rank) (x : Nat × WEnt) : Bool :=
  match access s { s.unitReq k.job k.rank true with keepA := true } (k.watchBase.toNat + 128 * x.1) 128 .write with
  | .ok (s, ps) => match readPieces s ps with
    | .ok bs => bs == wordBytes (watchWords true x.2)
    | .error _ => true
  | .error _ => true

/-- The spill area follows its entries: the first whose bytes are not as it is now has them written (08 R244, R245; DEDUCED, log
entry 48); none when all are. -/
def showSpill (s : State) : Option State :=
  (s.ranks.filter fun k => !k.cold).findSome? fun k =>
    (k.spill.find? fun x => !spillShown s k x).map fun x => writeSpill s k x.1 (watchWords true x.2)

/-- A read of n bytes at va: the state keeps what translation did (A bits, caches). -/
def readMem (s : State) (r : Req) (va n : Nat) : Except Flt (State × List Byte) :=
  match access s r va n .read with
  | .error f => .error f
  | .ok (s, ps) =>
    match readPieces s ps with
    | .error f => .error f
    | .ok bs => .ok (s, bs)

/-- A store of bytes at va; the watch entries look again (07 R198, 08 R246). -/
def writeMem (s : State) (r : Req) (va : Nat) (bs : List Byte) : Except Flt State :=
  match access s { r with bytes := bs } va bs.length .write with
  | .error f => .error f
  | .ok (s, ps) =>
    match ps.findSome? (poisonAt s true) with
    | some va => .error ⟨.memPoison, va, none⟩
    | none => .ok (recheck (writePieces s ps bs))

/-- A range of physical addresses as pieces at their authoritative copies: line by line while a page is moving (13 R377). -/
def physPieces (s : State) (pa n : Nat) : List Piece :=
  if s.chip.moves.any (·.busy) then
    (List.range ((pa % 64 + n + 63) / 64)).map fun i =>
      let lo := max pa ((pa / 64 + i) * 64)
      ⟨tierHome s lo, min (pa + n) ((pa / 64 + i + 1) * 64) - lo, 0, 0, lo⟩
  else [⟨pa, n, 0, 0, pa⟩]

/-- Bytes at a physical address, each at its authoritative copy. -/
def physBytes (s : State) (pa n : Nat) : List Byte := (physPieces s pa n).flatMap fun p => s.bytes p.key p.len

/-- Bytes written at a physical address by a bus agent, with log, dirty bits and watch (15 R419). -/
def writePhys (s : State) (pa : Nat) (bs : List Byte) : State :=
  recheck (writePieces s (physPieces s pa bs.length) bs)

/-- A page fault is gathered into the chip's batch (13 R370). -/
def noteFault (s : State) (cl : Nat) (f : Flt) : State :=
  match f.page with
  | none | some (.shut _) => s
  | some (.page asid page rank wr) =>
    let same (x : PFault) : Bool := x.asid == asid && x.page == page && x.cause == f.c
    s.modChip fun c =>
      if c.faults.any same then
        { c with faults := c.faults.map fun x => if same x then { x with wr := x.wr || wr, clients := x.clients ||| 2 ^ cl } else x }
      else
        { c with faults := c.faults ++ [⟨asid, page, f.c, wr, rank, 2 ^ cl, c.ticks⟩],
                 faultsAt := some (c.faultsAt.getD c.ticks) }

end Sys2Proof.Machine
end

