-- ==== Sys2Proof/Machine/Operands.lean ====
section
/-!
DEFINITION. Operand forms and result paths of the scalar sequencers: registers, bypass latches, results in
flight (02 R46 to R49; 08 R228; 15 R414), positions in code (02 R37 to R41), and the ends a meaning can have.
-/
namespace Sys2Proof.Machine

/-- What a wait is for: other sequencers of the core, and the issue of its MTX and DRN. An exposed region does not freeze them for it
(02 R58; log entry 46). -/
structure Awaited where
  seqs : List Seqr := []
  eng : Bool := false
deriving DecidableEq, Repr

/-- What a meaning ends in: done; a stall, after which the same instruction is issued again; a wait of the same kind for other
sequencers or engines; a cause raised, with the frame's AUX (15 R410); a stop of the machine. -/
inductive Out
  | ok (s : State)
  | stall (s : State)
  | wait (on : Awaited) (s : State)
  | trap (f : Flt) (aux : Nat) (s : State)
  | stop (f : Fault)

/-- A cause with no faulting address. -/
def Out.raise (c : Cause) (s : State) : Out := .trap ⟨c, 0, none⟩ 0 s

/-- What reading an operand gives: its value, nothing yet, or a cause. -/
inductive Rd (α : Type)
  | val (x : α)
  | wait
  | bad (c : Cause)

/-! ## Registers -/

/-- The register CTL's code n reaches: the main bank, the shadow of s40 to s47 in the user completion handler (48 to
55), or the system bank (64 and up) (08 R258; 15 R414). -/
def ctlIx (c : Core) (n : Nat) : Nat :=
  if c.priv then 64 + n else if c.uh && 40 ≤ n && n < 48 then n + 8 else n

/-- Read a CTL register; s0 reads zero (02 R46). -/
def Core.getS (c : Core) (i : Nat) : Word :=
  if i = 0 ∨ i = 64 then 0
  else if i < 48 then c.s[i]?.getD 0
  else if i < 64 then c.shadow[i - 48]?.getD 0
  else c.sysS[i - 64]?.getD 0

/-- Write a CTL register; a write to s0 is discarded (02 R46). -/
def Core.putS (c : Core) (i : Nat) (x : Word) : Core :=
  if i = 0 ∨ i = 64 then c
  else if i < 48 then { c with s := c.s.setIfInBounds i x }
  else if i < 64 then { c with shadow := c.shadow.setIfInBounds (i - 48) x }
  else { c with sysS := c.sysS.setIfInBounds (i - 64) x }

/-- The register a scalar sequencer's code reaches. -/
def regIx (c : Core) (q : Seqr) (n : Nat) : Nat :=
  match q with
  | .ctl => ctlIx c n
  | _ => n

def Core.getReg (c : Core) (q : Seqr) (i : Nat) : Word :=
  match q with
  | .ctl => c.getS i
  | .acs => c.a[i]?.getD 0
  | .mov => c.d[i]?.getD 0
  | .vec => 0

def Core.putReg (c : Core) (q : Seqr) (i : Nat) (x : Word) : Core :=
  match q with
  | .ctl => c.putS i x
  | .acs => { c with a := c.a.setIfInBounds i x }
  | .mov => { c with d := c.d.setIfInBounds i x }
  | .vec => c

/-- The register of the issuing sequencer, as an instruction names it. -/
def reg (s : State) (q : Seqr) (n : BitVec 6) : Word := s.core.getReg q (regIx s.core q n.toNat)

/-- The destination an issued access still owes, with its nw bit (07 R203; 15 R408). -/
def AccOp.dest : AccOp → Option (Nat × Bool)
  | .load _ d nw | .atom _ _ d nw | .cas _ _ d nw => some (d, nw)
  | _ => none

/-- Does an access of the sequencer that has not performed owe register i (02 R49)? Nothing is owed to s0. -/
def owes (s : State) (q : Seqr) (i : Nat) : Bool :=
  !(q == .ctl && (i == 0 || i == 64)) && s.core.accq.any fun a => a.q == q && a.op.dest == some (i, false)

/-! ## Latches (02 R47 to R49) -/

/-- The latches of a scalar sequencer, newest first. -/
def Core.lat (c : Core) : Seqr → List (Latch Word)
  | .ctl => if c.priv then c.sysLat else c.latC
  | .acs => c.latA
  | .mov => c.latM
  | .vec => []

def Core.setLat (c : Core) (q : Seqr) (l : List (Latch Word)) : Core :=
  match q with
  | .ctl => if c.priv then { c with sysLat := l } else { c with latC := l }
  | .acs => { c with latA := l }
  | .mov => { c with latM := l }
  | .vec => c

/-- Push: the new value becomes b0 and the old b3 goes (02 R47). -/
def pushLat {α : Type} (l : Latch α) (ls : List (Latch α)) : List (Latch α) := (l :: ls).take 4

/-- Read latch n: empty, owed by an access in flight, or early in an exposed region (02 R48, R49). -/
def readLat {α : Type} (now : Nat) (ls : List (Latch α)) (n : Nat) : Rd α :=
  match ls[n]? with
  | none => .bad .encLatch
  | some l => if l.owed ≠ 0 then .wait else if now < l.due then .bad .encLatch else .val l.val

/-- The value an instruction that is issued again holds captured for a source (15 R414). -/
def capOf (s : State) (q : Seqr) (a : Src) : Option Word := (s.core.seq q).cap.ops.lookup a.code.toNat

/-- Read a scalar source (02 R46, R49; 15 R414). -/
def readSrc (s : State) (q : Seqr) (a : Src) : Rd Word :=
  match capOf s q a with
  | some x => .val x
  | none =>
    match a with
    | .r n => if owes s q (regIx s.core q n.toNat) then .wait else .val (reg s q n)
    | .b n => readLat s.now (s.core.lat q) n.toNat

/-- Go on with a source's value. -/
def withSrc (q : Seqr) (a : Src) (s : State) (k : Word → Out) : Out :=
  match readSrc s q a with
  | .val x => k x
  | .wait => .stall s
  | .bad c => .raise c s

/-- Wait until no access in flight owes the destination, unless nw is set (02 R58). -/
def withDst (q : Seqr) (nw : Bool) (d : BitVec 6) (s : State) (k : Out) : Out :=
  if !nw && owes s q (regIx s.core q d.toNat) then .stall s else k

/-! ## Lines (02 R32 to R40) -/

/-- Tag of lane i in a header (02 R32). -/
def tagOf (h : W32) (i : Nat) : Nat := if i = 0 then 0 else fld h (4 * i) 4

/-- The tag of a sequencer's first words (02 R33). -/
def seqTag : Seqr → Nat
  | .ctl => 1 | .acs => 2 | .vec => 3 | .mov => 4

/-- The header's X bit and its reserved bits [3:1] (02 R32, R36). -/
def hdrX (h : W32) : Bool := bitOf h 0
def hdrBad (h : W32) : Bool := fld h 1 3 != 0

/-- Does the tag of lane i break R34. -/
def tagBad (h : W32) (i : Nat) : Bool :=
  let t := tagOf h i
  if t = 8 then i == 1 || tagOf h (i - 1) == 0 || tagOf h (i - 1) == 15
  else !(t ≤ 4 || t == 15)

/-- What a sequencer finds from lane i on, with n lanes to go: its own lane, a bad tag, or neither. -/
inductive Scan
  | own (i : Nat)
  | bad (i : Nat)
  | past
deriving DecidableEq, Repr

def scan (q : Seqr) (h : W32) : Nat → Nat → Scan
  | 0, _ => .past
  | n + 1, i =>
    if tagBad h i then .bad i
    else if tagOf h i = seqTag q then .own i
    else scan q h n (i + 1)

/-- Count the loop entries that end at the line just left, from the innermost outward (02 R40): the stack left, and
where execution resumes when an entry's count is not used up. -/
def leaveLoops (line : BitVec 47) : List LoopEnt → List LoopEnt × Option (BitVec 47)
  | [] => ([], none)
  | e :: es =>
    if e.last ≠ line then (e :: es, none)
    else if e.count.toNat ≤ 1 then leaveLoops line es
    else ({ e with count := e.count - 1 } :: es, some e.first)

/-- A sequencer past the line it stands in (02 R37, R40); in the user completion handler nothing is counted (08 R259), and no loop of
no iterations is pending there. -/
def SeqSt.leave (q : Seqr) (uh : Bool) (x : SeqSt) : SeqSt :=
  let go (line : BitVec 47) (l : List LoopEnt) : SeqSt :=
    { x with line := line, lane := 1, entered := false, skip := none, loops := l }
  match x.skip with
  | some t => go t x.loops
  | none =>
    if q = .ctl ∧ uh then go (x.line + 1) x.loops
    else match leaveLoops x.line x.loops with
      | (l, some t) => { go t l with point := true }
      | (l, none) => go (x.line + 1) l

/-! ## An instruction as the replay queue records it (15 R408, R412) -/

/-- The words of a line in the instruction cache of the focused core (01 R23; 13 R369). -/
def cachedLine (s : State) (line : BitVec 47) : Option (List W32) :=
  let k := s.myRank
  (s.core.icache.find? fun x => x.asid == k.asid && x.gen == k.gen && x.line == line).map (·.words)

/-- The next lane a sequencer issues, through the lines in the instruction cache (02 R37, R40): its own lane, one whose tag fails, or
lane 1 of a line that is to be fetched. -/
def nextOwn (s : State) (q : Seqr) : Nat → SeqSt → SeqSt
  | 0, x => x
  | n + 1, x => match cachedLine s x.line with
    | none => x
    | some ws => match scan q (ws[0]?.getD 0) (8 - x.lane) x.lane with
      | .own i | .bad i => { x with lane := i }
      | .past => nextOwn s q n (x.leave q s.core.uh)

/-- The value of a scalar register code of sequencer q: a register or a latch (02 R46). -/
def codeVal (c : Core) (q : Seqr) (n : Nat) : Word :=
  if 48 ≤ n ∧ n < 52 then (((c.lat q)[n - 48]?).map (·.val)).getD 0 else c.getReg q (regIx c q n)

/-- The operands of the instruction at q's lane by code: those it was issued with. -/
def snapOf (c : Core) (q : Seqr) : List (Nat × Word) :=
  let x := (c.seq q).cap.ops
  if x.isEmpty then (List.range 52).map fun n => (n, codeVal c q n) else x

/-- The scalar sources of an instruction for ra, rb and its third operand, rd read as a source or the first register of a CONT word
(15 R412; 08 R228; log entry 45). -/
def scalarSrcs : Instr → Option Src × Option Src × Option Src
  | .add o | .sub o | .mul _ o | .div _ o | .and o | .or o | .xor o | .shf _ o | .cmp _ o | .min _ o | .max _ o | .atom _ o
  | .aadd o | .asub o | .amul o | .dadd o | .dsub o | .dmul o | .dcmp _ o => (some o.a, some o.b, none)
  | .sel o => (some o.a, some o.b, some (.r o.d))
  | .addi o | .aaddi o | .daddi o => (some o.a, none, none)
  | .logi _ o | .dlogi _ o => (some o.a, none, none)
  | .shfi _ o | .ashfi _ o | .dshfi _ o => (some o.a, none, none)
  | .cmpi _ o => (some o.a, none, none)
  | .clz o | .popc o => (some o.a, none, none)
  | .ldih o => (none, none, some (.r o.d))
  | .br o | .abr o | .dbr o => (some o.a, none, none)
  | .jr a | .loop a _ | .aloopReg a _ | .dloopReg a _ | .mxcfg _ _ a | .tidw _ a | .mtsr _ a | .spw _ _ a | .cring _ a
  | .bwsl a | .grped _ a => (some a, none, none)
  | .ld o | .dld o => (some o.a, none, none)
  | .st o | .dst o => (some o.a, none, some o.d)
  | .cas o c => (some o.a, some o.b, some c)
  | .atomDet _ r a b => (some a, some b, some r)
  | .casDet _ a b c => (some a, some b, some c)
  | .susp a b _ | .expct a b | .arrv a b | .bwrl a b => (some a, some b, none)
  | .bwls a b c => (some a, some b, some c)
  | .copy o => (none, none, some (.r (o.dcD.setWidth 6)))
  | .copys o => (none, none, some (.r (o.dcD.setWidth 6)))
  | .copyo o => (none, none, some (.r (o.dcS.setWidth 6)))
  | .fst o | .fld o => (none, none, some (.r (o.dst.setWidth 6)))
  | .fatm o => (none, none, some (.r (o.addr.setWidth 6)))
  | _ => (none, none, none)

/-- What a vector instruction names: sources, the masks it reads, its vector and its mask destination. -/
structure VecUse where
  srcs : List VOp := []
  masks : List (BitVec 4) := []
  dst : Option VOp := none
  md : Option (BitVec 4) := none

/-- A vector destination, unless nw is set. -/
def vdstOf (nw : Bool) (vd : VOp) : Option VOp := if nw then none else some vd

def vecUse : Instr → VecUse
  | .vadd o | .vsub o | .vmul o | .vdiv o => { srcs := [o.va, o.vb], masks := [o.m], dst := vdstOf o.nw o.vd }
  | .vfma o | .vfms o | .vfnma o => { srcs := [o.va, o.vb, o.vc], masks := [o.m], dst := vdstOf o.nw o.vd }
  | .vmax o | .vmin o | .vsel o | .vimin o | .vimax o | .vand o | .vor o | .vxor o =>
    { srcs := [o.va, o.vb], masks := [o.m], dst := vdstOf o.nw o.vd }
  | .vabs o | .vneg o | .vmov o => { srcs := [o.va], masks := [o.m], dst := vdstOf o.nw o.vd }
  | .vsqrt o | .vrcp o | .vrsq o | .vexp o | .vexp2 o | .vln o | .vlog2 o | .vtanh o | .vsigm o | .verf o | .vsin o | .vcos o
  | .vscan o => { srcs := [o.va], masks := [o.m], dst := vdstOf o.nw o.vd }
  | .vcvt o => { srcs := [o.va], masks := [o.m], dst := vdstOf o.nw o.vd }
  | .vcbx o | .vcbq o => { srcs := [o.va], masks := [o.m], dst := vdstOf o.nw o.vd }
  | .vldx o => { srcs := [o.u.va], masks := [o.u.m], dst := vdstOf o.u.nw o.u.vd }
  | .vdot o => { srcs := [o.va, o.vb, o.vc], masks := [o.m], dst := vdstOf o.nw o.vd }
  | .vred o => { srcs := [o.u.va], masks := [o.u.m], dst := vdstOf o.u.nw o.u.vd }
  | .vcmp o => { srcs := [o.va, o.vb], masks := [o.m], md := some o.md }
  | .vcls o => { srcs := [o.va], masks := [o.m], md := some o.md }
  | .mlog o => { masks := [o.ma, o.mb, o.m], md := some o.md }
  | .mpop o => { masks := [o.ma, o.m], dst := vdstOf o.nw o.vd }
  | .viadd o | .visub o | .vimul o => { srcs := [o.va, o.vb], masks := [o.m], dst := vdstOf o.nw o.vd }
  | .vshf o => { srcs := [o.o.va, o.o.vb], masks := [o.o.m], dst := vdstOf o.o.nw o.o.vd }
  | .vbcst o => { masks := [o.m], dst := some o.vd }
  | .vbcstElem o => { srcs := [o.va], masks := [o.m], dst := some o.vd }
  | .viota o => { masks := [o.m], dst := some o.vd }
  | .vperm o => { srcs := [o.o.va, o.o.vb], masks := [o.o.m], dst := vdstOf o.o.nw o.o.vd }
  | .vslide o => { srcs := [o.o.va, o.o.vb], masks := [o.o.m], dst := vdstOf o.o.nw o.o.vd }
  | .vcmprs o => { srcs := [o.va], dst := some o.vd, md := some o.md }
  | .vxpnd o => { srcs := [o.va], masks := [o.ma, o.m], dst := vdstOf o.nw o.vd }
  | .vrng o => { srcs := [o.vidx], masks := [o.m], dst := vdstOf o.nw o.vd }
  | .vatom o => { srcs := [o.va, o.vb], masks := [o.m] }
  | .vbrm _ m _ => { masks := [m] }
  | _ => {}

/-- The instruction an entry records. -/
def Acc.use (a : Acc) : VecUse := match decode .vec a.w0 a.w1 with
  | .ok i => if a.q = .vec then vecUse i else {}
  | .error _ => {}

/-- Has the recorded instruction popped a load queue (15 R408). -/
def Acc.popped (a : Acc) : Bool := a.use.srcs.any fun o => match o with | .lq _ => true | _ => false

/-- Does the instruction write a vector or mask register that the recorded one reads (15 R408). -/
def Acc.readsDst (a : Acc) (u : VecUse) : Bool :=
  (match u.dst with | some (.v n) => a.use.srcs.contains (.v n) | _ => false)
    || (match u.md with | some n => a.use.masks.contains n | none => false)

/-- The instruction at a sequencer's lane as the replay queue records it, and its lanes (15 R412). -/
def entryHere (q : Seqr) (s : State) : Acc × Nat :=
  let x := s.core.seq q
  let ws := (cachedLine s x.line).getD []
  let w0 := ws[x.lane]?.getD 0
  let wide := tagOf (ws[0]?.getD 0) (x.lane + 1) == 8 && x.lane < 7
  let w1 := if wide then ws[x.lane + 1]?.getD 0 else 0
  let snap := snapOf s.core q
  let src (o : Option Src) : Word := (o.bind fun a => snap.lookup a.code.toNat).getD 0
  let ops := match decode q w0 w1 with | .ok i => scalarSrcs i | .error _ => (none, none, none)
  ({ id := s.core.accId, q := q, op := .again, addr := 0, size := 0, line := x.line, lane := x.lane, w0 := w0, w1 := w1,
     uh := s.core.uh, flt := true, opa := src ops.1, opb := src ops.2.1, opc := src ops.2.2, snap := snap, preds := x.cap.preds,
     num := x.count + 1 },
    if wide then 2 else 1)

/-! ## Results -/

/-- Which register a result in flight goes to. -/
def dstOf (q : Seqr) (i : Nat) (x : Word) : Dst :=
  match q with
  | .acs => .a i x
  | .mov => .d i x
  | _ => .s i x

/-- Does the result in flight go to register i of sequencer q, no later than tick n. -/
def Pend.yields (q : Seqr) (i n : Nat) (p : Pend) : Bool :=
  decide (p.due ≤ n) && (match p.dst, q with
    | .s j _, .ctl | .a j _, .acs | .d j _, .mov => j == i
    | _, _ => false)

/-- A result of latency `lat` for register i of q: pushed into b0; written to the register unless nw is set, at once in a
scoreboard region and at the end of its latency in an exposed one. There a result of one cycle is written at once, and older
ones for the register that complete no later are not (02 R47, R49, R58). -/
def putAt (q : Seqr) (lat : Nat) (nw : Bool) (i : Nat) (x : Word) (s : State) : State :=
  s.modCore fun c =>
    let c1 := c.setLat q (pushLat ⟨x, if c.x then s.now + lat else 0, 0⟩ (c.lat q))
    if c.x && 1 < lat then
      { c1 with pend := c1.pend ++ [⟨if nw then .none else dstOf q i x, s.now + lat, (entryHere q s).1⟩] }
    else if nw then c1
    else if c.x then { c1 with pend := c1.pend.filter fun p => !p.yields q i (s.now + lat) }.putReg q i x
    else c1.putReg q i x

/-- A result for the destination an instruction names. -/
def putResult (q : Seqr) (lat : Nat) (nw : Bool) (d : BitVec 6) (x : Word) (s : State) : State :=
  putAt q lat nw (regIx s.core q d.toNat) x s

/-- Write one result in flight; of a vector or mask register the bits the instruction writes. The image of an SPW whose latency ends after a
stream has started from the record is dropped: the record keeps the image the stream started with (DESIGN CHOICE, log entry 53; 05 R133,
R136 state none). -/
def Core.commit (c : Core) : Dst → Core
  | .none => c
  | .s i x => c.putS i x
  | .a i x => { c with a := c.a.setIfInBounds i x }
  | .d i x => { c with d := c.d.setIfInBounds i x }
  | .v i x on => { c with v := c.v.setIfInBounds i ((c.v[i]?.getD 0 &&& ~~~on) ||| (x &&& on)) }
  | .m i x on => { c with m := c.m.setIfInBounds i ((c.m[i]?.getD 0 &&& ~~~on) ||| (x &&& on)) }
  | .p i x => { c with strm := c.strm.mapIdx fun j y => if j = i ∧ y.st = .idle then { y with image := x } else y }

/-- Results in order of completion; those of one cycle in program order (02 R49). -/
def insDue (p : Pend) : List Pend → List Pend
  | [] => [p]
  | x :: xs => if p.due < x.due then p :: x :: xs else x :: insDue p xs
def byDue (l : List Pend) : List Pend := l.foldl (fun a p => insDue p a) []

/-- A latch whose due time is shifted; what has elapsed stays so. -/
def Latch.shift {α : Type} (f : Nat → Nat) (l : Latch α) : Latch α := if l.due = 0 then l else { l with due := f l.due }

/-- Due times of one sequencer's results in flight and latches shifted (02 R58; 10 R314). -/
def Core.shiftDues (f : Nat → Nat) (q : Seqr) (c : Core) : Core :=
  let c := { c with pend := c.pend.map fun (p : Pend) => if p.ent.q = q then { p with due := f p.due } else p }
  match q with
  | .ctl => { c with latC := c.latC.map (Latch.shift f), latSet := c.latSet.map (Latch.shift f) }
  | .acs => { c with latA := c.latA.map (Latch.shift f) }
  | .vec => { c with latV := c.latV.map (Latch.shift f) }
  | .mov => { c with latM := c.latM.map (Latch.shift f) }

/-- The fetching sequencers (01 R12). -/
def allSeqs : List Seqr := [.ctl, .acs, .vec, .mov]

/-- The same for every sequencer. -/
def Core.shiftAll (f : Nat → Nat) (c : Core) : Core := allSeqs.foldl (fun c q => c.shiftDues f q) c

/-! ## Positions in code (02 R37 to R41) -/

/-- The byte address of a lane of a sequencer's current line. -/
def lanePc (line : BitVec 47) (lane : Nat) : Nat := line.toNat * 32 + 4 * lane

/-- The instruction of n lanes has issued; the next may issue after `cost` cycles (02 R37). -/
def issued (q : Seqr) (n cost : Nat) (s : State) : State :=
  s.modSeq q fun x =>
    { x with lane := min 8 (x.lane + n), ready := s.now + cost, point := false, stall := false, count := x.count + 1, cap := {},
             last := s.now }

/-- A line offset from the instruction's own line (02 R38). -/
def lineAt (l : BitVec 47) (off : Int) : BitVec 47 := BitVec.ofInt 47 ((l.toNat : Int) + off)

/-- Entries that a transfer to `target` leaves behind, popped from the innermost outward (02 R41). -/
def popLoops (target : BitVec 47) : List LoopEnt → List LoopEnt
  | [] => []
  | e :: es =>
    if e.first.toNat ≤ target.toNat ∧ target.toNat ≤ e.last.toNat then e :: es else popLoops target es

/-- The sequencer goes on at lane j of a line (02 R38, R39); in the user completion handler the loop stack stays
as it is (08 R232, R259). -/
def transfer (q : Seqr) (target : BitVec 47) (j cost : Nat) (s : State) : State :=
  let keep := q == .ctl && s.core.uh
  s.modSeq q fun x =>
    { x with line := target, lane := j, entered := false, skip := none, ready := s.now + cost,
             point := decide (target.toNat ≤ x.line.toNat), stall := false, count := x.count + 1, cap := {}, last := s.now,
             loops := if keep then x.loops else popLoops target x.loops }

/-- A loop instruction of n lanes: an entry is pushed; a loop of no iterations goes on past its body once the lanes
that follow it in its line are done (02 R40, log entry 16). -/
def enterLoop (q : Seqr) (n : Nat) (count : W32) (e : Nat) (s : State) : Out :=
  let l := (s.core.seq q).line
  if count = 0 then .ok (issued q n 1 (s.modSeq q fun y => { y with skip := some (lineAt l (e + 1)) }))
  else if 6 ≤ (s.core.seq q).loops.length then .raise .loopDepth s
  else .ok (issued q n 1 (s.modSeq q fun y => { y with loops := ⟨count, lineAt l 1, lineAt l e⟩ :: y.loops }))

end Sys2Proof.Machine
end

