-- ==== Sys2Proof/Machine/Flags.lean ====
section
/-!
DEFINITION. The status registers computed from the state: MODE_STAT (08 R255), MX_STAT (06 R176), DRN_STATE
word 0 (06 R195), APT_STAT (18 R440), PWR_STAT (16 R434); the conditions instructions test; the emptying of latches.
-/
namespace Sys2Proof.Machine

/-- MODE_STAT (08 R255). -/
def modeStat (s : State) : Word :=
  let c := s.core
  BitVec.ofNat 64 (b2n c.x + 2 * b2n c.priv + 4 * b2n s.myJob.det + 8 * b2n c.divz + 16 * b2n c.uie + 32 * b2n c.uh
    + 256 * c.uipend.toNat)

/-- A write of MODE_STAT: UIE is written, a 1 in DIVZ clears it, the rest is RO or RZ (08 R255; 00 R4). -/
def setModeStat (x : Word) (s : State) : State :=
  s.modCore fun c => { c with uie := bitOf x 4, divz := c.divz && !bitOf x 3 }

/-- The commands in MTX's queue or running there (06 R177): all that MTX accepted and not retired. -/
def CmdOp.isMtx : CmdOp → Bool
  | .mxgo .. | .mxmma .. => true
  | _ => false

/-- MX_STAT (06 R176). -/
def mxStat (s : State) : Word :=
  let c := s.core
  let q := (c.cmds.filter (·.op.isMtx)).length
  BitVec.ofNat 64 (b2n c.nest.isSome + 2 * (q % 8) + 16 * b2n ((c.nest.bind (·.cause)).isSome)
    + 32 * b2n (c.drains.any (·.halt.isSome)))

/-- The drain the DRN_STATE record describes: the first in order. -/
def drnWord0 (s : State) : Word :=
  match s.core.drains.head? with
  | none => 0
  | some d =>
    BitVec.ofNat 64 (1 + 2 * b2n d.halt.isSome + 4 * d.acc + 64 * d.entry + 4096 * d.e + 16777216 * d.k)

/-- Conditions of BR, ABR and DBR (02 R44). -/
def brTaken : BrSel → Word → Bool
  | .eqz, x => x == 0
  | .nez, x => x != 0
  | .ltz, x => x.toInt < 0
  | .gez, x => 0 ≤ x.toInt

/-- Conditions of CMP, CMPI and DCMP (08 R230). -/
def cmpHolds : CmpSel → Word → Word → Bool
  | .eq, a, b => a == b
  | .ne, a, b => a != b
  | .lt, a, b => a.toInt < b.toInt
  | .ltu, a, b => a.toNat < b.toNat
  | .ge, a, b => b.toInt ≤ a.toInt
  | .geu, a, b => b.toNat ≤ a.toNat

/-- Every latch of one sequencer empties (02 R48). -/
def emptyLat (q : Seqr) (s : State) : State :=
  s.modCore fun c => match q with
    | .vec => { c with latV := [] }
    | _ => c.setLat q []

/-- Every latch of the core empties (02 R48). -/
def emptyLats (s : State) : State :=
  s.modCore fun c => { c with latC := [], latA := [], latM := [], latV := [] }

/-- A sequencer is idle: not forked in this task, or ended since (08 R240). -/
def idle (s : State) (q : Seqr) : Bool := !(s.core.seq q).run

/-- A sequencer moves on by k cycles from tick n, and what it has in flight with it. -/
def Core.moveOn (n k : Nat) (q : Seqr) (c : Core) : Core :=
  (c.shiftDues (fun d => if n < d then d + k else d) q).modSeq q fun x => { x with ready := max x.ready n + k }

/-- A freeze holds a sequencer until tick n + k; where another of the same cycle holds it already, no longer than that. -/
def Core.holdSeq (n k : Nat) (c : Core) (q : Seqr) : Core :=
  let from' := max n (c.seq q).still
  if n + k ≤ from' then c else (c.moveOn n (n + k - from') q).modSeq q fun x => { x with still := n + k }

/-- A stall of an exposed region freezes the core, and the issue of MTX and DRN, for its length of k cycles, but for what it waits for
(02 R58; log entry 46). While the user completion handler runs the other sequencers stand still already (08 R258). -/
def freezeBut (on : Awaited) (k : Nat) (s : State) : State :=
  let n := s.now
  s.modCore fun c =>
    { (allSeqs.filter fun q => !on.seqs.contains q && !(c.uh && q != .ctl)).foldl (Core.holdSeq n k) c with
      frozen := if on.eng then c.frozen else max c.frozen (n + k) }

/-- A freeze of the whole core. -/
def freezeFor (k : Nat) (s : State) : State := freezeBut {} k s

/-- A freeze of one cycle, as long as what stalls is issued again in the next. -/
def freeze (s : State) : State := freezeFor 1 s

/-- An instruction of VEC that has issued takes k cycles more, for which an exposed region freezes (04 R119; 02 R58). -/
def slower (k : Nat) (s : State) : State :=
  if k = 0 then s
  else if s.core.x then freezeFor k s
  else s.modSeq .vec fun x => { x with ready := x.ready + k }

/-- An exposed region stands still from the cycle in which CTL comes to a pre-emption point under a stop, until the stop (10 R314). -/
def Core.standsStill (c : Core) : Bool := c.x && c.stopReq.isSome && c.ctl.run && c.ctl.point && c.trap.all (·.done)

/-- Is the issue of MTX and DRN held: by a freeze (02 R58), or, in an exposed region, by the user completion handler (08 R258) or a stop
that CTL has come to (10 R314); not once the sequencers stand still (10 R315). -/
def engineHeld (s : State) : Bool :=
  let c := s.core
  c.trap.all (·.done) && (decide (s.now < c.frozen) || (c.x && c.uh) || c.standsStill)

/-- The sequencer's next cycle, with nothing else held back. -/
def nextCycle (q : Seqr) (s : State) : State := s.modSeq q fun x => { x with ready := s.now + 1 }

/-- The instruction does not issue in this cycle (02 R49, R58); the wait is a pre-emption point (10 R313). An exposed region freezes but
for what it waits for. -/
def waiting (q : Seqr) (on : Awaited) (s : State) : State :=
  let s := s.modSeq q fun x => { x with point := true, stall := true, last := s.now }
  if s.core.x then freezeBut on 1 s else nextCycle q s

/-- The same for a stall that waits for no part of the core. -/
def stalled (q : Seqr) (s : State) : State := waiting q {} s

end Sys2Proof.Machine
end

