-- ==== Sys2Proof/Machine/Functions.lean ====
section
/-!
DEFINITION. The correctly rounded functions (04 R117, R118).

A quotient or a root is an exact dyadic number plus a sticky bit, which RoundTo cannot tell from the exact value.
The other functions are enclosed in intervals of growing precision until both ends round to one code; where the
exact value lies in a cell no rounding boundary cuts, a representative of the cell is rounded. An enclosure that
the last precision leaves undecided gives a free value (log entry 10).
-/
namespace Sys2Proof.Machine

/-- The functions of 04 R117 with one operand that intervals enclose. -/
inductive Fn | exp | exp2 | ln | log2 | tanh | sigm | erf | sin | cos
deriving DecidableEq, Repr

/-- A number for each function, naming its free values. -/
def fnIx : Fn → Nat
  | .exp => 1 | .exp2 => 2 | .ln => 3 | .log2 => 4 | .tanh => 5 | .sigm => 6 | .erf => 7 | .sin => 8 | .cos => 9

/-- Integer square root, rounded down, by bits from bit n down. -/
def isqrtGo (x : Nat) : Nat → Nat → Nat
  | 0, r => if (r + 1) * (r + 1) ≤ x then r + 1 else r
  | n + 1, r => isqrtGo x n (if (r + 2 ^ (n + 1)) * (r + 2 ^ (n + 1)) ≤ x then r + 2 ^ (n + 1) else r)

/-- Integer square root, rounded down. -/
def isqrt (x : Nat) : Nat := isqrtGo x (Nat.log2 x / 2 + 1) 0

/-- Quotient a/b of nonzero magnitudes with a sticky bit. -/
def divMag (sa : Nat) (ea : Int) (sb : Nat) (eb : Int) : Nat × Int :=
  let k := 70 + Nat.log2 sb
  let n := sa <<< k
  (2 * (n / sb) + (if n % sb = 0 then 0 else 1), ea - eb - k - 1)

/-- a ÷ b with the special values of 04 R117. -/
def XVal.div : XVal → XVal → XVal
  | .nan, _ => .nan
  | _, .nan => .nan
  | .inf _, .inf _ => .nan
  | .inf a, .fin b _ _ => .inf (a != b)
  | .fin a _ _, .inf b => .fin (a != b) 0 0
  | .fin a sa ea, .fin b sb eb =>
    if sb = 0 then (if sa = 0 then .nan else .inf (a != b))
    else if sa = 0 then .fin (a != b) 0 0
    else let r := divMag sa ea sb eb; .fin (a != b) r.1 r.2

/-- √x (04 R117). -/
def XVal.sqrt : XVal → XVal
  | .nan => .nan
  | .inf neg => if neg then .nan else .inf false
  | .fin neg s e =>
    if s = 0 then .fin neg 0 0
    else if neg then .nan
    else
      let s := if e % 2 = 0 then s else 2 * s
      let e := if e % 2 = 0 then e else e - 1
      let n := s <<< 128
      let q := isqrt n
      .fin false (2 * q + (if q * q = n then 0 else 1)) (e / 2 - 65)

/-- 1/√x (04 R117). -/
def XVal.rsqrt : XVal → XVal
  | .nan => .nan
  | .inf neg => if neg then .nan else .fin false 0 0
  | .fin neg s e =>
    if s = 0 then .inf neg
    else if neg then .nan
    else
      let s := if e % 2 = 0 then s else 2 * s
      let e := if e % 2 = 0 then e else e - 1
      let j := 80 + Nat.log2 s
      let q := isqrt (2 ^ (2 * j) / s)
      .fin false (2 * q + (if q * q * s = 2 ^ (2 * j) then 0 else 1)) (-(e / 2) - j - 1)

/-! ## Intervals at scale 2^p -/

/-- An interval [lo, hi] / 2^p. -/
structure Encl where
  lo : Int
  hi : Int
deriving DecidableEq, Repr

/-- Division by a positive integer rounded up. -/
def cdiv (x d : Int) : Int := -((-x) / d)

namespace Encl
def add (a b : Encl) : Encl := ⟨a.lo + b.lo, a.hi + b.hi⟩
def neg (a : Encl) : Encl := ⟨-a.hi, -a.lo⟩
def sub (a b : Encl) : Encl := a.add b.neg
def mul (p : Nat) (a b : Encl) : Encl :=
  let w := a.lo * b.lo; let x := a.lo * b.hi; let y := a.hi * b.lo; let z := a.hi * b.hi
  ⟨(min (min w x) (min y z)) / 2 ^ p, cdiv (max (max w x) (max y z)) (2 ^ p)⟩
def divN (a : Encl) (n : Nat) : Encl := ⟨a.lo / (n : Int), cdiv a.hi n⟩
def mulZ (a : Encl) (n : Nat) : Encl := ⟨a.lo * n, a.hi * n⟩
/-- a / b for b above zero. -/
def div (p : Nat) (a b : Encl) : Encl :=
  ⟨(a.lo * 2 ^ p) / (if 0 ≤ a.lo then b.hi else b.lo), cdiv (a.hi * 2 ^ p) (if 0 ≤ a.hi then b.lo else b.hi)⟩
def ofInt (p : Nat) (x : Int) : Encl := ⟨x * 2 ^ p, x * 2 ^ p⟩
def ofDyadic (p : Nat) (x : Int) (e : Int) : Encl :=
  if 0 ≤ e + p then ⟨x * 2 ^ (e + p).toNat, x * 2 ^ (e + p).toNat⟩
  else ⟨x / 2 ^ (-(e + p)).toNat, cdiv x (2 ^ (-(e + p)).toNat)⟩
def absHi (a : Encl) : Int := max a.lo.natAbs a.hi.natAbs
def widen (a : Encl) (n : Int) : Encl := ⟨a.lo - n, a.hi + n⟩
def sqrt (p : Nat) (a : Encl) : Encl := ⟨isqrt (a.lo.toNat * 2 ^ p), isqrt (a.hi.toNat * 2 ^ p) + 1⟩
end Encl

/-- Σ of t × r^k ÷ (k+1)…: the exponential series from term `t`, index k, with `n` terms to go. -/
def expSeries (p : Nat) (r : Encl) : Nat → Nat → Encl → Encl → Encl
  | 0, _, t, s => s.widen (2 * t.absHi + 2)
  | n + 1, k, t, s => let t' := (t.mul p r).divN k; expSeries p r n (k + 1) t' (s.add t')

/-- Squaring n times. -/
def sqN (p : Nat) : Nat → Encl → Encl
  | 0, a => a
  | n + 1, a => sqN p n (a.mul p a)

/-- e^x for x in an interval at scale 2^p with |x| < 2^m. -/
def expEncl (p m : Nat) (x : Encl) : Encl :=
  let r := x.divN (2 ^ (m + 6))
  let one := Encl.ofInt p 1
  sqN p (m + 6) (expSeries p r (p / 6 + 8) 1 one one)

/-- Odd-power series of atan(1/n): terms t_k = ±1/n^(2k+1), divided by 2k+1. -/
def atanSeries (n2 : Nat) : Nat → Nat → Encl → Encl → Encl
  | 0, _, t, s => s.widen (t.absHi + 1)
  | f + 1, k, t, s =>
    let t' := (t.divN n2).neg
    atanSeries n2 f (k + 1) t' (s.add (t'.divN (2 * k + 1)))

/-- atan(1/n). -/
def atanInv (p n : Nat) : Encl :=
  let t := (Encl.ofInt p 1).divN n
  atanSeries (n * n) (p / 4 + 4) 1 t t

/-- π, by Machin's formula. -/
def piEncl (p : Nat) : Encl := ((atanInv p 5).mulZ 16).sub ((atanInv p 239).mulZ 4)

/-- Σ z^(2k+1)/(2k+1) for 0 ≤ z ≤ 1/3. -/
def atanhSeries (p : Nat) (z2 : Encl) : Nat → Nat → Encl → Encl → Encl
  | 0, _, t, s => s.widen (2 * t.absHi + 2)
  | f + 1, k, t, s =>
    let t' := t.mul p z2
    atanhSeries p z2 f (k + 1) t' (s.add (t'.divN (2 * k + 1)))

/-- 2 × atanh(z) for 0 ≤ z ≤ 1/3. -/
def ln1 (p : Nat) (z : Encl) : Encl := (atanhSeries p (z.mul p z) (p / 3 + 6) 1 z z).mulZ 2

/-- ln 2. -/
def ln2Encl (p : Nat) : Encl := ln1 p ((Encl.ofInt p 1).divN 3)

/-- ln of sig × 2^exp, sig above 0. -/
def lnEncl (p sig : Nat) (exp : Int) : Encl :=
  let k := Nat.log2 sig
  let m := Encl.ofDyadic p sig (-(k : Int))
  let one := Encl.ofInt p 1
  let e := exp + k
  let l := ln2Encl p
  let el := if 0 ≤ e then l.mulZ e.toNat else (l.mulZ (-e).toNat).neg
  el.add (ln1 p ((m.sub one).div p (m.add one)))

/-- Alternating series of sin (from x) or cos (from 1): t ← −t × r² ÷ ((k+1)(k+2)). -/
def trigSeries (p : Nat) (r2 : Encl) : Nat → Nat → Encl → Encl → Encl
  | 0, _, t, s => s.widen (t.absHi + 1)
  | f + 1, k, t, s =>
    let t' := ((t.mul p r2).divN ((k + 1) * (k + 2))).neg
    trigSeries p r2 f (k + 2) t' (s.add t')

/-- sin or cos of sig × 2^exp, with the exact value of π (04 R118). -/
def trigEncl (p sig : Nat) (exp : Int) (neg isCos : Bool) : Encl :=
  let big := ((Nat.log2 sig : Int) + exp).toNat
  let P := p + big + 16 + (-exp).toNat
  let X : Int := (sig : Int) * 2 ^ ((P : Int) + exp).toNat
  let H := (piEncl P).divN 2
  let n := X / H.lo
  let r : Encl := ⟨X - n * H.hi, X - n * H.lo⟩
  let r : Encl := r.divN (2 ^ (P - p))
  let one := Encl.ofInt p 1
  let r2 := r.mul p r
  let sn := trigSeries p r2 (p / 4 + 20) 1 r r
  let cs := trigSeries p r2 (p / 4 + 20) 0 one one
  let q := (n % 4).toNat
  if isCos then (match q with | 0 => cs | 1 => sn.neg | 2 => cs.neg | _ => sn)
  else
    let v := match q with | 0 => sn | 1 => cs | 2 => sn.neg | _ => cs.neg
    if neg then v.neg else v

/-- Σ (−1)^k x^(2k) / (k! (2k+1)). -/
def erfSeries (p : Nat) (x2 : Encl) : Nat → Nat → Encl → Encl → Encl
  | 0, _, t, s => s.widen (t.absHi + 1)
  | f + 1, k, t, s =>
    let t' := ((t.mul p x2).divN k).neg
    erfSeries p x2 f (k + 1) t' (s.add (t'.divN (2 * k + 1)))

/-- erf(x)/x for |x| below 8. -/
def erfOverX (p sig : Nat) (exp : Int) : Encl :=
  let x := Encl.ofDyadic p sig exp
  let one := Encl.ofInt p 1
  let s := erfSeries p (x.mul p x) (p / 2 + 200) 1 one one
  (s.mulZ 2).div p ((piEncl p).sqrt p)

/-- Both ends of an enclosure, times a dyadic factor, round to one code: that code. -/
def decided (t : ETy) (mode : Mode) (sat : Bool) (p : Nat) (fneg : Bool) (fsig : Nat) (fexp : Int) (a : Encl) :
    Option Nat :=
  let v (x : Int) : XVal := .fin (decide (x < 0) != fneg) (x.natAbs * fsig) (fexp - p)
  let lo := roundTo t mode sat (v a.lo)
  if a.lo ≠ 0 ∧ a.hi ≠ 0 ∧ lo = roundTo t mode sat (v a.hi) then some lo else none

/-- The function's enclosure at precision p for the finite nonzero argument (neg, sig, exp), with the
dyadic factor it is to be multiplied by. -/
def fnEncl (f : Fn) (p : Nat) (neg : Bool) (sig : Nat) (exp : Int) : Encl × Bool × Nat × Int :=
  let sx : Int := if neg then -(sig : Int) else sig
  let m := ((Nat.log2 sig : Int) + exp + 1).toNat
  let one := Encl.ofInt p 1
  match f with
  | .exp => (expEncl p m (Encl.ofDyadic p sx exp), false, 1, 0)
  | .exp2 => (expEncl p m ((Encl.ofDyadic p sx exp).mul p (ln2Encl p)), false, 1, 0)
  | .ln => (lnEncl p sig exp, false, 1, 0)
  | .log2 =>
    let n := lnEncl p sig exp
    (n.div p (ln2Encl p), false, 1, 0)
  | .tanh =>
    let e := expEncl p (m + 1) (Encl.ofDyadic p (2 * sx) exp)
    ((e.sub one).div p (e.add one), false, 1, 0)
  | .sigm => (one.div p (one.add (expEncl p m (Encl.ofDyadic p (-sx) exp))), false, 1, 0)
  | .erf => (erfOverX p sig exp, neg, sig, exp)
  | .sin => (trigEncl p sig exp neg false, false, 1, 0)
  | .cos => (trigEncl p sig exp neg true, false, 1, 0)

/-- Refinement: the first precision that decides the code. -/
def refine (f : Fn) (t : ETy) (mode : Mode) (sat neg : Bool) (sig : Nat) (exp : Int) : List Nat → Option Nat
  | [] => none
  | p :: ps =>
    let (a, fneg, fsig, fexp) := fnEncl f p neg sig exp
    match decided t mode sat p fneg fsig fexp a with
    | some c => some c
    | none => refine f t mode sat neg sig exp ps

/-- Just below 1 in magnitude: no boundary of any format lies between it and 1. -/
def nearOne (neg : Bool) : XVal := .fin neg (2 ^ 60 - 1) (-60)
/-- x × (1 − 2^−50): just below the representable x in magnitude. -/
def justBelow (neg : Bool) (sig : Nat) (exp : Int) : XVal := .fin neg (sig * (2 ^ 50 - 1)) (exp - 50)
/-- A positive value below half of every format's smallest subnormal. -/
def tiny : XVal := .fin false 1 (-200)
/-- A value above every format's range. -/
def huge : XVal := .fin false 1 200

/-- Where mathematics or a rounding cell gives the value at once: exact values, and representatives. -/
def fnDirect (f : Fn) (neg : Bool) (sig : Nat) (exp : Int) : Option XVal :=
  let e := (Nat.log2 sig : Int) + exp
  let isInt := 0 ≤ exp ∨ sig % 2 ^ (-exp).toNat = 0
  let pow2 := sig = 2 ^ Nat.log2 sig
  match f with
  | .exp => if 7 ≤ e then some (if neg then tiny else huge) else none
  | .exp2 =>
    if 8 ≤ e then some (if neg then tiny else huge)
    else if isInt then
      let n : Int := if 0 ≤ exp then sig <<< exp.toNat else sig >>> (-exp).toNat
      some (.fin false 1 (if neg then -n else n))
    else none
  | .ln => if neg then some .nan else if pow2 && e == 0 then some (.fin false 0 0) else none
  | .log2 => if neg then some .nan else if pow2 then some (.ofInt e) else none
  | .tanh => if 5 ≤ e then some (nearOne neg) else if e < -20 then some (justBelow neg sig exp) else none
  | .sigm => if 7 ≤ e then some (if neg then tiny else nearOne false) else none
  | .erf => if 3 ≤ e then some (nearOne neg) else none
  | .sin => if e < -20 then some (justBelow neg sig exp) else none
  | .cos => if e < -20 then some (nearOne false) else none

/-- Results at NaN, infinities and zeros (04 R117). -/
def fnSpecial (f : Fn) : XVal → Option XVal
  | .nan => some .nan
  | .inf neg => match f with
    | .exp | .exp2 => some (if neg then .fin false 0 0 else .inf false)
    | .ln | .log2 => some (if neg then .nan else .inf false)
    | .tanh | .erf => some (.fin neg 1 0)
    | .sigm => some (if neg then .fin false 0 0 else .fin false 1 0)
    | .sin | .cos => some .nan
  | .fin neg sig exp =>
    if sig = 0 then match f with
      | .exp | .exp2 | .cos => some (.fin false 1 0)
      | .ln | .log2 => some (.inf true)
      | .tanh | .erf | .sin => some (.fin neg 0 0)
      | .sigm => some (.fin false 1 (-1))
    else fnDirect f neg sig exp

/-- RoundTo(f(x)) (04 R117). -/
def fnRound (f : Fn) (t : ETy) (mode : Mode) (sat : Bool) (x : XVal) (code : Nat) : Nat :=
  match fnSpecial f x with
  | some v => roundTo t mode sat v
  | none => match x with
    | .fin neg sig exp =>
      match refine f t mode sat neg sig exp [160, 400, 1000, 2500] with
      | some c => c
      | none => Config.freeFun (fnIx f) (tyCode t) (modeIx mode) code % 2 ^ tyBits t
    | _ => canonNaN t

end Sys2Proof.Machine
end

