-- ==== Sys2Proof/Machine/Tensor.lean ====
section
/-!
DEFINITION. Tensor descriptors and their elements (03 R92 to R98), elements in packed words (03 R80), codebooks
(03 R81, R82), and the checks on the rank tables.
-/
namespace Sys2Proof.Machine

/-! ## Packed elements (03 R80) -/

/-- Element i of a packed word, elements of type t. -/
def elemOf {w : Nat} (t : ETy) (v : BitVec w) (i : Nat) : Nat := fld v (i * tyBits t) (tyBits t)
/-- Codes packed from element 0 up, w bits each. -/
def packCodes (w : Nat) : List Nat → Nat
  | [] => 0
  | c :: cs => c % 2 ^ w + 2 ^ w * packCodes w cs
/-- Bytes of an element; a cb4 element shares its byte (03 R80). -/
def tyBytes (t : ETy) : Nat := if t = .cb4 then 1 else tyBits t / 8

/-! ## Descriptors (03 R92) -/

abbrev Desc := BitVec 512

namespace Desc
def base (d : Desc) : Nat := fld d 0 52
def ty (d : Desc) : ETy := (tyOf (fld d 52 4)).getD .f32
def ndim (d : Desc) : Nat := fld d 56 2
def rnd (d : Desc) : Nat := fld d 58 3
def repl (d : Desc) : Bool := bitOf d 61
def vld (d : Desc) : Bool := bitOf d 62
/-- Extent of dimension k; 1 at or above the number of dimensions. -/
def dim (d : Desc) (k : Nat) : Nat := if k ≤ d.ndim then fld d (64 + 32 * k) 32 else 1
/-- Element step of dimension k; 0 at or above the number of dimensions. -/
def stride (d : Desc) (k : Nat) : Int :=
  if d.ndim < k then 0 else sfld d (192 + 64 * k) 40
def tileC (d : Desc) : Nat := fld d 232 16
def tileR (d : Desc) : Nat := fld d 296 16
def scale (d : Desc) : Int := sfld d 248 8
def cb (d : Desc) : Nat := fld d 312 4
def comp (d : Desc) : Nat := fld d 316 3
def pad (d : Desc) : Nat := fld d 448 32

/-- The checks of TIDW in order (03 R93). -/
def check (d : Desc) : Option Cause :=
  if !d.vld then none
  else if bitOf d 63 ∨ bitOf d 319 ∨ fld d 360 24 ≠ 0 ∨ fld d 424 24 ≠ 0 ∨ fld d 480 32 ≠ 0 then some .tiDesc
  else if 12 ≤ fld d 52 4 ∨ 6 ≤ d.rnd then some .tiDesc
  else if 4 ≤ d.comp then some .xlScheme
  else if (List.range (d.ndim + 1)).any (fun k => d.dim k == 0) then some .tiDesc
  else if d.tileC = 0 ∨ 4096 < d.tileC ∨ d.tileR = 0 ∨ 4096 < d.tileR then some .tiDesc
  else if d.base % tyBytes d.ty ≠ 0 then some .tiDesc
  else if 2 ^ tyBits d.ty ≤ d.pad ∨ (d.cb ≠ 0 ∧ d.ty ≠ .cb4) then some .tiDesc
  else none

/-- Is the element at these indices inside (03 R94). -/
def inside (d : Desc) (i0 i1 i2 i3 : Int) : Bool :=
  let ok (i : Int) (k : Nat) : Bool := 0 ≤ i && i < (d.dim k : Int)
  ok i0 0 && ok i1 1 && ok i2 2 && ok i3 3

/-- The element offset, exactly (03 R94). -/
def offset (d : Desc) (i0 i1 i2 i3 : Int) : Int :=
  i0 * d.stride 0 + i1 * d.stride 1 + i2 * d.stride 2 + i3 * d.stride 3
end Desc

/-- Byte address of the element at offset o from base, and its nibble for cb4 (03 R80, R94). -/
def elemAddr (t : ETy) (base : Nat) (o : Int) : Int × Nat :=
  if t = .cb4 then ((base : Int) + o.fdiv 2, (o.fmod 2).toNat) else ((base : Int) + o * tyBytes t, 0)

/-- An address outside the 52-bit space (03 R94, 05 R123). -/
def badAddr (a : Int) : Bool := a < 0 || 2 ^ 52 ≤ a

/-- Read the code of one element. -/
def readElem (s : State) (r : Req) (t : ETy) (a : Int × Nat) : Except Flt (State × Nat) :=
  if badAddr a.1 then .error ⟨.vaHole, (a.1 % 2 ^ 52).toNat, none⟩
  else match readMem s r a.1.toNat (tyBytes t) with
    | .error f => .error f
    | .ok (s, bs) =>
      let x := leVal bs
      .ok (s, if t = .cb4 then x / 16 ^ a.2 % 16 else x)

/-- Write the code of one element; a cb4 code with the other nibble of its byte kept (07 R200). -/
def writeElem (s : State) (r : Req) (t : ETy) (a : Int × Nat) (c : Nat) : Except Flt State :=
  if badAddr a.1 then .error ⟨.vaHole, (a.1 % 2 ^ 52).toNat, none⟩
  else if t = .cb4 then
    match readMem s r a.1.toNat 1 with
    | .error f => .error f
    | .ok (s, bs) =>
      let x := leVal bs
      let keep := x - x / 16 ^ a.2 % 16 * 16 ^ a.2
      writeMem s r a.1.toNat (leBytes 1 (keep + c % 16 * 16 ^ a.2))
  else writeMem s r a.1.toNat (leBytes (tyBytes t) c)

/-- A requester going through a descriptor: the scheme its pages must have (03 R97). -/
def Req.via (r : Req) (d : Desc) : Req := { r with comp := d.comp }

/-- Read a tensor element: PAD outside (03 R94, R96). -/
def readTensor (s : State) (r : Req) (d : Desc) (i0 i1 i2 i3 : Int) : Except Flt (State × Nat) :=
  if d.inside i0 i1 i2 i3 then readElem s (r.via d) d.ty (elemAddr d.ty d.base (d.offset i0 i1 i2 i3))
  else .ok (s, d.pad)

/-- Write a tensor element: nothing outside (03 R94, R96). -/
def writeTensor (s : State) (r : Req) (d : Desc) (i0 i1 i2 i3 : Int) (c : Nat) : Except Flt State :=
  if d.inside i0 i1 i2 i3 then writeElem s (r.via d) d.ty (elemAddr d.ty d.base (d.offset i0 i1 i2 i3)) c
  else .ok s

/-! ## Codebooks and rank tables -/

/-- Entry j of codebook n in the sixteen codebooks' image (03 R82). -/
def cbEntry (cbs : BitVec 4096) (n j : Nat) : Nat := fld cbs (256 * n + 16 * j) 16

/-- Entry n of a rank's tensor table. -/
def Rank.tensor (k : Rank) (n : Nat) : Desc := k.ti[n]?.getD 0

/-- A tensor operand of a command or stream at issue: ti255 is reserved, the entry must be valid (01 R30; 03 R93). -/
def tensorArg (s : State) (n : Nat) : Except Cause Desc :=
  if n = 255 then .error .tiReserved
  else
    let d := s.myRank.tensor n
    if d.vld then .ok d else .error .tiInvalid

/-- The value a stored code stands for (03 R94). -/
def Desc.value (d : Desc) (cbs : BitVec 4096) (c : Nat) : XVal :=
  (decodeCb (cbEntry cbs d.cb) d.ty c).scale d.scale

/-- The code that stores a value through a descriptor (03 R94). -/
def Desc.code (d : Desc) (cbs : BitVec 4096) (rnd : Rnd) (sat : Bool) (v : XVal) : Nat :=
  let mode := match rnd with
    | .dflt => modeOfCode d.rnd
    | r => rndMode .rne r
  storeCode (cbEntry cbs d.cb) d.ty mode sat (v.scale (-d.scale))

/-- Lowest and highest inside byte of a tensor of w-bit elements (07 R214; 06 R184). -/
def Desc.extent (d : Desc) : Int × Int :=
  let reach (f : Int → Bool) : Int :=
    (List.range 4).foldl (fun a k =>
      let x := ((d.dim k : Int) - 1) * d.stride k
      if f x then a + x else a) 0
  let lo := elemAddr d.ty d.base (reach (· < 0))
  let hi := elemAddr d.ty d.base (reach (0 < ·))
  (lo.1, hi.1 + tyBytes d.ty - 1)

end Sys2Proof.Machine
end

