-- ==== Sys2Proof/Machine/Frame.lean ====
section
/-!
DEFINITION. Cause codes (15 R401) and the layouts of the trap frame (15 R409 to R413), the nest resume record
(06 R178), the drain record (06 R195), stream images with cursors (05 R122, R126) and watch entries (08 R244).
-/
namespace Sys2Proof.Machine

/-- The code of a cause: 0x0100 × class + index (15 R401). -/
def causeCode : Cause → Nat
  | .encHdr => 0x101 | .modeMix => 0x102 | .encTag => 0x103 | .encOp => 0x104 | .encRsv => 0x105
  | .encType => 0x106 | .encReg => 0x107 | .encLatch => 0x108 | .pcAlign => 0x109 | .loopDepth => 0x10A
  | .loopEmpty => 0x10B | .rsvField => 0x10C | .priv => 0x10D | .forkBusy => 0x10E | .uhIllegal => 0x10F
  | .uhState => 0x110 | .rftState => 0x111 | .trapUser => 0x112 | .queBound => 0x113 | .spField => 0x114
  | .spBusy => 0x115 | .spRec => 0x116 | .mxField => 0x117 | .mxSlot => 0x118 | .mxType => 0x119
  | .mxShape => 0x11A | .mxNest => 0x11B | .mxKlong => 0x11C | .drnProg => 0x11D | .overlap => 0x11E
  | .watchAddr => 0x11F | .watchFull => 0x120 | .ringNone => 0x121 | .ringDesc => 0x122 | .movLocal => 0x123
  | .movWindow => 0x124 | .leaseArg => 0x125 | .jobCtl => 0x126 | .tiReserved => 0x127 | .tiDesc => 0x128
  | .tiInvalid => 0x129 | .tiType => 0x12A | .tiShape => 0x12B | .arrvOverflow => 0x12C
  | .arrvUnderflow => 0x12D | .memAlign => 0x12E
  | .vaHole => 0x201 | .spadHole => 0x202 | .fabRank => 0x203 | .fabRange => 0x204 | .xlMiss => 0x205
  | .xlEntry => 0x206 | .xlPerm => 0x207 | .xlScheme => 0x208 | .tiComp => 0x209 | .genStale => 0x20A
  | .memPoison => 0x20B | .rankLost => 0x20C | .sramUe => 0x20D
  | .detViolation => 0x301 | .detGroup => 0x302 | .detLimit => 0x303 | .grpLimit => 0x304 | .grpMember => 0x305
  | .grpEdit => 0x306 | .barvAhead => 0x307 | .barvMix => 0x308 | .fcolMismatch => 0x309 | .detResult => 0x30A
  | .preTimeout => 0x401 | .migTimeout => 0x402 | .launchEntry => 0x403 | .launchImage => 0x404
  | .launchBusy => 0x405 | .launchCores => 0x406 | .launchLimited => 0x407 | .placeArg => 0x408
  | .placeRoom => 0x409 | .placeBusy => 0x40A | .quotaOver => 0x40B | .allocQuota => 0x40C | .mapRegion => 0x40D
  | .mapSingular => 0x40E | .mapBusy => 0x40F | .attestExhausted => 0x410 | .ckptNone => 0x411
  | .ckptHole => 0x412 | .ckptLogfull => 0x413 | .dieMapout => 0x414 | .launchPlace => 0x415
  | .portTable => 0x416

def causeCodeO : Option Cause → Nat
  | none => 0
  | some c => causeCode c

/-- The causes a RESOLVE of the page resolves (15 R402). -/
def pageCause (c : Cause) : Bool := 0x205 ≤ causeCode c && causeCode c ≤ 0x20B

/-- The replayable causes (15 R402). -/
def replayable (c : Cause) : Bool :=
  pageCause c || c == .trapUser || c == .barvMix || c == .preTimeout || c == .migTimeout

/-- AGENT numbers (15 R410). -/
def agentCode : Agent → Nat
  | .ctl => 0 | .acs => 1 | .vec => 2 | .mov => 3 | .mtx => 4 | .drn => 5 | .rs => 6

def seqCode : Seqr → Nat
  | .ctl => 0 | .acs => 1 | .vec => 2 | .mov => 3

def seqAgent : Seqr → Agent
  | .ctl => .ctl | .acs => .acs | .vec => .vec | .mov => .mov

def actCode : Act → Nat
  | .kill => 0 | .replay => 1 | .park => 2 | .forward => 3

/-- A bit vector as 64-bit words, lowest first. -/
def wordsOf {w : Nat} (v : BitVec w) (n : Nat) : List Nat := (List.range n).map fun i => fld v (64 * i) 64
/-- A sequencer's block of 16 words (15 R411). -/
def seqBlock (x : SeqSt) : List Nat :=
  let ent (e : LoopEnt) : List Nat :=
    [e.first.toNat, (e.last.toNat - e.first.toNat) % 2 ^ 15 + e.count.toNat * 2 ^ 15]
  padTo 16 ([lanePc x.line x.lane % 2 ^ 52 + x.loops.length * 2 ^ 52 + b2n x.run * 2 ^ 55, 0]
    ++ x.loops.reverse.flatMap ent)

/-- The drain record of 44 words (06 R195). -/
def drainRecord (c : Core) : List Nat :=
  match c.drains.head? with
  | none => List.replicate 44 0
  | some d =>
    let w0 := 1 + 2 * b2n d.halt.isSome + 4 * d.acc + 64 * d.entry + 4096 * d.e + 2 ^ 24 * d.k
    let w1 := d.seq.toNat + 2 ^ 32 * causeCodeO d.halt
    let m := (BitVec.ofInt 32 d.m0).toNat + 2 ^ 32 * (BitVec.ofInt 32 d.n0).toNat
    let rc := if d.e % 64 = 0 then 0 else d.terms.length
    let rm := if d.e % 64 = 0 then 0xFF800000 else d.rmax.toNat
    let fill := fld d.nest 1056 32 + 2 ^ 32 * fld d.nest 828 2
    [w0, w1, m, d.fva, rm + 2 ^ 32 * rc, fill, fld d.nest 1024 32, d.cur0 + 2 ^ 32 * d.cur1]
      ++ wordsOf (d.nest >>> 1280) 4
      ++ padTo 32 (List.range 32 |>.map fun i =>
        if rc ≤ 2 * i then 0
        else (d.terms[2 * i]?.getD 0).toNat + 2 ^ 32 * (if 2 * i + 1 < rc then (d.terms[2 * i + 1]?.getD 0).toNat else 0))

/-- CNT of level l (06 R172). -/
def nestCnt (n : BitVec 1536) (l : Nat) : Nat := fld n (128 * l) 16
def nestKdepth (n : BitVec 1536) : Nat := fld n 784 3

/-- The six loop indices at reduction `red`, step `step`: L0 varies fastest within a reduction, and the lowest level at
or above KDEPTH fastest among reductions (06 R173). -/
def nestIdx (n : BitVec 1536) (red step l : Nat) : Nat :=
  let kd := nestKdepth n
  let below (a b : Nat) : Nat := (List.range (b - a)).foldl (fun p i => p * nestCnt n (a + i)) 1
  if l < kd then step / below 0 l % nestCnt n l else red / below kd l % nestCnt n l

/-- Steps of a reduction (06 R173). -/
def nestSteps (n : BitVec 1536) : Nat := (List.range (nestKdepth n)).foldl (fun p i => p * nestCnt n i) 1
/-- Reductions of a nest. -/
def nestReds (n : BitVec 1536) : Nat :=
  (List.range (6 - nestKdepth n)).foldl (fun p i => p * nestCnt n (nestKdepth n + i)) 1

/-- The nest resume record of 28 words (06 R178). -/
def nestRecord (c : Core) : List Nat :=
  match c.nest with
  | none => List.replicate 28 0
  | some x =>
    let i (l : Nat) : Nat := nestIdx x.nest x.red x.step l
    let accB := fld x.nest 797 4
    let accN := max 1 (fld x.nest 801 5)
    let k := ((c.cmds.find? (·.seq == x.seq)).map (·.k)).getD 0
    [i 0 + 2 ^ 16 * i 1 + 2 ^ 32 * i 2 + 2 ^ 48 * i 3,
      i 4 + 2 ^ 16 * i 5 + 2 ^ 32 + 2 ^ 33 * b2n x.cause.isSome + 2 ^ 34 * (accB + x.red % accN) + 2 ^ 38 * k,
      x.seq.toNat + 2 ^ 32 * causeCodeO x.cause, x.fva] ++ wordsOf x.nest 24

/-- Type codes of MXMMA (06 R180). -/
def mmaCode : MmaTy → Nat
  | .bf16 => 0 | .f16 => 1 | .e4m3 => 2 | .e5m2 => 3 | .cb4 => 4

def rndCode : Rnd → Nat
  | .dflt => 0 | .rne => 1 | .rtz => 2 | .rup => 3 | .rdn => 4 | .rna => 5

/-- A command queued in MTX and not started, 28 words (15 R413). -/
def mtxEntry (x : Cmd) : List Nat :=
  let p (i : Nat) : Nat := (x.preds[i]?.getD 0).toNat
  let (kind, mma, nest) := match x.op with
    | .mxmma n o .. =>
      (1, o.acc.toNat + 16 * o.osA.toNat + 2 ^ 9 * o.osB.toNat + 2 ^ 14 * o.entry.toNat + 2 ^ 20 * mmaCode o.tyA
        + 2 ^ 23 * mmaCode o.tyB + 2 ^ 26 * b2n o.zero + 2 ^ 27 * b2n o.den + 2 ^ 28 * rndCode o.rnd, n)
    | .mxgo n _ _ => (0, 0, n)
    | _ => (0, 0, (0 : BitVec 1536))
  [x.seq.toNat + 2 ^ 32 * x.k + 2 ^ 38 * kind + 2 ^ 39, p 0 + 2 ^ 32 * p 1, p 2, mma] ++ wordsOf nest 24

/-- A replay-queue entry of 8 words (15 R412). -/
def replayEntry (x : Bool) (order : Nat) (a : Acc) : List Nat :=
  let sq (i : Nat) : Nat := ((a.preds.getD [])[i]?.getD 0).toNat
  [a.w0.toNat + 2 ^ 32 * a.w1.toNat,
    seqCode a.q + 8 * b2n x + 16 * b2n a.flt + 32 * b2n a.uh + 64 * b2n a.preds.isSome + 256 * order + 2 ^ 16 * (a.rem % 2 ^ 16),
    a.opa.toNat, a.opb.toNat, a.opc.toNat, lanePc a.line a.lane, sq 0 + 2 ^ 32 * sq 1, sq 2]

/-- The replay queue with ORDER counted within each sequencer. -/
def replayWords (x : Bool) (l : List Acc) : List Nat :=
  (l.zipIdx.flatMap fun p => replayEntry x ((l.take p.2).filter (·.q == p.1.q)).length p.1)

def strmState : StrmSt → Nat
  | .idle => 0 | .running => 1 | .halted => 2 | .feed => 3

/-! ## Fields of a record (05 R122) -/

def Strm.base (p : Strm) : Nat := fld p.image 0 52
def Strm.tier (p : Strm) : Nat := fld p.image 56 2
def Strm.ext (p : Strm) (k : Nat) : Nat := fld p.image (64 + 16 * k) 16
def Strm.step (p : Strm) (k : Nat) : Int := sfld p.image (128 + 32 * k) 32
def Strm.epe (p : Strm) : Nat := fld p.image 256 14
def Strm.imode (p : Strm) : Nat := fld p.image 270 2
def Strm.isrc (p : Strm) : Nat := fld p.image 272 4
def Strm.iext (p : Strm) : Nat := fld p.image 276 16
def Strm.iscale (p : Strm) : Int := sfld p.image 292 16
def Strm.ti (p : Strm) : Nat := fld p.image 308 8
def Strm.tien (p : Strm) : Bool := bitOf p.image 316
def Strm.org (p : Strm) (k : Nat) : Int := sfld p.image (320 + 32 * k) 32
/-- The type code of the record, or of its tensor (05 R124). -/
def Strm.tyCode4 (p : Strm) : Nat := if p.tien then fld p.desc 52 4 else fld p.image 52 4
def Strm.ty (p : Strm) : ETy := (tyOf p.tyCode4).getD .f32
/-- Elements of one round of the four dimensions. -/
def Strm.inner (p : Strm) : Nat := p.ext 0 * p.ext 1 * p.ext 2 * p.ext 3
/-- Rounds of the indirect level. -/
def Strm.rounds (p : Strm) : Nat := if p.imode = 0 then 1 else p.iext
def Strm.total (p : Strm) : Nat := p.rounds * p.inner
/-- Position of the cursor in the walk (05 R123, R126). -/
def Strm.lin (p : Strm) : Nat := p.x * p.inner + p.j0 + p.ext 0 * (p.j1 + p.ext 1 * (p.j2 + p.ext 2 * p.j3))
/-- The cursor at a position; the index values of rounds before it are used up. -/
def Strm.seek (p : Strm) (n : Nat) : Strm :=
  let m := n % p.inner
  let x := n / p.inner
  { p with j0 := m % p.ext 0, j1 := m / p.ext 0 % p.ext 1, j2 := m / (p.ext 0 * p.ext 1) % p.ext 2,
           j3 := m / (p.ext 0 * p.ext 1 * p.ext 2), x := x, idx := p.idx.drop (x - p.x) }
/-- Is the stream started and not at its end. -/
def Strm.live (p : Strm) : Bool := p.st == .running || p.st == .halted

/-- A stream's image and cursor, 10 words (05 R122, R126): X counts the index of the round in progress as used, and is 0 without
an indirect level. -/
def strmWords (p : Strm) : List Nat :=
  wordsOf p.image 8 ++
    [p.j0 + 2 ^ 16 * p.j1 + 2 ^ 32 * p.j2 + 2 ^ 48 * p.j3,
      (if fld p.image 270 2 = 0 then 0 else p.x + b2n (p.j0 + p.j1 + p.j2 + p.j3 != 0)) % 2 ^ 16 + 2 ^ 16 * p.ipos + 2 ^ 29 * p.que + 2 ^ 32 * b2n p.store + 2 ^ 33 * strmState p.st]

/-- MOV opcodes of the commands (02 R62). -/
def CmdOp.code : CmdOp → Nat
  | .copy .. => 0x0E | .copys .. => 0x0F | .copyo .. => 0x10 | .fst .. => 0x16 | .fld .. => 0x17 | .fatm .. => 0x18
  | .fcol .. => 0x19 | .bwls .. => 0x1A | .bwrl .. => 0x1B | .bwsl .. => 0x1C | .grped .. => 0x1D
  | .mxgo .. | .mxmma .. => 0

/-- A halted MOV command of 4 words (15 R413). -/
def haltedMov (x : Cmd) : List Nat :=
  [x.seq.toNat + 2 ^ 32 * x.op.code + 2 ^ 48 * causeCodeO x.cause, x.fva, x.bytes, x.ring]

/-- The 8 KiB frame (15 R409). The words of a faulting instruction that is no entry stand in the slot after the last entry, which
RQN does not count (02 R64; log entry 45). -/
def frameWords (c : Core) (t : Trap) : List Nat :=
  let halted := c.cmds.filter fun x => x.st == .halted && !x.op.isMtx
  let strm := (c.strm.toList.zipIdx).foldl (fun a p => if p.1.st = .halted then a + 2 ^ p.2 else a) 0
  let head := [causeCodeO t.cause + 2 ^ 16 * agentCode t.agent + 2 ^ 20 * b2n (!t.done) + 2 ^ 21 * b2n t.uh
      + 2 ^ 22 * b2n t.pre + 2 ^ 23 * b2n c.x + 2 ^ 24 * t.tag + 2 ^ 28 * t.replay.length + 2 ^ 34 * halted.length
      + 2 ^ 41 * strm,
    t.fva % 2 ^ 52, t.pc.toNat, t.aux % 2 ^ 32 + 2 ^ 32 * actCode t.act, t.ticks, if t.uh then t.uepc.toNat else 0, 0, 0]
  head ++ seqBlock t.ctl ++ seqBlock t.acs ++ seqBlock t.vec ++ seqBlock t.mov ++ drainRecord c ++ nestRecord c
    ++ padTo 112 ((c.mtxQ.filterMap fun q => c.cmds.find? (·.seq == q)).flatMap mtxEntry)
    ++ padTo 256 (replayWords c.x t.replay ++ t.words.toList.flatMap (replayEntry c.x 0))
    ++ c.strm.toList.flatMap strmWords
    ++ padTo 256 (halted.flatMap haltedMov) ++ List.replicate 96 0

end Sys2Proof.Machine
end

