-- ==== Sys2Proof/Machine/Ops.lean ====
section
/-!
DEFINITION. Operations every family uses: taking an exception and returning from one (15 R402 to R414; 08 R257), the
action table, ring records (09 R272), what ends a job, what ends a task, and how a meaning's end becomes an outcome.
-/
namespace Sys2Proof.Machine

/-! ## Host events -/

/-- Codes of the host events that carry no cause code: park, forward, resumed, rolled back, service, power, die,
program, trap notice, queue, security, lease, replica. -/
def evPark : Nat := 0x8001
def evForward : Nat := 0x8002
def evNotice : Nat := 0x8003
def evKilled : Nat := 0x8004
def evRolledBack : Nat := 0x8005
def evService : Nat := 0x8006
def evPower : Nat := 0x8007
def evDie : Nat := 0x8008
def evPoison : Nat := 0x8009
def evResumed : Nat := 0x800A
def evFault : Nat := 0x800B
def evTdi : Nat := 0x800C
def evSaved : Nat := 0x800D
def evMoved : Nat := 0x800E

/-! ## The action table (15 R403) -/

/-- The entry's number for a cause. -/
def actIndex (c : Cause) : Nat := 64 * (causeCode c / 256 - 1) + causeCode c % 256

/-- The launch values. -/
def actLaunch (c : Cause) : BitVec 8 :=
  if pageCause c then 1
  else if c = .barvMix ∨ c = .preTimeout ∨ c = .migTimeout then 17
  else if c = .rankLost ∨ c = .sramUe then 4
  else 2

def actByte (s : State) (j : Nat) (c : Cause) : BitVec 8 :=
  (((s.job? j).getD { num := j }).act.lookup (actIndex c)).getD (actLaunch c)

def actOf (b : BitVec 8) : Act :=
  match fld b 0 2 with
  | 0 => .kill | 1 => .replay | 2 => .park | _ => .forward

/-! ## Records in rings (09 R269, R272) -/

/-- Write a record of four words where the ring has room; none when it is full. -/
def ringPut (s : State) (r : Req) (desc : BitVec 256) (rec : List Nat) : Except Flt (Option (State × Nat)) :=
  match readMem s r (fld desc 64 52) 8 with
  | .error f => .error f
  | .ok (s, hb) =>
    match readMem s r (fld desc 128 52) 8 with
    | .error f => .error f
    | .ok (s, tb) =>
      let h := leVal hb
      let n := 2 ^ fld desc 52 4
      if n ≤ (h + (2 ^ 64 - leVal tb)) % 2 ^ 64 then .ok none
      else
        let slot := fld desc 0 52 + 32 * (h % n)
        match writeMem s r slot (wordBytes rec) with
        | .error f => .error f
        | .ok s =>
          match writeMem s r (fld desc 64 52) (leBytes 8 (h + 1)) with
          | .error f => .error f
          | .ok s => .ok (some (s, slot))

/-- Is a ring descriptor valid (09 R269). -/
def ringDescOk (width v : Nat) (d : BitVec 256) : Bool :=
  let own (a : Nat) : Bool := match regionOf width v a 1 with
    | .ok .priv | .ok (.spad _) => true
    | _ => false
  fld d 57 7 == 0 && fld d 116 12 == 0 && fld d 180 12 == 0 && fld d 192 64 == 0 && fld d 52 4 != 0
    && fld d 0 52 % 32 == 0 && fld d 64 52 % 8 == 0 && fld d 128 52 % 8 == 0
    && own (fld d 0 52) && own (fld d 64 52) && own (fld d 128 52)

/-! ## Ends of jobs, ranks and tasks -/

/-- A core given back: what belongs to no task stays (01 R18, R22); its task state is as after reset. -/
def Core.freed (c : Core) : Core :=
  { Core.reset c.phys with
    tok := c.tok, seqCtr := c.seqCtr, tokLast := c.tokLast, mxKcap := c.mxKcap, preWait := c.preWait, migWait := c.migWait, icache := c.icache,
    tlb := c.tlb }

/-- The status record of a program (10 R296; 15 R404). -/
def statusRecord (s : State) (at' off status job cause : Nat) : State :=
  writePhys s (at' + off) (wordBytes [status + 2 ^ 8 * job + 2 ^ 32 * cause, s.now])

/-- What a job holds on the links and in queues of the chip is abandoned (15 R404; 11 R330). -/
def dropTraffic (s : State) (j : Nat) : State :=
  let mine (l : Lane) : Bool := l.job == j && l.st != .repair && l.st != .retired
  (darkenLanes mine s).modChip fun c =>
    { c with
      ingress := c.ingress.flatMap fun l => if mine l then l.darken else [l]
      leaseQ := c.leaseQ.filter (·.job != j)
      leases := c.leases.filter (·.job != j)
      notices := c.notices.filter (·.job != j)
      guards := c.guards.filter (·.job != j)
      sendQ := (c.sendQ.map fun q => (q.1, q.2.filter (·.2.job != j))).filter fun q => !q.2.isEmpty
      migs := c.migs.filter (·.job != j) }

/-- Kill (15 R404): the job ends; nothing is saved; its frames stay allocated; the record KILLED. One that is being rolled back ends
once the log is applied (15 R422). -/
def killJob (s : State) (j cause : Nat) : State :=
  match s.job? j with
  | none => s
  | some jb =>
    if jb.rolling then s.modJob j fun x => { x with rollEnd := some (x.rollEnd.getD cause) }
    else
    let s := s.mapCores fun c => if c.job = j then c.freed else c
    let s := dropTraffic { s with ranks := s.ranks.filter (·.job != j) } j
    let s := s.modJob j fun x =>
      { x with status := .killed, dets := [], cols := [], groups := [], succ := none, bound := none, log := [],
               reqs := [], logFull := false, ckpt := none }
    (statusRecord s jb.doneAt 16 4 j cause).post .event [evKilled, j, cause]

/-! ## What an action does (15 R402 to R406) -/

/-- The forward record of a cause met at core i of rank r (15 R406). -/
def forwardRecord (s : State) (r i : Nat) (c : Cause) (ag : Agent) (fva : Nat) : List Nat :=
  [causeCode c + 2 ^ 16 * r + 2 ^ 30 * i + 2 ^ 37 * agentCode ag, fva % 2 ^ 52, 0, s.now]

/-- Where a forwarded cause is kept: at the core in focus, or at the rank when it has no core here. -/
def keepFwd (j r : Nat) (f : Fwd) (s : State) : State :=
  if (s.coresOf j r).isEmpty then s.modRank j r fun k => { k with fwds := k.fwds ++ [f] }
  else s.modCore fun k => { k with fwds := k.fwds ++ [f] }

/-- Post a forward record: to the ring FWD_RING names on virtual rank 0, else to the host; where rank 0 is on another chip, by that
chip's Rank Scheduler, which answers as it has the reply (log entry 20). -/
def postForward (s : State) (toHost : Bool) (j r i : Nat) (c : Cause) (ag : Agent) (fva : Nat) : State :=
  let rec' := forwardRecord s r i c ag fva
  let held (w : FwdTo) (s : State) : State := keepFwd j r { at' := w, cause := c, agent := ag, fva := fva } s
  let host := held .host (s.post .event (evForward :: rec'))
  match s.rank? j 0 with
  | none =>
    let e := placeOf s j 0
    if toHost || e.state == .cold || e.state == .withdrawn || e.state == .absent then host
    else held (.far s.freeCtr) ({ s with freeCtr := s.freeCtr + 1 }.post .fabric (j :: 0 :: rec'))
  | some r0 =>
    if toHost || r0.fwdRing == 0 || r0.parked || r0.cold then host
    else
      let rq := s.unitReq j 0 true
      match readMem s rq r0.fwdRing.toNat 32 with
      | .error _ => host
      | .ok (s1, bs) =>
        let d : BitVec 256 := BitVec.ofNat 256 (leVal bs)
        if !ringDescOk rq.width rq.v d then host
        else match ringPut s1 rq d rec' with
          | .ok (some (s2, slot)) =>
            match locate s2 rq (slot + 16) 8 .read with
            | .ok (s3, p) => held (.ring p.key) s3
            | .error _ => s2
          | _ => host

/-- Park (15 R404): the rank is to be pre-empted, and the host hears of it. -/
def parkRank (s : State) (j r cause : Nat) : State :=
  let s := (s.modRank j r fun k => { k with parked := true, noDispatch := true }).post .event [evPark, j, r, cause]
  { s with agenda := s.agenda ++ [.preemptRequest j r] }

/-- Kill with RB: the job is to be rolled back, unless its log is full (15 R404, R420). -/
def rollbackOr (s : State) (j cause : Nat) : State :=
  match s.job? j with
  | none => s
  | some jb =>
    if jb.logFull || jb.ckpt.isNone then (killJob s j cause).post .event [causeCode .ckptNone, j]
    else if jb.rolling then s
    else { s.modJob j fun x => { x with rolling := true } with agenda := s.agenda ++ [.rollback j] }

/-- The action for a cause met at core i of rank r of job j (15 R402, R404). -/
def applyFor (s : State) (j r i : Nat) (c : Cause) (ag : Agent) (fva : Nat) : State :=
  let b := actByte s j c
  let note (s : State) : State := if bitOf b 4 then s.post .event [evNotice, j, r, causeCode c, fva] else s
  if ((s.job? j).map (·.rolling)).getD false then s
  else match actOf b with
    | .kill => if bitOf b 2 then rollbackOr (note s) j (causeCode c) else killJob (note s) j (causeCode c)
    | .replay => note s
    | .park => parkRank s j r (causeCode c)
    | .forward => postForward s (bitOf b 3) j r i c ag fva

/-- The line that rank r meets at va, by number. -/
def poisonLine (s : State) (j r va : Nat) : Option Nat :=
  match locate s { s.unitReq j r true with keepA := true } va 1 .read with
  | .ok (_, p) => some (p.key / 64)
  | .error _ => none

/-- Has the rank had its MEM_POISON item for the line at va (13 R381). -/
def poisonKnown (s : State) (j r va : Nat) : Bool :=
  match poisonLine s j r va with
  | some l => ((s.job? j).map (·.poisoned)).getD [] |>.contains (r, l)
  | none => false

/-- A cause as an item of the action table: MEM_POISON once for a rank and line, until the line is cleared (13 R381; 15 R402, R415). -/
def raiseItem (s : State) (j r i : Nat) (c : Cause) (ag : Agent) (fva : Nat) : State :=
  if c ≠ .memPoison then applyFor s j r i c ag fva
  else if poisonKnown s j r fva then s
  else
    applyFor (match poisonLine s j r fva with
      | some l => s.modJob j fun x => { x with poisoned := (r, l) :: x.poisoned }
      | none => s) j r i c ag fva

/-- The action for a cause met by an agent of the focused core, which it holds (15 R403: later writes of the table do not change it). -/
def applyAction (s : State) (c : Cause) (ag : Agent) (fva : Nat) : State :=
  let act := actOf (actByte s s.core.job c)
  let s := if ag = .rs then s else s.modCore fun k => { k with acts := { agent := ag, cause := c, fva := fva, act := act } :: k.acts }
  raiseItem s s.core.job s.core.rank s.core.coreId.toNat c ag fva

/-- A cause that halts nothing (15 R402): the item goes through the table with no agent held; a rank that has no core here, cold,
saved or parked, meets its action all the same. -/
def reportItem (s : State) (j r : Nat) (c : Cause) (fva : Nat) : State :=
  match s.coresOf j r with
  | [] => if (s.rank? j r).isSome then raiseItem s j r 0 c .rs fva else s
  | c0 :: _ => s.atCore c0.phys fun s => applyAction s c .rs fva

/-- The host hears of a poisoned line that a rank has met, once with its item (13 R381). -/
def poisonError (s : State) (known : Bool) (va : Nat) : State :=
  if known then s else s.post .event [evPoison, s.core.job, s.core.rank, va]

/-- A cause met by a sequencer: held, the action applied, and the host told of poison (13 R381; 15 R402). -/
def seqCause (s : State) (c : Cause) (ag : Agent) (fva : Nat) : State :=
  let known := poisonKnown s s.core.job s.core.rank fva
  let t := applyAction s c ag fva
  if c = .memPoison then poisonError t known fva else t

/-! ## Taking an exception (15 R407 to R413) -/

/-- The id of the RDV that CTL stands stalled at, else 0 (08 R241; 15 R410). -/
def rdvAux (s : State) : Nat :=
  let x := s.core.ctl
  let ws := (cachedLine s x.line).getD []
  if !(x.run && x.stall) then 0
  else match decode .ctl (ws[x.lane]?.getD 0) 0 with
    | .ok (.rdv id) => id.toNat
    | _ => 0

/-- Every issued instruction that is no entry completes: results in flight are written (15 R407). -/
def settle (s : State) : State :=
  let lt {α : Type} (l : Latch α) : Latch α := { l with due := 0 }
  s.modCore fun c =>
    let c := (byDue c.pend).foldl (fun c p => c.commit p.dst) c
    { c with pend := [], latC := c.latC.map lt, latA := c.latA.map lt, latM := c.latM.map lt, latV := c.latV.map lt }

/-- The agents that stand halted as the frame is written: streams, commands of MOV, the nest and the drain (15 R409, R414). -/
def recordHalted (c : Core) (t : Trap) : Trap :=
  { t with
    hStrm := (List.range 16).filter fun p => (c.strm[p]?).any (·.st == .halted)
    hCmds := (c.cmds.filter fun x => x.st == .halted && !x.op.isMtx).map (·.seq)
    hEng := (c.nest.toList.filter (·.cause.isSome)).map (·.seq) ++ (c.drains.filter (·.halt.isSome)).map (·.seq) }

/-- Write the frame at TRAP_FRAME, through SYS pages, where it translates (15 R407, R409; log entry 7). -/
def writeFrame (s : State) : State :=
  match s.core.trap with
  | none => s
  | some t =>
    match writeMem s (s.unitReq s.core.job s.core.rank true) s.core.trapFrame.toNat (wordBytes (frameWords s.core t)) with
    | .ok s => s
    | .error _ => s

/-- Instructions that stand in the queue though they have done nothing: a command that waits to be accepted, one that was to be issued
again and has not been, one that faulted in the same cycle as another sequencer's (15 R405, R408). -/
def againEntries (s : State) : List Acc :=
  (allSeqs.filter fun q => !(s.core.seq q).cap.ops.isEmpty).map fun q =>
    { (entryHere q s).1 with flt := (s.core.seq q).cap.flt }

/-- A sequencer as the frame holds it: at the next lane it issues, past an instruction that stands in the replay queue (15 R411). -/
def atEntry (q : Seqr) (s : State) : SeqSt :=
  let x := s.core.seq q
  let x := if x.cap.ops.isEmpty then x else { x with lane := min 8 (x.lane + (entryHere q s).2), cap := {} }
  if x.run then nextOwn s q Config.icacheLines x else x

/-- An exposed pre-emption: results in flight keep their remaining cycles (10 R314). -/
def keepsFlight (cause : Option Cause) (s : State) : Bool := cause.isNone && s.core.x

/-- The cycle in which an exposed region has come to stand still (10 R314). -/
def stopTime (s : State) : Nat :=
  let c := s.core
  if c.standsStill then min s.now (max c.ctl.last (c.stopReq.getD 0)) else s.now

/-- In an exposed region the other sequencers stood still from the handler's entry on: what they had in flight moves on by n cycles
(08 R258). -/
def afterHandler (n : Nat) (c : Core) : Core :=
  if c.x then [Seqr.acs, .vec, .mov].foldl (fun c q => c.moveOn c.uhAt n q) c else c

/-- What is in flight as an exposed region stops at tick n: results due by then, and those of instructions that have popped a load queue,
are written; every other keeps the cycles that remain, and so does each sequencer's next issue (10 R314; 15 R408). -/
def keepCycles (n : Nat) (c : Core) : Core :=
  let c := if c.uh then afterHandler (n - c.uhAt) c else c
  let over' (p : Pend) : Bool := decide (p.due ≤ n) || p.ent.popped
  let ends := c.pend.filter over'
  let c : Core := (byDue ends).foldl (fun c p => c.commit p.dst) { c with pend := c.pend.filter fun p => !over' p }
  let c : Core := { c with latV := c.latV.map fun l => if ends.any (·.due == l.due) then { l with due := 0 } else l }
  allSeqs.foldl (fun c q => c.modSeq q fun x => { x with ready := x.ready - n }) (c.shiftAll (· - n))

/-- Entries in program order, those of one sequencer (15 R408). -/
def insNum (a : Acc) : List Acc → List Acc
  | [] => [a]
  | x :: xs => if a.num < x.num then a :: x :: xs else x :: insNum a xs
def byNum (l : List Acc) : List Acc := l.foldl (fun r a => insNum a r) []

/-- Every sequencer of the core stops, its state and the replay queue go into the frame (15 R407 to R412). A BARV that waits is
executed again on resume (08 R248). -/
def enterTrap (cause : Option Cause) (ag : Agent) (fva aux : Nat) (act : Act) (pc tag : Nat) (extra : List Acc)
    (words : Option Acc) (s : State) : State :=
  let s := quitQueues s.core.phys s
  let keep := keepsFlight cause s
  let again := againEntries s
  let s := if keep then s.modCore (keepCycles (stopTime s)) else settle s
  let at' (q : Seqr) : SeqSt := atEntry q s
  let halt (x : SeqSt) : SeqSt := { x with run := false, cap := {} }
  let c := s.core
  let flight : List Acc := if keep then c.pend.map fun p => { p.ent with op := .flight, flt := false, rem := p.due } else []
  let t : Trap :=
    { cause := cause, agent := ag, fva := fva, pc := BitVec.ofNat 52 pc, tag := tag
      aux := if cause = some .trapUser then aux else rdvAux s
      act := act, ticks := s.now, uh := c.uh, uepc := if c.uh then BitVec.ofNat 52 (c.uepc.toNat * 4) else 0
      pre := cause.isNone, ctl := at' .ctl, acs := at' .acs, vec := at' .vec, mov := at' .mov
      replay := byNum (c.accq ++ extra ++ again ++ flight), done := false, words := words }
  writeFrame (s.modCore fun c =>
    { c with trap := some (recordHalted c t), ctl := halt c.ctl, acs := halt c.acs, vec := halt c.vec, mov := halt c.mov, accq := [],
             barv := none })

/-- Accesses that have issued and not performed, those a trap holds in its replay queue among them (07 R206; 08 R240, R247). -/
def Core.unperformed (c : Core) : List Acc :=
  c.accq ++ (match c.trap with
    | some t => if t.done then [] else t.replay.filter (·.op != .flight)
    | none => [])

/-- What a return restores (15 R414): positions and loop stacks, the entries in order, the halted agents it names, the user
completion handler's state, user privilege; the frame holds no trapped state any more. A command of MOV goes on once it has its pins
again (13 R378). -/
def resumeAgents (strm : Nat → Bool) (cmds eng : W32 → Bool) (s : State) : State :=
  s.modCore fun c =>
    { c with
      strm := c.strm.mapIdx fun i p => if p.st = .halted ∧ strm i then { p with st := .running, cause := none } else p
      cmds := c.cmds.map fun x => if x.st = .halted ∧ cmds x.seq then { x with cause := none, fva := 0 } else x
      nest := c.nest.map fun n => if eng n.seq then { n with cause := none } else n
      drains := c.drains.map fun d => if eng d.seq then { d with halt := none } else d }

/-- Every halted agent goes on. -/
def resumeAll (s : State) : State := resumeAgents (fun _ => true) (fun _ => true) (fun _ => true) s

/-- Does an agent stand halted with this cause and address. -/
def Core.halts (c : Core) (ag : Agent) (cause : Cause) (fva : Nat) : Bool :=
  match ag with
  | .acs => c.strm.toList.any fun p => p.st == .halted && p.cause == some cause && p.fva == fva
  | .mov => c.cmds.any fun x => x.st == .halted && x.cause == some cause && x.fva == fva
  | .mtx => c.nest.any fun n => n.cause == some cause && n.fva == fva
  | .drn => c.drains.any fun d => d.halt == some cause && d.fva == fva
  | _ => false

/-- An entry that is issued again puts its sequencer back at its lane, with its captured operands (15 R414). -/
def reissue (l : List Acc) (q : Seqr) (x : SeqSt) : SeqSt :=
  match l.find? fun a => a.q == q && a.op == .again with
  | some a => { x with line := a.line, lane := a.lane, cap := { ops := a.snap, preds := a.preds } }
  | none => x

/-- The effect of RFT (15 R414; 08 R257). After an exposed pre-emption every sequencer issues, and every result in flight is
written, after the cycles that remained (10 R314, R317). -/
def restore (t : Trap) (s : State) : State :=
  let n := s.now
  let rel := t.pre && s.core.x
  let on (q : Seqr) (x : SeqSt) : SeqSt := { reissue t.replay q x with ready := if rel then n + x.ready else n, last := n }
  let s := resumeAgents t.hStrm.contains t.hCmds.contains t.hEng.contains s
  writeFrame (s.modCore fun c =>
    { (if rel then c.shiftAll (· + n) else c) with
      trap := some { t with done := true }
      ctl := on .ctl t.ctl, acs := on .acs t.acs, vec := on .vec t.vec, mov := on .mov t.mov
      accq := (t.replay.filter fun a => a.op != .again && a.op != .flight).map fun a => { a with flt := false }
      uh := t.uh, uepc := if t.uh then BitVec.ofNat 50 (t.uepc.toNat / 4) else c.uepc
      uhAt := n, priv := false, fwds := c.fwds.filter fun f => c.halts f.agent f.cause f.fva
      acts := c.acts.filter fun h => c.halts h.agent h.cause h.fva, stopReq := none, stopped := false, saved := false })

/-- A resume of the core by the Rank Scheduler: the resume sequence ends with RFT (15 R414, log entry 17). -/
def resumeCore (s : State) : State :=
  match s.core.trap with
  | some t => if t.done then resumeAll s else restore t s
  | none => resumeAll s

/-- A sequencer's instruction raises a cause: the trap enters, and the action applies (15 R402 to R408). A replayable
cause makes the instruction an entry, after which its sequencer goes on; TRAP has completed (08 R256). A cause resolved
at once under replay resumes at once (15 R402). -/
def takeTrap (q : Seqr) (f : Flt) (aux : Nat) (s : State) : State :=
  let s := noteFault s (match q with | .mov => 5 | .acs => 2 | _ => 0) f
  let x := s.core.seq q
  let ws := (cachedLine s x.line).getD []
  let (e, n) := entryHere q s
  let done (s : State) : State := s.modSeq q fun y => { y with cap := {} }
  let past (s : State) : State := s.modSeq q fun y => { y with lane := min 8 (y.lane + n) }
  let b := actByte s s.core.job f.c
  let again := replayable f.c && f.c != .trapUser
  let s1 := if replayable f.c then past (done s) else done s
  -- the header is lane 0, where ENC_HDR is reported (02, the second faulty variant of the worked example)
  let lane := if f.c = .encHdr ∨ f.c = .modeMix then 0 else x.lane
  let tag := if lane = 0 then 0 else tagOf (ws[0]?.getD 0) lane
  let s2 := enterTrap (some f.c) (seqAgent q) f.va aux (actOf b) (lanePc x.line lane) tag
    (if again then [e] else []) (if again || lane == 0 then none else some e) s1
  let s3 := seqCause s2 f.c (seqAgent q) f.va
  if actOf b = .replay ∧ replayable f.c ∧ !pageCause f.c then resumeCore s3 else s3

/-- A fetch that faults: the target line is fetched again on resume (13 R365; 02 R38). -/
def fetchFault (q : Seqr) (f : Flt) (s : State) : State :=
  let s := noteFault s 1 f
  let x := s.core.seq q
  let b := actByte s s.core.job f.c
  let s := enterTrap (some f.c) (seqAgent q) f.va 0 (actOf b) (lanePc x.line x.lane) 0 [] none s
  seqCause s f.c (seqAgent q) f.va

/-- An agent's own halt or item at the focused core: reported, and the action applied (15 R402, R405). -/
def agentCause (cl : Nat) (ag : Agent) (f : Flt) (s : State) : State :=
  applyAction (noteFault s cl f) f.c ag f.va

/-- The fault of an agent known by cause and address (05 R130; 09 R267). -/
def fltAt (s : State) (c : Cause) (va : Nat) : Flt :=
  ⟨c, va, if 0x205 ≤ causeCode c ∧ causeCode c ≤ 0x208 then some (.page s.myRank.asid (va / 2 ^ 16) s.core.rank false) else none⟩

/-! ## Outcomes -/

/-- How a meaning of sequencer q ends the step. -/
def finish (q : Seqr) : Out → Host.Outcome State Fault Refusal
  | .ok s => .next s
  | .stall s => .next (stalled q s)
  | .wait on s => .next (waiting q on s)
  | .trap f aux s => .next (takeTrap q f aux s)
  | .stop f => .fault f

/-- An instruction that is illegal in the user completion handler (08 R259). -/
def notInUh (s : State) (k : Out) : Out := if s.core.uh then .raise .uhIllegal s else k

end Sys2Proof.Machine
end

