-- ==== Sys2Proof/Machine/Access.lean ====
section
/-!
DEFINITION. Accesses of CTL and MOV: what each does where it performs (07 R198, R203, R204; 08 R234 to R237; 09 R263,
R268, R275; 06 R185), and the deterministic requests (04 R112 to R115).
-/
namespace Sys2Proof.Machine

/-! ## Latency (01 R9, R10, R25) -/

/-- Columns of a block of the given width. -/
def blockCols (w : Nat) : Nat :=
  if w = 4 then 2 else if w = 8 then 4 else if w = 16 then 4 else if w = 32 then 8 else if w = 64 then 8 else 16
def blockRows (w : Nat) : Nat := w / blockCols w

/-- Latency of a scratchpad access from core i to core k of a rank of width w: 9 + ⌈(h + 3s) ÷ 2⌉. -/
def spadLatency (w i k : Nat) : Nat :=
  let c := blockCols w
  let d (a b : Nat) : Nat := (a - b) + (b - a)
  let h := d (i % c) (k % c) + d (i / c) (k / c)
  let sx := if w = 128 ∧ (i % c < 8) ≠ (k % c < 8) then 1 else 0
  9 + (h + 3 * sx + 1) / 2

/-- Latency of an access at va, `more` cycles on top for an atomic (08 R236); any other address has none documented,
and a region that waits for it is held, not the reader. -/
def accLatency (s : State) (va more : Nat) : Nat :=
  if spadLo ≤ va ∧ va < spadHi then
    spadLatency s.myJob.width s.core.coreId.toNat ((va - spadLo) / 2 ^ 22) + more
  else 1

/-! ## Operations at the point of coherence -/

/-- The atomic operations on w-bit words (08 R237). -/
def atomOp (op : AtomSel) (w v x : Nat) : Nat :=
  match op with
  | .add => (v + x) % 2 ^ w
  | .min => if sgn w v ≤ sgn w x then v else x
  | .max => if sgn w v ≤ sgn w x then x else v
  | .umin => if v ≤ x then v else x
  | .umax => if v ≤ x then x else v
  | .and => v &&& x
  | .or => v ||| x
  | .xor => v ^^^ x
  | .swap => x

/-- Zero- or sign-extension of n loaded bytes to 64 bits (08 R234). -/
def extend (sx : Bool) (n x : Nat) : Word := if sx then wordOf (sgn (8 * n) x) else BitVec.ofNat 64 x

/-- ArriveAdd and ArriveSub on an arrival word (09 R275). -/
def arriveAdd (w n : Nat) : Except Cause Nat :=
  if 0xFFFFFFFF < w % 2 ^ 32 + n then .error .arrvOverflow else .ok (w + n)
def arriveSub (w n : Nat) : Except Cause Nat :=
  let p := w % 2 ^ 32
  if p < n then .error .arrvUnderflow
  else
    let ph := if 0 < n ∧ p = n then (w / 2 ^ 32 + 1) % 2 ^ 32 else w / 2 ^ 32
    .ok (ph * 2 ^ 32 + (p - n))

/-- Read a doubleword, and write f of it as one action (07 R198). -/
def rmw (s : State) (r : Req) (va : Nat) (f : Nat → Except Cause Nat) : Except Flt (State × Nat) :=
  match access s r va 8 .write with
  | .error e => .error e
  | .ok (s, ps) =>
    match readPieces s ps with
    | .error e => .error e
    | .ok bs =>
      match f (leVal bs) with
      | .error c => .error ⟨c, va, none⟩
      | .ok y => .ok (recheck (writePieces s ps (leBytes 8 y)), leVal bs)

/-- The checks of R235 that come before translation. -/
def accCheck (s : State) (addr size : Nat) : Option Flt :=
  if 2 ^ 52 ≤ addr then some ⟨.vaHole, addr % 2 ^ 52, none⟩
  else match regionOf s.myJob.width s.myJob.v addr size with
    | .error c => some ⟨c, addr, none⟩
    | .ok _ => if addr % size ≠ 0 then some ⟨.memAlign, addr, none⟩ else none

/-- Perform an access: the state after it, and the value it returns to a register. -/
def performOp (s : State) (r : Req) (op : AccOp) (addr size : Nat) : Except Flt (State × Option Word) :=
  match accCheck s addr size with
  | some f => .error f
  | none =>
    match op with
    | .load sx _ _ =>
      match readMem s r addr size with
      | .error f => .error f
      | .ok (s, bs) => .ok (s, some (extend sx size (leVal bs)))
    | .store x =>
      match writeMem s r addr (leBytes size x.toNat) with
      | .error f => .error f
      | .ok s => .ok (s, none)
    | .atom op x _ _ =>
      match rmw s { r with ask := [2, op.code, x.toNat] } addr fun v => .ok (atomOp op 64 v x.toNat) with
      | .error f => .error f
      | .ok (s, v) => .ok (s, some (BitVec.ofNat 64 v))
    | .cas x new _ _ =>
      match rmw s { r with ask := [3, x.toNat, new.toNat] } addr fun v => .ok (if v = x.toNat then new.toNat else v) with
      | .error f => .error f
      | .ok (s, v) => .ok (s, some (BitVec.ofNat 64 v))
    | .tidw n =>
      match readMem s r addr 64 with
      | .error f => .error f
      | .ok (s, bs) =>
        let d : Desc := BitVec.ofNat 512 (leVal bs)
        match d.check with
        | some c => .error ⟨c, addr, none⟩
        | none => .ok (s.modMyRank fun k => { k with ti := k.ti.setIfInBounds n d }, none)
    | .expct n =>
      match rmw s { r with ask := [4, 0, n] } addr fun v => arriveAdd v n with
      | .error f => .error f
      | .ok (s, _) => .ok (s, none)
    | .arrv n =>
      match rmw s { r with ask := [4, 1, n] } addr fun v => arriveSub v n with
      | .error f => .error f
      | .ok (s, _) => .ok (s, none)
    | .cring n =>
      match readMem s r addr 32 with
      | .error f => .error f
      | .ok (s, bs) =>
        let d : BitVec 256 := BitVec.ofNat 256 (leVal bs)
        if !ringDescOk r.width r.v d then .error ⟨.ringDesc, addr, none⟩
        else .ok (s.modCore fun c => { c with rings := c.rings.setIfInBounds n (some d), curRing := n }, none)
    | .again | .flight => .ok (s, none)

/-- The client of a sequencer's accesses (13 R367). -/
def accClient (q : Seqr) : Nat := match q with | .mov => 5 | _ => 0

/-- CTL's accesses before the FORK hold back this sequencer's (07 R206, 08 R240). -/
def gated (s : State) (q : Seqr) : Bool :=
  s.core.unperformed.any fun a => a.q == .ctl && a.id < (s.core.seq q).gate

/-- A latch that access `id` owes a value receives it (02 R47). -/
def fillLat (id : Nat) (x : Word) (l : Latch Word) : Latch Word := if l.owed = id then ⟨x, 0, 0⟩ else l

/-- The value of an access that performed after its issue reaches its register and its latch (02 R47, R49). -/
def deliver (a : Acc) (x : Word) (s : State) : State :=
  s.modCore fun c =>
    let c := c.setLat a.q ((c.lat a.q).map (fillLat a.id x))
    let c := { c with latSet := c.latSet.map (fillLat a.id x) }
    match a.op.dest with
    | some (d, false) => c.putReg a.q d x
    | _ => c

/-- The transaction of an access that leaves the chip (11 R320). -/
def AccOp.fab (size : Nat) : AccOp → FabOp
  | .store x => .write (leBytes size x.toNat)
  | .atom op x _ _ => .atomic op x
  | .cas x new _ _ => .cas x new
  | _ => .read size

/-- An access that may not go joins its chip's send queue, if it leaves the chip; none when there is no room (11 R323, R337). -/
def queueFar (s : State) (r : Req) (op : FabOp) (addr size : Nat) : Option State :=
  match farTx s r op addr size with
  | none => some s
  | some (c, x) => if mayGo s r op addr size then some s else enqueueTx s c r.rank x

/-- Issue an access of n lanes. It performs at once when no older access of the sequencer waits and the model's choice
allows; otherwise it joins the accesses in flight (07 R203, R204; log entry 6). `more`: cycles on top of the latency of
R25. -/
def issueAcc (q : Seqr) (n : Nat) (op : AccOp) (addr size more : Nat) (s : State) : Out :=
  let older := s.core.accq.any (·.q == q)
  let shut := !mayGo s (s.req (accClient q)) (op.fab size) addr size
  if gated s q || (shut && s.core.x) then .stall s
  else if older || shut || (s.delay && !s.core.x) then
    if 32 ≤ s.core.accq.length then .stall s
    else match queueFar s (s.req (accClient q)) (op.fab size) addr size with
    | none => .stall s
    | some s =>
      let e := (entryHere q s).1
      let id := s.core.accId
      let a : Acc := { e with id := id, op := op, addr := addr, size := size, flt := false }
      let s := s.modCore fun c => { c with accq := c.accq ++ [a], accId := id + 1 }
      let s := match op.dest with
        | some _ => s.modCore fun c => c.setLat q (pushLat ⟨0, 0, id⟩ (c.lat q))
        | none => s
      .ok (issued q n 1 s)
  else
    match performOp s (s.req (accClient q)) op addr size with
    | .error f => .trap f 0 s
    | .ok (s', none) => .ok (issued q n 1 s')
    | .ok (s', some x) =>
      let lat := accLatency s addr more
      .ok (issued q n 1 (match op.dest with
        | none => s'
        | some (d, nw) => putAt q lat nw d x s'))

/-- The address of a load or store: base plus a signed offset in units of the size, modulo 2^64 (08 R234). -/
def sizeBytes : Size → Nat
  | .b => 1 | .h => 2 | .w => 4 | .d => 8
def accAddr (base : Word) (off : BitVec 8) (size : Nat) : Nat :=
  (base + wordOf (off.toInt * size)).toNat

/-- LD and DLD (08 R234; 09 R263). -/
def load (q : Seqr) (o : SLd) (s : State) : Out :=
  withSrc q o.a s fun a => withDst q o.nw o.d s <|
    issueAcc q 1 (.load o.sx (regIx s.core q o.d.toNat) o.nw) (accAddr a o.off (sizeBytes o.size)) (sizeBytes o.size) 0 s

/-- ST and DST. -/
def store (q : Seqr) (o : SSt) (s : State) : Out :=
  withSrc q o.a s fun a => withSrc q o.d s fun x =>
    issueAcc q 1 (.store x) (accAddr a o.off (sizeBytes o.size)) (sizeBytes o.size) 0 s

/-! ## Deterministic requests (04 R112 to R115) -/

def Job.group? (j : Job) (g : Nat) : Option Group := j.groups.find? (·.g == g)
def modGroup (s : State) (j g : Nat) (f : Group → Group) : State :=
  s.modJob j fun x => { x with groups := x.groups.map fun y => if y.g = g then f y else y }

/-- The phase of group g that rank r has not arrived at (04 R112). -/
def Group.openPhase (g : Group) (r : Nat) : Nat := if g.arrived.any (·.1 == r) then g.phase + 1 else g.phase

/-- The word an address names, by the rank whose space holds it and its private address (04 R115). A request of CTL
passes the checks of translation of a write at issue (08 R235); R283 asks none of FATM.det. -/
def detWord (s : State) (q : Seqr) (va : Nat) : Except Flt (Nat × Nat) :=
  let r := s.req 0
  let expOf (t : Nat) : Nat := match s.rank? r.job t with
    | some k => k.expBase.toNat
    | none => (placeOf s r.job t).exportBase.toNat
  let fab (t o : Nat) : Except Flt (Nat × Nat) := .ok (t, expOf t + o)
  match regionOf r.width r.v va 8, q, locate s r va 8 .write with
  | .ok (.fab t o), .mov, _ => fab t o
  | _, _, .error f => .error f
  | reg, _, .ok (_, p) =>
    match reg with
    | .ok (.fab t o) => fab t o
    | .ok (.spad _) => .ok (r.rank, va)
    | _ =>
      match leafFor s r va 8 .write with
      | .ok (_, l) =>
        if fld l.e 5 2 = 2 then
          let f := fld l.e 16 31 * 2 ^ 16 + va % 2 ^ pageBits l.lvl
          .ok (f / 2 ^ 33, expOf (f / 2 ^ 33) + f % 2 ^ 33)
        else .ok (r.rank, va)
      | .error _ => .ok (r.rank, p.va)

/-- The poison that a request of CTL meets at its target at issue, last of the checks of R235 (08 R235, R238). -/
def detPoison (s : State) (q : Seqr) (va : Nat) : Option Flt :=
  match q, locate s (s.req 0) va 8 .write with
  | .mov, _ | _, .error _ => none
  | _, .ok (s, p) => (poisonAt s true p).map fun a => ⟨.memPoison, a, none⟩

/-- A deterministic request at issue: the checks of R235, then those of R112 in order, then R115; nothing returns to a
register (08 R238). The request stands at the end of the job's list, or its cause. -/
def detRequest (q : Seqr) (op : Option AtomSel) (x exp : Word) (addr res : Nat) (seq : W32) (s : State) :
    Except Flt State :=
  let c := s.core
  let j := s.myJob
  let g := c.atomGroup.toNat
  let bad (k : Cause) (va : Nat) : Except Flt State := .error ⟨k, va, none⟩
  match accCheck s addr 8 with
  | some f => .error f
  | none =>
    match detWord s q addr with
    | .error f => .error f
    | .ok (tr, tva) =>
      match detPoison s q addr, j.group? g with
      | some f, _ => .error f
      | none, gr =>
      match gr with
      | none => bad .detGroup 0
      | some gr =>
        if !gr.memb.contains c.rank then bad .detGroup 0
        else if 2 ^ 52 ≤ res then bad .vaHole (res % 2 ^ 52)
        else match regionOf j.width j.v res 8 with
          | .error .vaHole => bad .vaHole res
          | .error .spadHole => bad .spadHole res
          | .ok .priv | .ok (.fab ..) | .error _ => bad .detResult res
          | .ok (.spad _) =>
            if res % 8 ≠ 0 then bad .memAlign res
            else if 256 ≤ (j.dets.filter fun d => d.rank == c.rank && d.core == c.coreId.toNat).length then bad .detLimit 0
            else if j.det && j.dets.any fun d => d.trank == tr && d.tva == tva && d.g != g then bad .detViolation addr
            else
              let mov := q == .mov
              let d : Det :=
                { rank := c.rank, core := c.coreId.toNat, task := c.taskId, order := c.atomOrder.toNat, mov := mov,
                  idx := if mov then c.detM else c.detC, g := g, phase := gr.openPhase c.rank, trank := tr, tva := tva,
                  fva := addr, op := op, x := x, exp := exp, res := res, seq := seq }
              let ask : List Nat :=
                [5, d.core, d.task, d.order, b2n d.mov, d.idx, d.g, d.phase, (d.op.map AtomSel.code).getD 9, x.toNat, exp.toNat, res]
              let o := tva - (placeOf s c.job tr).exportBase.toNat
              let s := if (s.rank? c.job tr).isNone then sendFlit s { s.req (accClient q) with ask := ask } tr (fabLo + tr * 2 ^ 33 + o) 8 true else wakeCold c.job tr s
              .ok ((s.modMyJob fun y => { y with dets := y.dets ++ [d] }).modCore fun k =>
                if mov then { k with detM := k.detM + 1 } else { k with detC := k.detC + 1 })

end Sys2Proof.Machine
end

