-- ==== Sys2Proof/Machine/Ctl.lean ====
section
/-!
DEFINITION. CTL's integer work, branches, loops, loads, stores and atomics (08 R227 to R239, R261).
-/
namespace Sys2Proof.Machine

/-! ## Shapes shared by CTL, ACS and MOV -/

/-- A destination from two sources (02 R42, R47): latency `lat`. -/
def alu3 (q : Seqr) (lat : Nat) (f : Word → Word → Word) (o : S3) (s : State) : Out :=
  withSrc q o.a s fun a => withSrc q o.b s fun b => withDst q o.nw o.d s <|
    .ok (issued q 1 1 (putResult q lat o.nw o.d (f a b) s))

/-- A destination from one source. -/
def alu2 (q : Seqr) (f : Word → Word) (o : S2) (s : State) : Out :=
  withSrc q o.a s fun a => withDst q o.nw o.d s <| .ok (issued q 1 1 (putResult q 1 o.nw o.d (f a) s))

/-- A destination from one source and an immediate. -/
def aluI {w : Nat} (q : Seqr) (f : Word → BitVec w → Word) (o : SI w) (s : State) : Out :=
  withSrc q o.a s fun a => withDst q o.nw o.d s <| .ok (issued q 1 1 (putResult q 1 o.nw o.d (f a o.imm) s))

/-- A 32-bit immediate, sign-extended (08 R230). -/
def aluL (q : Seqr) (o : SL) (s : State) : Out :=
  withDst q o.nw o.d s <| .ok (issued q 2 1 (putResult q 1 o.nw o.d (o.imm.signExtend 64) s))

/-- A conditional branch (02 R38, R44): 2 cycles taken, 1 not. -/
def branch (q : Seqr) (o : SBr) (s : State) : Out :=
  withSrc q o.a s fun a =>
    if brTaken o.cond a then .ok (transfer q (lineAt (s.core.seq q).line o.off.toInt) 1 2 s)
    else .ok (issued q 1 1 s)

/-- An unconditional jump of n cycles. -/
def jump (q : Seqr) (off : Int) (s : State) : Out := .ok (transfer q (lineAt (s.core.seq q).line off) 1 2 s)

/-- A loop whose count comes from a register's bits [31:0] (02 R41, R43). -/
def loopReg (q : Seqr) (r : Src) (e : Nat) (s : State) : Out :=
  withSrc q r s fun a => enterLoop q 1 (a.setWidth 32) e s

/-! ## Functions of the integer instructions (08 R230, R231) -/

def mulF : MulSel → Word → Word → Word
  | .lo, a, b => a * b
  | .hi, a, b => BitVec.ofInt 64 (a.toInt * b.toInt / 2 ^ 64)
  | .hiu, a, b => BitVec.ofNat 64 (a.toNat * b.toNat / 2 ^ 64)

/-- DivideInt (08 R231), the divisor not zero. -/
def divF : DivSel → Word → Word → Word
  | .q, a, b => BitVec.ofInt 64 (a.toInt.tdiv b.toInt)
  | .qu, a, b => BitVec.ofNat 64 (a.toNat / b.toNat)
  | .m, a, b => BitVec.ofInt 64 (a.toInt.tmod b.toInt)
  | .mu, a, b => BitVec.ofNat 64 (a.toNat % b.toNat)

def logF : LogSel → Word → Word → Word
  | .and, a, b => a &&& b
  | .or, a, b => a ||| b
  | .xor, a, b => a ^^^ b

/-- A shift by n, any n (08 R230). -/
def shF : ShSel → Word → Nat → Word
  | .l, a, n => if 64 ≤ n then 0 else a <<< n
  | .rl, a, n => if 64 ≤ n then 0 else a >>> n
  | .ra, a, n => a.sshiftRight (min n 63)

def minF (u : Bool) (a b : Word) : Word :=
  if u then (if a.toNat ≤ b.toNat then a else b) else if a.toInt ≤ b.toInt then a else b
def maxW (u : Bool) (a b : Word) : Word :=
  if u then (if a.toNat ≤ b.toNat then b else a) else if a.toInt ≤ b.toInt then b else a

def clzF (a : Word) : Word := if a = 0 then 64 else BitVec.ofNat 64 (63 - Nat.log2 a.toNat)
def popcF (a : Word) : Word := BitVec.ofNat 64 ((List.range 64).foldl (fun n i => n + b2n (bitOf a i)) 0)
def boolW (b : Bool) : Word := if b then 1 else 0

/-! ## Integer instructions -/

def execAdd (o : S3) (s : State) := finish .ctl (alu3 .ctl 1 (· + ·) o s)
def execAddi (o : SI 11) (s : State) := finish .ctl (aluI .ctl (fun a i => a + i.signExtend 64) o s)
def execSub (o : S3) (s : State) := finish .ctl (alu3 .ctl 1 (· - ·) o s)
def execMul (f : MulSel) (o : S3) (s : State) := finish .ctl (alu3 .ctl 3 (mulF f) o s)

/-- DIV (08 R231): a zero divisor sets DIVZ and gives all ones. -/
def execDiv (f : DivSel) (o : S3) (s : State) : Host.Outcome State Fault Refusal :=
  finish .ctl <| withSrc .ctl o.a s fun a => withSrc .ctl o.b s fun b => withDst .ctl o.nw o.d s <|
    if b = 0 then
      .ok (issued .ctl 1 1 ((putResult .ctl 20 o.nw o.d (BitVec.allOnes 64) s).modCore fun c => { c with divz := true }))
    else .ok (issued .ctl 1 1 (putResult .ctl 20 o.nw o.d (divF f a b) s))

def execAnd (o : S3) (s : State) := finish .ctl (alu3 .ctl 1 (· &&& ·) o s)
def execOr (o : S3) (s : State) := finish .ctl (alu3 .ctl 1 (· ||| ·) o s)
def execXor (o : S3) (s : State) := finish .ctl (alu3 .ctl 1 (· ^^^ ·) o s)
def execLogi (f : LogSel) (o : SI 9) (s : State) := finish .ctl (aluI .ctl (fun a i => logF f a (i.setWidth 64)) o s)
def execShf (f : ShSel) (o : S3) (s : State) := finish .ctl (alu3 .ctl 1 (fun a b => shF f a b.toNat) o s)
def execShfi (f : ShSel) (o : SI 6) (s : State) := finish .ctl (aluI .ctl (fun a i => shF f a i.toNat) o s)
def execCmp (f : CmpSel) (o : S3) (s : State) := finish .ctl (alu3 .ctl 1 (fun a b => boolW (cmpHolds f a b)) o s)
def execCmpi (f : CmpSel) (o : SI 8) (s : State) :=
  finish .ctl (aluI .ctl (fun a i => boolW (cmpHolds f a (i.signExtend 64))) o s)

/-- SEL reads its destination register (08 R230). -/
def execSel (o : S3) (s : State) : Host.Outcome State Fault Refusal :=
  finish .ctl <| withSrc .ctl (.r o.d) s fun d => alu3 .ctl 1 (fun a b => if d = 0 then b else a) o s

def execMin (u : Bool) (o : S3) (s : State) := finish .ctl (alu3 .ctl 1 (minF u) o s)
def execMax (u : Bool) (o : S3) (s : State) := finish .ctl (alu3 .ctl 1 (maxW u) o s)
def execClz (o : S2) (s : State) := finish .ctl (alu2 .ctl clzF o s)
def execPopc (o : S2) (s : State) := finish .ctl (alu2 .ctl popcF o s)
def execLdi (o : SL) (s : State) := finish .ctl (aluL .ctl o s)

/-- LDIH keeps the low half of its destination (08 R230). -/
def execLdih (o : SL) (s : State) : Host.Outcome State Fault Refusal :=
  finish .ctl <| withSrc .ctl (.r o.d) s fun d => withDst .ctl o.nw o.d s <|
    .ok (issued .ctl 2 1 (putResult .ctl 1 o.nw o.d (o.imm ++ d.setWidth 32) s))

def execNop (s : State) : Host.Outcome State Fault Refusal := finish .ctl (.ok (issued .ctl 1 1 s))

/-! ## Branches and loops (08 R232, R233) -/

def execBr (o : SBr) (s : State) := finish .ctl (branch .ctl o s)
def execJmp (off : BitVec 15) (s : State) := finish .ctl (jump .ctl off.toInt s)

/-- The link of JAL (02 R39): the lane after its own, in the next line when it ends in lane 7. -/
def linkOf (x : SeqSt) : Word := BitVec.ofNat 64 (lanePc x.line (x.lane + 1) % 2 ^ 52)

def execJal (d : BitVec 6) (off : BitVec 15) (s : State) : Host.Outcome State Fault Refusal :=
  finish .ctl <| withDst .ctl false d s <| jump .ctl off.toInt (putResult .ctl 2 false d (linkOf s.core.ctl) s)

/-- Resume at a byte address of code (02 R39). -/
def jumpTo (q : Seqr) (a : Word) (s : State) : Out :=
  if fld a 0 2 ≠ 0 ∨ fld a 52 12 ≠ 0 then .raise .pcAlign s
  else .ok (transfer q (BitVec.ofNat 47 (fld a 5 47)) (max 1 (fld a 2 3)) 2 s)

def execJr (a : Src) (s : State) : Host.Outcome State Fault Refusal :=
  finish .ctl (withSrc .ctl a s fun x => jumpTo .ctl x s)

def execLoop (a : Src) (e : BitVec 15) (s : State) := finish .ctl (notInUh s (loopReg .ctl a e.toNat s))
def execLoopi (c : BitVec 16) (e : BitVec 8) (s : State) :=
  finish .ctl (notInUh s (enterLoop .ctl 1 (c.setWidth 32) e.toNat s))

/-- BRKL (08 R233): the innermost entry goes, and CTL continues past its body. -/
def execBrkl (s : State) : Host.Outcome State Fault Refusal :=
  finish .ctl <| notInUh s <|
    match s.core.ctl.loops with
    | [] => .raise .loopEmpty s
    | e :: es =>
      .ok (s.modSeq .ctl fun x =>
        { x with line := lineAt e.last 1, lane := 1, entered := false, skip := none, loops := es, ready := s.now + 2
                 point := false, stall := false, count := x.count + 1, cap := {}, last := s.now })

/-! ## Loads, stores and atomics (08 R234 to R239) -/

def execLd (o : SLd) (s : State) := finish .ctl (load .ctl o s)
def execSt (o : SSt) (s : State) := finish .ctl (store .ctl o s)

/-- The returning atomics are not allowed under DET (04 R116; 08 R239). -/
def notUnderDet (s : State) (k : Out) : Out := if s.myJob.det then .raise .detViolation s else k

def execAtom (op : AtomSel) (o : S3) (s : State) : Host.Outcome State Fault Refusal :=
  finish .ctl <| withSrc .ctl o.a s fun a => withSrc .ctl o.b s fun x => notUnderDet s <| withDst .ctl o.nw o.d s <|
    issueAcc .ctl 1 (.atom op x (regIx s.core .ctl o.d.toNat) o.nw) a.toNat 8 2 s

def execCas (o : S3) (c : Src) (s : State) : Host.Outcome State Fault Refusal :=
  finish .ctl <| withSrc .ctl o.a s fun a => withSrc .ctl o.b s fun x => withSrc .ctl c s fun y =>
    notUnderDet s <| withDst .ctl o.nw o.d s <|
      issueAcc .ctl 2 (.cas x y (regIx s.core .ctl o.d.toNat) o.nw) a.toNat 8 2 s

/-- A deterministic request of CTL, of n lanes (08 R238). -/
def detIssue (n : Nat) (op : Option AtomSel) (r a b : Src) (c : Option Src) (s : State) : Out :=
  withSrc .ctl r s fun res => withSrc .ctl a s fun addr => withSrc .ctl b s fun x =>
    withSrc .ctl (c.getD (.r 0)) s fun y =>
      let (operand, exp) := if op.isSome then (x, 0) else (y, x)
      if !mayGo s (s.req 0) (.read 8) addr.toNat 8 then .stall s
      else match detRequest .ctl op operand exp addr.toNat res.toNat 0 s with
      | .error f => .trap f 0 s
      | .ok s' => .ok (issued .ctl n 1 s')

def execAtomDet (op : AtomSel) (r a b : Src) (s : State) := finish .ctl (detIssue 1 (some op) r a b none s)
def execCasDet (r a b c : Src) (s : State) := finish .ctl (detIssue 2 none r a b (some c) s)

end Sys2Proof.Machine
end

