-- ==== Sys2Proof/Machine/TierOps.lean ====
section
/-!
DEFINITION. Pins of pages and requests to move them (13 R375, R378, R379), which streams, commands and system software
share; the engines' fault records (13 R371); the HBM address map (13 R382, R383) and free frames (13 R373, R376).
-/
namespace Sys2Proof.Machine

/-- Lowest free index below n. -/
def firstFree (n : Nat) (used : List Nat) : Option Nat := (List.range n).find? fun i => !used.contains i

/-- A page found: its leaf, first virtual address, size, first physical address. -/
structure PageAt where
  leaf : Leaf
  va : Nat
  size : Nat
  pa : Nat
deriving DecidableEq, Repr

/-- The mapped page that holds va, at system privilege; only the private range is translated (13 R363). -/
def pageAt (s : State) (asid : BitVec 16) (va : Nat) : Option PageAt :=
  if fabLo ≤ va then none
  else match translate s asid va .read true with
  | .error _ => none
  | .ok l =>
    let size := 2 ^ pageBits l.lvl
    if fld l.e 5 2 = 2 then none else some ⟨l, va / size * size, size, fld l.e 16 36 * 2 ^ 16⟩

/-- The frames of a range of physical memory. -/
def mapFrames (s : State) (pa size : Nat) (f : Frame → Frame) : State :=
  s.modChip fun c => { c with frames := c.frames.map fun x => if pa ≤ x.pa ∧ x.pa < pa + size then f x else x }

/-! ## Frames change hands (13 R373; 14 R390) -/

/-- Bytes that nothing states. -/
def freeBytes (k n : Nat) : List Byte := (List.range n).map fun i => Config.freeByte (k + i)

/-- A range of memory read under a key it was not written with (log entry 13). -/
def scramble (s : State) (pa n : Nat) : State := { s.poke pa (freeBytes s.freeCtr n) with freeCtr := s.freeCtr + n }

/-- Tier of a physical address. -/
def tierOf (pa : Nat) : Nat := if pa < 0x8000000000 then 0 else 1

/-- Frames held by a job, as its quota record counts them (13 R374). -/
def countFrames (j tier : Nat) (up : Bool) (n : Nat) (s : State) : State :=
  let f (x : Nat) : Nat := if up then x + n else x - n
  s.modJob j fun x => if tier = 0 then { x with hbmu := f x.hbmu } else { x with lpu := f x.lpu }

/-- The physical address in a log record whose line no frame holds any longer. -/
def noLine : Nat := 2 ^ 60

/-- One frame goes back: its bytes are now read under the system's slot, and records of the write log name its lines no longer, since the
frame may serve anew in the interval (15 R419, R421). -/
def freeFrame (f : Frame) (s : State) : State :=
  let t := jobPart s f.job
  let unname (r : LogRec) : LogRec := if r.pa / 2 ^ 16 = f.pa / 2 ^ 16 then { r with pa := noLine } else r
  let s := s.modJob f.job fun x => { x with log := x.log.map unname }
  let s := countFrames f.job (tierOf f.pa) false 1 s
  scramble (s.modChip fun c =>
    { c with frames := c.frames.filter (·.pa != f.pa), lastOwner := (f.pa, t) :: c.lastOwner.filter (·.1 != f.pa) }) f.pa (2 ^ 16)

/-- Every frame that satisfies p goes back. -/
def freeFrames (p : Frame → Bool) (s : State) : State := (s.chip.frames.filter p).foldl (fun s f => freeFrame f s) s

/-! ## The HBM address map (13 R382, R383) -/

def parity : Nat → Nat → Bool
  | 0, _ => false
  | n + 1, x => (x % 2 == 1) != parity n (x / 2)

/-- Fields of a region's record. -/
def regBase (r : BitVec 2304) : Nat := fld r 0 33
def regK (r : BitVec 2304) : Nat := fld r 33 6
def regOn (r : BitVec 2304) : Bool := bitOf r 39
def regMask (r : BitVec 2304) : Nat := fld r 64 33
def regVal (r : BitVec 2304) : Nat := fld r 128 33
def regRow (r : BitVec 2304) (i : Nat) : Nat := fld r (192 + 64 * i) 33
def regHas (r : BitVec 2304) (l : Nat) : Bool := regOn r && regBase r ≤ l && l < regBase r + 2 ^ regK r

/-- The location of a line address under a region. -/
def regLoc (r : BitVec 2304) (l : Nat) : Nat :=
  (List.range 33).foldl (fun o i => o + b2n (parity 33 (regRow r i &&& l)) * 2 ^ i) 0

/-- Location of an HBM4E address. -/
def hbmLoc (s : State) (pa : Nat) : Option Nat := (s.chip.regions.toList.find? fun r => regHas r (pa / 64)).map fun r => regLoc r (pa / 64)
def locStack (o : Nat) : Nat := o % 8
def locRow (o : Nat) : Nat := o / 2 ^ 13 % 2 ^ 16
def locDie (o : Nat) : Nat := o / 2 ^ 25 % 16

/-- May a line of the region lie on the die: its selector allows the die's bits. -/
def regMeets (r : BitVec 2304) (stack die : Nat) : Bool :=
  let bits := 7 + 15 * 2 ^ 25
  let want := stack + die * 2 ^ 25
  regOn r && (regVal r &&& regMask r &&& bits) == (want &&& regMask r)

/-- Is the page range part of a region that is being evacuated: no frame there is allocated any more (15 R424). -/
def evacuating (s : State) (pa n : Nat) : Bool :=
  s.chip.regions.toList.any fun r =>
    regOn r && decide (regBase r * 64 < pa + n) && decide (pa < (regBase r + 2 ^ regK r) * 64)
      && (s.chip.mapBusy.toList.zipIdx.any fun b => (b.1.map (regMeets r b.2)).getD false)

/-! ## Free frames -/

def tierBase (t : Nat) : Nat := if t = 0 then 0 else 0x20000000000
def alignUp (n x : Nat) : Nat := (x + n - 1) / n * n

/-- May a run of size bytes from pa be given out; in Limited Service memory is LPDDR-6 alone (15 R426). -/
def runFree (s : State) (t size pa : Nat) : Bool :=
  inTier s.chip t pa size && (t == 1 || (s.chip.svc != 1 && inMap s.chip pa && inMap s.chip (pa + size - 1) && !evacuating s pa size))
    && !s.chip.frames.any fun f => f.alloc && decide (pa < f.pa + 2 ^ 16) && decide (f.pa < pa + size)

/-- The lowest free aligned run: it begins at the tier's base, at a region, or after an allocated frame (log entry 23). -/
def findRun (s : State) (t size : Nat) : Option Nat :=
  let after := s.chip.frames.filterMap fun f => if tierOf f.pa = t then some (alignUp size (f.pa + 2 ^ 16)) else none
  let regs := if t = 0 then s.chip.regions.toList.flatMap fun r =>
    [alignUp size (regBase r * 64), alignUp size ((regBase r + 2 ^ regK r) * 64)] else []
  (ascNats (tierBase t :: (after ++ regs))).find? (runFree s t size)

/-- Frames from pa are given to a job: zero-filled, unless the partition's own key wrote them and is still there (14 R390). -/
def giveFrames (j pa n : Nat) (s : State) : State :=
  let t := jobPart s j
  let one (s : State) (i : Nat) : State :=
    let a := pa + i * 2 ^ 16
    let own := s.chip.lastOwner.lookup a == some t && !slotBare s t
    let s := s.modChip fun c => { c with frames := c.frames.filter (·.pa != a) ++ [{ pa := a, job := j, alloc := true }] }
    if own then scramble s a (2 ^ 16)
    else { s with mem := s.mem.filter fun c => decide (c.1 < a) || decide (a + 2 ^ 16 ≤ c.1)
                  poison := s.poison.filter fun l => decide (l * 64 < a) || decide (a + 2 ^ 16 ≤ l * 64) }
  countFrames j (tierOf pa) true n ((List.range n).foldl one s)

/-- A page's key in a list of pins: address space and first address. -/
def pinKey (asid : BitVec 16) (va : Nat) : Nat := asid.toNat * 2 ^ 52 + va

/-- Would a further pin be the 256th (13 R378). -/
def pinFull (s : State) (asid : BitVec 16) (va : Nat) : Bool :=
  match pageAt s asid va with
  | none => false
  | some p => s.chip.frames.any fun x => p.pa ≤ x.pa && x.pa < p.pa + p.size && 255 ≤ x.pins

def pinBy (s : State) (key : Nat) (f : Nat → Nat) : State :=
  match pageAt s (BitVec.ofNat 16 (key / 2 ^ 52)) (key % 2 ^ 52) with
  | none => s
  | some p => mapFrames s p.pa p.size fun x => if x.alloc then { x with pins := f x.pins } else x

def pinPage (s : State) (key : Nat) : State := pinBy s key (· + 1)
def unpinPage (s : State) (key : Nat) : State := pinBy s key (· - 1)

/-- Pages of a range of virtual addresses, by key. -/
def pageKeys (s : State) (asid : BitVec 16) (lo hi : Nat) : List Nat :=
  if hi < lo then []
  else
    let step (l : List Nat) (i : Nat) : List Nat :=
      let va := (lo / 2 ^ 16 + i) * 2 ^ 16
      match pageAt s asid va with
      | none => l
      | some p => if l.contains (pinKey asid p.va) then l else l ++ [pinKey asid p.va]
    (List.range (hi / 2 ^ 16 - lo / 2 ^ 16 + 1)).foldl step []

/-- A move in progress: it holds the page's migration lock (13 R377). -/
def Move.held (m : Move) : Bool := m.busy || m.locked

/-- A request to move a page to a tier and scheme, merged with those before it (13 R379). One for a page that is not mapped stands until the
Tier Manager meets the fault (R371). -/
def queueMove (s : State) (asid : BitVec 16) (va tier comp : Nat) : State :=
  match pageAt s asid va with
  | none =>
    let want : Move := { asid := asid, va := va / 2 ^ 16 * 2 ^ 16, size := 2 ^ 16, tier := tier, comp := comp }
    s.modChip fun c => { c with moves := c.moves.filter (fun m => m.held || m.asid != asid || m.va != want.va) ++ [want] }
  | some p =>
    let want : Move := { asid := asid, va := p.va, size := p.size, tier := tier, comp := comp }
    let mine (m : Move) : Bool := m.asid == asid && m.va == p.va
    let busy := s.chip.moves.find? fun m => mine m && m.held
    let wait := s.chip.moves.find? fun m => mine m && !m.held
    let base := match busy with
      | some b => (b.tier, b.comp)
      | none => (fld p.leaf.e 5 2, fld p.leaf.e 7 3)
    let others := s.chip.moves.filter fun m => !(mine m && !m.held)
    match wait with
    | some w =>
      if (w.tier, w.comp) = (tier, comp) then s
      else if base = (tier, comp) then s.modChip fun c => { c with moves := others }
      else s.modChip fun c => { c with moves := others ++ [want] }
    | none =>
      if base = (tier, comp) then s else s.modChip fun c => { c with moves := c.moves ++ [want] }

/-- The words of an engine's fault record (13 R371). -/
def BFault.words (b : BFault) : List Nat :=
  [b.block * 2 ^ 22 + 2 ^ 52 + b.engine * 2 ^ 53, b.asid.toNat + causeCode b.cause * 2 ^ 16, b.pages.toNat, b.ticks]

/-- Write an engine's record at FB_BASE. -/
def putBFault (s : State) (b : BFault) : State := writePhys s (s.chip.fbBase.toNat + 32 * b.idx) (wordBytes b.words)

/-- An engine meets a page fault: 1 migration, 2 collective, 3 tier; none when no record is free, and the engine waits
(13 R371). -/
def engineFault (s : State) (eng : Nat) (asid : BitVec 16) (va : Nat) (c : Cause) : Option State :=
  let block := va / 2 ^ 22
  let bit := va / 2 ^ 16 % 64
  let same (b : BFault) : Bool := b.block == block && b.asid == asid && b.engine == eng && b.cause == c
  let isOpen (b : BFault) : Bool := bitOf (s.word (s.chip.fbBase.toNat + 32 * b.idx)) 52
  let live := s.chip.bfaults.filter isOpen
  match live.find? same with
  | some b =>
    let b' : BFault := { b with pages := b.pages ||| BitVec.ofNat 64 (2 ^ bit) }
    some (putBFault (s.modChip fun k => { k with bfaults := live.map fun x => if same x then b' else x }) b')
  | none =>
    match firstFree 256 (live.map (·.idx)) with
    | none => none
    | some i =>
      let b : BFault := ⟨i, block, eng, asid, c, BitVec.ofNat 64 (2 ^ bit), s.now⟩
      some ((putBFault (s.modChip fun k => { k with bfaults := live ++ [b] }) b).post .event [evFault, eng, i])

end Sys2Proof.Machine
end

