-- ==== Sys2Proof/Machine/CtlSys.lean ====
section
/-!
DEFINITION. CTL's instructions that start, gather and end work, barriers, system registers and returns (07 R215, R216;
08 R240 to R260; 10 R305; 12 R348; 15 R406; 18 R440).
-/
namespace Sys2Proof.Machine

/-! ## Markers (07 R215, R216) -/

/-- Engines named by MARK's set (07 R215). -/
def markEngines (e : BitVec 5) : List Engine :=
  ([(0, Engine.acs), (1, .vec), (2, .mov), (3, .mtx), (4, .drn)].filter fun p => bitOf e p.1).map (·.2)

/-- The marker placed on one engine now. -/
def markerOf (s : State) (e : Engine) : Marker :=
  let c := s.core
  match e with
  | .mtx => { eng := e, seqs := (c.cmds.filter (·.op.isMtx)).map (·.seq), serial := 0, isOpen := false }
  | .drn => { eng := e, seqs := [], serial := 0, isOpen := false, drns := c.drains.map fun d => (d.seq, d.red) }
  | .mov => { eng := e, seqs := (c.cmds.filter fun x => !x.op.isMtx).map (·.seq), serial := 0, isOpen := false }
  | .vec => { eng := e, seqs := [], serial := 0, isOpen := false, count := c.vec.count + b2n (c.vec.run && c.vec.stall) }
  | .acs => { eng := e, seqs := [], serial := c.serial, isOpen := c.acs.run }

/-- A result of one of VEC's first n instructions is in flight. -/
def Core.vecFlight (c : Core) (n : Nat) : Bool :=
  c.pend.any fun p => p.ent.q == .vec && decide (p.ent.num ≤ n)

/-- Has the marker's work been done (07 R215)? -/
def markerDone (s : State) (m : Marker) : Bool :=
  let c := s.core
  match m.eng with
  | .mtx | .mov => !c.cmds.any fun x => m.seqs.contains x.seq
  | .drn => !c.drains.any fun d => m.drns.contains (d.seq, d.red)
  | .vec => m.count ≤ c.vec.count && !c.vecFlight m.count
  | .acs => !m.isOpen && !c.strm.toList.any fun p => p.st != .idle && p.st != .feed && p.serial < m.serial

/-- What a marker waits for in the core: ACS's and VEC's work needs both of them; commands and drains, MTX and DRN. -/
def awaitsOf (es : List Engine) : Awaited :=
  { seqs := if es.contains .acs || es.contains .vec then [.acs, .vec] else []
    eng := es.contains .mtx || es.contains .drn || es.contains .mov }

/-- Engines of the set that hold eight markers. -/
def fullMarks (s : State) (es : List Engine) : List Engine := es.filter fun g => 8 ≤ (s.core.marks.filter (·.eng == g)).length

def execMark (e : BitVec 5) (s : State) : Host.Outcome State Fault Refusal :=
  finish .ctl <| notInUh s <|
    let es := markEngines e
    if !(fullMarks s es).isEmpty then .wait (awaitsOf (fullMarks s es)) s
    else .ok (issued .ctl 1 1 (s.modCore fun c => { c with marks := c.marks ++ es.map (markerOf s) }))

/-- JOIN waits until no marker is pending (07 R216). -/
def execJoin (s : State) : Host.Outcome State Fault Refusal :=
  finish .ctl <| notInUh s <| if s.core.marks.isEmpty then .ok (issued .ctl 1 1 s) else .wait (awaitsOf (s.core.marks.map (·.eng))) s

/-! ## FORK and RDV (08 R240, R241) -/

def forkSeqs (n : BitVec 3) : List Seqr :=
  ([(0, Seqr.acs), (1, .vec), (2, .mov)].filter fun p => bitOf n p.1).map (·.2)

/-- One sequencer started at a line, its first lane 2 cycles on; its memory work waits for CTL's accesses so far. -/
def startSeq (target : BitVec 47) (s : State) (q : Seqr) : State :=
  emptyLat q (s.modCore fun c => c.setSeq q
    { run := true, line := target, lane := 1, entered := false, loops := [], skip := none, ready := s.now + 2, gate := c.accId
      count := (c.seq q).count })

def execFork (n : BitVec 3) (off : BitVec 15) (s : State) : Host.Outcome State Fault Refusal :=
  finish .ctl <| notInUh s <|
    let qs := forkSeqs n
    if qs.any fun q => !idle s q then .raise .forkBusy s
    else
      let target := lineAt s.core.ctl.line off.toInt
      .ok (issued .ctl 1 1 (qs.foldl (startSeq target) (emptyLat .ctl s)))

/-- Every entry that VEC pushed has been written or discarded (08 R241). -/
def storesDone (s : State) : Bool := s.core.sq.toList.all (·.isEmpty)

/-- RDV and SUSP wait for ACS, VEC and MOV, and for what MOV waits for. -/
def forkedAwaits (s : State) : Awaited := { seqs := [.acs, .vec, .mov], eng := s.core.mov.run }

/-- The id of an RDV that completes goes to the Loupe trace (08 R241). -/
def traceRdv (id : Nat) (s : State) : State :=
  s.modChip fun c => { c with trace := c.trace ++ [⟨s.core.job, s.core.phys, id, s.now⟩] }

def execRdv (id : BitVec 4) (s : State) : Host.Outcome State Fault Refusal :=
  finish .ctl <| notInUh s <|
    if idle s .acs && idle s .vec && idle s .mov && storesDone s && s.core.accq.isEmpty then
      .ok (issued .ctl 1 1 (traceRdv id.toNat (emptyLats s)))
    else .wait (forkedAwaits s) s

/-! ## SUSP (01 R21; 05 R131; 08 R242 to R246) -/

/-- Does an accepted command name operand slot n (06 R169)? -/
def Cmd.namesSlot (x : Cmd) (n : Nat) : Bool :=
  match x.op with
  | .mxgo nest _ _ => fld nest 806 5 ≤ n && n < fld nest 806 5 + fld nest 811 6
  | .mxmma _ o .. => o.osA.toNat == n || o.osB.toNat == n
  | .copyo os .. => os == n
  | _ => false

/-- A slot owned by a nest, or with a pending release, is free once no accepted command names it (06 R169, R170). -/
def settleSlots (s : State) : State :=
  s.modCore fun c =>
    { c with slots := c.slots.mapIdx fun i x =>
        if (x.rel || x.st == .nest) && !c.cmds.any (·.namesSlot i) then { x with st := .free, rel := false } else x }

/-- What SUSP waits for (01 R21; 05 R131). -/
def taskSettled (s : State) : Bool :=
  idle s .acs && idle s .vec && idle s .mov && storesDone s && s.core.accq.isEmpty
    && !s.core.strm.toList.any fun p => p.st == .halted && p.store

/-- Streams are cancelled, their pins end, load queues are discarded (05 R131; 13 R375). -/
def cancelStreams (s : State) : State :=
  let s := s.core.strm.toList.foldl (fun s p => p.pages.foldl unpinPage s) s
  s.modCore fun c =>
    { c with strm := c.strm.map fun p => { p with st := .idle, held := none, cause := none, pages := [], idx := [] }
             lq := Vector.replicate 8 []
             sq := Vector.replicate 4 [] }

/-- SUSP runs: load streams are cancelled with their index feeds, and load queues discarded (05 R131). A feed that
serves a store stream goes on with it (DEDUCED, log entry 47). -/
def cancelLoads (s : State) : State :=
  let ps := s.core.strm.toList
  let kept (i : Nat) : Bool := ps.any fun x => x.live && x.store && x.imode == 2 && x.isrc == i
  let dead (i : Nat) (p : Strm) : Bool := (p.live && !p.store) || (p.st == .feed && !kept i)
  let s := ps.zipIdx.foldl (fun s p => if dead p.2 p.1 then p.1.pages.foldl unpinPage s else s) (quitQueues s.core.phys s)
  s.modCore fun c =>
    { c with strm := c.strm.mapIdx fun i p => if dead i p then { p with st := .idle, held := none, cause := none, pages := [], idx := [] } else p
             lq := Vector.replicate 8 [] }

/-- The task ends and the core is released: slots it claimed are to be released, latches empty (01 R21; 02 R48). -/
def endTask (s : State) : State :=
  let s := emptyLats (cancelStreams s)
  settleSlots (s.modCore fun c =>
    { c with
      ctl := { c.ctl with run := false, loops := [], skip := none }
      slots := c.slots.map fun x => if x.st = .claimed then { x with st := .nest, rel := true } else x
      stage := none, suspending := false, barv := none, latSet := [], uh := false })

/-- Put a watch entry at the lowest free place (08 R245); none when there is none. -/
def placeEntry (e : WEnt) (s : State) : Option State :=
  let c := s.core
  match firstFree 32 (((List.range 32).filter fun i => ((c.watch[i]?.getD none)).isSome)) with
  | some i => some (s.modCore fun c => { c with watch := c.watch.setIfInBounds i (some e) })
  | none =>
    match firstFree 4096 (s.myRank.spill.map (·.1)) with
    | some i => some (writeSpill (s.modMyRank fun k => { k with spill := k.spill ++ [(i, e)] }) s.myRank i (watchWords true e))
    | none => none

/-- The checks of R242, in order. -/
def suspCheck (s : State) (a : Nat) : Option Flt :=
  let j := s.myJob
  if a % 8 ≠ 0 then some ⟨.memAlign, a % 2 ^ 52, none⟩
  else if 2 ^ 52 ≤ a then some ⟨.watchAddr, a % 2 ^ 52, none⟩
  else match regionOf j.width j.v a 8 with
    | .error .spadHole => some ⟨.spadHole, a, none⟩
    | .error _ | .ok (.fab ..) => some ⟨.watchAddr, a, none⟩
    | .ok _ => if (placeEntry ⟨a, false, 0, 0, 0, 0, [], 0, none⟩ s).isNone then some ⟨.watchFull, a, none⟩ else none

/-- The continuation's entry (08 R242, R244). -/
def suspEntry (s : State) (a : Nat) (thresh : Word) (off : W32) : WEnt :=
  { waddr := a, rdy := false, stage := s.core.stage.getD 0, thresh := thresh, cont := lineAt s.core.ctl.line off.toInt,
    rtime := 0, save := (List.range 8).map fun i => s.core.getS (i + 1) }

/-- SUSP and SUSP.end wait; load streams and their feeds are cancelled once ACS, VEC and MOV have ended (01 R21; 05 R131). -/
def suspWait (s : State) : State :=
  let s := if idle s .acs && idle s .vec && idle s .mov then cancelLoads s else s
  s.modCore fun c => { c with suspending := true }

def execSusp (a b : Src) (off : W32) (s : State) : Host.Outcome State Fault Refusal :=
  finish .ctl <| notInUh s <| withSrc .ctl a s fun x => withSrc .ctl b s fun t =>
    match (if s.core.suspending then none else suspCheck s x.toNat) with
    | some f => .trap f 0 s
    | none =>
      if !taskSettled s then .wait (forkedAwaits s) (suspWait s)
      else match placeEntry (suspEntry s x.toNat t off) s with
        | none => .wait { eng := true } (suspWait s)
        | some s' => .ok (endTask (recheck s'))

/-- The rank has finished when no task runs and no entry is held (08 R243). -/
def noteFinished (s : State) : State :=
  let j := s.core.job
  let r := s.core.rank
  let busy := (s.coresOf j r).any fun c => c.stage.isSome || c.watch.toList.any (·.isSome)
  s.modRank j r fun k => { k with finished := k.finished || (!busy && k.spill.isEmpty && k.image.isEmpty) }

def execSuspEnd (s : State) : Host.Outcome State Fault Refusal :=
  finish .ctl <| notInUh s <|
    if taskSettled s then .ok (noteFinished (endTask s))
    else .wait (forkedAwaits s) (suspWait s)

/-- TRIG marks the release point, after CTL's accesses so far; only the first of a core in a program counts (08 R247). -/
def execTrig (s : State) : Host.Outcome State Fault Refusal :=
  finish .ctl <| notInUh s <| .ok (issued .ctl 1 1 (s.modCore fun c => if c.trigged then c else { c with trigged := true, trigId := c.accId }))

/-! ## Barriers (08 R248, R252) -/

/-- The arrival, one action with its check; none when the rank has already arrived (08 R248). -/
def arrive (j r g : Nat) (step : Bool) (s : State) : Option (State × Nat) :=
  match ((s.job? j).bind (·.group? g)) with
  | none => none
  | some gr =>
    if gr.arrived.any (·.1 == r) then none
    else
      let n := s.now
      let s := modGroup s j g fun x => { x with arrived := x.arrived ++ [(r, step)], lastAt := n }
      some (s.post .arrival [j, r, g, b2n step, gr.phase], gr.phase + 1)

/-- BARV: the membership check at issue, the release wait, then the arrival. -/
def execBarv (nw : Bool) (d : BitVec 6) (step : Bool) (g : BitVec 8) (s : State) : Host.Outcome State Fault Refusal :=
  finish .ctl <| notInUh s <| withDst .ctl nw d s <|
    match s.myJob.group? g.toNat with
    | none => .raise .grpMember s
    | some gr =>
      if !gr.memb.contains s.core.rank then .raise .grpMember s
      else if s.core.accq.any (·.q == .ctl) then
        .wait {} (s.modCore fun c => { c with barv := some ⟨g.toNat, step, regIx c .ctl d.toNat, nw⟩ })
      else match arrive s.core.job s.core.rank g.toNat step s with
        | none => .raise .barvAhead (s.modCore fun c => { c with barv := none })
        | some (s', p) =>
          .ok (issued .ctl 1 1 (putResult .ctl 2 nw d (BitVec.ofNat 64 p) (s'.modCore fun c => { c with barv := none })))

/-- CHKPT names the phase of g0 the rank has not arrived at (08 R252). -/
def execChkpt (s : State) : Host.Outcome State Fault Refusal :=
  finish .ctl <| notInUh s <|
    let p := ((s.myJob.group? 0).map (·.openPhase s.core.rank)).getD 0
    .ok (issued .ctl 1 1 (s.modMyJob fun j => { j with chkpt := if j.chkpt.contains p then j.chkpt else p :: j.chkpt }))

/-! ## System registers (08 R253 to R255; 10 R305; 12 R348; 15 R406; 18 R440) -/

/-- Entries of a port table held by a tenant (10 R311). -/
def portMask (t : List (BitVec 5)) (tenant : Nat) : Word :=
  BitVec.ofNat 64 (t.zipIdx.foldl (fun a p => if bitOf p.1 4 && fld p.1 0 4 == tenant then a + 2 ^ p.2 else a) 0)

/-- Registers a user program may not read. -/
def sysOnly (n : Nat) : Bool := [0x10, 0x11, 0x12, 0x14, 0x18, 0x19, 0x1A, 0x1C, 0x20, 0x21].contains n

/-- The value of system register n. -/
def sysRead (s : State) (n : Nat) : Word :=
  let c := s.core
  let k := s.myRank
  let j := s.myJob
  let port (i : Nat) : Word := portMask (s.chip.ports[i]?.getD []) j.tenant
  match n with
  | 0x00 => c.coreId.setWidth 64
  | 0x01 => BitVec.ofNat 64 c.rank
  | 0x02 => BitVec.ofNat 64 j.width
  | 0x03 => BitVec.ofNat 64 c.job
  | 0x04 => j.stepNo.setWidth 64
  | 0x05 => modeStat s
  | 0x06 => BitVec.ofNat 64 s.now
  | 0x07 => c.tokLast.setWidth 64
  | 0x08 => c.atomGroup.setWidth 64
  | 0x09 => c.atomOrder.setWidth 64
  | 0x0A => BitVec.ofNat 64 (c.uiv.toNat * 32)
  | 0x0B => BitVec.ofNat 64 (c.uepc.toNat * 4)
  | 0x0C => j.seed
  | 0x0D => drnWord0 s
  | 0x0E => mxStat s
  | 0x0F => c.mxKcap.setWidth 64
  | 0x10 => BitVec.ofNat 64 ((c.trap.map fun t => causeCodeO t.cause).getD 0)
  | 0x11 => BitVec.ofNat 64 ((c.trap.map fun t => t.pc.toNat).getD 0)
  | 0x12 => c.trapFrame.setWidth 64
  | 0x13 => BitVec.ofNat 64 (k.asid.toNat + 2 ^ 16 * k.gen.toNat)
  | 0x14 => k.watchBase.setWidth 64
  | 0x15 => k.cbNext.setWidth 64
  | 0x16 => k.expNext.setWidth 64
  | 0x17 => k.phaseBase.setWidth 64
  | 0x18 => BitVec.ofNat 64 c.phys
  | 0x19 => BitVec.ofNat 64 s.chip.id
  | 0x1A => c.accSave.setWidth 64
  | 0x1B => k.stageBase.setWidth 64
  | 0x1C => c.ctxSave.setWidth 64
  | 0x1D => port 0
  | 0x1E => port 1
  | 0x1F => port 2
  | 0x20 => c.preWait.setWidth 64
  | 0x21 => c.migWait.setWidth 64
  | 0x22 => k.fwdRing.setWidth 64
  | 0x23 => BitVec.ofNat 64 (b2n j.apt.act + 2 * (if j.apt.act then j.apt.slot % 16 else 0))
  | _ => 0

/-- May the register be written at this privilege (08 R254; 10 R305; 12 R348; 15 R406)? -/
def sysWritable (s : State) (n : Nat) : Bool :=
  [5, 8, 9, 0xA, 0xB, 0x15, 0x16].contains n || (n == 0x22 && s.core.rank == 0)
    || (s.core.priv && [0xC, 0xD, 0xF, 0x11, 0x12, 0x14, 0x17, 0x1A, 0x1B, 0x1C, 0x20, 0x21, 0x22].contains n)

/-- Bits hi to lo of x in place; the bits outside a register's field read zero and ignore writes (00 R4). -/
def keepBits (x : Word) (lo hi : Nat) : BitVec 52 := BitVec.ofNat 52 (fld x lo (hi + 1 - lo) * 2 ^ lo)

/-- The write of a writable register; an RF bit, or a base out of its range, changes nothing (00 R4; 08 R254). -/
def sysWrite (n : Nat) (x : Word) (s : State) : Except Cause State :=
  let rf (bad : Bool) (t : State) : Except Cause State := if bad then .error .rsvField else .ok t
  let lowHigh (lo : Nat) : Bool := fld x 0 lo != 0 || fld x 52 12 != 0
  match n with
  | 0x05 => .ok (setModeStat x s)
  | 0x08 => rf (256 ≤ x.toNat) (s.modCore fun c => { c with atomGroup := x.setWidth 8 })
  | 0x09 => rf (65536 ≤ x.toNat) (s.modCore fun c => { c with atomOrder := x.setWidth 16 })
  | 0x0A => rf (lowHigh 5) (s.modCore fun c => { c with uiv := BitVec.ofNat 47 (fld x 5 47) })
  | 0x0B => rf (lowHigh 2) (s.modCore fun c => { c with uepc := BitVec.ofNat 50 (fld x 2 50) })
  | 0x0C => .ok (s.modMyJob fun j => { j with seed := x })
  | 0x0F => .ok (s.modCore fun c => { c with mxKcap := if x.setWidth 32 = (0 : W32) then 1 else x.setWidth 32 })
  | 0x11 => .ok (s.modCore fun c => { c with trap := c.trap.map fun t => { t with pc := keepBits x 2 51 } })
  | 0x12 => .ok (s.modCore fun c => { c with trapFrame := keepBits x 13 51 })
  | 0x14 => .ok (s.modMyRank fun k => { k with watchBase := keepBits x 16 51 })
  | 0x15 => rf (fld x 0 6 != 0) (s.modMyRank fun k => { k with cbNext := keepBits x 6 51 })
  | 0x16 => rf (fld x 0 26 != 0 || fabLo < fld x 0 52 + 2 ^ 33) (s.modMyRank fun k => { k with expNext := keepBits x 26 51 })
  | 0x17 => .ok (s.modMyRank fun k => { k with phaseBase := keepBits x 6 51 })
  | 0x1A => .ok (s.modCore fun c => { c with accSave := keepBits x 18 51 })
  | 0x1B => rf (fld x 0 4 != 0 || fld x 0 52 < spadLo || spadHi ≤ fld x 0 52)
      (s.modMyRank fun k => { k with stageBase := keepBits x 4 51 })
  | 0x1C => .ok (s.modCore fun c => { c with ctxSave := keepBits x 23 51 })
  | 0x20 => .ok (s.modCore fun c => { c with preWait := x.setWidth 32 })
  | 0x21 => .ok (s.modCore fun c => { c with migWait := x.setWidth 32 })
  | 0x22 => rf (lowHigh 5) (s.modMyRank fun k => { k with fwdRing := keepBits x 5 51 })
  | _ => .ok s

def execMfsr (nw : Bool) (d : BitVec 6) (r : BitVec 11) (s : State) : Host.Outcome State Fault Refusal :=
  finish .ctl <|
    if sysOnly r.toNat && !s.core.priv then .raise .priv s
    else withDst .ctl nw d s <| .ok (issued .ctl 1 1 (putResult .ctl 2 nw d (sysRead s r.toNat) s))

def execMtsr (r : BitVec 11) (a : Src) (s : State) : Host.Outcome State Fault Refusal :=
  finish .ctl <| withSrc .ctl a s fun x =>
    if !sysWritable s r.toNat then .raise .priv s
    else match sysWrite r.toNat x s with
      | .error c => .raise c s
      | .ok s' => .ok (issued .ctl 1 1 s')

/-! ## TRAP and the returns (08 R256, R257, R260) -/

def execTrap (imm : BitVec 11) (s : State) : Host.Outcome State Fault Refusal :=
  finish .ctl (.trap ⟨.trapUser, 0, none⟩ imm.toNat s)

def execRft (s : State) : Host.Outcome State Fault Refusal :=
  finish .ctl <|
    if !s.core.priv then .raise .priv s
    else match s.core.trap with
      | some t => if t.done then .raise .rftState s else .ok (restore t s)
      | none => .raise .rftState s

/-- RFT.u: the main bank and the latches set aside come back, and CTL resumes at UEPC (08 R260; 02 R39); a loop of no iterations
that was to be passed in that line still is. -/
def execRftU (s : State) : Host.Outcome State Fault Refusal :=
  finish .ctl <|
    if !s.core.uh then .raise .uhState s
    else
      let pc := s.core.uepc.toNat * 4
      let line := BitVec.ofNat 47 (pc / 32)
      .ok (s.modCore fun c =>
        { afterHandler (s.now + 2 - c.uhAt) c with
          uh := false, latC := c.latSet, latSet := [], uhSkip := none
          ctl := { c.ctl with line := line, lane := max 1 (pc / 4 % 8), entered := false
                              skip := (c.uhSkip.filter (·.1 == line)).map (·.2)
                              ready := s.now + 2, point := false, stall := false, count := c.ctl.count + 1, cap := {}, last := s.now } })

end Sys2Proof.Machine
end

