-- ==== Sys2Proof/Machine/Fetch.lean ====
section
/-!
DEFINITION. How sequencers walk lines (02 R32 to R41, R56, R57): tag checks, the lane to run next, the cache line, and
the events of a walk: LINE_ADVANCE, MODE_CROSSING, INSTRUCTION_CACHE_MISS, RESULT_WRITEBACK.
-/
namespace Sys2Proof.Machine

/-- The words at the own lane i of a line: the instruction's two words and its number of lanes, after the checks of
R35. -/
def ownWords (q : Seqr) (ws : List W32) (i : Nat) : Option (W32 × W32 × Nat) :=
  let h := ws[0]?.getD 0
  let w := ws[i]?.getD 0
  let next := if i = 7 then 0 else tagOf h (i + 1)
  if isWide q w then
    if i = 7 ∨ next ≠ 8 then none else some (w, ws[i + 1]?.getD 0, 2)
  else if i < 7 ∧ next = 8 then none
  else some (w, 0, 1)

/-- What comes next at a running sequencer: an instruction, with the state at its lane; an event of the walk; or a
cause raised. -/
inductive Next
  | run (i : Instr) (s : State)
  | cause (c : Cause) (s : State)

/-- The own lane i of the current line: its words decode to an instruction, or a cause. -/
def atLane (q : Seqr) (ws : List W32) (i : Nat) (s : State) : Next :=
  let s := s.modSeq q fun x => { x with lane := i }
  match ownWords q ws i with
  | none => .cause .encTag s
  | some (w, w1, _) =>
    match decode q w w1 with
    | .ok ins => .run ins s
    | .error c => .cause c s

/-- The walk of a sequencer whose line is in the instruction cache (02 R34 to R37, R56, R57; 08 R258). The entry line of a task is a
crossing whether it holds a lane of CTL or not (02 R56). -/
def walkLine (q : Seqr) (ws : List W32) (s : State) : Next :=
  let h := ws[0]?.getD 0
  let x := s.core.seq q
  if !x.entered && hdrBad h then .cause .encHdr s
  else if !x.entered && q != .ctl && hdrX h != s.core.x then .cause .modeMix s
  else if q == .ctl && s.core.fresh && hdrX h != s.core.x then .run .modeCrossing s
  else
    let s := (s.modSeq q fun y => { y with entered := true }).modCore fun c => if q = .ctl then { c with fresh := false } else c
    match scan q h (8 - x.lane) x.lane with
    | .bad i => .cause .encTag (s.modSeq q fun y => { y with lane := i })
    | .past => .run (.lineAdvance q) s
    | .own i =>
      if q == .ctl && hdrX h != s.core.x && !s.core.uh then .run .modeCrossing s
      else atLane q ws i s

/-- The next thing at a running sequencer. -/
def nextAt (q : Seqr) (s : State) : Next :=
  let x := s.core.seq q
  match cachedLine s x.line with
  | none => .run (.instructionCacheMiss q) s
  | some ws => walkLine q ws s

/-! ## Events of the walk -/

/-- A sequencer leaves its line (02 R37, R40). -/
def leaveLine (q : Seqr) (s : State) : State := s.modSeq q fun x => { x.leave q s.core.uh with last := s.now }

def execLineAdvance (q : Seqr) (s : State) : Host.Outcome State Fault Refusal :=
  let x := s.core.seq q
  if !x.run then .next s
  else match cachedLine s x.line with
    | none => .next s
    | some ws =>
      match scan q (ws[0]?.getD 0) (8 - x.lane) x.lane with
      | .bad i => .next (takeTrap q ⟨.encTag, 0, none⟩ 0 (s.modSeq q fun y => { y with lane := i }))
      | .own _ => .next s
      | .past => .next (leaveLine q s)

/-- Does a mode crossing wait, first for the other sequencers and what VEC has pushed, then for commands and CTL's accesses (02
R56). -/
def crossingWaits (s : State) : Bool × Bool :=
  (!(idle s .acs && idle s .vec && idle s .mov && storesDone s), !(s.core.cmds.isEmpty && s.core.accq.isEmpty))

/-- CTL waits for what goes on; streams are cancelled before the wait for commands (02 R56). -/
def execModeCrossing (s : State) : Host.Outcome State Fault Refusal :=
  if !s.core.ctl.run then .next s
  else if (crossingWaits s).1 then .next (nextCycle .ctl s)
  else if (crossingWaits s).2 then .next (nextCycle .ctl (cancelStreams s))
  else
    let s := emptyLats (cancelStreams (settle s))
    .next (s.modCore fun c => { c with x := !c.x, ctl := { c.ctl with ready := s.now + 8 } })

/-- Fetch a line (01 R23; 02 R38; 13 R365, R367, R369): only private pages with the code bit hold code (DEDUCED, log
entry 8). -/
def fetchLine (line : BitVec 47) (s : State) : Except Flt (State × List W32) :=
  let r : Req := { s.req 1 with priv := s.core.priv }
  let va := line.toNat * 32
  match regionOf r.width r.v va 32 with
  | .error c => .error ⟨c, va, none⟩
  | .ok .priv =>
    match locate s r va 32 .fetch with
    | .error f => .error f
    | .ok (s, p) =>
      match readPieces s [p] with
      | .error f => .error f
      | .ok bs => .ok (s, (List.range 8).map fun i => BitVec.ofNat 32 (leVal (bs.drop (4 * i) |>.take 4)))
  | .ok _ => .error ⟨.vaHole, va, none⟩

def execInstructionCacheMiss (q : Seqr) (s : State) : Host.Outcome State Fault Refusal :=
  let x := s.core.seq q
  if !x.run then .next s
  else match cachedLine s x.line with
    | some _ => .next s
    | none =>
      if !wayOpen s (s.req 1) (x.line.toNat * 32) 32 then .next (if s.core.x then freeze s else nextCycle q s)
      else match fetchLine x.line s with
      | .error f => .next (fetchFault q f s)
      | .ok (s, ws) =>
        let k := s.myRank
        let l : ILine := { asid := k.asid, gen := k.gen, line := x.line, words := ws }
        let s := s.modCore fun c => { c with icache := l :: c.icache.take (Config.icacheLines - 1) }
        .next (if s.core.x then freeze s else s)

/-- Is the result in flight to be written now: not while an exposed pre-emption holds it, nor past the cycle in which an exposed region
has come to stand still for one (10 R314), nor, of another sequencer
than CTL, while the user completion handler runs (08 R258). -/
def Core.ripe (c : Core) (n : Nat) (p : Pend) : Bool :=
  decide (p.due ≤ n) && !(c.trap.map fun t => t.pre && !t.done).getD false && !(c.x && c.uh && p.ent.q != .ctl)
    && !(c.standsStill && decide (max c.ctl.last (c.stopReq.getD 0) < p.due))

/-- Results whose latency has elapsed are written, in order of completion, those of one cycle in program order (02 R49). -/
def execResultWriteback (s : State) : Host.Outcome State Fault Refusal :=
  let n := s.now
  .next (s.modCore fun c =>
    let d := (byDue (c.pend.filter (c.ripe n))).foldl (fun d p => d.commit p.dst) c
    { d with pend := c.pend.filter fun p => !c.ripe n p })

end Sys2Proof.Machine
end

