-- ==== Sys2Proof/Machine/Inside.lean ====
section
/-!
DEFINITION. Events inside a core that no instruction names: accesses that perform, retries, page-fault batches, markers,
releases, barrier arrivals, the user completion handler, trap entry, forward replies (07 R198, R215, R222; 08 R247,
R248, R258; 13 R365, R370; 15 R406, R407). An event that is not enabled does not occur (log entry 12).
-/
namespace Sys2Proof.Machine

/-! ## Accesses in flight -/

/-- The oldest access of a sequencer that has not performed. -/
def headAcc (s : State) (q : Seqr) : Option Acc := s.core.accq.find? (·.q == q)

/-- An access leaves the queue. -/
def dropAcc (id : Nat) (s : State) : State := s.modCore fun c => { c with accq := c.accq.filter (·.id != id) }

/-- An access in flight faults: it is marked, and its trap is to enter (15 R408; log entry 6). -/
def markAcc (id : Nat) (s : State) : State :=
  s.modCore fun c => { c with accq := c.accq.map fun a => if a.id = id then { a with flt := true } else a }

/-- May the oldest access of q perform now: none of CTL's goes first, it holds no fault, its way is open. -/
def headReady (s : State) (q : Seqr) : Bool :=
  match headAcc s q with
  | none => false
  | some a => !a.flt && !gated s q && mayGo s (s.req (accClient q)) (a.op.fab a.size) a.addr a.size

/-- The oldest access of q performs, or faults (07 R198, R203, R204). -/
def performHead (q : Seqr) (s : State) : State :=
  match headAcc s q with
  | none => s
  | some a =>
    if !headReady s q then s
    else match performOp (unqueue s (s.req (accClient q)) (a.op.fab a.size) a.addr a.size) (s.req (accClient q)) a.op a.addr a.size with
      | .error _ => markAcc a.id s
      | .ok (s', none) => dropAcc a.id s'
      | .ok (s', some x) => deliver a x (dropAcc a.id s')

def execMemoryAccessPerform (q : Seqr) (s : State) : Host.Outcome State Fault Refusal := .next (performHead q s)

/-- Does an address lie in the scratchpad window. -/
def inSpad (va : Nat) : Bool := spadLo ≤ va && va < spadHi

/-- A scratchpad request completes (01 R25). -/
def execScratchpadAccessComplete (q : Seqr) (s : State) : Host.Outcome State Fault Refusal :=
  match headAcc s q with
  | none => .next s
  | some a => if inSpad a.addr then .next (performHead q s) else .next s

/-- Translation-cache entries of an older generation go; the access is translated and issued again, and those behind
it stay behind it (07 R222). -/
def execGenStaleRetry (q : Seqr) (s : State) : Host.Outcome State Fault Refusal :=
  match headAcc s q with
  | none => .next s
  | some _ =>
    let k := s.myRank
    .next (performHead q (s.modCore fun c => { c with tlb := c.tlb.filter fun t => t.asid != k.asid || t.gen == k.gen }))

/-- What an access asks of its page. -/
def AccOp.kind : AccOp → Kind
  | .load .. | .tidw _ | .cring _ | .again | .flight => .read
  | _ => .write

/-- A walk for the oldest access of q: its leaf enters the client's cache, or the access faults (13 R365, R367). -/
def execTranslationWalk (q : Seqr) (s : State) : Host.Outcome State Fault Refusal :=
  match headAcc s q with
  | none => .next s
  | some a =>
    if accCheck s a.addr a.size ≠ none then .next s
    else match locate s (s.req (accClient q)) a.addr a.size a.op.kind with
      | .ok (s', _) => .next s'
      | .error _ => .next (markAcc a.id s)

/-! ## Page-fault batches (13 R370) -/

/-- Order of the batch: by address space, then by page. -/
def PFault.le (a b : PFault) : Bool := a.asid.toNat < b.asid.toNat || (a.asid == b.asid && a.page ≤ b.page)
def insertFault (x : PFault) : List PFault → List PFault
  | [] => [x]
  | y :: ys => if x.le y then x :: y :: ys else y :: insertFault x ys
def sortFaults : List PFault → List PFault
  | [] => []
  | x :: xs => insertFault x (sortFaults xs)

/-- A run of consecutive pages: first fault, pages, a write, clients, time of its first fault. -/
structure PRun where
  f : PFault
  n : Nat
  wr : Bool
  clients : Nat
  ticks : Nat
deriving DecidableEq, Repr

def faultRuns : List PFault → List PRun
  | [] => []
  | x :: xs =>
    match faultRuns xs with
    | r :: rs =>
      if r.f.asid = x.asid ∧ r.f.cause = x.cause ∧ r.f.page = x.page + 1 ∧ r.n < 64 then
        ⟨x, r.n + 1, x.wr || r.wr, x.clients ||| r.clients, min x.ticks r.ticks⟩ :: rs
      else ⟨x, 1, x.wr, x.clients, x.ticks⟩ :: r :: rs
    | [] => [⟨x, 1, x.wr, x.clients, x.ticks⟩]

/-- The range record of a run. -/
def PRun.words (r : PRun) : List Nat :=
  [r.f.page * 2 ^ 16, r.f.asid.toNat + 2 ^ 16 * r.n + 2 ^ 23 * b2n r.wr + 2 ^ 24 * causeCode r.f.cause
    + 2 ^ 40 * r.f.rank + 2 ^ 54 * (r.clients % 64), 0, r.ticks]

/-- Free entries of the fault ring: FR_BASE names the entries' base and the ring's size, FR_HEAD and FR_TAIL are management registers
(16 R431). -/
def faultRoom (c : Chip) : Nat := 2 ^ fld c.frBase 52 4 - (c.frHead - c.frTail).toNat

def putFaults (s : State) : List (List Nat) → State
  | [] => s
  | r :: rs =>
    let c := s.chip
    let slot := fld c.frBase 5 47 * 32 + 32 * (c.frHead.toNat % 2 ^ fld c.frBase 52 4)
    putFaults ((writePhys s slot (wordBytes r)).modChip fun c => { c with frHead := c.frHead + 1 }) rs

/-- Does the batch close now: 2 µs after its first fault, or with 64 faults. -/
def batchDue (s : State) : Bool :=
  (s.chip.faultsAt.any fun t => decide (t + 2400 ≤ s.now) || decide (64 ≤ s.chip.faults.length)) && !s.chip.faults.isEmpty

/-- The batch that is due closes: its range records stand behind those that still wait. -/
def closeBatchFaults (s : State) : State :=
  if !batchDue s then s
  else s.modChip fun c =>
    { c with frWait := c.frWait ++ (faultRuns (sortFaults (c.faults.take 64))).map PRun.words
             faults := c.faults.drop 64, faultsAt := (c.faults.drop 64).head?.map (·.ticks) }

/-- The batch closes, and as many records go to the ring as it has room for; the others wait, and their clients stay halted. -/
def execFaultBatchClose (s : State) : Host.Outcome State Fault Refusal :=
  let s := closeBatchFaults s
  let recs := s.chip.frWait.take (faultRoom s.chip)
  if recs.isEmpty then .next s
  else .next ((putFaults (s.modChip fun c => { c with frWait := c.frWait.drop recs.length }) recs).post .event [evFault, recs.length])

/-! ## Markers, releases, arrivals -/

/-- The oldest marker of an engine reaches the head of its queue (07 R215). -/
def execMarkerReachHead (e : Engine) (s : State) : Host.Outcome State Fault Refusal :=
  match s.core.marks.find? (·.eng == e) with
  | none => .next s
  | some m => if markerDone s m then .next (s.modCore fun c => { c with marks := c.marks.erase m }) else .next s

/-- The early-launch release of the core (08 R247). -/
def execTrigRelease (s : State) : Host.Outcome State Fault Refusal :=
  let c := s.core
  if c.trigged && !c.trigSent && !(c.unperformed.any fun a => a.q == .ctl && a.id < c.trigId) then .next (s.modCore fun c => { c with trigSent := true })
  else .next s

/-- The core of a rank whose BARV waits at group g. -/
def barvCore (s : State) (j r g : Nat) : Option Core :=
  (s.coresOf j r).find? fun c => (c.barv.map (·.g)) == some g && !c.accq.any (·.q == .ctl)

/-- A BARV that waited arrives, or meets BARV_AHEAD (08 R248); for a rank on another chip its arrival is recorded. -/
def execBarvArrive (job rank g : Nat) (step : Bool) (s : State) : Host.Outcome State Fault Refusal :=
  match s.rank? job rank with
  | none =>
    match arrive job rank g step s with
    | some (s', _) => .next s'
    | none => .next s
  | some _ =>
    match barvCore s job rank g with
    | none => .next s
    | some c =>
      .next (s.atCore c.phys fun s =>
        match s.core.barv with
        | none => s
        | some b =>
          let s := s.modCore fun c => { c with barv := none }
          match arrive job rank g b.step s with
          | none => takeTrap .ctl ⟨.barvAhead, 0, none⟩ 0 s
          | some (s', p) => issued .ctl 1 1 (putResult .ctl 2 b.nw (BitVec.ofNat 6 b.d) (BitVec.ofNat 64 p) s'))

/-! ## The user completion handler (08 R258) -/

/-- The register an instruction of CTL waits to write (02 R58). -/
def ctlDst : Instr → Option (Bool × BitVec 6)
  | .add o | .sub o | .mul _ o | .div _ o | .and o | .or o | .xor o | .shf _ o | .cmp _ o | .sel o | .min _ o | .max _ o
  | .atom _ o | .cas o _ => some (o.nw, o.d)
  | .addi o => some (o.nw, o.d)
  | .logi _ o => some (o.nw, o.d)
  | .shfi _ o => some (o.nw, o.d)
  | .cmpi _ o => some (o.nw, o.d)
  | .clz o | .popc o => some (o.nw, o.d)
  | .ldi o | .ldih o => some (o.nw, o.d)
  | .ld o => some (o.nw, o.d)
  | .jal d _ => some (false, d)
  | .barv nw d _ _ | .mfsr nw d _ => some (nw, d)
  | _ => none

/-- Does an instruction of CTL wait for an operand or its destination, so that it has not issued. -/
def operandsWait (s : State) (i : Instr) : Bool :=
  let (a, b, c) := scalarSrcs i
  let late (o : Option Src) : Bool := match o with
    | some (.r n) => owes s .ctl (regIx s.core .ctl n.toNat)
    | some (.b n) => ((s.core.lat .ctl)[n.toNat]?.map fun l => l.owed != 0).getD false
    | none => false
  late a || late b || late c || (match ctlDst i with
    | some (nw, d) => !nw && owes s .ctl (regIx s.core .ctl d.toNat)
    | none => false)

/-- May the handler interrupt the instruction that CTL stands stalled at: JOIN, RDV, the release wait of BARV, or one that has not
issued (08 R258). -/
def mayBreak (s : State) : Bool :=
  let x := s.core.ctl
  let ws := (cachedLine s x.line).getD []
  match decode .ctl (ws[x.lane]?.getD 0) (ws[x.lane + 1]?.getD 0) with
  | .ok .join | .ok (.rdv _) | .ok (.barv ..) => true
  | .ok i => operandsWait s i
  | .error _ => true

/-- Does CTL take the handler now: at an instruction boundary, which one that has issued and stalls elsewhere is not (08 R258, R260). -/
def handlerDue (s : State) : Bool :=
  let c := s.core
  c.uie && !c.uh && c.uipend != 0 && c.ctl.run && !c.suspending && c.trap.all (·.done) && !c.stopped
    && decide (c.ctl.ready ≤ s.now) && c.ctl.cap.ops.isEmpty && (!c.ctl.stall || mayBreak s)

/-- The lowest pending ring. -/
def lowestRing (u : BitVec 8) : Nat := ((List.range 8).find? fun i => bitOf u i).getD 0

/-- The lane of the next CTL instruction, when CTL's line holds one that has not been executed; otherwise CTL first walks on to
the line that does, which takes no time (02 R37; 08 R258). -/
def nextLane (s : State) : Option Nat :=
  let x := s.core.ctl
  match cachedLine s x.line with
  | none => none
  | some ws => match scan .ctl (ws[0]?.getD 0) (8 - x.lane) x.lane with
    | .own i => some i
    | _ => none

def execUserHandlerEntry (s : State) : Host.Outcome State Fault Refusal :=
  match (if handlerDue s then nextLane s else none) with
  | none => .next s
  | some lane =>
    let n := lowestRing s.core.uipend
    .next (s.modCore fun c =>
      { c with
        uipend := c.uipend &&& ~~~(BitVec.ofNat 8 (2 ^ n))
        uepc := BitVec.ofNat 50 (c.ctl.line.toNat * 8 + lane)
        shadow := c.shadow.setIfInBounds 0 (BitVec.ofNat 64 n)
        uh := true, latSet := c.latC, latC := [], barv := none, uhAt := s.now
        uhSkip := c.ctl.skip.map fun t => (c.ctl.line, t)
        ctl := { c.ctl with line := c.uiv, lane := 1, entered := false, skip := none, ready := s.now + 4, point := false
                            stall := false, last := s.now } })

/-! ## Trap entry and forward replies (15 R406 to R408) -/

/-- The trap of an access that had issued and faulted: the sequencers stop, and what has not performed goes into the
replay queue; an access whose cause is not replayable is none of it. -/
def heldTrap (a : Acc) (f : Flt) (s : State) : State :=
  let s := noteFault s (accClient a.q) f
  let s := if replayable f.c then s else dropAcc a.id s
  let b := actByte s s.core.job f.c
  let s := enterTrap (some f.c) (seqAgent a.q) f.va 0 (actOf b) (lanePc a.line a.lane) (seqTag a.q) []
    (if replayable f.c then none else some a) s
  seqCause s f.c (seqAgent a.q) f.va

/-- A faulted access makes its core trap, CTL's before MOV's (15 R405, R407); one that would now perform is no longer
held. -/
def execTrapEntry (s : State) : Host.Outcome State Fault Refusal :=
  let bad (q : Seqr) : Option Acc := (headAcc s q).filter (·.flt)
  match (bad .ctl).or (bad .mov) with
  | none => .next s
  | some a =>
    match performOp s (s.req (accClient a.q)) a.op a.addr a.size with
    | .error f => .next (heldTrap a f s)
    | .ok _ =>
      .next (s.modCore fun c => { c with accq := c.accq.map fun b => if b.id = a.id then { b with flt := false } else b })

end Sys2Proof.Machine
end

