-- ==== Sys2Proof/Machine/Streams.lean ====
section
/-!
DEFINITION. Streams (05 R122 to R132; 13 R375): the fields of a record, the walk, index values, entries formed, delivered,
written and halted.
-/
namespace Sys2Proof.Machine

/-- Is the type one of an index (05 R124). -/
def indexTy (t : ETy) : Bool := t == .i32 || t == .n32 || t == .i64

def strmAt (s : State) (p : Nat) : Strm := s.core.strm[p]?.getD {}
def setStrm (p : Nat) (x : Strm) (s : State) : State := s.modCore fun c => { c with strm := c.strm.setIfInBounds p x }

/-! ## Elements -/

/-- A stream's requester: tier hint 2 leaves A alone (13 R375). -/
def strmReq (s : State) (p : Strm) : Req := { s.agentReq 2 with keepA := p.tier == 2 }

/-- Where element n of the walk lies, outside a tensor nowhere (05 R123). -/
def strmAddr (p : Strm) (n : Nat) : Option (Int × Nat) :=
  let m := n % p.inner
  let j0 : Int := (m % p.ext 0 : Nat)
  let j1 : Int := (m / p.ext 0 % p.ext 1 : Nat)
  let j2 : Int := (m / (p.ext 0 * p.ext 1) % p.ext 2 : Nat)
  let j3 : Int := (m / (p.ext 0 * p.ext 1 * p.ext 2) : Nat)
  let d : Int := if p.imode = 0 then 0 else p.idx[n / p.inner - p.x]?.getD 0 * p.iscale
  if p.tien then
    let dd : Desc := p.desc
    let i0 := p.org 0 + j0
    let i1 := p.org 1 + j1 + d
    let i2 := p.org 2 + j2
    let i3 := p.org 3 + j3
    if dd.inside i0 i1 i2 i3 then some (elemAddr dd.ty dd.base (dd.offset i0 i1 i2 i3)) else none
  else
    some (elemAddr p.ty p.base (d + j0 * p.step 0 + j1 * p.step 1 + j2 * p.step 2 + j3 * p.step 3))

/-- The requester for the stream's pages: through a tensor, the scheme of its descriptor (03 R97). -/
def strmVia (s : State) (p : Strm) : Req := if p.tien then (strmReq s p).via p.desc else strmReq s p

/-- Read element n of the walk: PAD outside a tensor (05 R123; 03 R96). -/
def strmRead (s : State) (p : Strm) (n : Nat) : Except Flt (State × Nat) :=
  match strmAddr p n with
  | none => .ok (s, Desc.pad p.desc)
  | some a => readElem s (strmVia s p) p.ty a

/-- Read m elements from n on. -/
def strmReadN (p : Strm) : Nat → Nat → State → Except Flt (State × List Nat)
  | 0, _, s => .ok (s, [])
  | m + 1, n, s =>
    match strmRead s p n with
    | .error f => .error f
    | .ok (s, c) =>
      match strmReadN p m (n + 1) s with
      | .error f => .error f
      | .ok (s, cs) => .ok (s, c :: cs)

/-! ## Pins and promotion of a stream with tier hint 1 (13 R375) -/

/-- The page of one element is pinned; one in LPDDR-6 is to be promoted. -/
def hintPage (p : Nat) (s : State) (va : Nat) : State :=
  let asid := s.myRank.asid
  match pageAt s asid va with
  | none => s
  | some g =>
    let x := strmAt s p
    let key := pinKey asid g.va
    let s := if x.pages.contains key then s else pinPage (setStrm p { x with pages := key :: x.pages } s) key
    if fld g.leaf.e 5 2 = 1 then queueMove s asid g.va 0 (fld g.leaf.e 7 3) else s

/-- Does the hint hold for elements that record w reads on behalf of stream p: its own, or those of its index feed. -/
def hinted (p : Nat) (w : Strm) (s : State) : Bool := w.tier == 1 || (strmAt s p).tier == 1

/-- The pages of the m elements of record w from n on. -/
def hintPages (p : Nat) (w : Strm) (n m : Nat) (s : State) : State :=
  if !hinted p w s then s
  else (List.range m).foldl (fun s i => match strmAddr w (n + i) with
    | some a => if badAddr a.1 then s else hintPage p s a.1.toNat
    | none => s) s

/-- Would a pin of theirs be a page's 256th: the stream waits (13 R378). -/
def hintFull (p : Nat) (s : State) (w : Strm) (n m : Nat) : Bool :=
  hinted p w s && (List.range m).any fun i => match strmAddr w (n + i) with
    | some a => !badAddr a.1 && (pageAt s s.myRank.asid a.1.toNat).any fun g =>
        !(strmAt s p).pages.contains (pinKey s.myRank.asid g.va) && pinFull s s.myRank.asid a.1.toNat
    | none => false

/-! ## Index values (05 R124, R130) -/

/-- What work on a stream came to: done, nothing yet, or a fault met; each with the state reached. -/
inductive Got
  | ok (s : State)
  | wait (s : State)
  | bad (f : Flt) (s : State)

/-- One more index value for stream number p. -/
def nextIndex (p : Nat) (s : State) : Got :=
  let x := strmAt s p
  if x.imode = 2 then
    let f := strmAt s x.isrc
    if f.st != .feed || f.total ≤ f.lin || hintFull p s f f.lin 1 then .wait s
    else match strmRead s f f.lin with
      | .error e => .bad e s
      | .ok (s, c) =>
        let s := hintPages p f f.lin 1 s
        let x := strmAt s p
        .ok (setStrm p { x with idx := x.idx ++ [intOf f.ty c] } (setStrm x.isrc (f.seek (f.lin + 1)) s))
  else
    let use (e : QEnt) (s : State) : Got :=
      .ok (setStrm p { x with idx := x.idx ++ [intOf e.ty (elemOf e.ty e.data x.ipos)], ipos := x.ipos + 1, held := some e } s)
    let pop : Got :=
      match s.core.lq[x.isrc]?.getD [] with
      | [] => .wait s
      | e :: es =>
        if !indexTy e.ty then .bad ⟨.spRec, 0, none⟩ s
        else
          .ok (setStrm p { x with idx := x.idx ++ [intOf e.ty (elemOf e.ty e.data 0)], ipos := 1, held := some e }
            (s.modCore fun c => { c with lq := c.lq.setIfInBounds x.isrc es }))
    match x.held with
    | some e => if x.ipos < e.epe then use e s else pop
    | none => pop

/-- Index values up to `need` of them. -/
def gather (p need : Nat) : Nat → State → Got
  | 0, s => .ok s
  | n + 1, s =>
    if need ≤ (strmAt s p).idx.length then .ok s
    else match nextIndex p s with
      | .ok s => gather p need n s
      | g => g

/-- Index values the elements from a to b (not b) need, from the cursor's round on. -/
def needIdx (p : Strm) (b : Nat) : Nat := if p.imode = 0 then 0 else (b - 1) / p.inner + 1 - p.x

/-- The stream holds no page any more, and nothing of the core's agents stands in a send queue for it: the others join again. -/
def unpinStream (p : Nat) (s : State) : State :=
  let x := strmAt s p
  setStrm p { x with pages := [] } (x.pages.foldl unpinPage (quitQueues s.core.phys s))

/-- The stream ends: it and its feed return to idle (05 R136). -/
def endStream (p : Nat) (s : State) : State :=
  let s := unpinStream p s
  let x := strmAt s p
  let s := if x.imode = 2 then setStrm x.isrc { strmAt s x.isrc with st := .idle } s else s
  setStrm p { x with st := .idle, held := none, idx := [] } s

/-! ## Entries (05 R125, R127, R128) -/

/-- Loads of a stream, of an index feed among them, started after an AMARK wait for the store streams started before it (05 R132). -/
def amarkHolds (s : State) (p : Strm) : Bool := s.core.strm.toList.any fun x => x.store && x.live && x.epoch < p.epoch

/-- A load stream's next entry: read whole and delivered, not ready (its index values not all there, its way shut, a pin to wait for), or a
fault; at a fault, and as long as the entry waits, the index values it would
have taken stand untaken, so that cursor, held entry and queue are all there is to resume from (05 R126, R130). -/
def tryLoad (p : Nat) (s : State) : Got :=
  let x := strmAt s p
  let q := s.core.lq[x.que]?.getD []
  if x.st != .running || x.store || 8 ≤ q.length || gated s .acs || amarkHolds s x then .wait s
  else
    let n := x.lin
    let m := min x.epe (x.total - n)
    let s0 := s
    match gather p (needIdx x (n + m)) (needIdx x (n + m)) s with
    | .wait _ => .wait s0
    | .bad f _ => if f.shut then .wait (joinQueue f s0) else .bad f s0
    | .ok s =>
      let x := strmAt s p
      if hintFull p s x n m then .wait s0
      else match strmReadN x m n s with
      | .error f => if f.shut then .wait (joinQueue f s0) else .bad f (if x.imode = 0 then s else s0)
      | .ok (s, cs) =>
        let s := hintPages p x n m s
        let e : QEnt := { data := BitVec.ofNat 32768 (packCodes (tyBits x.ty) cs), ty := x.ty, epe := x.epe, en := 0 }
        let s := s.modCore fun c => { c with lq := c.lq.setIfInBounds x.que (c.lq[x.que]?.getD [] ++ [e]) }
        let s := setStrm p ((strmAt s p).seek (n + m)) s
        .ok (if x.total ≤ n + m then endStream p s else s)

/-- Write m elements of the head entry from walk position n, entry position i on; elements whose enable bit is 0, or
outside a tensor, are passed over. Enable bit i governs element i of the entry in the stream's own type, whatever the pushing
instruction's type was (DESIGN CHOICE, log entry 53). The position reached, and the fault met there. -/
def strmWriteN (p : Strm) (e : QEnt) : Nat → Nat → Nat → State → State × Nat × Option Flt
  | 0, n, _, s => (s, n, none)
  | m + 1, n, i, s =>
    let put : Except Flt State :=
      if !bitOf e.en i then .ok s
      else match strmAddr p n with
        | none => .ok s
        | some a => writeElem s (strmVia s p) p.ty a (elemOf p.ty e.data i)
    match put with
    | .error f => (s, n, some f)
    | .ok s => strmWriteN p e m (n + 1) (i + 1) s

/-- A store stream writes what it can of its head entry (05 R128). -/
def tryStore (p : Nat) (s : State) : Got :=
  let x := strmAt s p
  if x.st != .running || !x.store || gated s .acs then .wait s
  else match s.core.sq[x.que]?.getD [] with
    | [] => .wait s
    | e :: es =>
      let n := x.lin
      let i := n % x.epe
      let m := min (x.epe - i) (x.total - n)
      let g := if x.imode = 2 && amarkHolds s x then Got.wait s else gather p (needIdx x (n + m)) (needIdx x (n + m)) s
      let s1 := match g with | .ok t | .wait t | .bad _ t => t
      let x1 := strmAt s1 p
      let have' := if x1.imode = 0 then m else min m ((x1.x + x1.idx.length) * x1.inner - n)
      if hintFull p s1 x1 n have' then .wait s
      else match strmWriteN x1 e have' n i s1 with
      | (s2, n2, flt) =>
        let s2 := hintPages p x1 n (n2 - n) s2
        let s2 := setStrm p ((strmAt s2 p).seek n2) s2
        let s2 :=
          if n2 = n + m then
            let s2 := s2.modCore fun c => { c with sq := c.sq.setIfInBounds x.que es }
            if x.total ≤ n2 then endStream p s2 else s2
          else s2
        match flt with
        | some f => if n2 ≠ n then .ok s2 else if f.shut then .wait (joinQueue f s1) else .bad f s1
        | none =>
          if have' = 0 then
            match g with
            | .bad f t => if f.shut then .wait (joinQueue f t) else .bad f t
            | _ => .wait s1
          else .ok s2

def execStreamLoadEntryDeliver (p : BitVec 4) (s : State) : Host.Outcome State Fault Refusal :=
  match tryLoad p.toNat s with
  | .ok t | .wait t => .next t
  | .bad _ _ => .next s

def execStreamStoreEntryWrite (p : BitVec 4) (s : State) : Host.Outcome State Fault Refusal :=
  match tryStore p.toNat s with
  | .ok t | .wait t => .next t
  | .bad _ _ => .next s

/-- The fault a stream's next entry meets. -/
def strmFault (p : Nat) (s : State) : Option (Flt × State) :=
  match (if (strmAt s p).store then tryStore p s else tryLoad p s) with
  | .bad f t => some (f, t)
  | _ => none

end Sys2Proof.Machine
end

