-- ==== Sys2Proof/Machine/Acs.lean ====
section
/-!
DEFINITION. The access sequencer's instructions (05 R133 to R140).
-/
namespace Sys2Proof.Machine

def execAadd (o : S3) (s : State) : Host.Outcome State Fault Refusal := finish .acs (alu3 .acs 1 (· + ·) o s)
def execAaddi (o : SI 11) (s : State) : Host.Outcome State Fault Refusal :=
  finish .acs (aluI .acs (fun a i => a + i.signExtend 64) o s)
def execAsub (o : S3) (s : State) : Host.Outcome State Fault Refusal := finish .acs (alu3 .acs 1 (· - ·) o s)
def execAmul (o : S3) (s : State) : Host.Outcome State Fault Refusal := finish .acs (alu3 .acs 3 (· * ·) o s)
def execAshfi (right : Bool) (o : SI 6) (s : State) : Host.Outcome State Fault Refusal :=
  finish .acs (aluI .acs (fun a i => shF (if right then .rl else .l) a i.toNat) o s)
def execAldi (o : SL) (s : State) : Host.Outcome State Fault Refusal := finish .acs (aluL .acs o s)
def execAbr (o : SBr) (s : State) : Host.Outcome State Fault Refusal := finish .acs (branch .acs o s)
def execAloop (c : BitVec 15) (e : BitVec 8) (s : State) : Host.Outcome State Fault Refusal :=
  finish .acs (enterLoop .acs 1 (c.setWidth 32) e.toNat s)
def execAloopReg (r : Src) (e : BitVec 8) (s : State) : Host.Outcome State Fault Refusal :=
  finish .acs (loopReg .acs r e.toNat s)

/-! ## SPW and SIDX (05 R135, R137) -/

/-- Place, width and sign of the field a code names. -/
def spwField (f : Nat) : Option (Nat × Nat × Bool) :=
  if f = 0 then some (0, 52, false)
  else if f = 1 then some (52, 4, false)
  else if f = 2 then some (56, 2, false)
  else if f ≤ 6 then some (64 + 16 * (f - 3), 16, false)
  else if f ≤ 10 then some (128 + 32 * (f - 7), 32, true)
  else if f = 11 then some (256, 14, false)
  else if f = 12 then some (276, 16, false)
  else if f = 13 then some (292, 16, true)
  else if f = 14 then some (308, 9, false)
  else if 15 ≤ f ∧ f ≤ 18 then some (320 + 32 * (f - 15), 32, true)
  else none

/-- Does the value fit the field. -/
def spwFits (w : Nat) (sx : Bool) (x : Word) : Bool :=
  if sx then -(2 ^ (w - 1) : Int) ≤ x.toInt && x.toInt < 2 ^ (w - 1) else x.toNat < 2 ^ w

/-- An image has an RF bit set (05 R122). -/
def imageBad (v : BitVec 512) : Bool := fld v 58 6 != 0 || fld v 317 3 != 0 || fld v 448 64 != 0

/-- A record's image, written after its latency: at once in a scoreboard region, at its end in an exposed one (02 R49; 05 R133). -/
def putImage (n : Nat) (v : BitVec 512) (lat : Nat) (s : State) : State :=
  if s.core.x then s.modCore fun c => { c with pend := c.pend ++ [⟨.p n v, s.now + lat, (entryHere .acs s).1⟩] }
  else setStrm n { strmAt s n with image := v } s

/-- SPW image: the checks of R135 after SP_BUSY, then the read. -/
def spwImage (n : Nat) (a : Nat) (s : State) : Out :=
  let j := s.myJob
  let bad (c : Cause) : Out := .trap ⟨c, a % 2 ^ 52, none⟩ 0 s
  if 2 ^ 52 ≤ a then bad .vaHole
  else match regionOf j.width j.v a 64 with
    | .error .spadHole => bad .spadHole
    | .error .vaHole => bad .vaHole
    | .ok (.spad _) =>
      if a % 64 ≠ 0 then bad .spField
      else if gated s .acs then .stall s
      else if !mayGo s (s.req 2) (.read 64) a 64 then .stall s
      else match readMem s (s.req 2) a 64 with
        | .error f => .trap f 0 s
        | .ok (s, bs) =>
          let v : BitVec 512 := BitVec.ofNat 512 (leVal bs)
          if imageBad v then .trap ⟨.spField, a, none⟩ 0 s
          else .ok (issued .acs 1 1 (putImage n v (accLatency s a 2) s))
    | _ => bad .spField

def execSpw (p : BitVec 4) (field : BitVec 5) (a : Src) (s : State) : Host.Outcome State Fault Refusal :=
  finish .acs <| withSrc .acs a s fun x =>
    let r := strmAt s p.toNat
    if r.st != .idle then .raise .spBusy s
    else if field = 20 then spwImage p.toNat x.toNat s
    else if field = 19 then
      if x ≠ 0 then .raise .spField s else .ok (issued .acs 1 1 (setStrm p.toNat { r with image := 0 } s))
    else match spwField field.toNat with
      | none => .raise .encOp s
      | some (lo, w, sx) =>
        if !spwFits w sx x then .raise .spField s
        else .ok (issued .acs 1 1 (setStrm p.toNat { r with image := setFld r.image lo w x.toNat } s))

/-- IMODE and ISRC as SIDX sets them. -/
def idxModeSrc : IdxSrc → Nat × Nat
  | .none => (0, 0)
  | .lq n => (1, n.toNat)
  | .p n => (2, n.toNat)

def execSidx (p : BitVec 4) (src : IdxSrc) (s : State) : Host.Outcome State Fault Refusal :=
  finish .acs <|
    let r := strmAt s p.toNat
    if r.st != .idle then .raise .spBusy s
    else
      let v := setFld r.image 270 2 (idxModeSrc src).1
      let v := if src = .none then v else setFld v 272 4 (idxModeSrc src).2
      .ok (issued .acs 1 1 (setStrm p.toNat { r with image := v } s))

/-! ## SLOAD and SSTORE (05 R136) -/

/-- Another stream serves the queue. -/
def queueServed (s : State) (store : Bool) (q p : Nat) : Bool :=
  s.core.strm.toList.zipIdx.any fun x => x.2 != p && x.1.live && x.1.store == store && x.1.que == q

/-- A record's type code, through its tensor where TIEN = 1 (05 R124); none for a tensor that gives none. -/
def recTy (s : State) (p : Strm) : Option ETy :=
  if p.tien then tyOf (fld (s.myRank.tensor p.ti) 52 4) else tyOf (fld p.image 52 4)

def indexRec (s : State) (p : Strm) : Bool := match recTy s p with | some t => indexTy t | none => false

/-- A running stream that fills load queue q. -/
def fillerOf (s : State) (q : Nat) : Option Strm := s.core.strm.toList.find? fun x => x.live && !x.store && x.que == q

/-- The checks of R136 in order. An ISRC of 8 or more with IMODE 1 names no load queue: SP_REC (05 R122; DESIGN CHOICE, log
entry 53). -/
def startCheck (s : State) (store : Bool) (q p : Nat) : Option Cause :=
  let x := strmAt s p
  let feed := strmAt s x.isrc
  let epeMax : Nat := match recTy s x with | some t => elems t | none => 8192
  let anyEmpty : Bool := (List.range 4).any fun k => x.ext k == 0
  let tis := (if x.tien then [x.ti] else []) ++ (if x.imode = 2 ∧ feed.tien then [feed.ti] else [])
  if x.st != .idle then some .spBusy
  else if (!x.tien && (tyOf (fld x.image 52 4)).isNone) || x.tier == 3 || x.imode == 3 || anyEmpty
      || (x.imode != 0 && x.iext == 0) || x.epe == 0 || epeMax < x.epe then some .spRec
  else if x.imode == 2 && (x.isrc == p || feed.st != .idle || !indexRec s feed || feed.imode != 0) then some .spRec
  else if x.imode == 1 && (store || x.isrc == q || 8 ≤ x.isrc
      || (match fillerOf s x.isrc with | some f => !indexTy f.ty | none => false)) then some .spRec
  else if !store && (s.core.strm.toList.any fun y => y.live && !y.store && y.imode == 1 && y.isrc == q) && !indexRec s x
    then some .spRec
  else if tis.contains 255 then some .tiReserved
  else if tis.any fun t => !Desc.vld (s.myRank.tensor t) then some .tiInvalid
  else none

/-- The stream starts; its feed takes STATE 3. -/
def startStream (store : Bool) (q p : Nat) (s : State) : State :=
  let x := strmAt s p
  let c := s.core
  let d (y : Strm) : BitVec 512 := if y.tien then s.myRank.tensor y.ti else 0
  let go (y : Strm) (st : StrmSt) : Strm :=
    { y with desc := d y, j0 := 0, j1 := 0, j2 := 0, j3 := 0, x := 0, ipos := 0, que := q, store := store, st := st,
             held := none, epoch := c.epoch, serial := c.serial, cause := none, fva := 0, pages := [], idx := [] }
  let s := setStrm p (go x .running) s
  let s := if x.imode = 2 then setStrm x.isrc (go (strmAt s x.isrc) .feed) s else s
  s.modCore fun c => { c with serial := c.serial + 1 }

def sstart (store : Bool) (q p : Nat) (s : State) : Out :=
  if queueServed s store q p then .wait { seqs := [.vec] } s
  else match startCheck s store q p with
    | some c => .raise c s
    | none => .ok (issued .acs 1 1 (startStream store q p s))

def execSload (q : BitVec 3) (p : BitVec 4) (s : State) : Host.Outcome State Fault Refusal :=
  finish .acs (sstart false q.toNat p.toNat s)
def execSstore (q : BitVec 2) (p : BitVec 4) (s : State) : Host.Outcome State Fault Refusal :=
  finish .acs (sstart true q.toNat p.toNat s)

/-! ## AMARK, ASUSP, AQRES, ANOP (05 R138 to R140) -/

/-- ACS's open markers now cover what has started (07 R215). -/
def closeMarks (s : State) : State :=
  s.modCore fun c =>
    { c with marks := c.marks.map fun m => if m.eng = .acs ∧ m.isOpen then { m with isOpen := false, serial := c.serial } else m }

def execAmark (s : State) : Host.Outcome State Fault Refusal :=
  finish .acs (.ok (issued .acs 1 1 ((closeMarks s).modCore fun c => { c with epoch := c.epoch + 1 })))

def execAsusp (s : State) : Host.Outcome State Fault Refusal :=
  finish .acs (.ok ((closeMarks (issued .acs 1 1 s)).modCore fun c => { c with acs := { c.acs with run := false } }))

def execAqres (p : BitVec 4) (s : State) : Host.Outcome State Fault Refusal :=
  let x := strmAt s p.toNat
  finish .acs (.ok (issued .acs 1 1
    (if x.st = .halted then setStrm p.toNat { x with st := .running, cause := none } s else s)))

def execAnop (s : State) : Host.Outcome State Fault Refusal := finish .acs (.ok (issued .acs 1 1 s))

end Sys2Proof.Machine
end

