-- ==== Sys2Proof/Machine/VecOps.lean ====
section
/-!
DEFINITION. Vector operands, masks, results and the shapes of vector instructions (02 R47, R49, R51, R52; 05 R127, R129,
R141 to R143; 17 R438).
-/
namespace Sys2Proof.Machine

/-! ## Reading operands (02 R51; 05 R129) -/

/-- A running stream takes its indices from load queue n. -/
def queueBound (s : State) (n : Nat) : Bool :=
  s.core.strm.toList.any fun x => x.live && x.imode == 1 && x.isrc == n

/-- The cause a vector source raises, whatever the queues hold. -/
def vsrcCause (s : State) : VOp → Option Cause
  | .lq n => if queueBound s n.toNat then some .queBound else none
  | .b n => match readLat s.now s.core.latV n.toNat with
    | .bad c => some c
    | _ => none
  | .sq _ => some .encReg
  | .v _ => none

/-- One operand's value; a queue gives its head, which goes. -/
def vread (s : State) : VOp → Option (VWord × State)
  | .v n => some (s.core.v[n.toNat]?.getD 0, s)
  | .b n => match readLat s.now s.core.latV n.toNat with
    | .val x => some (x, s)
    | _ => none
  | .lq n => match s.core.lq[n.toNat]?.getD [] with
    | [] => none
    | e :: es => some (e.data, s.modCore fun c => { c with lq := c.lq.setIfInBounds n.toNat es })
  | .sq _ => none

/-- The operands in order; none when a queue is empty. -/
def vreads : List VOp → State → Option (List VWord × State)
  | [], s => some ([], s)
  | o :: os, s => match vread s o with
    | none => none
    | some (x, s) => (vreads os s).map fun r => (x :: r.1, r.2)

/-- Go on with the operands: a cause, a stall, or their values and the state after the pops. -/
def withV (os : List VOp) (s : State) (k : List VWord → State → Out) : Out :=
  match os.findSome? (vsrcCause s) with
  | some c => .raise c s
  | none => match vreads os s with
    | none => .stall s
    | some (xs, t) => k xs t

/-! ## Masks (01 R17; 02 R52) -/

/-- Mask register n; m0 reads all ones. -/
def maskOf (s : State) (n : BitVec 4) : MWord := if n = 0 then BitVec.allOnes 8192 else s.core.m[n.toNat]?.getD 0

/-- Is element i active. -/
def active (s : State) (n : BitVec 4) (i : Nat) : Bool := n == 0 || bitOf (s.core.m[n.toNat]?.getD 0) i

/-- Bits below n from a function. -/
def maskBits (n : Nat) (f : Nat → Bool) : MWord := BitVec.ofNat 8192 (packCodes 1 ((List.range n).map fun i => b2n (f i)))

/-! ## Results (05 R141, R142; 02 R47, R49) -/

/-- Old value of a destination: zero bytes for a store queue. -/
def vold (s : State) : VOp → VWord
  | .v n => s.core.v[n.toNat]?.getD 0
  | _ => 0

/-- A store queue that would be pushed is full. -/
def sqFull (s : State) (nw : Bool) : VOp → Bool
  | .sq n => !nw && 8 ≤ (s.core.sq[n.toNat]?.getD []).length
  | _ => false

/-- The bits of a register whose elements of type t a mask names. -/
def laneMask (t : ETy) (en : MWord) : VWord :=
  BitVec.ofNat 32768 (packCodes (tyBits t) ((List.range (elems t)).map fun i => if bitOf en i then 2 ^ tyBits t - 1 else 0))

/-- Write a register, in an exposed region at the end of the latency the elements `on` that the instruction writes; or push a
store queue with its enable bits `en`; neither when nw is set. The latch is pushed. -/
def vput (t : ETy) (vd : VOp) (nw : Bool) (lat : Nat) (res : VWord) (en on : MWord) (s : State) : State :=
  s.modCore fun c =>
    let due := if c.x then s.now + lat else 0
    let flight (d : Dst) (c : Core) : Core :=
      if c.x then { c with pend := c.pend ++ [⟨d, s.now + lat, (entryHere .vec s).1⟩] } else c
    let c := { c with latV := pushLat ⟨res, due, 0⟩ c.latV }
    if nw then flight .none c
    else match vd with
      | .v n => if c.x then flight (.v n.toNat res (laneMask t on)) c else { c with v := c.v.setIfInBounds n.toNat res }
      | .sq n =>
        { flight .none c with sq := c.sq.setIfInBounds n.toNat (c.sq[n.toNat]?.getD [] ++ [{ data := res, ty := .n8, epe := 0, en := en }]) }
      | _ => flight .none c

/-- Write a mask register: `on` are the bits that the instruction writes. -/
def mput (md : BitVec 4) (lat : Nat) (x on : MWord) (s : State) : State :=
  s.modCore fun c =>
    if c.x then { c with pend := c.pend ++ [⟨.m md.toNat x on, s.now + lat, (entryHere .vec s).1⟩] }
    else { c with m := c.m.setIfInBounds md.toNat x }

/-! ## Shapes -/

/-- Codes packed into a register. -/
def vpack (t : ETy) (l : List Nat) : VWord := BitVec.ofNat 32768 (packCodes (tyBits t) l)

/-- A register of codes: f i where `on i`, the old code elsewhere. -/
def vselect (t : ETy) (old : VWord) (on : Nat → Bool) (f : Nat → Nat) : VWord :=
  vpack t ((List.range (elems t)).map fun i => if on i then f i else elemOf t old i)

/-- Any instruction with a vector destination: its element type, sources, latency, occupancy, and from the operands and the old
value the result and the elements it writes, which are a store queue's enable bits. -/
def vinstr (ty : ETy) (vd : VOp) (nw : Bool) (lat occ : Nat) (srcs : List VOp) (s : State)
    (f : List VWord → VWord → VWord × MWord) : Out :=
  withV srcs s fun xs t =>
    if sqFull s nw vd then .stall s
    else
      let r := f xs (vold s vd)
      .ok (issued .vec 2 occ (vput ty vd nw lat r.1 r.2 r.2 t))

/-- Source k of a list. -/
def src (xs : List VWord) (k : Nat) : VWord := xs[k]?.getD 0

/-- VecApply (05 R141): element i of the result is F of the elements i of the sources where the mask is 1. -/
def vapply (t : ETy) (vd : VOp) (nw : Bool) (m : BitVec 4) (lat occ : Nat) (srcs : List VOp) (s : State)
    (f : List Nat → Nat) : Out :=
  vinstr t vd nw lat occ srcs s fun xs old =>
    (vselect t old (active s m) fun i => f (xs.map fun x => elemOf t x i), maskOf s m)

/-- The rounding of a vector instruction: code 0 is RNE (02 R54). -/
def vmode (r : Rnd) : Mode := rndMode .rne r

/-- One floating operand. -/
def vfloat1 (lat occ : Nat) (o : VUr) (s : State) (f : Mode → XVal → Nat → Nat) : Out :=
  vapply o.ty o.vd o.nw o.m lat occ [o.va] s fun l =>
    let a := l[0]?.getD 0
    f (vmode o.rnd) (decodeF o.ty a) a

/-- One floating operand whose exact function value is rounded. -/
def vround1 (lat occ : Nat) (o : VUr) (s : State) (f : XVal → XVal) : Out :=
  vfloat1 lat occ o s fun md a _ => roundTo o.ty md o.sat (f a)

/-- Two floating operands. -/
def vround2 (lat occ : Nat) (o : VBr) (s : State) (f : Mode → XVal → XVal → XVal) : Out :=
  vapply o.ty o.vd o.nw o.m lat occ [o.va, o.vb] s fun l =>
    roundTo o.ty (vmode o.rnd) o.sat (f (vmode o.rnd) (decodeF o.ty (l[0]?.getD 0)) (decodeF o.ty (l[1]?.getD 0)))

/-- Three floating operands. -/
def vround3 (lat occ : Nat) (o : VTr) (s : State) (f : Mode → XVal → XVal → XVal → XVal) : Out :=
  vapply o.ty o.vd o.nw o.m lat occ [o.va, o.vb, o.vc] s fun l =>
    roundTo o.ty (vmode o.rnd) o.sat
      (f (vmode o.rnd) (decodeF o.ty (l[0]?.getD 0)) (decodeF o.ty (l[1]?.getD 0)) (decodeF o.ty (l[2]?.getD 0)))

/-- Extra cycles of function instruction number fn on the slow path: a free number from 0 to 96, and 0 where no element is active (04
R119). Numbers 0 to 8 are the functions, 9 to 12 VDIV, VSQRT, VRCP and VRSQ: that these take the slow path as well is a DESIGN CHOICE
(log entry 53), since R119 speaks of a function instruction and 05 R145 lists all thirteen. -/
def slowCycles (fn : Nat) (ty : ETy) (rnd : Rnd) (m : BitVec 4) (srcs : List VOp) (s : State) : Nat :=
  let xs := ((vreads srcs s).map (·.1)).getD []
  let on := (List.range (elems ty)).filter (active s m)
  if on.isEmpty then 0
  else Config.slowPath fn (tyCode ty) (modeIx (vmode rnd)) (on.flatMap fun i => xs.map fun x => elemOf ty x i) % 97

/-- An instruction of VEC that may take extra cycles. -/
def slowly (k : Nat) : Out → Out
  | .ok t => .ok (slower k t)
  | r => r

/-- A function of R145 that intervals enclose. -/
def vfn (g : Fn) (o : VUr) (s : State) : Out :=
  slowly (slowCycles (fnIx g) o.ty o.rnd o.m [o.va] s) (vfloat1 14 8 o s fun md a code => fnRound g o.ty md o.sat a code)

/-- A function of R145 of one operand that is exact before it is rounded. -/
def vexact (fn : Nat) (o : VUr) (s : State) (f : XVal → XVal) : Out :=
  slowly (slowCycles fn o.ty o.rnd o.m [o.va] s) (vround1 14 8 o s f)

/-- Two codes to a code. -/
def vcode2 (lat : Nat) (o : VB) (s : State) (f : Nat → Nat → Nat) : Out :=
  vapply o.ty o.vd o.nw o.m lat 4 [o.va, o.vb] s fun l => f (l[0]?.getD 0) (l[1]?.getD 0)

/-- Two integers to an integer result, wrapped or clamped (05 R156; 03 R79). -/
def vint2 (lat : Nat) (o : VBs) (s : State) (f : Int → Int → Int) : Out :=
  vapply o.ty o.vd o.nw o.m lat 4 [o.va, o.vb] s fun l =>
    narrowI o.ty o.sat (f (intOf o.ty (l[0]?.getD 0)) (intOf o.ty (l[1]?.getD 0)))

/-! ## Reductions (04 R105 to R107) -/

/-- The float sum of a reduction. -/
def redSumF (t : ETy) (md : Mode) (sat : Bool) (l : List Nat) : Nat :=
  roundTo t md sat (alignedSum 100 (l.map (decodeF t)))

/-- .max and .min on a floating type; an empty list gives the far infinity, or e4m3's largest magnitude. -/
def redPickF (t : ETy) (mx : Bool) : List Nat → Nat
  | [] => infResult t mx (t == .e4m3)
  | [c] => if isNaNCode t c then canonNaN t else c
  | c :: cs => maxF t mx c (redPickF t mx cs)

/-- .max and .min on an integer type. -/
def redPickI (t : ETy) (mx : Bool) (l : List Nat) : Nat :=
  wrapI t (l.foldl (fun a c => if mx then max a (intOf t c) else min a (intOf t c)) (if mx then minI t else maxI t))

/-- VRED of the active codes. -/
def redOp (op : RedSel) (t : ETy) (md : Mode) (sat : Bool) (l : List Nat) : Nat :=
  match op with
  | .sum => if isFloat t then redSumF t md sat l else narrowI t sat (l.foldl (fun a c => a + intOf t c) 0)
  | .max => if isFloat t then redPickF t true l else redPickI t true l
  | .min => if isFloat t then redPickF t false l else redPickI t false l

/-- Running part of a floating scan: NaN seen, +∞ seen, −∞ seen, a nonzero finite term seen, only −0 seen, S. -/
structure ScanAcc where
  nan : Bool
  pinf : Bool
  ninf : Bool
  some' : Bool
  allNeg : Bool
  sum : Int
deriving DecidableEq, Repr

def ScanAcc.add (q : Int) (a : ScanAcc) (x : XVal) : ScanAcc :=
  match x with
  | .nan => { a with nan := true }
  | .inf n => if n then { a with ninf := true } else { a with pinf := true }
  | .fin n s _ => if s = 0 then { a with allNeg := a.allNeg && n } else { a with some' := true, sum := a.sum + termUnits q x }

/-- The value of a prefix (04 R100, R106). -/
def ScanAcc.value (q : Int) (a : ScanAcc) : XVal :=
  if a.nan || (a.pinf && a.ninf) then .nan
  else if a.pinf then .inf false
  else if a.ninf then .inf true
  else if !a.some' then .fin a.allNeg 0 0
  else if a.sum = 0 then .fin false 0 0
  else .fin (decide (a.sum < 0)) a.sum.natAbs q

/-- VSCAN over all elements in order: the code of each active one's prefix. -/
def scanF (t : ETy) (md : Mode) (sat : Bool) (q : Int) : List (Bool × Nat) → ScanAcc → List (Option Nat)
  | [], _ => []
  | (on, c) :: l, a =>
    if on then
      let a := a.add q (decodeF t c)
      some (roundTo t md sat (a.value q)) :: scanF t md sat q l a
    else none :: scanF t md sat q l a

def scanI (t : ETy) (sat : Bool) : List (Bool × Nat) → Int → List (Option Nat)
  | [], _ => []
  | (on, c) :: l, a =>
    if on then some (narrowI t sat (a + intOf t c)) :: scanI t sat l (a + intOf t c) else none :: scanI t sat l a

def scanOp (t : ETy) (md : Mode) (sat : Bool) (l : List (Bool × Nat)) : List (Option Nat) :=
  if isFloat t then
    let e := (maxE ((l.filter (·.1)).map fun x => decodeF t x.2)).getD 0
    scanF t md sat (e - 100) l ⟨false, false, false, false, true, 0⟩
  else scanI t sat l 0

/-! ## 2:4 packing (05 R162) -/

/-- Does the code at the lower index rank before the other by magnitude. -/
def magFirst (t : ETy) (a b : Nat) : Bool :=
  if isFloat t then
    let abs (x : XVal) : XVal := match x with
      | .nan => .nan
      | .inf _ => .inf false
      | .fin _ s e => .fin false s e
    match abs (decodeF t a), abs (decodeF t b) with
    | .nan, _ => true
    | _, .nan => false
    | x, y => XVal.cmp x y != -1
  else (intOf t b).natAbs ≤ (intOf t a).natAbs

/-- The index of the first-ranked of a list of (index, code), ascending. -/
def bestOf (t : ETy) : List (Nat × Nat) → Nat × Nat
  | [] => (0, 0)
  | [x] => x
  | x :: xs => let y := bestOf t xs; if magFirst t x.2 y.2 then x else y

/-- Keep2: the two kept indices, ascending. -/
def keep2 (t : ETy) (l : List Nat) : Nat × Nat :=
  let xs := l.zipIdx.map fun p => (p.2, p.1)
  let a := (bestOf t xs).1
  let b := (bestOf t (xs.filter (·.1 != a))).1
  (min a b, max a b)

end Sys2Proof.Machine
end

