-- ==== Sys2Proof/Machine/Vec.lean ====
section
/-!
DEFINITION. The vector sequencer's instructions (05 R144 to R166; 04 R105 to R107, R117, R120).
-/
namespace Sys2Proof.Machine

/-! ## Floating arithmetic and functions (05 R144, R145) -/

def execVadd (o : VBr) (s : State) : Host.Outcome State Fault Refusal := finish .vec (vround2 8 4 o s XVal.addM)
def execVsub (o : VBr) (s : State) : Host.Outcome State Fault Refusal :=
  finish .vec (vround2 8 4 o s fun md a b => XVal.addM md a b.neg)
def execVmul (o : VBr) (s : State) : Host.Outcome State Fault Refusal :=
  finish .vec (vround2 8 4 o s fun _ a b => XVal.mul a b)
def execVfma (o : VTr) (s : State) : Host.Outcome State Fault Refusal :=
  finish .vec (vround3 10 4 o s fun md a b c => XVal.addM md (XVal.mul a b) c)
def execVfms (o : VTr) (s : State) : Host.Outcome State Fault Refusal :=
  finish .vec (vround3 10 4 o s fun md a b c => XVal.addM md (XVal.mul a b) c.neg)
def execVfnma (o : VTr) (s : State) : Host.Outcome State Fault Refusal :=
  finish .vec (vround3 10 4 o s fun md a b c => XVal.addM md c (XVal.mul a b).neg)
def execVmax (o : VB) (s : State) : Host.Outcome State Fault Refusal := finish .vec (vcode2 8 o s (maxF o.ty true))
def execVmin (o : VB) (s : State) : Host.Outcome State Fault Refusal := finish .vec (vcode2 8 o s (maxF o.ty false))

/-- A code with a new sign; NaN canonical (03 R77). -/
def signTo (t : ETy) (f : Bool → Bool) (c : Nat) : Nat :=
  if isNaNCode t c then canonNaN t else withSign t (f ((fmt t).signBit c)) (c % 2 ^ ((fmt t).bits - 1))

def vsign (o : VU) (s : State) (f : Bool → Bool) : Out :=
  vapply o.ty o.vd o.nw o.m 8 4 [o.va] s fun l => signTo o.ty f (l[0]?.getD 0)

def execVabs (o : VU) (s : State) : Host.Outcome State Fault Refusal := finish .vec (vsign o s fun _ => false)
def execVneg (o : VU) (s : State) : Host.Outcome State Fault Refusal := finish .vec (vsign o s fun b => !b)

def execVdiv (o : VBr) (s : State) : Host.Outcome State Fault Refusal :=
  finish .vec (slowly (slowCycles 9 o.ty o.rnd o.m [o.va, o.vb] s) (vround2 14 8 o s fun _ a b => XVal.div a b))
def execVsqrt (o : VUr) (s : State) : Host.Outcome State Fault Refusal := finish .vec (vexact 10 o s XVal.sqrt)
def execVrcp (o : VUr) (s : State) : Host.Outcome State Fault Refusal :=
  finish .vec (vexact 11 o s fun a => XVal.div (.fin false 1 0) a)
def execVrsq (o : VUr) (s : State) : Host.Outcome State Fault Refusal := finish .vec (vexact 12 o s XVal.rsqrt)
def execVexp (o : VUr) (s : State) : Host.Outcome State Fault Refusal := finish .vec (vfn .exp o s)
def execVexp2 (o : VUr) (s : State) : Host.Outcome State Fault Refusal := finish .vec (vfn .exp2 o s)
def execVln (o : VUr) (s : State) : Host.Outcome State Fault Refusal := finish .vec (vfn .ln o s)
def execVlog2 (o : VUr) (s : State) : Host.Outcome State Fault Refusal := finish .vec (vfn .log2 o s)
def execVtanh (o : VUr) (s : State) : Host.Outcome State Fault Refusal := finish .vec (vfn .tanh o s)
def execVsigm (o : VUr) (s : State) : Host.Outcome State Fault Refusal := finish .vec (vfn .sigm o s)
def execVerf (o : VUr) (s : State) : Host.Outcome State Fault Refusal := finish .vec (vfn .erf o s)
def execVsin (o : VUr) (s : State) : Host.Outcome State Fault Refusal := finish .vec (vfn .sin o s)
def execVcos (o : VUr) (s : State) : Host.Outcome State Fault Refusal := finish .vec (vfn .cos o s)

/-! ## Conversion, codebooks, scaling (05 R146 to R149) -/

def vcvt (o : VCvtOps) (s : State) : Out :=
  let n := min (elems o.d) (elems o.s)
  let k := o.part.toNat
  let narrow := tyBits o.d < tyBits o.s
  let lo := if narrow then k * n else 0
  let at' (i : Nat) : Nat := if narrow then i - lo else if tyBits o.s < tyBits o.d then k * n + i else i
  let part (i : Nat) : Bool := lo ≤ i && i < lo + n
  let on (i : Nat) : Bool := part i && active s o.m i
  vinstr o.d o.vd o.nw 8 4 [o.va] s fun xs old =>
    (vselect o.d old on fun i => convert o.d o.s (vmode o.rnd) o.sat (elemOf o.s (src xs 0) (at' i)), maskBits (elems o.d) on)

def execVcvt (o : VCvtOps) (s : State) : Host.Outcome State Fault Refusal := finish .vec (vcvt o s)

/-- Codebook n of the focused core's rank. -/
def myCb (s : State) (n : Nat) (j : Nat) : Nat := cbEntry s.myRank.cbs n j

/-- VCBX (05 R147). The mask field, of which the rule says nothing, governs the destination as everywhere (DESIGN CHOICE, log entry 53). -/
def execVcbx (o : VCbOps) (s : State) : Host.Outcome State Fault Refusal :=
  finish .vec (vinstr .bf16 o.vd o.nw 8 4 [o.va] s fun xs old =>
    (vselect .bf16 old (active s o.m) fun i => myCb s o.cb.toNat (elemOf .cb4 (src xs 0) (o.part.toNat * 2048 + i)),
      maskOf s o.m))

def vcbq (o : VCbOps) (s : State) : Out :=
  let t : ETy := if o.wide then .f32 else .bf16
  let n := elems t
  let lo := o.part.toNat * n
  let on (i : Nat) : Bool := lo ≤ i && i < lo + n && active s o.m i
  vinstr .cb4 o.vd o.nw 12 8 [o.va] s fun xs old =>
    (vselect .cb4 old on fun i => cbNearest (myCb s o.cb.toNat) (decodeF t (elemOf t (src xs 0) (i - lo))), maskBits 8192 on)

def execVcbq (o : VCbOps) (s : State) : Host.Outcome State Fault Refusal := finish .vec (vcbq o s)

def execVldx (o : VLdxOps) (s : State) : Host.Outcome State Fault Refusal :=
  finish .vec (vround1 8 4 o.u s (XVal.scale o.imm.toInt))

/-! ## Dot products and reductions (05 R150, R151) -/

def vdot (o : VDotOps) (s : State) : Out :=
  let g := sumGroup o.t o.u
  let val (t : ETy) (cb : BitVec 4) (c : Nat) : XVal := decodeCb (myCb s cb.toNat) t c
  let on (i : Nat) : Bool := i < 256 && active s o.m i
  vinstr .f32 o.vd o.nw 12 4 [o.va, o.vb, o.vc] s fun xs old =>
    (vselect .f32 old on fun i =>
      let terms := (List.range g.1).map fun j =>
        XVal.mul (val o.t o.cbA (elemOf o.t (src xs 0) (g.1 * i + j))) (val o.u o.cbB (elemOf o.u (src xs 1) (g.1 * i + j)))
      accumulate (vmode o.rnd) (elemOf .f32 (src xs 2) i) (alignedSum g.2 terms), maskBits 1024 on)

def execVdot (o : VDotOps) (s : State) : Host.Outcome State Fault Refusal := finish .vec (vdot o s)

def execVred (o : VRedOps) (s : State) : Host.Outcome State Fault Refusal :=
  let t := o.u.ty
  finish .vec (vinstr t o.u.vd o.u.nw 16 4 [o.u.va] s fun xs old =>
    let l := ((List.range (elems t)).filter (active s o.u.m)).map (elemOf t (src xs 0))
    let r := redOp o.op t (vmode o.u.rnd) o.u.sat l
    (vselect t old (· == 0) fun _ => r, 1))

def execVscan (o : VUr) (s : State) : Host.Outcome State Fault Refusal :=
  let t := o.ty
  finish .vec (vinstr t o.vd o.nw 20 4 [o.va] s fun xs old =>
    let l := (List.range (elems t)).map fun i => (active s o.m i, elemOf t (src xs 0) i)
    let r := scanOp t (vmode o.rnd) o.sat l
    (vpack t (r.zipIdx.map fun p => p.1.getD (elemOf t old p.2)), maskOf s o.m))

/-! ## Compares, masks, selection (05 R152 to R155) -/

/-- A mask destination from one bit an element: elements that are inactive or past N(t) keep theirs. -/
def vmask (t : ETy) (md m : BitVec 4) (lat : Nat) (srcs : List VOp) (s : State) (f : List Nat → Bool) : Out :=
  withV srcs s fun xs s' =>
    let old := s.core.m[md.toNat]?.getD 0
    let r := maskBits 8192 fun i =>
      if i < elems t && active s m i then f (xs.map fun x => elemOf t x i) else bitOf old i
    .ok (issued .vec 2 4 (mput md lat r (maskBits (elems t) (active s m)) s'))

def execVcmp (o : VCmpOps) (s : State) : Host.Outcome State Fault Refusal :=
  finish .vec (vmask o.ty o.md o.m 6 [o.va, o.vb] s fun l =>
    let a := l[0]?.getD 0
    let b := l[1]?.getD 0
    if isFloat o.ty then condF o.cond (decodeF o.ty a) (decodeF o.ty b) else condI o.cond (intOf o.ty a) (intOf o.ty b))

/-- VSEL (05 R153). An entry it pushes to a store queue has every enable bit set, since no mask governs it (DESIGN CHOICE, log
entry 53). -/
def execVsel (o : VB) (s : State) : Host.Outcome State Fault Refusal :=
  finish .vec (vinstr o.ty o.vd o.nw 6 4 [o.va, o.vb] s fun xs old =>
    (vselect o.ty old (fun _ => true) fun i => elemOf o.ty (src xs (if active s o.m i then 0 else 1)) i,
      BitVec.allOnes 8192))

def execVcls (o : VClsOps) (s : State) : Host.Outcome State Fault Refusal :=
  finish .vec (vmask o.ty o.md o.m 6 [o.va] s fun l => bitOf o.classes (classOf o.ty (l[0]?.getD 0)))

def mlogF : MlogSel → MWord → MWord → MWord
  | .and, a, b => a &&& b
  | .or, a, b => a ||| b
  | .xor, a, b => a ^^^ b
  | .andn, a, b => a &&& ~~~b

def execMlog (o : MlogOps) (s : State) : Host.Outcome State Fault Refusal :=
  let g := maskOf s o.m
  let old := s.core.m[o.md.toNat]?.getD 0
  let r := (mlogF o.op (maskOf s o.ma) (maskOf s o.mb) &&& g) ||| (old &&& ~~~g)
  finish .vec (.ok (issued .vec 2 1 (mput o.md 2 r g s)))

def execMpop (o : MpopOps) (s : State) : Host.Outcome State Fault Refusal :=
  let g := maskOf s o.ma &&& maskOf s o.m
  let n := (List.range 8192).foldl (fun n i => n + b2n (bitOf g i)) 0
  finish .vec (vinstr .i32 o.vd o.nw 8 1 [] s fun _ old => (vselect .i32 old (· == 0) fun _ => n, 1))

/-! ## Integer and bit operations (05 R156) -/

def execViadd (o : VBs) (s : State) : Host.Outcome State Fault Refusal := finish .vec (vint2 6 o s (· + ·))
def execVisub (o : VBs) (s : State) : Host.Outcome State Fault Refusal := finish .vec (vint2 6 o s (· - ·))
def execVimul (o : VBs) (s : State) : Host.Outcome State Fault Refusal := finish .vec (vint2 8 o s (· * ·))
def execVimin (o : VB) (s : State) : Host.Outcome State Fault Refusal :=
  finish .vec (vcode2 6 o s fun a b => if intOf o.ty a ≤ intOf o.ty b then a else b)
def execVimax (o : VB) (s : State) : Host.Outcome State Fault Refusal :=
  finish .vec (vcode2 6 o s fun a b => if intOf o.ty a ≤ intOf o.ty b then b else a)
def execVand (o : VB) (s : State) : Host.Outcome State Fault Refusal := finish .vec (vcode2 6 o s (· &&& ·))
def execVor (o : VB) (s : State) : Host.Outcome State Fault Refusal := finish .vec (vcode2 6 o s (· ||| ·))
def execVxor (o : VB) (s : State) : Host.Outcome State Fault Refusal := finish .vec (vcode2 6 o s (· ^^^ ·))

/-- A shift of a w-bit element by n, any n (05 R156): .ra copies the element's top bit. -/
def vshF (op : ShSel) (w a n : Nat) : Nat :=
  match op with
  | .l => if w ≤ n then 0 else a * 2 ^ n % 2 ^ w
  | .rl => if w ≤ n then 0 else a / 2 ^ n
  | .ra => (sgn w a / 2 ^ min n w % 2 ^ w).toNat

def execVshf (o : VShfOps) (s : State) : Host.Outcome State Fault Refusal :=
  finish .vec (vcode2 6 o.o s (vshF o.op (tyBits o.o.ty)))

/-! ## Moves and permutations (05 R157 to R161) -/

def execVmov (o : VU) (s : State) : Host.Outcome State Fault Refusal :=
  finish .vec (vapply o.ty o.vd o.nw o.m 6 4 [o.va] s fun l => l[0]?.getD 0)

def execVbcst (o : VBcstOps) (s : State) : Host.Outcome State Fault Refusal :=
  let c : Nat := if o.ty = .i64 then (o.imm.signExtend 64).toNat else o.imm.toNat % 2 ^ tyBits o.ty
  finish .vec (vapply o.ty o.vd false o.m 6 4 [] s fun _ => c)

def execVbcstElem (o : VBcstElemOps) (s : State) : Host.Outcome State Fault Refusal :=
  finish .vec (vinstr o.ty o.vd false 6 4 [o.va] s fun xs old =>
    let c := elemOf o.ty (src xs 0) o.e.toNat
    (vselect o.ty old (active s o.m) fun _ => c, maskOf s o.m))

def execViota (o : ViotaOps) (s : State) : Host.Outcome State Fault Refusal :=
  finish .vec (vinstr .i32 o.vd false 6 4 [] s fun _ old =>
    (vselect .i32 old (active s o.m) fun i => (o.start.toNat + i) % 2 ^ 32, maskOf s o.m))

def vperm (o : VPermOps) (s : State) : Out :=
  let t := o.o.ty
  let n := permElems t
  let lo := o.part.toNat * n
  let on (i : Nat) : Bool := lo ≤ i && i < lo + n && active s o.o.m i
  vinstr t o.o.vd o.o.nw 12 8 [o.o.va, o.o.vb] s fun xs old =>
    (vselect t old on fun i =>
      let k := elemOf .n32 (src xs 1) (i - lo)
      if elems t ≤ k then 0 else elemOf t (src xs 0) k, maskBits (elems t) on)

def execVperm (o : VPermOps) (s : State) : Host.Outcome State Fault Refusal := finish .vec (vperm o s)

def execVslide (o : VSlideOps) (s : State) : Host.Outcome State Fault Refusal :=
  let t := o.o.ty
  let n : Int := elems t
  finish .vec (vinstr t o.o.vd o.o.nw 6 4 [o.o.va, o.o.vb] s fun xs old =>
    (vselect t old (active s o.o.m) fun i =>
      let k : Int := (i : Int) + o.imm.toInt
      if 0 ≤ k ∧ k < n then elemOf t (src xs 0) k.toNat
      else if n ≤ k then elemOf t (src xs 1) (k - n).toNat
      else elemOf t (src xs 1) (k + n).toNat, maskOf s o.o.m))

/-! ## Sparsity packing (05 R162, R163) -/

def vcmprs (o : VCmprsOps) (s : State) : Out :=
  let t := o.ty
  let n := elems t
  let lo := o.half.toNat * (n / 2)
  withV [o.va] s fun xs s' =>
    if sqFull s false o.vd then .stall s
    else
      let kept := (List.range (n / 4)).flatMap fun g =>
        let p := keep2 t ((List.range 4).map fun i => elemOf t (src xs 0) (4 * g + i))
        [(p.1, elemOf t (src xs 0) (4 * g + p.1)), (p.2, elemOf t (src xs 0) (4 * g + p.2))]
      let half (i : Nat) : Bool := lo ≤ i && i < lo + n / 2
      let codes : VWord := vpack t (kept.map (·.2))
      let res := vselect t (vold s o.vd) half fun i => elemOf t codes (i - lo)
      let idx : Nat := packCodes 2 (kept.map (·.1))
      let md := setFld (s.core.m[o.md.toNat]?.getD 0) (2 * lo) n idx
      .ok (issued .vec 2 4 (mput o.md 10 md (maskBits 8192 fun i => 2 * lo ≤ i && i < 2 * lo + n)
        (vput t o.vd false 10 res (BitVec.allOnes 8192) (maskBits n half) s')))

def execVcmprs (o : VCmprsOps) (s : State) : Host.Outcome State Fault Refusal := finish .vec (vcmprs o s)

/-- VXPND (05 R163). An entry it pushes to a store queue has as the enable bits of group g's elements mask bit 4g, which governs the group
(DESIGN CHOICE, log entry 53). -/
def vxpnd (o : VXpndOps) (s : State) : Out :=
  let t := o.ty
  let n := elems t
  let ix := maskOf s o.ma
  let on (i : Nat) : Bool := active s o.m (i / 4 * 4)
  vinstr t o.vd o.nw 8 4 [o.va] s fun xs old =>
    (vselect t old on fun i =>
      let j := o.half.toNat * (n / 2) + 2 * (i / 4)
      if fld ix (2 * j + 2) 2 = i % 4 then elemOf t (src xs 0) (j + 1)
      else if fld ix (2 * j) 2 = i % 4 then elemOf t (src xs 0) j
      else 0, maskBits n on)

def execVxpnd (o : VXpndOps) (s : State) : Host.Outcome State Fault Refusal := finish .vec (vxpnd o s)

/-! ## Random draws and atomics (05 R164, R165) -/

def execVrng (o : VRngOps) (s : State) : Host.Outcome State Fault Refusal :=
  let j := s.myJob
  finish .vec (vapply .n32 o.vd o.nw o.m 12 4 [o.vidx] s fun l =>
    jcgDraw j.seed.toNat s.core.rank o.s.toNat j.stepNo.toNat o.ti.toNat (l[0]?.getD 0))

def vatomSel : VatomSel → AtomSel
  | .add => .add | .min => .min | .max => .max

/-- The fault of the first element, in ascending order, whose address fails (05 R165). Of an element both misaligned and in a hole it
is MEM_ALIGN (DESIGN CHOICE, log entry 53). -/
def vatomBad (s : State) (as : List Nat) : Option Flt :=
  let j := s.myJob
  as.findSome? fun a =>
    let va := spadLo + a
    if a % 4 ≠ 0 then some ⟨.memAlign, va, none⟩
    else match regionOf j.width j.v va 4 with
      | .error c => some ⟨c, va, none⟩
      | .ok (.spad _) => none
      | .ok _ => some ⟨.vaHole, va, none⟩

/-- One element's atomic on its word; a poisoned or absent word stops it. -/
def vatomOne (op : AtomSel) (s : State) (a x : Nat) : Except Flt State :=
  match access s (s.req 6) (spadLo + a) 4 .write with
  | .error f => .error f
  | .ok (s, ps) =>
    match readPieces s ps with
    | .error f => .error f
    | .ok bs => .ok (recheck (writePieces s ps (leBytes 4 (atomOp op 32 (leVal bs) x))))

def vatomAll (op : AtomSel) : List (Nat × Nat) → State → Except Flt State
  | [], s => .ok s
  | (a, x) :: l, s => match vatomOne op s a x with
    | .error f => .error f
    | .ok s => vatomAll op l s

/-- The largest number of the addresses that share a bank (01 R24). -/
def bankLoad (as : List Nat) : Nat :=
  let key (a : Nat) : Nat := a / 2 ^ 22 * 32 + a / 64 % 32
  let ks := as.map key
  ks.foldl (fun m k => max m (ks.count k)) 0

def vatom (o : VAtomOps) (s : State) : Out :=
  withV [o.va, o.vb] s fun xs t =>
    let on := (List.range 1024).filter (active s o.m)
    let ax := on.map fun i => (elemOf .n32 (src xs 0) i, elemOf .i32 (src xs 1) i)
    match vatomBad s (ax.map (·.1)) with
    | some f => .trap f 0 s
    | none =>
      if gated s .vec then .stall s
      else match vatomAll (vatomSel o.op) ax t with
        | .error f => .trap f 0 s
        | .ok t => .ok (issued .vec 2 (4 * max 1 (bankLoad (ax.map (·.1)))) t)

def execVatom (o : VAtomOps) (s : State) : Host.Outcome State Fault Refusal := finish .vec (vatom o s)

/-! ## Vector control (05 R166) -/

def execVloop (c : BitVec 16) (e : BitVec 8) (s : State) : Host.Outcome State Fault Refusal :=
  finish .vec (enterLoop .vec 2 (c.setWidth 32) e.toNat s)

def execVbrm (nn : Bool) (m : BitVec 4) (off : BitVec 16) (s : State) : Host.Outcome State Fault Refusal :=
  finish .vec <|
    if (maskOf s m == 0) == nn then .ok (transfer .vec (lineAt s.core.vec.line off.toInt) 1 2 s)
    else .ok (issued .vec 2 1 s)

def execVjmp (off : BitVec 16) (s : State) : Host.Outcome State Fault Refusal := finish .vec (jump .vec off.toInt s)

def execVsusp (s : State) : Host.Outcome State Fault Refusal :=
  finish .vec (.ok ((issued .vec 2 1 s).modCore fun c => { c with vec := { c.vec with run := false } }))

def execVnop (s : State) : Host.Outcome State Fault Refusal := finish .vec (.ok (issued .vec 2 1 s))

end Sys2Proof.Machine
end

