-- ==== Sys2Proof/Machine/MovOps.lean ====
section
/-!
DEFINITION. Engine commands: footprints and the overlap checker (07 R213, R214; 09 R266), acceptance (07 R207 to R209,
R212; 09 R265; 13 R378), when a command may start, batches and retirement (07 R210, R211; 09 R273), tiles (09 R276 to
R280) and the records of finished commands (09 R270 to R272).
-/
namespace Sys2Proof.Machine

/-! ## Footprints (07 R213, R214) -/

/-- The scratchpad bytes of a range, as a footprint names them. -/
def spadRes (lo hi : Int) (atomic : Bool) : List Res :=
  if hi < lo ∨ hi < spadLo ∨ (spadHi : Int) ≤ lo then []
  else [.bytes (max lo spadLo).toNat (min hi (spadHi - 1)).toNat atomic]

/-- Do two resources share something that one use of them may not share. -/
def Res.clash : Res → Res → Bool
  | .bytes a b x, .bytes c d y => a ≤ d && c ≤ b && !(x && y)
  | .slot a, .slot b => a == b
  | .tile a, .tile b => a == b
  | _, _ => false

/-- Two footprints conflict when they share a resource that one of them writes (07 R213). -/
def conflict (rd wr rd' wr' : List Res) : Bool :=
  (wr.any fun a => (rd' ++ wr').any (Res.clash a)) || rd.any fun a => wr'.any (Res.clash a)

/-- The accepted, unretired commands among the numbers, and their ancestors. -/
def ancestors (cs : List Cmd) : Nat → List W32 → List W32
  | 0, qs => qs
  | n + 1, qs =>
    let more := (cs.filter fun c => qs.contains c.seq).flatMap (·.preds)
    let new := more.filter fun q => !qs.contains q
    if new.isEmpty then qs else ancestors cs n (qs ++ new)

/-- Is the command, or one that it is ordered behind, a matrix command. -/
def Core.needsMtx (c : Core) (q : W32) : Bool :=
  let l := ancestors c.cmds 64 [q]
  c.cmds.any fun x => x.op.isMtx && l.contains x.seq

/-! ## Acceptance (07 R208, R209, R212; 13 R378) -/

/-- What a command brings: operation, footprint, the tensor entries it uses, ranges whose pages it pins, and the
captures of a matrix command. -/
structure Offer where
  op : CmdOp
  rd : List Res := []
  wr : List Res := []
  tis : List Nat := []
  spans : List (Int × Int) := []
  cbs : BitVec 4096 := 0
  bind : List (BitVec 512) := []
  prog : List W32 := []

/-- The number a predecessor slot captures: 0 for k0. -/
def tokOf (c : Core) (k : BitVec 6) : W32 := if k = 0 then 0 else c.tok[k.toNat]?.getD 0

/-- The numbers a command of sequencer q captures at its issue, or has captured (07 R208; 15 R412, R414). -/
def capPreds (c : Core) (q : Seqr) (t : Toks) : List W32 := (c.seq q).cap.preds.getD [tokOf c t.ka, tokOf c t.kb, tokOf c t.kc]

/-- Those that bind to an accepted, unretired command (07 R208). -/
def boundPreds (c : Core) (q : Seqr) (t : Toks) : List W32 :=
  (capPreds c q t).filter fun n => n != 0 && c.cmds.any (·.seq == n)

/-- A command that has issued and waits to be accepted keeps its operands and its predecessors (07 R208; 15 R408). -/
def captureCmd (q : Seqr) (t : Toks) (s : State) : State :=
  s.modCore fun c => c.modSeq q fun x => { x with cap := { x.cap with ops := snapOf c q, preds := some (capPreds c q t) } }

/-- Pages at a target rank that is here, for n bytes from a fabric address on (13 R378). -/
def targetKeys (s : State) (fva n : Nat) : List Nat :=
  match s.rank? s.core.job ((fva - fabLo) / 2 ^ 33) with
  | none => []
  | some k =>
    let a := k.expBase.toNat + (fva - fabLo) % 2 ^ 33
    pageKeys s k.asid a (a + n - 1)

/-- Keys of the pages of ranges, on the issuing side and at the target: a range in the fabric window, or one whose page a PEER leaf maps,
has its pages at the target (13 R366, R378). -/
def spanKeys (s : State) (l : List (Int × Int)) : List Nat :=
  l.flatMap fun (p : Int × Int) =>
    let lo := p.1.toNat
    let hi := p.2.toNat
    if p.2 < p.1 ∨ p.1 < (0 : Int) then []
    else if hi < fabLo then
      pageKeys s s.myRank.asid lo hi ++ (List.range (hi / 2 ^ 16 - lo / 2 ^ 16 + 1)).flatMap fun i =>
        let a := max lo ((lo / 2 ^ 16 + i) * 2 ^ 16)
        let b := min hi ((lo / 2 ^ 16 + i) * 2 ^ 16 + (2 ^ 16 - 1))
        match fabTarget s (s.req 5) a 1 with
        | some (_, fva) => targetKeys s fva (b - a + 1)
        | none => []
    else if fabLo ≤ lo ∧ hi < fabHi then targetKeys s lo (hi - lo + 1)
    else []

/-- The sequence number after q (07 R209). -/
def nextSeq (q : W32) : W32 := if q = 0xFFFFFFFF then 1 else q + 1

/-- The command of sequencer q is accepted: predecessors captured, number taken, slot written, batch joined, pages
pinned. -/
def acceptNow (q : Seqr) (t : Toks) (o : Offer) (s : State) : State :=
  let c := s.core
  let keys := spanKeys s o.spans
  let cmd : Cmd :=
    { seq := c.seqCtr, k := t.k.toNat, preds := boundPreds c q t, op := o.op, st := .waiting, ring := c.curRing,
      desc := (c.rings[c.curRing]?.getD none).getD 0, rd := o.rd, wr := o.wr, cbs := o.cbs, bind := o.bind, prog := o.prog,
      task := c.taskId, tis := o.tis, pins := keys, gate := c.accId }
  (keys.foldl pinPage s).modCore fun c =>
    { c with
      tok := if t.k = 0 then c.tok else c.tok.setIfInBounds t.k.toNat c.seqCtr
      tokLast := c.seqCtr, seqCtr := nextSeq c.seqCtr, cmds := c.cmds ++ [cmd]
      openB := if q = .mov then c.openB ++ [c.seqCtr] else c.openB }

/-- Acceptance with its waits and the overlap check (07 R212, R213; 09 R265): `k` is what else happens then. -/
def accept (q : Seqr) (n : Nat) (t : Toks) (o : Offer) (s : State) (k : State → State) : Out :=
  let c := s.core
  let wait (on : Awaited) : Out := .wait on (captureCmd q t s)
  if 64 ≤ c.cmds.length then wait { eng := c.cmds.all fun x => c.needsMtx x.seq }
  else if (spanKeys s o.spans).any fun key => pinFull s (BitVec.ofNat 16 (key / 2 ^ 52)) (key % 2 ^ 52) then
    wait { seqs := [.acs, .vec].filter (· != q), eng := true }
  else
    let anc := ancestors c.cmds 64 (boundPreds c q t)
    if c.cmds.any fun x => !anc.contains x.seq && conflict o.rd o.wr x.rd x.wr then .raise .overlap s
    else .ok (issued q n 1 (k (acceptNow q t o s)))

/-- The tokens of a command that has none (09 R264). -/
def noToks : Toks := ⟨0, 0, 0, 0⟩

/-- A MOV command needs a current ring (09 R265). -/
def withRing (s : State) (k : Out) : Out := if (s.core.rings[s.core.curRing]?.getD none).isNone then .raise .ringNone s else k

/-! ## Commands as they run -/

def cmdOf (s : State) (q : W32) : Option Cmd := s.core.cmds.find? (·.seq == q)
/-- The first of a list that is meant, changed. -/
def modFirst {α : Type} (p : α → Bool) (f : α → α) : List α → List α
  | [] => []
  | x :: xs => if p x then f x :: xs else x :: modFirst p f xs
/-- The oldest command with the number, changed: after a wrap of the counter an older one may hold it too (07 R208). -/
def modCmd (s : State) (q : W32) (f : Cmd → Cmd) : State :=
  s.modCore fun c => { c with cmds := modFirst (·.seq == q) f c.cmds }

/-- May a command start: its predecessors, among the commands accepted before it, retired, its issuer's earlier accesses performed
(07 R207, R208). -/
def mayStart (s : State) (x : Cmd) : Bool :=
  let q : Seqr := if x.op.isMtx then .ctl else .mov
  let older := s.core.cmds.takeWhile (·.seq != x.seq)
  x.preds.all (fun p => !older.any (·.seq == p)) && !(s.core.unperformed.any fun a => a.q == q && a.id < x.gate)
    && !gated s q

/-- A command has finished: its record waits for the ring (09 R272). -/
def finishCmd (q : W32) (status fault bytes addr : Nat) (s : State) : State :=
  match cmdOf s q with
  | none => s
  | some x =>
    let r : Rec := ⟨x.ring, x.desc, q, status, x.op.code, fault, bytes, addr, true, x.task⟩
    (modCmd s q fun x => { x with st := .record, status := status, fault := fault, bytes := bytes, addr := addr }).modCore
      fun c => { c with recs := c.recs ++ [r] }

/-- A record that retires nothing, for a command or a lease (09 R285, R286). -/
def extraRec (r : Rec) (s : State) : State := s.modCore fun c => { c with recs := c.recs ++ [r] }

/-- The command leaves: pins end, its batch counts it no more, slots it named may be free (06 R170; 09 R273; 13 R378). -/
def retireCmd (q : W32) (s : State) : State :=
  match cmdOf s q with
  | none => s
  | some x =>
    let s := x.pins.foldl unpinPage s
    settleSlots (s.modCore fun c =>
      { c with
        cmds := c.cmds.eraseP (·.seq == q)
        openB := if c.batches.any (·.contains q) then c.openB else c.openB.erase q
        batches := (modFirst (·.contains q) (·.erase q) c.batches).filter fun b => !b.isEmpty })

/-- The command halts; its pins end until it resumes (09 R267; 13 R378). -/
def haltCmd (q : W32) (f : Flt) (s : State) : State :=
  match cmdOf s q with
  | none => s
  | some x =>
    modCmd (x.pins.foldl unpinPage (quitQueues s.core.phys s)) q fun x => { x with st := .halted, halted0 := x.st, cause := some f.c, fva := f.va }

/-! ## Tiles (09 R276 to R280) -/

/-- The element indices of row r, column c of the tile that a coordinate register names (09 R277). -/
def tileIdx (d : Desc) (cw : Word) (r c : Nat) : Int × Int × Int × Int :=
  ((fld cw 0 16 * d.tileC + c : Nat), (fld cw 16 16 * d.tileR + r : Nat), (fld cw 32 16 : Nat), (fld cw 48 16 : Nat))

/-- Lowest and highest inside byte of the tile; none when the tile is wholly outside (09 R266). -/
def tileSpan (d : Desc) (cw : Word) : Option (Int × Int) :=
  let rng (k a n : Nat) : Option (Int × Int) :=
    if d.dim k ≤ a then none else some ((a : Int), (min (a + n) (d.dim k) : Nat) - 1)
  match rng 0 (fld cw 0 16 * d.tileC) d.tileC, rng 1 (fld cw 16 16 * d.tileR) d.tileR, rng 2 (fld cw 32 16) 1,
      rng 3 (fld cw 48 16) 1 with
  | some a, some b, some x, some y =>
    let edge (hi : Bool) (k : Nat) (p : Int × Int) : Int :=
      let u := p.1 * d.stride k
      let v := p.2 * d.stride k
      if hi then max u v else min u v
    let tot (hi : Bool) : Int := edge hi 0 a + edge hi 1 b + edge hi 2 x + edge hi 3 y
    some ((elemAddr d.ty d.base (tot false)).1, (elemAddr d.ty d.base (tot true)).1 + tyBytes d.ty - 1)
  | _, _, _, _ => none

def spanRes (p : Option (Int × Int)) : List Res := match p with | none => [] | some x => spadRes x.1 x.2 false
def spanList (p : Option (Int × Int)) : List (Int × Int) := p.toList

/-- The span of an arrival or flag word. -/
def wordSpan (a : Option Nat) : List (Int × Int) := (a.map fun (x : Nat) => ((x : Int), (x + 7 : Int))).toList

/-- Do two spans share a byte. -/
def spansMeet (a b : Option (Int × Int)) : Bool :=
  match a, b with
  | some x, some y => x.1 ≤ y.2 && y.1 ≤ x.2
  | _, _ => false

/-- The bytes of each inside element of the tile, as spans. -/
def tileCells (d : Desc) (cw : Word) : List (Int × Int) :=
  (List.range (d.tileR * d.tileC)).filterMap fun n =>
    match tileIdx d cw (n / d.tileC) (n % d.tileC) with
    | (a, b, c, e) =>
      if d.inside a b c e then
        let lo := (elemAddr d.ty d.base (d.offset a b c e)).1
        some (lo, lo + tyBytes d.ty - 1)
      else none

/-- Do the tiles share a byte (09 R266, R278)? -/
def tilesShare (d : Desc) (cd : Word) (src : Desc) (cs : Word) : Bool :=
  spansMeet (tileSpan d cd) (tileSpan src cs)
    && (tileCells d cd).any fun a => (tileCells src cs).any fun b => decide (a.1 ≤ b.2) && decide (b.1 ≤ a.2)

/-- Does the tile have a byte in a range (09 R279)? -/
def tileMeets (d : Desc) (cd : Word) (lo hi : Int) : Bool :=
  (tileCells d cd).any fun a => decide (a.1 ≤ hi) && decide (lo ≤ a.2)

/-- TileBytes (09 R276). -/
def tileBytes (d : Desc) : Nat := if d.ty = .cb4 then (d.tileR * d.tileC + 1) / 2 else d.tileR * d.tileC * tyBytes d.ty

/-- Bytes of n elements (09 R271). -/
def elemBytes (t : ETy) (n : Nat) : Nat := (n * tyBits t + 7) / 8

/-! ## Runs over elements (09 R267) -/

/-- How far a run came: state, next element, elements passed over for poison, the addresses at which they met it in order, one a
line, and what stopped it. -/
structure Ran where
  s : State
  pos : Nat
  skipped : Nat
  bad : List Nat
  stop : Option Flt

/-- Did a target rank's side meet the fault (09 R267; 13 R366). -/
def atTarget (f : Flt) : Bool := (fabLo ≤ f.va && f.va < fabHi) || f.c == .rankLost || f.c == .fabRange || f.c == .fabRank

/-- Elements from pos on: a poisoned line of the rank's own memory is passed over, any other fault stops. -/
def runElems (f : Nat → State → Except Flt State) : Nat → Ran → Ran
  | 0, a => a
  | n + 1, a =>
    match f a.pos a.s with
    | .ok s => runElems f n { a with s := s, pos := a.pos + 1 }
    | .error e =>
      if e.c = .memPoison ∧ !atTarget e then
        let bad := if a.bad.any fun v => v / 64 == e.va / 64 then a.bad else a.bad ++ [e.va]
        runElems f n { a with pos := a.pos + 1, skipped := a.skipped + 1, bad := bad }
      else { a with stop := some e }

/-- MOV's requester. -/
def movReq (s : State) : Req := s.agentReq 5

/-- The bytes of the line that the tile's inside elements fill. -/
def lineCovered (d : Desc) (cw : Word) (line : Int) : Bool :=
  let hits := (List.range (d.tileR * d.tileC)).foldl (fun (n : Nat) i =>
    match tileIdx d cw (i / d.tileC) (i % d.tileC) with
    | (a, b, c, e) =>
      if !d.inside a b c e then n
      else
        let at' := (elemAddr d.ty d.base (d.offset a b c e)).1
        if line ≤ at' ∧ at' < line + 64 then n + tyBits d.ty else n) 0
  512 ≤ hits

/-- Write element (r, c) of the destination tile; a poisoned line that the tile fills is cleared first (13 R381). -/
def writeTile (d : Desc) (cw : Word) (r c x : Nat) (s : State) : Except Flt State :=
  match tileIdx d cw r c with
  | (i0, i1, i2, i3) =>
    match writeTensor s (movReq s) d i0 i1 i2 i3 x with
    | .ok s => .ok s
    | .error f =>
      if f.c = .memPoison ∧ lineCovered d cw (f.va / 64 * 64 : Nat) then
        match locate s ((movReq s).via d) f.va 1 .write with
        | .ok (s, p) => writeTensor { s with poison := s.poison.erase (p.key / 64) } (movReq s) d i0 i1 i2 i3 x
        | .error e => .error e
      else .error f

/-- CopyTile's element n (09 R278). -/
def copyElem (d src : Desc) (cd cs : Word) (n : Nat) (s : State) : Except Flt State :=
  let r := n / src.tileC
  let c := n % src.tileC
  match tileIdx src cs r c with
  | (i0, i1, i2, i3) =>
    match readTensor s (movReq s) src i0 i1 i2 i3 with
    | .error f => .error f
    | .ok (s, x) => writeTile d cd r c x s

/-- The row masks of a bitmap image from row r on: none where the line is poisoned (09 R267, R279). -/
def readMasks (rq : Req) (src tc : Nat) : Nat → Nat → State → Except Flt (State × List (Option Nat))
  | 0, _, s => .ok (s, [])
  | n + 1, r, s =>
    match readMem s rq (src + 8 * r) 8 with
    | .ok (s, bs) => match readMasks rq src tc n (r + 1) s with
      | .ok (s, l) => .ok (s, some (leVal bs % 2 ^ tc) :: l)
      | .error f => .error f
    | .error f =>
      if f.c = .memPoison ∧ !atTarget f then match readMasks rq src tc n (r + 1) s with
        | .ok (s, l) => .ok (s, none :: l)
        | .error f => .error f
      else .error f

/-- Set bits of row masks. -/
def maskCodes (l : List (Option Nat)) : Nat := l.foldl (fun n m => n + (popcF (BitVec.ofNat 64 (m.getD 0))).toNat) 0

/-- COPYS' element n: the next packed code where its bit is 1, else the zero code; nothing where a poisoned mask leaves the bit, or the
place of the code, unknown (09 R267, R279). -/
def copysElem (d : Desc) (cd : Word) (src : Nat) (masks : List (Option Nat)) (n : Nat) (s : State) : Except Flt State :=
  let r := n / d.tileC
  let c := n % d.tileC
  match masks[r]?.getD (some 0) with
  | none => .error ⟨.memPoison, src + 8 * r, none⟩
  | some m =>
    if !m.testBit c then writeTile d cd r c 0 s
    else match ((masks.take r).zipIdx.find? (·.1.isNone)).map (·.2) with
    | some b => .error ⟨.memPoison, src + 8 * b, none⟩
    | none =>
      let i : Nat := maskCodes (masks.take r) + (popcF (BitVec.ofNat 64 (m % 2 ^ c))).toNat
      match readElem s (movReq s) d.ty (elemAddr d.ty (src + 8 * d.tileR) (i : Int)) with
      | .error f => .error f
      | .ok (s, x) => writeTile d cd r c x s

/-- Set element (row, k) of an operand slot: rows of 256 bytes (06 R169). -/
def setSlotElem (os row k : Nat) (t : ETy) (x : Nat) (s : State) : State :=
  s.modCore fun c =>
    { c with slots := c.slots.mapIdx fun i y =>
        if i = os then { y with data := setFld y.data (2048 * row + k * tyBits t) (tyBits t) x } else y }

/-- COPYO's element n: slot rows to 63, PAD past the tile's rows and outside the tensor (09 R280). -/
def copyoElem (os : Nat) (src : Desc) (cs : Word) (n : Nat) (s : State) : Except Flt State :=
  let r := n / src.tileC
  let c := n % src.tileC
  if src.tileR ≤ r then .ok (setSlotElem os r c src.ty src.pad s)
  else match tileIdx src cs r c with
    | (i0, i1, i2, i3) =>
      match readTensor s (movReq s) src i0 i1 i2 i3 with
      | .error f => .error f
      | .ok (s, x) => .ok (setSlotElem os r c src.ty x s)

/-- One 8-byte element of FST or FLD (09 R282). -/
def xferElem (dst src n : Nat) (s : State) : Except Flt State :=
  match readMem s (movReq s) (src + 8 * n) 8 with
  | .error f => .error f
  | .ok (s, bs) => writeMem s (movReq s) (dst + 8 * n) bs

/-- Elements of a command's data, their type, and its element function. -/
def CmdOp.total : CmdOp → Nat
  | .copy _ src _ _ _ => Desc.tileR src * Desc.tileC src
  | .copys d _ _ _ => Desc.tileR d * Desc.tileC d
  | .copyo _ src _ _ => 64 * Desc.tileC src
  | .fst _ _ len _ | .fld _ _ len _ => len / 8
  | _ => 0

/-- Those that count as bytes performed: of COPYO the tile's, not the PAD beyond its rows (09 R271). -/
def CmdOp.tileElems : CmdOp → Nat
  | .copyo _ src .. => Desc.tileR src * Desc.tileC src
  | op => op.total

def CmdOp.elemTy : CmdOp → ETy
  | .copy _ src .. => Desc.ty src
  | .copys d .. => Desc.ty d
  | .copyo _ src .. => Desc.ty src
  | _ => .i64

def Cmd.elem (x : Cmd) : Nat → State → Except Flt State :=
  match x.op with
  | .copy d src cd cs _ => copyElem d src cd cs
  | .copys d cd src _ => copysElem d cd src (x.masks.getD [])
  | .copyo os src cs _ => copyoElem os src cs
  | .fst dst src _ _ | .fld dst src _ _ => xferElem dst src
  | _ => fun _ s => .ok s

/-- BYTES of a finished data command (09 R271). -/
def CmdOp.okBytes : CmdOp → Nat
  | .copy _ src .. => tileBytes src
  | .copys d .. => tileBytes d
  | .copyo _ src .. => tileBytes src
  | .fst _ _ len _ | .fld _ _ len _ => len
  | .fatm .. => 8
  | _ => 0

/-- The arrival word of a copy, or the flag of a transfer. -/
def CmdOp.flagAddr : CmdOp → Option Nat
  | .copy _ _ _ _ a | .copys _ _ _ a | .copyo _ _ _ a => a
  | .fst _ _ _ f | .fld _ _ _ f => some f
  | _ => none

end Sys2Proof.Machine
end

