-- ==== Sys2Proof/Machine/Mov.lean ====
section
/-!
DEFINITION. The movement sequencer's instructions (09 R263 to R289): scalar work, rings, batches, arrival words, and the
issue of every command.
-/
namespace Sys2Proof.Machine

/-! ## Scalar work (09 R262, R263) -/

def execDadd (o : S3) (s : State) := finish .mov (alu3 .mov 1 (· + ·) o s)
def execDaddi (o : SI 11) (s : State) := finish .mov (aluI .mov (fun a i => a + i.signExtend 64) o s)
def execDsub (o : S3) (s : State) := finish .mov (alu3 .mov 1 (· - ·) o s)
def execDmul (o : S3) (s : State) := finish .mov (alu3 .mov 3 (· * ·) o s)
def execDshfi (f : ShSel) (o : SI 6) (s : State) := finish .mov (aluI .mov (fun a i => shF f a i.toNat) o s)
def execDlogi (f : LogSel) (o : SI 9) (s : State) := finish .mov (aluI .mov (fun a i => logF f a (i.setWidth 64)) o s)
def execDldi (o : SL) (s : State) := finish .mov (aluL .mov o s)
def execDcmp (f : CmpSel) (o : S3) (s : State) := finish .mov (alu3 .mov 1 (fun a b => boolW (cmpHolds f a b)) o s)
def execDbr (o : SBr) (s : State) := finish .mov (branch .mov o s)
def execDjmp (off : BitVec 15) (s : State) := finish .mov (jump .mov off.toInt s)
def execDloop (c : BitVec 15) (e : BitVec 8) (s : State) := finish .mov (enterLoop .mov 1 (c.setWidth 32) e.toNat s)
def execDloopReg (r : Src) (e : BitVec 8) (s : State) := finish .mov (loopReg .mov r e.toNat s)
def execDld (o : SLd) (s : State) := finish .mov (load .mov o s)
def execDst (o : SSt) (s : State) := finish .mov (store .mov o s)
def execDnop (s : State) : Host.Outcome State Fault Refusal := finish .mov (.ok (issued .mov 1 1 s))

/-! ## Rings and arrival words (09 R268, R275) -/

/-- An access that sequencer q waits for: it performs at its issue, after every older one and once its way is open (09 R268, R275; 06 R185). -/
def issueNow (q : Seqr) (op : AccOp) (addr size cost : Nat) (s : State) : Out :=
  if gated s q || s.core.accq.any (·.q == q) || !mayGo s (s.req (accClient q)) (op.fab size) addr size then .stall s
  else match performOp s (s.req (accClient q)) op addr size with
    | .error f => .trap f 0 s
    | .ok (s', _) => .ok (issued q 1 cost s')

def execCring (n : BitVec 3) (a : Src) (s : State) : Host.Outcome State Fault Refusal :=
  finish .mov <| withSrc .mov a s fun x => issueNow .mov (.cring n.toNat) x.toNat 32 (accLatency s x.toNat 0) s

def execCringSelect (n : BitVec 3) (s : State) : Host.Outcome State Fault Refusal :=
  finish .mov (.ok (issued .mov 1 1 (s.modCore fun c => { c with curRing := n.toNat })))

/-- Does an address lie in the fabric window. -/
def inFab (a : Nat) : Bool := fabLo ≤ a && a < fabHi

/-- The address checks of an arrival word or local flag: MOV_LOCAL, then those of R235 with size 8 (09 R275, R277). -/
def localWord (s : State) (a : Nat) : Option Flt :=
  if inFab a then some ⟨.movLocal, a, none⟩ else accCheck s a 8

/-- EXPCT and ARRV. -/
def arrival (op : Nat → AccOp) (a b : Src) (s : State) : Out :=
  withSrc .mov a s fun x => withSrc .mov b s fun n =>
    match localWord s x.toNat with
    | some f => .trap f 0 s
    | none => issueNow .mov (op (fld n 0 32)) x.toNat 8 (accLatency s x.toNat 2) s

def execExpct (a b : Src) (s : State) := finish .mov (arrival .expct a b s)
def execArrv (a b : Src) (s : State) := finish .mov (arrival .arrv a b s)

/-! ## Batches and the end (09 R273, R274, R289) -/

/-- The open batch closes; an empty one leaves nothing (09 R273). -/
def closeBatch (s : State) : State :=
  s.modCore fun c => if c.openB.isEmpty then c else { c with openB := [], batches := c.batches ++ [c.openB] }

def execBatch (s : State) : Host.Outcome State Fault Refusal := finish .mov (.ok (issued .mov 1 1 (closeBatch s)))

def execSuspb (n : BitVec 6) (off : BitVec 15) (s : State) : Host.Outcome State Fault Refusal :=
  let s := closeBatch s
  finish .mov <|
    if n.toNat < s.core.batches.length then .wait { eng := s.core.batches.any (·.any s.core.needsMtx) } s
    else .ok (transfer .mov (lineAt s.core.mov.line off.toInt) 1 2 s)

def execDsusp (s : State) : Host.Outcome State Fault Refusal :=
  finish .mov (.ok ((issued .mov 1 1 (closeBatch s)).modCore fun c => { c with mov := { c.mov with run := false } }))

/-! ## Issuing a command (09 R264 to R266) -/

/-- A d register that a continuation word names (09 R264). -/
def dsrc {w : Nat} (n : BitVec w) : Src := .r (n.setWidth 6)

/-- A word that commands update atomically (09 R266). -/
def atomicRes (a : Nat) : List Res := spadRes a (a + 7 : Nat) true

/-- What the record of a command touches: the head word atomically, the tail word read (09 R266, R272). -/
def ringRes (s : State) : List Res × List Res :=
  match s.core.rings[s.core.curRing]?.getD none with
  | none => ([], [])
  | some d => (spadRes (fld d 128 52) (fld d 128 52 + 7 : Nat) false, atomicRes (fld d 64 52))

/-- A MOV command is offered for acceptance. -/
def issueCmd (t : Toks) (lanes : Nat) (o : Offer) (s : State) (k : State → State) : Out :=
  let r := ringRes s
  accept .mov lanes t { o with rd := o.rd ++ r.1, wr := o.wr ++ r.2 } s k

/-- The arrival register of a copy, when named. -/
def withArrive (a : Option (BitVec 4)) (s : State) (k : Option Nat → Out) : Out :=
  match a with
  | none => k none
  | some r => withSrc .mov (dsrc r) s fun x => k (some x.toNat)

/-- The arrival address check of a copy (09 R277). -/
def arriveCheck (s : State) (a : Option Nat) (k : Out) : Out :=
  match a with
  | none => k
  | some x => match localWord s x with
    | some f => .trap f 0 s
    | none => k

def arriveRes (a : Option Nat) : List Res := match a with | none => [] | some x => atomicRes x

/-- COPY: the checks of R278 in order. -/
def copyIssue (o : CopyOps) (s : State) : Out :=
  withArrive o.arrive s fun av => withSrc .mov (dsrc o.dcD) s fun cd => withSrc .mov (dsrc o.dcS) s fun cs =>
    withRing s <|
      let k := s.myRank
      let d := k.tensor o.tiD.toNat
      let src := k.tensor o.tiS.toNat
      if !src.vld || !d.vld then .raise .tiInvalid s
      else if src.ty != d.ty then .raise .tiType s
      else if src.tileR ≠ d.tileR ∨ src.tileC ≠ d.tileC then .raise .tiShape s
      else arriveCheck s av <|
        let sp := tileSpan src cs
        let dp := tileSpan d cd
        if tilesShare d cd src cs then .raise .overlap s
        else issueCmd o.t 2
          { op := .copy d src cd cs av, rd := spanRes sp, wr := spanRes dp ++ arriveRes av, tis := [o.tiD.toNat, o.tiS.toNat],
            spans := spanList sp ++ spanList dp ++ wordSpan av } s id

def execCopy (o : CopyOps) (s : State) : Host.Outcome State Fault Refusal := finish .mov (copyIssue o s)

/-- The checks of R235 on n bytes, translation and poison among them. -/
def rangeCheck (s : State) (a n : Nat) (k : Kind) : Option Flt :=
  if 2 ^ 52 ≤ a then some ⟨.vaHole, a % 2 ^ 52, none⟩
  else match access s (s.req 5) a n k with
    | .error f => some f
    | .ok (s, ps) => (ps.findSome? (poisonAt s (k == .write))).map fun va => ⟨.memPoison, va, none⟩

/-- Bytes of the image of a compressed tile of D's shape: its masks, and as many codes as they now ask for (09 R279; log entry
18). -/
def imageBytes (s : State) (d : Desc) (src : Nat) : Nat :=
  8 * d.tileR + match readMasks (s.req 5) src d.tileC d.tileR 0 s with
    | .ok (_, l) => elemBytes d.ty (maskCodes l)
    | .error _ => 0

/-- COPYS: the checks of R279 in order. -/
def copysIssue (o : CopysOps) (s : State) : Out :=
  withArrive o.arrive s fun av => withSrc .mov (dsrc o.dcD) s fun cd => withSrc .mov (dsrc o.src) s fun src =>
    withRing s <|
      let d := s.myRank.tensor o.tiD.toNat
      if !d.vld then .raise .tiInvalid s
      else if 64 < d.tileC then .raise .tiShape s
      else if src.toNat % 8 ≠ 0 then .trap ⟨.memAlign, src.toNat % 2 ^ 52, none⟩ 0 s
      else match rangeCheck s src.toNat 8 .read with
        | some f => .trap f 0 s
        | none => arriveCheck s av <|
          let sp : Option (Int × Int) := some ((src.toNat : Int), (src.toNat + imageBytes s d src.toNat - 1 : Nat))
          let dp := tileSpan d cd
          if tileMeets d cd src.toNat (src.toNat + imageBytes s d src.toNat - 1 : Nat) then .raise .overlap s
          else issueCmd o.t 2
            { op := .copys d cd src.toNat av, rd := spanRes sp, wr := spanRes dp ++ arriveRes av, tis := [o.tiD.toNat],
              spans := spanList sp ++ spanList dp ++ wordSpan av } s id

def execCopys (o : CopysOps) (s : State) : Host.Outcome State Fault Refusal := finish .mov (copysIssue o s)

/-- Types of an operand slot (06 R169). -/
def slotTy (t : ETy) : Bool := t == .bf16 || t == .f16 || t == .e4m3 || t == .e5m2 || t == .cb4

/-- Is the slot CLAIMED with no release pending (06 R170). -/
def slotMine (s : State) (n : Nat) : Bool :=
  let x := s.core.slots[n]?.getD {}
  x.st == .claimed && !x.rel

/-- The tag a COPYO sets when it is accepted (09 R280). -/
def tagSlot (os : Nat) (d : Desc) (s : State) : State :=
  s.modCore fun c =>
    { c with slots := c.slots.mapIdx fun i x =>
        if i = os then { x with ty := d.ty, cb := d.cb, scale := d.scale, klen := d.tileC } else x }

/-- COPYO: the checks of R280 in order. -/
def copyoIssue (o : CopyoOps) (s : State) : Out :=
  withArrive o.arrive s fun av => withSrc .mov (dsrc o.dcS) s fun cs =>
    withRing s <|
      match tensorArg s o.tiS.toNat with
      | .error c => .raise c s
      | .ok src =>
        if !slotTy src.ty then .raise .mxType s
        else if 64 < src.tileR ∨ 2048 < src.tileC * tyBits src.ty then .raise .tiShape s
        else if !slotMine s o.os.toNat then .raise .mxSlot s
        else arriveCheck s av <|
          let sp := tileSpan src cs
          issueCmd o.t 2
            { op := .copyo o.os.toNat src cs av, rd := spanRes sp, wr := Res.slot o.os.toNat :: arriveRes av,
              tis := [o.tiS.toNat], spans := spanList sp ++ wordSpan av } s (tagSlot o.os.toNat src)

def execCopyo (o : CopyoOps) (s : State) : Host.Outcome State Fault Refusal := finish .mov (copyoIssue o s)

/-! ## Transfers and fabric atomics (09 R281, R283) -/

/-- Target rank and offset of a fabric address (01 R28). -/
def fabRank (a : Nat) : Nat := (a - fabLo) / 2 ^ 33
def fabOff (a : Nat) : Nat := (a - fabLo) % 2 ^ 33

/-- The checks of R281 in order; a local range that begins in the private range and ends past it has a hole (01 R27). -/
def xferCheck (s : State) (store : Bool) (dst src len flag : Nat) : Option Flt :=
  let remote := if store then dst else src
  let home := if store then src else dst
  let bad (c : Cause) (a : Nat) : Option Flt := some ⟨c, a % 2 ^ 52, none⟩
  if !inFab remote then bad .movWindow remote
  else if store && (!inFab flag || fabRank flag != fabRank remote) then bad .movWindow flag
  else if inFab home then bad .movLocal home
  else if !store && inFab flag then bad .movLocal flag
  else if s.myJob.v ≤ fabRank remote then bad .fabRank remote
  else match [dst, src, len, flag].find? (· % 8 != 0) with
    | some a => bad .memAlign a
    | none =>
      if 2 ^ 32 ≤ len ∨ 2 ^ 33 < fabOff remote + len then bad .fabRange remote
      else
        let k : Kind := if store then .read else .write
        let last := home + len - 8
        if len = 0 then none
        else match (rangeCheck s home 8 k).or (rangeCheck s last 8 k) with
          | some f => some f
          | none => if decide (home < fabLo) = decide (last < fabLo) then none else bad .vaHole home

/-- FST and FLD. -/
def xferIssue (store : Bool) (o : XferOps) (s : State) : Out :=
  withSrc .mov (dsrc o.dst) s fun dst => withSrc .mov (dsrc o.src) s fun src =>
    withSrc .mov (dsrc o.len) s fun len => withSrc .mov (dsrc o.flag) s fun flag =>
      withRing s <|
        match xferCheck s store dst.toNat src.toNat len.toNat flag.toNat with
        | some f => .trap f 0 s
        | none =>
          let rng (a : Word) : Int × Int := ((a.toNat : Int), (a.toNat + len.toNat : Nat) - 1)
          let home := rng (if store then src else dst)
          let res := spadRes home.1 home.2 false
          let op : CmdOp :=
            if store then .fst dst.toNat src.toNat len.toNat flag.toNat else .fld dst.toNat src.toNat len.toNat flag.toNat
          issueCmd o.t 2
            { op := op, rd := if store then res else [], wr := if store then [] else res ++ atomicRes flag.toNat,
              spans := [rng src, rng dst] ++ wordSpan (some flag.toNat) } s id

def execFst (o : XferOps) (s : State) : Host.Outcome State Fault Refusal := finish .mov (xferIssue true o s)
def execFld (o : XferOps) (s : State) : Host.Outcome State Fault Refusal := finish .mov (xferIssue false o s)

/-- The request of a FATM.det, with the number its command takes (09 R283). -/
def fatmRequest (o : FatmOps) (addr val res : Word) (s : State) : Except Flt State :=
  detRequest .mov (some o.op) val 0 addr.toNat res.toNat s.core.seqCtr s

/-- The first five checks of R283 in order. -/
def fatmCheck (s : State) (o : FatmOps) (addr res : Nat) : Option Flt :=
  let bad (c : Cause) (a : Nat) : Option Flt := some ⟨c, a % 2 ^ 52, none⟩
  if !inFab addr then bad .movWindow addr
  else if inFab res then bad .movLocal res
  else if s.myJob.v ≤ fabRank addr then bad .fabRank addr
  else if addr % 8 ≠ 0 then bad .memAlign addr
  else if res % 8 ≠ 0 then bad .memAlign res
  else if s.myJob.det && !o.det then some ⟨.detViolation, 0, none⟩
  else none

def fatmIssue (o : FatmOps) (s : State) : Out :=
  withSrc .mov (dsrc o.addr) s fun addr => withSrc .mov (dsrc o.val) s fun val => withSrc .mov (dsrc o.res) s fun res =>
    withRing s <|
      match fatmCheck s o addr.toNat res.toNat with
      | some f => .trap f 0 s
      | none =>
        let span (a : Word) : Int × Int := ((a.toNat : Int), (a.toNat + 7 : Nat))
        let offer : Offer := { op := .fatm o.op o.det addr.toNat val res.toNat, spans := [span addr, span res] }
        if o.det then
          match fatmRequest o addr val res s with
          | .error f => .trap f 0 s
          | .ok _ =>
            let q := s.core.seqCtr
            issueCmd o.t 2 offer s fun s' =>
              match detRequest .mov (some o.op) val 0 addr.toNat res.toNat q s' with
              | .ok s'' => s''
              | .error _ => s'
        else issueCmd o.t 2 offer s id

def execFatm (o : FatmOps) (s : State) : Host.Outcome State Fault Refusal := finish .mov (fatmIssue o s)

/-! ## Collectives (09 R284) -/

/-- A membership after an edit (09 R287). -/
def Edit.apply (e : Edit) (m : List Nat) : List Nat :=
  match e.mode with
  | 0 => e.memb
  | 1 => e.memb.foldl (fun l x => insAsc x l) m
  | _ => m.filter fun x => !e.memb.contains x

/-- The membership that governs the phase rank r has not arrived at, as far as the edits accepted make it known (09 R284, R287). -/
def Group.openMemb (g : Group) (r : Nat) : List Nat :=
  if g.arrived.any (·.1 == r) then g.edits.foldl (fun m e => e.apply m) g.memb else g.memb

/-- The members of a collective that rank r takes part in: the group's when the collective's phase began; none while that is still to
begin, where an edit or a withdrawal may change them (04 R110). -/
def Group.colMemb (g : Group) (r : Nat) : List Nat := if g.arrived.any (·.1 == r) then [] else g.memb

/-- Inside elements of a tensor. -/
def Desc.count (d : Desc) : Nat := d.dim 0 * d.dim 1 * d.dim 2 * d.dim 3

/-- Is the operation a reduction. -/
def colReduces : ColSel → Bool
  | .allreduce | .reducescatter => true
  | _ => false

/-- The element counts of R284 agree, for p members. -/
def colShape (op : ColSel) (p es ed : Nat) : Bool :=
  match op with
  | .allreduce | .bcast => es == ed
  | .reducescatter => es == p * ed
  | .allgather => ed == p * es
  | .alltoall => es == ed && es % p == 0

/-- May values of the source type be reduced, or codes of it moved, into the destination type. -/
def colTypes (op : ColSel) (a b : ETy) : Bool :=
  let flt (t : ETy) : Bool := isFloat t || t == .cb4
  if colReduces op then (flt a && flt b) || (isInt a && isInt b) else a == b

/-- The checks of R284 in order. -/
def fcolCheck (s : State) (o : FcolOps) : Option Cause :=
  let k := s.myRank
  let d := k.tensor o.tiD.toNat
  let src := k.tensor o.tiS.toNat
  let memb := ((s.myJob.group? o.g.toNat).map (·.openMemb s.core.rank)).getD []
  let quiet := o.op == .bcast && memb.head? != some s.core.rank
  if o.tiD = 255 ∨ o.tiS = 255 then some .tiReserved
  else if !d.vld || (!quiet && !src.vld) then some .tiInvalid
  else if !memb.contains s.core.rank then some .grpMember
  else if quiet then none
  else if !colTypes o.op src.ty d.ty then some .tiType
  else if !colShape o.op memb.length src.count d.count then some .tiShape
  else none

/-- The rank's count of FCOLs on a group. -/
def fcolCount (k : Rank) (g : Nat) : Nat := (k.fcols.lookup g).getD 0
def bumpFcol (g : Nat) (k : Rank) : Rank :=
  { k with fcols := (g, fcolCount k g + 1) :: k.fcols.filter (·.1 != g) }

/-- Footprint bytes of a whole tensor. -/
def extRes (d : Desc) : List Res := spadRes d.extent.1 d.extent.2 false

def fcolIssue (o : FcolOps) (s : State) : Out :=
  withRing s <|
    match fcolCheck s o with
    | some c => .raise c s
    | none =>
      let k := s.myRank
      let d := k.tensor o.tiD.toNat
      let src := k.tensor o.tiS.toNat
      issueCmd o.t 2
        { op := .fcol o.op o.red o.g.toNat (fcolCount k o.g.toNat) d src (((s.myJob.group? o.g.toNat).map (·.colMemb s.core.rank)).getD []), rd := extRes src, wr := extRes d,
          tis := [o.tiD.toNat, o.tiS.toNat], spans := [src.extent, d.extent], cbs := k.cbs } s
        fun s => s.modMyRank (bumpFcol o.g.toNat)

def execFcol (o : FcolOps) (s : State) : Host.Outcome State Fault Refusal := finish .mov (fcolIssue o s)

/-! ## Leases, groups, queries (09 R286 to R288) -/

/-- A command with neither slot nor predecessors (09 R264). -/
def plainCmd (op : CmdOp) (s : State) : Out := issueCmd noToks 1 { op := op } s id

def execBwls (p c m : Src) (s : State) : Host.Outcome State Fault Refusal :=
  finish .mov <| withSrc .mov p s fun peer => withSrc .mov c s fun n => withSrc .mov m s fun least =>
    withRing s <|
      if s.myJob.v ≤ peer.toNat then .raise .fabRank s
      else if peer.toNat = s.core.rank ∨ least = 0 ∨ n.toNat < least.toNat ∨ 2047 < n.toNat then .raise .leaseArg s
      else plainCmd (.bwls peer.toNat n.toNat least.toNat) s

def execBwrl (p c : Src) (s : State) : Host.Outcome State Fault Refusal :=
  finish .mov <| withSrc .mov p s fun peer => withSrc .mov c s fun n =>
    withRing s <|
      if s.myJob.v ≤ peer.toNat then .raise .fabRank s else plainCmd (.bwrl peer.toNat n.toNat) s

/-- What only the job controller may issue, at a 64-byte aligned address (09 R286, R287). -/
def controllerCmd (op : Nat → CmdOp) (a : Src) (s : State) : Out :=
  withSrc .mov a s fun x => withRing s <|
    if s.core.rank ≠ 0 then .raise .jobCtl s
    else if x.toNat % 64 ≠ 0 then .trap ⟨.memAlign, x.toNat % 2 ^ 52, none⟩ 0 s
    else plainCmd (op x.toNat) s

def execBwsl (a : Src) (s : State) := finish .mov (controllerCmd .bwsl a s)
def execGrped (g : BitVec 8) (a : Src) (s : State) := finish .mov (controllerCmd (.grped g.toNat) a s)

/-- RNKQ's values (09 R288). -/
def rnkqValue (s : State) (f : RnkSel) (g : Nat) : Word :=
  let j := s.myJob
  let r := s.core.rank
  let gr := (j.group? g).getD { g := g, memb := [] }
  match f with
  | .rank => BitVec.ofNat 64 r
  | .nranks => BitVec.ofNat 64 j.v
  | .width => BitVec.ofNat 64 j.width
  | .ngroups => BitVec.ofNat 64 (j.groups.filter fun x => x.memb.contains r).length
  | .step => j.stepNo.setWidth 64
  | .gmemb => BitVec.ofNat 64 (gr.gen * 2 ^ 32 + gr.memb.length)
  | .gpos => if gr.memb.contains r then BitVec.ofNat 64 (gr.memb.idxOf r) else BitVec.allOnes 64
  | .gphase => BitVec.ofNat 64 gr.phase

def execRnkq (nw : Bool) (d : BitVec 6) (f : RnkSel) (g : BitVec 8) (s : State) : Host.Outcome State Fault Refusal :=
  finish .mov <| withDst .mov nw d s <| .ok (issued .mov 1 1 (putResult .mov 4 nw d (rnkqValue s f g.toNat) s))

end Sys2Proof.Machine
end

