-- ==== Sys2Proof/Machine/Lease.lean ====
section
/-!
DEFINITION. Leases of lanes (09 R286; 11 R322 to R330, R339): what a rank holds, quota and fair share, requests, attempts,
notices, releases, baseline lanes.
-/
namespace Sys2Proof.Machine

/-! ## Figures -/

/-- TICKS of a microsecond (08 R254). -/
def usec : Nat := 1200

/-- Lanes of rank r's lease toward a peer rank (09 R286). -/
def leaseLanes (s : State) (j r peer : Nat) : List Lane :=
  s.chip.egress.filter fun l => l.leased && l.job == j && l.holder == r && l.peerRank == peer
def heldBy (s : State) (j r peer : Nat) : Nat := (leaseLanes s j r peer).length
/-- Lanes rank r holds over all peers. -/
def heldAll (s : State) (j r : Nat) : Nat :=
  (s.chip.egress.filter fun l => l.leased && l.job == j && l.holder == r).length

/-- The job's LEASED, NOTICE and APERTURE lanes, which count against its quota (11 R325); those lent to the Fabric Migration Engine do not
(12 R349). -/
def counted (s : State) (j : Nat) : Nat :=
  (s.chip.egress.filter fun l => l.job == j && l.peerRank != 16384 && (l.st == .leased || l.st == .notice || l.st == .aperture)).length

/-- The job's lane quota on this chip. -/
def laneQuota (s : State) (j : Nat) : Nat := ((s.job? j).map (·.laneq)).getD 0
def quotaRoom (s : State) (j : Nat) : Nat := laneQuota s j - counted s j

/-- The job's ranks here that hold leased lanes or have a queued request (11 R325). -/
def leaseRanks (s : State) (j : Nat) : List Nat :=
  ascNats ((s.chip.egress.filterMap fun l => if l.leased ∧ l.job = j then some l.holder else none)
    ++ s.chip.leaseQ.filterMap fun q => if q.job = j then some q.rank else none)

/-- The fair share of each (11 R325). -/
def fairShare (s : State) (j : Nat) : Nat :=
  let n := (leaseRanks s j).length
  if n = 0 then laneQuota s j else laneQuota s j / n

def excess (s : State) (j r : Nat) : Int := (heldAll s j r : Int) - fairShare s j

/-- Egress lasers that are dark, in ascending k (11 R319, R321). -/
def darkLanes (s : State) : List Nat := (List.range 2048).filter (laneFree s.chip.egress)

/-! ## Records (09 R286) -/

/-- ADDR of a lease record. -/
def leaseAddr (peer held reason : Nat) : Nat := peer + 2 ^ 16 * held + 2 ^ 32 * reason

/-- A record to the ring the granting BWLS captured. -/
def leaseRecord (l : Lease) (status addr : Nat) (s : State) : State :=
  s.atMember l.job l.rank l.core fun s => extraRec ⟨l.ring, l.desc, l.seq, status, 0x1A, 0, 0, addr, false, l.task⟩ s

def leaseOf (s : State) (j r peer : Nat) : Option Lease :=
  s.chip.leases.find? fun l => l.job == j && l.rank == r && l.peer == peer

/-- A request that replaces one lane of a lease, for a lane granted at a time (11 R339): it counts on top of what the holder then has. -/
def replacement (l : Lease) (at' : Nat) : LeaseReq :=
  { job := l.job, rank := l.rank, peer := l.peer, count := 1, min := 1, at' := at', core := l.core, seq := l.seq, ring := l.ring, desc := l.desc,
    repair := true, task := l.task }

/-- NOTICE and REVOKED go to the holder of the lease, when a grant named a ring. -/
def tellHolder (j r peer status addr : Nat) (s : State) : State :=
  match leaseOf s j r peer with
  | none => s
  | some l => leaseRecord l status addr s

/-- The lease's records go where the granting command's go. -/
def setLease (q : LeaseReq) (s : State) : State :=
  let l : Lease := ⟨q.job, q.rank, q.peer, q.core, q.seq, q.ring, q.desc, q.task⟩
  s.modChip fun c => { c with leases := l :: c.leases.filter fun x => !(x.job == q.job && x.rank == q.rank && x.peer == q.peer) }

def dropReq (q : LeaseReq) (s : State) : State := s.modChip fun c => { c with leaseQ := c.leaseQ.erase q }

/-- The peer takes back ingress lanes it gave. -/
def giveBack (chip j r : Nat) (ks : List Nat) (s : State) : State :=
  if ks.isEmpty then s else s.post .leaseOffer ([chip, j, r, 4, 0] ++ ks)

/-- The peer chip hears that a request has ended (11 R325). -/
def askEnds (q : LeaseReq) (s : State) : State :=
  match farChip s q.job q.peer with
  | none => s
  | some c => s.post .leaseOffer [c, q.job, q.rank, 4, 0]

/-- A request is refused (09 R286); for a replacement after a repair the holder's REVOKED record (11 R339). -/
def refuseReq (q : LeaseReq) (reason : Nat) (s : State) : State :=
  let addr := leaseAddr q.peer (heldBy s q.job q.rank q.peer) reason
  let s := askEnds q (dropReq q s)
  if q.repair then tellHolder q.job q.rank q.peer 5 addr s
  else s.atMember q.job q.rank q.core (finishCmd q.seq 3 0 0 addr)

/-- A request is granted (11 R327). -/
def grantReq (q : LeaseReq) (s : State) : State :=
  let s := dropReq q s
  if q.repair then s
  else
    let addr := leaseAddr q.peer (heldBy s q.job q.rank q.peer) 0
    (setLease q s).atMember q.job q.rank q.core (finishCmd q.seq 0 0 0 addr)

/-! ## Notices and releases (11 R328, R330) -/

/-- Lanes of a lease leave the eligible set; reason 0 gives no record (11 R328, R330). -/
def startNotice (j r peer reason : Nat) (ks : List Nat) (s : State) : State :=
  if ks.isEmpty then s
  else
    let s := (s.chip.egress.filter fun l => ks.contains l.k).foldl (tellLane .notice) s
    let s := s.modChip fun c =>
      { c with egress := c.egress.map fun l => if ks.contains l.k then { l with st := .notice } else l
               notices := c.notices ++ [⟨j, r, peer, ks, s.now + 2 * usec, reason⟩] }
    if reason = 0 then s else tellHolder j r peer 4 (leaseAddr peer (heldBy s j r peer) reason) s

/-- The n highest lanes of a lease among those of a kind. -/
def topLanes (s : State) (ok : Lane → Bool) (j r peer n : Nat) : List Nat :=
  ((ascNats (((leaseLanes s j r peer).filter ok).map (·.k))).reverse).take n

/-- The holder's lease with the most lanes of a kind, lowest peer rank first (11 R328). -/
def largestLease (s : State) (ok : Lane → Bool) (j r : Nat) : Option Nat :=
  let peers := ascNats (s.chip.egress.filterMap fun l => if l.leased ∧ l.job = j ∧ l.holder = r ∧ ok l then some l.peerRank else none)
  peers.foldl (fun (b : Option Nat) p => match b with
    | none => some p
    | some x => if heldBy s j r x < heldBy s j r p then some p else b) none

/-- n lanes of a kind are revoked from a holder, lease by lease (11 R328). -/
def revokeLanes (ok : Lane → Bool) (j r reason : Nat) : Nat → Nat → State → State
  | 0, _, s => s
  | fuel + 1, n, s =>
    if n = 0 then s
    else match largestLease s ok j r with
      | none => s
      | some p =>
        let ks := topLanes s ok j r p n
        revokeLanes ok j r reason fuel (n - ks.length) (startNotice j r p reason ks s)
def revokeFrom (ok : Lane → Bool) (j r reason n : Nat) (s : State) : State := revokeLanes ok j r reason (s.chip.egress.length) n s

/-- Victims in the order of R329, each with its excess. -/
def victimOrder (a b : Nat × Nat × Int) : Bool :=
  b.2.2 < a.2.2 || (a.2.2 == b.2.2 && (a.1 < b.1 || (a.1 == b.1 && b.2.1 ≤ a.2.1)))
def insVictim (x : Nat × Nat × Int) : List (Nat × Nat × Int) → List (Nat × Nat × Int)
  | [] => [x]
  | y :: ys => if victimOrder x y then x :: y :: ys else y :: insVictim x ys
def victims (s : State) (jobs : List Nat) : List (Nat × Nat × Int) :=
  ((jobs.flatMap fun j => (leaseRanks s j).map fun r => (j, r, excess s j r)).filter fun v => 0 < v.2.2).foldr insVictim []

/-- Take n lanes from victims, none beyond its excess (11 R329). -/
def revokeAll (reason : Nat) : List (Nat × Nat × Int) → Nat → State → State
  | [], _, s => s
  | v :: vs, n, s =>
    let m := min n v.2.2.toNat
    revokeAll reason vs (n - m) (revokeFrom (fun _ => true) v.1 v.2.1 reason m s)

/-- How many lanes each holder gives up when n go, one by one from the holder of the most: of ranks with the numbers they hold, in
ascending rank (11 R330). -/
def shareOut : Nat → List (Nat × Nat × Nat) → List (Nat × Nat × Nat)
  | 0, l => l
  | n + 1, l =>
    let most := l.foldl (fun m x => max m (x.2.1 - x.2.2)) 0
    match if most = 0 then none else l.reverse.find? fun x => x.2.1 - x.2.2 == most with
    | none => l
    | some v => shareOut n (l.map fun x => if x = v then (x.1, x.2.1, x.2.2 + 1) else x)

/-- Lanes above a lowered quota are revoked from the ranks with the greatest excess, reason QUOTA (11 R330). -/
def trimLanes (j : Nat) (s : State) : State :=
  let l := shareOut (counted s j - laneQuota s j) ((leaseRanks s j).map fun r => (r, heldAll s j r, 0))
  l.foldl (fun s x => revokeFrom (fun _ => true) j x.1 1 x.2.2 s) s

/-! ## Requests and attempts (11 R326, R327) -/

/-- Lanes that a request has reserved; job 0's are a baseline lane's, by its chip. -/
def Lane.pendingFor (j r peer : Nat) (l : Lane) : Bool :=
  l.st == .pending && l.job == j && l.holder == r && (if j = 0 then l.peer == peer else l.peerRank == peer)

/-- Reserved lanes of a request go dark again, but those in `keep`. -/
def releasePending (j r peer : Nat) (keep : List Nat) (s : State) : State :=
  s.modChip fun c =>
    { c with egress := c.egress.flatMap fun l => if l.pendingFor j r peer && !keep.contains l.k then l.darken else [l] }

/-- A change of lanes that was ordered for a request is called off within its guard interval: the lasers go dark, and the peer takes its
ingress lanes back (11 R326). -/
def callOff (chip j r peer : Nat) (s : State) : State :=
  let mine (g : Guard) : Bool := g.job == j && g.rank == r && g.peer == peer
  let ks := (s.chip.guards.filter mine).flatMap (·.lanes)
  let back := (s.chip.egress.filter fun l => ks.contains l.k && l.st == .pending).map fun l => l.k / 8 * 8 + l.wave
  giveBack chip j r back (releasePending j r peer [] (s.modChip fun c => { c with guards := c.guards.filter fun g => !mine g }))

def modReq (q : LeaseReq) (f : LeaseReq → LeaseReq) (s : State) : State :=
  s.modChip fun c => { c with leaseQ := c.leaseQ.map fun x => if x = q then f x else x }

/-- Lanes in PENDING for the request. -/
def reserved (s : State) (q : LeaseReq) : Nat := (s.chip.egress.filter (Lane.pendingFor q.job q.rank q.peer)).length
def inProgress (s : State) (q : LeaseReq) : Bool := reserved s q != 0

/-- The lanes a request asks for at most and at least; a replacement asks for one more than the holder has (11 R327, R339). -/
def mostOf (s : State) (q : LeaseReq) : Nat := if q.repair then heldBy s q.job q.rank q.peer + 1 else q.count
def leastOf (s : State) (q : LeaseReq) : Nat := if q.repair then heldBy s q.job q.rank q.peer + 1 else q.min

/-- The lanes an attempt aims at (11 R327). -/
def leaseTarget (s : State) (q : LeaseReq) : Nat := min (mostOf s q) (quotaRoom s q.job + heldBy s q.job q.rank q.peer)

/-- Has an attempt of the job reserved lanes that are not LEASED yet: a round serves one request after the other (11 R326). -/
def jobBusy (s : State) (j : Nat) : Bool :=
  s.chip.egress.any fun l => l.st == .pending && l.job == j && l.holder != 16384 && l.peerRank != 16384

def markBlock (q : LeaseReq) (b : Nat) (s : State) : State := modReq q (fun x => { x with block := b }) s

/-- Lasers in use or ordered, each with its wavelength; those of the schedules in force and to come, of the mappings `other` names. -/
def litWaves (s : State) : List (Nat × Nat) :=
  let ordered := s.chip.guards.flatMap (·.lanes)
  s.chip.egress.filterMap fun l =>
    if l.st = .leased ∨ l.st = .baseline ∨ l.st = .notice ∨ l.st = .repair ∨ (l.st = .pending ∧ ordered.contains l.k) then some (l.k, l.wave)
    else none
def aptWaves (s : State) (other : Nat → Bool → AptMap → Bool) : List (Nat × Nat) :=
  s.jobs.flatMap fun x =>
    ((x.apt.plan.maps.filter (other x.num false)) ++ ((x.apt.next.map (·.maps)).getD []).filter (other x.num true)).flatMap (·.waves)

/-- No other laser of the fibre has the wavelength: a plane routes each pair of source chip and wavelength to one chip (11 R318). -/
def clearWave (others : List (Nat × Nat)) (p : Nat × Nat) : Bool :=
  !others.any fun q => q.1 != p.1 && q.1 / 8 == p.1 / 8 && q.2 % 8 == p.2 % 8
/-- Pairs of a laser and a wavelength that may be lit now, and those that may not. -/
def clearPairs (s : State) (ps : List (Nat × Nat)) : List (Nat × Nat) × List (Nat × Nat) :=
  let o := litWaves s ++ aptWaves s fun _ _ _ => true
  (ps.filter (clearWave o), ps.filter fun p => !clearWave o p)

/-- Lasers are reserved for a rank's lease and their fibres offered (11 R327, steps 1 and 2). -/
def offerLasers (j r peer chip : Nat) (ks : List Nat) (s : State) : State :=
  let mine (k : Nat) : Lane := { k := k, peer := chip, wave := 0, st := .pending, holder := r, job := j, peerRank := peer }
  (s.modChip fun x => { x with egress := ks.foldl (fun l k => lightIn (mine k) l) x.egress }).post .leaseOffer
    ([chip, j, r, 0] ++ ks.map (· / 8))

/-- One attempt (11 R327): block 1 is the quota, 2 the pool, 3 the peer's ingress lanes, which the offer asks for; with nothing to be had
and dMin held it commits what is held. -/
def attempt (s : State) (q : LeaseReq) : State :=
  match farChip s q.job q.peer with
  | none => grantReq q s
  | some c =>
    if s.chip.lost.contains c then refuseReq q 3 s
    else if jobBusy s q.job then s
    else
      let held := heldBy s q.job q.rank q.peer
      let t := leaseTarget s q
      if t < leastOf s q then markBlock q 1 s
      else if t ≤ held then grantReq q (askEnds q s)
      else
        let ks := (darkLanes s).take (t - held)
        if held + ks.length < leastOf s q then markBlock q 2 s
        else if ks.isEmpty then grantReq q (askEnds q s)
        else offerLasers q.job q.rank q.peer c ks (modReq q (fun x => { x with block := 3, tried := [], got := [] }) s)


def oldestEach : List LeaseReq → List (Nat × Nat) → List LeaseReq
  | [], _ => []
  | q :: qs, seen =>
    if seen.contains (q.job, q.rank) then oldestEach qs seen else q :: oldestEach qs ((q.job, q.rank) :: seen)

/-- BWLS performs: granted or refused at once, or queued in place of an older request of the rank toward the peer
(09 R286; 11 R326). -/
def requestLease (x : Cmd) (peer count least : Nat) (s : State) : State :=
  let c := s.core
  let req : LeaseReq :=
    { job := c.job, rank := c.rank, peer := peer, count := count, min := least, at' := s.now, core := c.coreId.toNat, seq := x.seq,
      ring := x.ring, desc := x.desc, task := x.task }
  match farChip s c.job peer with
  | none => grantReq req s
  | some chip =>
    let s := match s.chip.leaseQ.find? fun q => q.job == c.job && q.rank == c.rank && q.peer == peer && !q.repair with
      | some old => refuseReq old 4 (giveBack chip c.job c.rank (old.got.map (·.2)) (callOff chip c.job c.rank peer s))
      | none => s
    if s.chip.lost.contains chip then refuseReq req 3 s
    else if count ≤ heldBy s c.job c.rank peer then grantReq req s
    else
      (modCmd s x.seq fun y => { y with st := .flag }).modChip fun k => { k with leaseQ := k.leaseQ ++ [req] }

/-- BWRL performs (09 R286; 11 R330): the highest lanes go (log entry 19). -/
def releaseLease (x : Cmd) (peer n : Nat) (s : State) : State :=
  let c := s.core
  let held := heldBy s c.job c.rank peer
  let m := if n = 0 then held else min n held
  let s := startNotice c.job c.rank peer 0 (topLanes s (fun _ => true) c.job c.rank peer m) s
  -- with the whole lease no replacement is wanted any more
  let mine (q : LeaseReq) : Bool := q.repair && q.job == c.job && q.rank == c.rank && q.peer == peer
  let s := if m = held then s.modChip fun c => { c with leaseQ := c.leaseQ.filter fun q => !mine q } else s
  finishCmd x.seq 0 0 0 (leaseAddr peer (held - m) 0) s

/-! ## Baseline lanes (11 R322) -/

/-- Chips that some job with ranks here pairs this one with. -/
def peerChips (s : State) : List Nat :=
  ascNats (s.jobs.flatMap fun j => if s.ranks.any (·.job == j.num) ∧ j.status = .running then farChips s j.num else [])

/-- A baseline lane toward a chip is asked for: the lowest dark laser for which the chip has not said that it has no wavelength; when
it has said so of each, they are asked for anew later (11 R322). -/
def askBaseline (s : State) (c : Nat) : State :=
  if s.chip.egress.any (fun l => l.peer == c && l.job == 0 && (l.st == .baseline || l.st == .pending || (l.st == .repair && l.was == .baseline)))
      || s.chip.lost.contains c then s
  else match (darkLanes s).find? fun k => !s.chip.baseTried.contains (c, k) with
    | none => s.modChip fun x => { x with baseTried := x.baseTried.filter (·.1 != c) }
    | some k => offerLasers 0 0 0 c [k] s

/-- Baseline lanes established for every pair, and released where no job spans the pair any longer. -/
def baselines (s : State) : State :=
  let want := peerChips s
  let s := darkenLanes (fun l => l.st == .baseline && !want.contains l.peer) s
  want.foldl askBaseline (s.modChip fun c => { c with baselines := want })


def baselinesLit (s : State) : Bool :=
  (peerChips s).all fun c => s.chip.lost.contains c || s.chip.egress.any fun l => l.peer == c && l.st == .baseline

end Sys2Proof.Machine
end

