-- ==== Sys2Proof/Machine/Resolve.lean ====
section
/-!
DEFINITION. What a repaired page lets go on (13 R372; 05 R130; 06 R179, R196; 09 R267), poisoned lines and their replicas
(13 R381; 15 R416).
-/
namespace Sys2Proof.Machine

/-- The action that holds an agent of the focused core for a cause and address, the one in force when it was raised (15 R403), and
whether a RESOLVE has come since. -/
def holdOf (s : State) (ag : Agent) (c : Cause) (fva : Nat) : Held :=
  (s.core.acts.find? fun h => h.agent == ag && h.cause == c && h.fva == fva).getD
    { agent := ag, cause := c, fva := fva, act := actOf (actByte s s.core.job c) }

/-- No forwarded cause of the rank waits for its reply, and the rank is not parked: either is stronger than replay (15 R405). -/
def rankClear (s : State) (j r : Nat) : Bool :=
  (s.coresOf j r).all (·.fwds.isEmpty) && (s.rank? j r).all fun k => k.fwds.isEmpty && !k.parked

/-- Does RESOLVE of the range lift a halt with this cause and address (13 R372; 15 R402), or did one that came before; only where replay
is what governs the rank. -/
def lifts (s : State) (lo hi : Nat) (ag : Agent) (cause : Option Cause) (fva : Nat) : Bool :=
  match cause with
  | none => false
  | some c =>
    let h := holdOf s ag c fva
    pageCause c && h.act == .replay && rankClear s s.core.job s.core.rank && (h.resolved || (lo ≤ fva && fva < hi))

/-- A command of MOV resumes; it goes on once it has its pins again (09 R267; 13 R378). -/
def resumeCmd (q : W32) (s : State) : State := modCmd s q fun x => { x with cause := none, fva := 0 }

/-- The agents of the focused core that halted in the range retry, and those for which a RESOLVE came before. -/
def resolveHere (lo hi : Nat) (s : State) : State :=
  let near (h : Held) : Bool := pageCause h.cause && lo ≤ h.fva && h.fva < hi
  let s := s.modCore fun c => { c with acts := c.acts.map fun h => if near h then { h with resolved := true } else h }
  let up (ag : Agent) (c : Option Cause) (a : Nat) : Bool := lifts s lo hi ag c a
  let trapUp : Bool := match s.core.trap with
    | some t => !t.done && up t.agent t.cause t.fva
    | none => false
  let cmds := s.core.cmds.filter fun x => x.st == .halted && up .mov x.cause x.fva
  let s := cmds.foldl (fun s x => resumeCmd x.seq s) s
  let s := s.modCore fun c =>
    { c with
      strm := c.strm.map fun p => if p.st = .halted ∧ up .acs p.cause p.fva then { p with st := .running, cause := none } else p
      nest := c.nest.map fun n => if up .mtx n.cause n.fva then { n with cause := none } else n
      drains := c.drains.map fun d => if up .drn d.halt d.fva then { d with halt := none } else d
      acts := c.acts.filter fun h => !up h.agent (some h.cause) h.fva }
  if trapUp then resumeCore s else s

/-- RESOLVE of an address space's range of addresses (13 R372); a rank that is saved or parked waits for RESUME_RANK. -/
def resolveRange (asid : BitVec 16) (lo hi : Nat) (s : State) : State :=
  let mine (c : Core) : Bool := match s.rank? c.job c.rank with
    | some k => k.asid == asid && !k.parked
    | none => false
  (s.allCores.filter mine).foldl (fun s c => s.atCore c.phys (resolveHere lo hi)) s

/-! ## Forward replies (15 R404 to R406) -/

/-- A reply is taken as the action (15 R406): replay of a cause that is not replayable acts as park; under replay a page's cause waits for
its RESOLVE. -/
def replyAction (reply : Nat) (f : Fwd) (s : State) : State :=
  let j := s.core.job
  let r := s.core.rank
  let same (a : Agent) (c : Option Cause) (v : Nat) : Bool := a == f.agent && c == some f.cause && v == f.fva
  if reply = 2 then killJob s j (causeCode f.cause)
  else if reply = 1 ∧ replayable f.cause then
    let held := (s.core.trap.map fun t => !t.done && same t.agent t.cause t.fva).getD false
    let s := s.modCore fun c =>
      { c with
        acts := c.acts.map fun h => if same h.agent (some h.cause) h.fva then { h with act := .replay } else h
        trap := c.trap.map fun t => if held then { t with act := .replay } else t }
    if pageCause f.cause then (s.coresOf j r).foldl (fun s c => s.atCore c.phys (resolveHere 0 0)) s
    else if held && rankClear s j r then resumeCore s
    else s
  else parkRank s j r (causeCode f.cause)

/-- The reply a forward record has, 0 for none; of one on another chip what that chip answers (log entry 20). -/
def Fwd.answer (now : Nat) (f : Fwd) : Nat :=
  match f.at' with
  | .host => 0
  | .ring _ => f.reply
  | .far n => Config.freeRemote (n * 2 ^ 64 + now) % 4

/-- The first forward record of a list that has its reply. -/
def replied (s : State) (l : List Fwd) : Option (Fwd × Nat) :=
  (l.find? fun f => f.answer s.now != 0).map fun f => (f, f.answer s.now)

/-- A core of the rank, or the rank where it has none, takes the first reply that stands in one of its forward records. -/
def execForwardReply (job rank : Nat) (s : State) : Host.Outcome State Fault Refusal :=
  match (s.coresOf job rank).findSome? fun c => (replied s c.fwds).map fun f => (c.phys, f) with
  | some (p, f, n) =>
    .next (s.atCore p fun s => replyAction n f (s.modCore fun c => { c with fwds := c.fwds.filter (· != f) }))
  | none =>
    match (s.rank? job rank).bind fun k => replied s k.fwds with
    | none => .next s
    | some (f, n) =>
      let s := s.modRank job rank fun k => { k with fwds := k.fwds.filter (· != f) }
      .next (if n = 2 then killJob s job (causeCode f.cause)
        else if n = 1 ∧ replayable f.cause then s
        else parkRank s job rank (causeCode f.cause))

/-! ## Poison (13 R381; 15 R416) -/

/-- The replica of a page: its fabric address, from the job's table (13 R381). -/
def replicaOf (s : State) (j : Job) (page : Nat) : Nat → Option Nat
  | 0 => none
  | n + 1 =>
    let w0 := s.word (j.repl + 16 * n)
    let first := fld w0 16 36
    if first ≤ page ∧ page < first + fld w0 0 16 then
      some (fld (s.word (j.repl + 16 * n + 8)) 0 47 + (page - first) * 2 ^ 16 + fabLo)
    else replicaOf s j page n

/-- Copy a page from its replica onto the page of va, and clear its poison; none when the replica cannot be read. -/
def refetch (s : State) (r : Req) (va src : Nat) : Option State :=
  let page := va / 2 ^ 16 * 2 ^ 16
  match readMem s r src (2 ^ 16), locate s r page 1 .read with
  | .ok (s, bs), .ok (_, p) => some (writePieces s [⟨p.key, 2 ^ 16, p.asid, page, page⟩] bs)
  | _, _ => none

/-- Poison met at va: through a descriptor with REPL = 1 the page is fetched again from its replica, else the host hears of it, once with
the rank's item (13 R381). -/
def poisonRepair (s : State) (known : Bool) (va : Nat) (repl : Bool) : State :=
  let host := poisonError s known va
  if !repl then host
  else match replicaOf s s.myJob (va / 2 ^ 16) s.myJob.rnum with
    | none => host
    | some src => match refetch s (s.unitReq s.core.job s.core.rank true) va src with
      | none => host
      | some s => resolveRange s.myRank.asid (va / 2 ^ 16 * 2 ^ 16) (va / 2 ^ 16 * 2 ^ 16 + 2 ^ 16) s

/-- An agent halts with a fault; poison is repaired where it can be. -/
def agentFault (cl : Nat) (ag : Agent) (f : Flt) (repl : Bool) (s : State) : State :=
  let known := poisonKnown s s.core.job s.core.rank f.va
  let t := agentCause cl ag f s
  if f.c = .memPoison then poisonRepair t known f.va repl else t

/-- A rank's own poisoned line, met by a command that goes on: one item for the rank and line until the line is
cleared. -/
def poisonItem (s : State) (va : Nat) (repl : Bool) : State :=
  match poisonLine s s.core.job s.core.rank va with
  | none => s
  | some _ =>
    let known := poisonKnown s s.core.job s.core.rank va
    poisonRepair (reportItem s s.core.job s.core.rank .memPoison va) known va repl

/-! ## A stream that faults -/

/-- The stream halts with the fault its entry meets: cursor at the entry's first element or at the element to write
(05 R126, R130), pins released (13 R375), the cause to the action table. -/
def execStreamFaultHalt (p : BitVec 4) (c : Cause) (fva : BitVec 52) (s : State) : Host.Outcome State Fault Refusal :=
  match strmFault p.toNat s with
  | none => .next s
  | some (f, t) =>
    if f.c ≠ c ∨ f.va ≠ fva.toNat then .next s
    else
      let t := unpinStream p.toNat t
      let t := setStrm p.toNat { strmAt t p.toNat with st := .halted, cause := some c, fva := f.va } t
      let y := strmAt t p.toNat
      let repl (z : Strm) : Bool := z.tien && Desc.repl z.desc
      .next (agentFault 2 .acs f (repl y || (y.imode == 2 && repl (strmAt t y.isrc))) t)

end Sys2Proof.Machine
end

