-- ==== Sys2Proof/Machine/MovRun.lean ====
section
/-!
DEFINITION. MOV's engine: commands that start, post their arrival or flag, halt, retire, and their records (07 R210, R211;
09 R267, R270 to R287; 12 R358).
-/
namespace Sys2Proof.Machine

/-! ## Data commands (09 R267, R276 to R282) -/

/-- The tensors' descriptors a command goes through. -/
def CmdOp.descs : CmdOp → List Desc
  | .copy d src .. => [d, src]
  | .copys d .. => [d]
  | .copyo _ src .. => [src]
  | .fcol _ _ _ _ d src _ => [d, src]
  | _ => []

/-- Is the command's turn come: predecessors retired, or resumed. -/
def cmdDue (s : State) (x : Cmd) : Bool := !x.op.isMtx && ((x.st == .waiting && mayStart s x) || x.st == .running)

/-- Bytes performed so far (09 R271). -/
def Cmd.done (x : Cmd) : Nat := elemBytes x.op.elemTy (min x.pos x.op.tileElems - x.skip)

/-- The fault of a command met at a target rank ends it (09 R267); a page's is gathered here as the issuer's (13 R366, R370). -/
def endFar (q : W32) (bytes : Nat) (f : Flt) (s : State) : State :=
  finishCmd q (if bytes = 0 then 2 else 1) (causeCode f.c) bytes f.va (noteFault s 5 f)

/-- A command whose data is done and has no flag left: OK, or PARTIAL after poison or an underflow. -/
def endData (q : W32) (s : State) : State :=
  match cmdOf s q with
  | none => s
  | some x =>
    if x.fault = 0 then finishCmd q 0 0 x.op.okBytes 0 s else finishCmd q 1 x.fault x.done x.addr s

/-- The command with the row masks of its image, which it reads once (09 R279). -/
def readImageMasks (x : Cmd) (s : State) : Except Flt (State × Cmd) :=
  match x.op, x.masks with
  | .copys d _ src _, none => match readMasks (movReq s) src (Desc.tileC d) (Desc.tileR d) 0 s with
    | .error f => .error f
    | .ok (s, l) => .ok (s, { x with masks := some l })
  | _, _ => .ok (s, x)

/-- The data elements of a copy or transfer, from where it stands (09 R267). Bytes written before a halt stay written. -/
def runElemsOf (x : Cmd) (s : State) : State :=
  let r := runElems x.elem (x.op.total - x.pos) ⟨s, x.pos, 0, [], none⟩
  let s := modCmd r.s x.seq fun y =>
    { y with st := .running, masks := x.masks, pos := r.pos, skip := y.skip + r.skipped,
             fault := if y.fault = 0 ∧ r.bad ≠ [] then causeCode .memPoison else y.fault,
             addr := if y.fault = 0 then r.bad.headD y.addr else y.addr }
  let s := r.bad.foldl (fun s va => poisonItem s va (x.op.descs.any Desc.repl)) s
  match cmdOf s x.seq with
  | none => s
  | some y =>
    match r.stop with
    | some f => if f.shut then joinQueue f s else if atTarget f then endFar x.seq y.done f s else s
    | none => if x.op.flagAddr.isSome then modCmd s x.seq fun y => { y with st := .flag } else endData x.seq s

/-- A data command starts or goes on; one whose image cannot be read stands before that fault. -/
def runData (x : Cmd) (s : State) : State :=
  match readImageMasks x s with
  | .ok (s, x) => runElemsOf x s
  | .error f =>
    let s := modCmd s x.seq fun y => { y with st := .running }
    if f.shut then joinQueue f s else if atTarget f then endFar x.seq 0 f s else s

/-- The local fault a running command stands before, with the state: what halts it (09 R267). -/
def cmdFault (s : State) (x : Cmd) : Option Flt :=
  let own (f : Flt) : Option Flt := if f.shut || atTarget f || f.c == .memPoison then none else some f
  if x.st != .running || x.op.total ≤ x.pos then none
  else match readImageMasks x s with
    | .error f => own f
    | .ok (s, x) => match x.elem x.pos s with
      | .error f => own f
      | .ok _ => none

/-! ## Fabric atomics (09 R283) -/

/-- FATM without .det: the result's place is checked, the atomic performs, its value is stored; on a poisoned line the result is not
written (09 R267). -/
def runFatm (x : Cmd) (op : AtomSel) (addr : Nat) (val : Word) (res : Nat) (s : State) : State :=
  let s := modCmd s x.seq fun y => { y with st := .running }
  let there (s : State) : Except Flt (State × Nat) :=
    rmw s { movReq s with ask := [2, op.code, val.toNat] } addr fun v => .ok (atomOp op 64 v val.toNat)
  let bad (f : Flt) (s : State) : State := if f.shut then joinQueue f s else endFar x.seq 0 f s
  match access s (movReq s) res 8 .write with
  | .error f => joinQueue f s
  | .ok (s, ps) =>
    match ps.findSome? (poisonAt s true) with
    | some va =>
      match there s with
      | .error f => bad f s
      | .ok (s, _) => poisonItem (finishCmd x.seq 1 (causeCode .memPoison) 0 va s) va false
    | none =>
      match there s with
      | .error f => bad f s
      | .ok (s, v) =>
        match writeMem s (movReq s) res (leBytes 8 v) with
        | .ok s => finishCmd x.seq 0 0 8 0 s
        | .error f => finishCmd x.seq 1 (causeCode f.c) 0 f.va s

/-- A running FATM stands before a fault at its result's place. -/
def fatmFault (s : State) (x : Cmd) : Option Flt :=
  match x.op, x.st with
  | .fatm _ false _ _ res, .running =>
    match access s (movReq s) res 8 .write with
    | .error f => if f.shut then none else some f
    | .ok _ => none
  | _, _ => none

/-! ## Group edits and Aperture images (09 R286, R287; 11 R332) -/

/-- The ranks a bitmap of 2,048 bytes lists. -/
def bitmapRanks (bs : List Byte) : List Nat :=
  (List.range 16384).filter fun v => (bs[v / 8]?.getD 0).toNat.testBit (v % 8)

/-- How many groups would hold rank v once every accepted edit has taken effect, with group g's as given (09 R287). -/
def groupsOf (j : Job) (g : Nat) (memb : List Nat) (v : Nat) : Nat :=
  b2n (memb.contains v) + (j.groups.filter fun x => x.g != g && (x.edits.foldl (fun m e => e.apply m) x.memb).contains v).length

/-- The refusal an edit meets (09 R287). -/
def editRefusal (j : Job) (g : Nat) (bs : List Byte) : Option Cause :=
  let mode := leVal (bs.take 8)
  let rf := (bs.drop 8).take 56 |>.any (· != 0)
  let listed := bitmapRanks (bs.drop 64)
  let cur := ((j.group? g).map fun x => x.edits.foldl (fun m e => e.apply m) x.memb).getD []
  let res := Edit.apply ⟨mode, listed⟩ cur
  if g = 0 then some .grpEdit
  else if 3 ≤ mode ∨ rf ∨ (listed.any fun v => decide (j.v ≤ v)) ∨ res.isEmpty then some .grpEdit
  else if res.any fun v => decide (4 < groupsOf j g res v) then some .grpLimit
  else none

/-- An accepted edit waits for the group's phase; a group without members is made for it. -/
def acceptEdit (g : Nat) (e : Edit) (j : Job) : Job :=
  if j.groups.any (·.g == g) then
    -- a group that forced withdrawals have left empty has no phase that could complete: it begins anew (12 R359)
    let anew (x : Group) : Group := { x with memb := e.apply [], gen := x.gen + 1, arrived := [], edits := [], gone := [] }
    { j with groups := j.groups.map fun x =>
        if x.g ≠ g then x else if x.memb.isEmpty then anew x else { x with edits := x.edits ++ [e] } }
  else { j with groups := j.groups ++ [{ g := g, memb := e.apply [], gen := 1 }] }

/-- GRPED performs (09 R287): the edit record is read at its address. -/
def runGrped (x : Cmd) (g addr : Nat) (s : State) : State :=
  let s := modCmd s x.seq fun y => { y with st := .running }
  match readMem s (movReq s) addr 2112 with
  | .error f =>
    if f.c = .memPoison then poisonItem (finishCmd x.seq 1 (causeCode .memPoison) 0 f.va s) f.va false else joinQueue f s
  | .ok (s, bs) =>
    match editRefusal s.myJob g bs with
    | some c => finishCmd x.seq 3 (causeCode c) 0 0 s
    | none => finishCmd x.seq 0 0 0 0 (s.modMyJob (acceptEdit g ⟨leVal (bs.take 8), bitmapRanks (bs.drop 64)⟩))

/-- Bytes from offset o of an image, as a number. -/
def imgVal (bs : List Byte) (o n : Nat) : Nat := leVal ((bs.drop o).take n)

/-- Length of slot k (11 R331). -/
def slotLen (bs : List Byte) (k : Nat) : Nat := let l := imgVal bs (16 + 2 * k) 2; if l = 0 then 1000 else l

/-- May the header of an Aperture image be accepted (11 R332). -/
def apertureHead (bs : List Byte) : Bool :=
  let w := imgVal bs 0 8
  let nslot := w % 32
  let nmap := w / 256 % 8192
  let lens := (List.range 16).all fun k => let l := imgVal bs (16 + 2 * k) 2; l == 0 || (200 ≤ l && l ≤ 10000)
  w / 32 % 8 == 0 && w / 2 ^ 21 == 0 && imgVal bs 8 8 == 0 && imgVal bs 48 16 == 0 && nslot ≤ 16 && nmap ≤ 4096 && lens
    && (nslot != 0 || nmap == 0)

/-- May the mappings of an image whose header is good be accepted, in a job of v ranks (11 R332). -/
def apertureOk (v : Nat) (bs : List Byte) : Bool :=
  let w := imgVal bs 0 8
  let nslot := w % 32
  let nmap := w / 256 % 8192
  let map (i : Nat) : Bool :=
    let a := imgVal bs (64 + 16 * i) 8
    let b := imgVal bs (72 + 16 * i) 8
    let slot := a % 16
    let off := b % 2 ^ 16
    let wlen := b / 2 ^ 16 % 2 ^ 16
    a / 2 ^ 36 == 0 && b / 2 ^ 32 == 0 && slot < nslot && a / 2 ^ 4 % 2 ^ 14 < v && a / 2 ^ 18 % 2 ^ 14 < v
      && a / 2 ^ 4 % 2 ^ 14 != a / 2 ^ 18 % 2 ^ 14 && 1 ≤ a / 2 ^ 32 % 16 && a / 2 ^ 32 % 16 ≤ 8 && 100 ≤ off
      && off + wlen ≤ slotLen bs slot
  (List.range nmap).all map

/-- BWSL performs: the image is read once, its mappings when its header is good, and accepted or refused (11 R332). -/
def runBwsl (x : Cmd) (addr : Nat) (s : State) : State :=
  let s := modCmd s x.seq fun y => { y with st := .running }
  let bad (f : Flt) (s : State) : State :=
    if f.c = .memPoison then poisonItem (finishCmd x.seq 1 (causeCode .memPoison) 0 f.va s) f.va false else joinQueue f s
  match readMem s (movReq s) addr 64 with
  | .error f => bad f s
  | .ok (s, hd) =>
    let refuse (s : State) : State := finishCmd x.seq 3 0 0 (leaseAddr 0 0 5) s
    if !apertureHead hd then refuse s
    else match readMem s (movReq s) addr (64 + 16 * (imgVal hd 0 8 / 256 % 8192)) with
    | .error f => bad f s
    | .ok (s, bs) =>
      if !apertureOk s.myJob.v bs then refuse s
      else if s.chip.mgmtLock then finishCmd x.seq 3 0 0 (leaseAddr 0 0 6) s
      else finishCmd x.seq 0 0 0 0 (s.modMyJob fun j => { j with apt := { j.apt with accepted := some bs, fresh := true } })

/-- A running GRPED or BWSL stands before a fault at what it reads. -/
def readFault (s : State) (x : Cmd) : Option Flt :=
  let at' (s : State) (a n : Nat) : Option Flt := match access s (movReq s) a n .read with
    | .error f => if f.shut then none else some f
    | .ok _ => none
  match x.op, x.st with
  | .grped _ a, .running => at' s a 2112
  | .bwsl a, .running =>
    match readMem s (movReq s) a 64 with
    | .error f => if f.shut || f.c = .memPoison then none else some f
    | .ok (t, hd) => if apertureHead hd then at' t a (64 + 16 * (imgVal hd 0 8 / 256 % 8192)) else none
  | _, _ => none

/-! ## Collectives begin (09 R284) -/

/-- The rank's FCOL joins its collective; its members, where this FCOL knows them (04 R110). -/
def joinCol (x : Cmd) (g n : Nat) (memb : List Nat) (s : State) : State :=
  let c := s.core
  let add (y : Col) : Col := { y with members := if y.members.isEmpty then memb else y.members, joined := y.joined ++ [(c.rank, c.coreId.toNat, x.seq)] }
  let fresh : Col := { g := g, n := n, members := memb, joined := [], started := false, done := [], failed := [] }
  let here (y : Col) : Bool := y.g == g && y.n == n
  (modCmd s x.seq fun y => { y with st := .flag }).modMyJob fun j =>
    if j.cols.any here then { j with cols := j.cols.map fun y => if here y then add y else y }
    else { j with cols := j.cols ++ [add fresh] }

/-! ## The steps -/

/-- A command starts or goes on, with the effects of its kind. -/
def runCmd (x : Cmd) (s : State) : State :=
  match x.op with
  | .copy .. | .copys .. | .copyo .. | .fst .. | .fld .. => runData x s
  | .fatm _ true .. => modCmd s x.seq fun y => { y with st := .flag }
  | .fatm op false a v r => runFatm x op a v r s
  | .fcol _ _ g n _ _ memb => joinCol x g n memb s
  | .bwls p n m => requestLease x p n m s
  | .bwrl p n => releaseLease x p n s
  | .bwsl a => runBwsl x a s
  | .grped g a => runGrped x g a s
  | .mxgo .. | .mxmma .. => s

/-- A command that resumes takes its pins again, where none would be a page's 256th, and goes on where it halted (09 R267; 13 R378). -/
def takePins (x : Cmd) (s : State) : State :=
  if x.pins.any fun key => pinFull s (BitVec.ofNat 16 (key / 2 ^ 52)) (key % 2 ^ 52) then s
  else modCmd (x.pins.foldl pinPage s) x.seq fun x => { x with st := x.halted0 }

def execMovCommandStart (seq : W32) (s : State) : Host.Outcome State Fault Refusal :=
  match cmdOf s seq with
  | none => .next s
  | some x =>
    if x.st = .halted ∧ x.cause = none then .next (takePins x s)
    else .next (if cmdDue s x then runCmd x s else s)

/-- The arrival of a copy (09 R276): an underflow leaves the word. -/
def execCopyArrival (seq : W32) (s : State) : Host.Outcome State Fault Refusal :=
  match cmdOf s seq with
  | none => .next s
  | some x =>
    match x.op, x.op.flagAddr, x.st with
    | .fst .., _, _ | .fld .., _, _ => .next s
    | _, some a, .flag =>
      match rmw s (movReq s) a fun v => arriveSub v x.op.okBytes with
      | .ok (s, _) => .next (endData seq s)
      | .error f =>
        if f.c = .arrvUnderflow ∨ f.c = .memPoison then
          let s := if f.c = .memPoison then poisonItem s f.va false else s
          .next (endData seq (modCmd s seq fun y =>
            if y.fault = 0 then { y with fault := causeCode f.c, addr := f.va } else y))
        else .next (if f.shut then joinQueue f s else agentFault 5 .mov f false (haltCmd seq f s))
    | _, _, _ => .next s

/-- The flag of FST at its target, or of FLD here (09 R267, R282). -/
def execFstFlagIncrement (seq : W32) (s : State) : Host.Outcome State Fault Refusal :=
  match cmdOf s seq with
  | none => .next s
  | some x =>
    match x.op, x.st with
    | .fst _ _ len fl, .flag | .fld _ _ len fl, .flag =>
      match rmw s { movReq s with ask := [2, 0, 1] } fl fun v => .ok ((v + 1) % 2 ^ 64) with
      | .ok (s, _) => .next (endData seq s)
      | .error f =>
        if f.shut then .next (joinQueue f s)
        else if atTarget f then .next (endFar seq (if x.fault = 0 then len else x.done) f s)
        else if f.c = .memPoison then
          .next (poisonItem (finishCmd seq 1 (if x.fault = 0 then causeCode .memPoison else x.fault)
            (if x.fault = 0 then len else x.done) (if x.fault = 0 then f.va else x.addr) s) f.va false)
        else .next (agentFault 5 .mov f false (haltCmd seq f s))
    | _, _ => .next s

/-- What a running command would halt on. -/
def haltCause (s : State) (x : Cmd) : Option Flt := ((cmdFault s x).or (fatmFault s x)).or (readFault s x)

/-- A command halts before the faulting element (09 R267); the event names a cause that stands. -/
def execMovCommandHalt (seq : W32) (_c : Cause) (_fva : BitVec 52) (s : State) : Host.Outcome State Fault Refusal :=
  match cmdOf s seq with
  | none => .next s
  | some x =>
    match haltCause s x with
    | none => .next s
    | some f => .next (agentFault 5 .mov f false (haltCmd seq f s))

/-- A command retires once its records are written (07 R210; 09 R272). -/
def execMovCommandRetire (seq : W32) (s : State) : Host.Outcome State Fault Refusal :=
  match cmdOf s seq with
  | none => .next s
  | some x =>
    if x.st == .record && !(s.core.recs.any fun r => r.retires && r.seq == seq) then .next (retireCmd seq s) else .next s

/-- The words of a record (09 R270). -/
def Rec.words (r : Rec) (ticks : Nat) : List Nat :=
  [r.seq.toNat + 2 ^ 32 * r.status + 2 ^ 40 * r.opcode + 2 ^ 48 * r.fault, r.bytes, r.addr, ticks]

/-- The first record that waits for ring n. -/
def headRec (s : State) (n : Nat) : Option Rec := s.core.recs.find? (·.ring == n)

/-- The ring's writer writes its oldest record when there is room; INT raises the completion interrupt of the issuing core
in a task that has not ended (08 R258; 09 R272). A fault there halts the command. -/
def execRingRecordWrite (ring : BitVec 3) (s : State) : Host.Outcome State Fault Refusal :=
  match headRec s ring.toNat with
  | none => .next s
  | some r =>
    if ((cmdOf s r.seq).map (·.st)) == some .halted then .next s
    else match ringPut s (movReq s) r.desc (r.words s.now) with
      | .ok none => .next s
      | .ok (some (s, _)) =>
        let live := s.core.stage.isSome && !s.core.suspending && r.task == s.core.taskId
        .next (s.modCore fun c =>
          { c with recs := c.recs.erase r
                   uipend := if bitOf r.desc 56 && live then c.uipend ||| BitVec.ofNat 8 (2 ^ r.ring) else c.uipend })
      | .error f => .next (if f.shut then joinQueue f s else agentFault 5 .mov f false (haltCmd r.seq f s))

end Sys2Proof.Machine
end

