-- ==== Sys2Proof/Machine/Drain.lean ====
section
/-!
DEFINITION. The drain unit (06 R187 to R196): drain memory, micro-ops on one element, rows, faults.
-/
namespace Sys2Proof.Machine

/-! ## Drain memory (06 R187) -/

/-- The program of an entry; none when the entry is invalid. -/
def drainProg (mem : Vector W32 1024) (entry : Nat) : Option (List W32) :=
  let w := mem[entry]?.getD 0
  let start := fld w 0 10
  let len := fld w 10 6
  if len = 0 ∨ 32 < len ∨ start < 64 ∨ 1024 < start + len then none
  else
    let ops := (List.range len).map fun i => mem[start + i]?.getD 0
    if 1 < (ops.filter fun x => fld x 27 5 == 0x0F).length then none else some ops

/-! ## The element being drained -/

/-- Negative infinity and one, as f32 codes. -/
def negInf : W32 := 0xFF800000
def oneF : Nat := 0x3F800000

/-- The drain that runs: the first in order; without one, micro-ops see the shadow set's binding and element 0. -/
def curDrain (s : State) : Drain :=
  s.core.drains.head?.getD
    { seq := 0, k := 0, acc := 0, entry := 0, m0 := 0, n0 := 0, e := 0, rmax := negInf, terms := [], nest := s.core.nestSh,
      halt := none, fva := 0 }

/-- Output index of the element (06 R188). -/
def drainM (s : State) : Int := (curDrain s).m0 + (s.core.drnElem / 64 : Nat)
def drainN (s : State) : Int := (curDrain s).n0 + (s.core.drnElem % 64 : Nat)

/-- Number of binding tensor i: 0 DOUT, 1 DS0, 2 DS1, 3 DSTAT (06 R172). -/
def bindNum (s : State) (i : Nat) : Nat := fld (curDrain s).nest (1280 + 8 * i) 8

/-- Its descriptor as captured at acceptance (03 R98). -/
def bindDesc (s : State) (i : Nat) : Desc :=
  match (cmdOf s (curDrain s).seq).bind fun x => x.bind[i]? with
  | some d => d
  | none => s.myRank.tensor (bindNum s i)

/-- The binding tensor a micro-op uses (06 R190). -/
def bindArg (s : State) (i : Nat) : Except Flt Desc :=
  if bindNum s i = 255 then .error ⟨.tiReserved, 0, none⟩
  else if !(bindDesc s i).vld then .error ⟨.tiInvalid, 0, none⟩
  else .ok (bindDesc s i)

/-- Codebooks captured with the command. -/
def bindCbs (s : State) : BitVec 4096 :=
  match cmdOf s (curDrain s).seq with
  | some x => x.cbs
  | none => s.myRank.cbs

/-- A temporary. -/
def tmp (s : State) (i : BitVec 3) : Nat := (s.core.t[i.toNat]?.getD 0).toNat
def tmpVal (s : State) (i : BitVec 3) : XVal := decodeF .f32 (tmp s i)
def setTmp (i : BitVec 3) (x : Nat) (s : State) : State :=
  s.modCore fun c => { c with t := c.t.setIfInBounds i.toNat (BitVec.ofNat 32 x) }
def toF32 (r : Rnd) (x : XVal) : Nat := roundTo .f32 (rndMode .rne r) false x

/-- x of LRNG, LDRP and LIDX.flat, through DOUT (06 R189). -/
def flatIx (s : State) (d : Desc) : Nat := ((drainM s * (d.dim 0 : Int) + drainN s) % 2 ^ 32).toNat

/-- The element's draw (04 R120; 06 R189). -/
def drainDraw (s : State) (d : Desc) (k : BitVec 8) : Nat :=
  let j := s.myJob
  jcgDraw j.seed.toNat s.core.rank k.toNat j.stepNo.toNat (bindNum s 0) (flatIx s d)

/-! ## Micro-ops (06 R189 to R192) -/

def mSet (td : BitVec 3) (x : Nat) (s : State) : Except Flt State := .ok (setTmp td x s)
def mArith (td : BitVec 3) (r : Rnd) (x : XVal) (s : State) : Except Flt State := mSet td (toF32 r x) s

/-- A function micro-op on the slow path delays its element by a free number of cycles up to 96; 13 stands for LRCP (04 R119). -/
def slowOp (fn : Nat) (ta : BitVec 3) (r : Rnd) (s : State) : State :=
  s.modCore fun c => { c with drnSlow := c.drnSlow + Config.slowPath fn (tyCode .f32) (modeIx (rndMode .rne r)) [tmp s ta] % 97 }

/-- A function of one temporary (04 R117). -/
def mFn (f : Fn) (td ta : BitVec 3) (r : Rnd) (s : State) : Except Flt State :=
  mSet td (fnRound f .f32 (rndMode .rne r) false (tmpVal s ta) (tmp s ta)) (slowOp (fnIx f) ta r s)

/-- LRCP. -/
def mRcp (td ta : BitVec 3) (r : Rnd) (s : State) : Except Flt State :=
  mArith td r (XVal.div (.fin false 1 0) (tmpVal s ta)) (slowOp 13 ta r s)

def mSel (td ta tb tc : BitVec 3) (s : State) : Except Flt State :=
  mSet td (if tmp s tc % 2 ^ 31 = 0 then tmp s tb else tmp s ta) s

def mCvt (td ta : BitVec 3) (ty : ETy) (r : Rnd) (sat : Bool) (s : State) : Except Flt State :=
  mSet td (roundTo .f32 .rne false (decodeF ty (roundTo ty (rndMode .rne r) sat (tmpVal s ta)))) s

def mRng (td : BitVec 3) (k : BitVec 8) (s : State) : Except Flt State :=
  match bindArg s 0 with
  | .error f => .error f
  | .ok d => mSet td (roundTo .f32 .rne false (drawVal (drainDraw s d k))) s

def mDrp (td ta tb : BitVec 3) (k : BitVec 8) (r : Rnd) (s : State) : Except Flt State :=
  match bindArg s 0 with
  | .error f => .error f
  | .ok d =>
    if dropKeep (drainDraw s d k) (fld (curDrain s).nest 1344 25) then mArith td r (XVal.mul (tmpVal s ta) (tmpVal s tb)) s
    else mSet td 0 s

def mRmx (ta : BitVec 3) (s : State) : Except Flt State :=
  .ok (s.modCore fun c => { c with rmax := BitVec.ofNat 32 (maxF .f32 true c.rmax.toNat (tmp s ta)) })
def mRsm (ta : BitVec 3) (s : State) : Except Flt State :=
  .ok (s.modCore fun c => { c with terms := c.terms ++ [BitVec.ofNat 32 (tmp s ta)] })

/-- Indices of a side operand. -/
def sidIdx (s : State) : SidSel → Int × Int
  | .row => (drainM s, 0)
  | .elem => (drainN s, drainM s)
  | _ => (drainN s, 0)

/-- The drain unit's requester. -/
def drnReq (s : State) : Req := s.agentReq 4

def mSid (td : BitVec 3) (mode : SidSel) (ds : BitVec 1) (k : BitVec 2) (s : State) : Except Flt State :=
  if mode = .const then mSet td (roundTo .f32 .rne false (decodeF .f32 (fld (curDrain s).nest (1408 + 32 * k.toNat) 32))) s
  else
    let i := 1 + ds.toNat
    match bindArg s i with
    | .error f => .error f
    | .ok d =>
      match readTensor s (drnReq s) d (sidIdx s mode).1 (sidIdx s mode).2 0 0 with
      | .error f => .error f
      | .ok (s', c) => mSet td (roundTo .f32 .rne false (d.value (bindCbs s) c)) s'

def mIdx (td : BitVec 3) (w : LidxSel) (s : State) : Except Flt State :=
  let x : Int := match w with
    | .row => drainM s
    | .col => drainN s
    | .flat => (flatIx s (bindDesc s 0) : Nat)
    | .diag => drainN s - drainM s
  mSet td (roundTo .f32 .rne false (XVal.ofInt x)) s

/-- A store is collected: outside its tensor there is none (03 R96; 06 R192). -/
def collect (out : Bool) (d : Desc) (i0 i1 i2 : Int) (x : Nat) (r : Rnd) (sat : Bool) (s : State) : State :=
  if !d.inside i0 i1 i2 0 then s
  else
    let a := elemAddr d.ty d.base (d.offset i0 i1 i2 0)
    let st : DStore := ⟨out, a.1, a.2, d.code (bindCbs s) r sat (decodeF .f32 x)⟩
    s.modCore fun c => { c with drnStores := c.drnStores ++ [st] }

/-- Rounding and saturation have no part in a store of cb4 codes (03 R84). -/
def cbClean (d : Desc) (r : Rnd) (sat : Bool) : Except Flt Unit :=
  if d.ty = .cb4 ∧ (r ≠ .dflt ∨ sat) then .error ⟨.encRsv, 0, none⟩ else .ok ()

def mSt (ta : BitVec 3) (r : Rnd) (sat : Bool) (s : State) : Except Flt State :=
  match bindArg s 0 with
  | .error f => .error f
  | .ok d => match cbClean d r sat with
    | .error f => .error f
    | .ok _ => .ok (collect true d (drainN s) (drainM s) 0 (tmp s ta) r sat s)

/-- The row sum (06 R191). -/
def rowSum (terms : List W32) : Nat := roundTo .f32 .rne false (alignedSum 100 (terms.map fun w => decodeF .f32 w.toNat))

/-- LSTS stores at the last element of a row (06 R192). -/
def mSts (src : StsSel) (ta k : BitVec 3) (r : Rnd) (sat : Bool) (s : State) : Except Flt State :=
  if s.core.drnElem % 64 ≠ 63 then .ok s
  else match bindArg s 3 with
    | .error f => .error f
    | .ok d =>
      let x : Nat := match src with
        | .max => s.core.rmax.toNat
        | .sum => rowSum s.core.terms
        | .val => tmp s ta
      match cbClean d r sat with
      | .error f => .error f
      | .ok _ => .ok (collect false d (k.toNat : Int) (drainM s) ((curDrain s).n0.fdiv 64) x r sat s)

/-- The element's stores perform in order, all or none (06 R188, R194). -/
def putStores : List DStore → State → Except Flt State
  | [], s => .ok s
  | x :: xs, s =>
    let d := bindDesc s (if x.dout then 0 else 3)
    match writeElem s ((drnReq s).via d) d.ty (x.addr, x.nib) x.code with
    | .error f => .error f
    | .ok s => putStores xs s

def mEnd (s : State) : Except Flt State :=
  match putStores s.core.drnStores s with
  | .error f => .error f
  | .ok s => .ok (s.modCore fun c => { c with drnStores := [] })

/-- One micro-op of a program; none for any other instruction. -/
def microOp (i : Instr) (s : State) : Except Flt State :=
  match i with
  | .ladd td ta tb r => mArith td r (XVal.addM (rndMode .rne r) (tmpVal s ta) (tmpVal s tb)) s
  | .lmul td ta tb r => mArith td r (XVal.mul (tmpVal s ta) (tmpVal s tb)) s
  | .lfma td ta tb tc r => mArith td r (XVal.addM (rndMode .rne r) (XVal.mul (tmpVal s ta) (tmpVal s tb)) (tmpVal s tc)) s
  | .lmax td ta tb => mSet td (maxF .f32 true (tmp s ta) (tmp s tb)) s
  | .lmin td ta tb => mSet td (maxF .f32 false (tmp s ta) (tmp s tb)) s
  | .lsel td ta tb tc => mSel td ta tb tc s
  | .lcmp c td ta tb => mSet td (if condF c (tmpVal s ta) (tmpVal s tb) then oneF else 0) s
  | .lexp td ta r => mFn .exp td ta r s
  | .lrcp td ta r => mRcp td ta r s
  | .ltanh td ta r => mFn .tanh td ta r s
  | .lcvt td ta ty r sat => mCvt td ta ty r sat s
  | .lrng td k => mRng td k s
  | .ldrp td ta tb k r => mDrp td ta tb k r s
  | .lrmx ta => mRmx ta s
  | .lrsm ta => mRsm ta s
  | .lsid td mode ds k => mSid td mode ds k s
  | .lst ta r sat => mSt ta r sat s
  | .lsts src ta k r sat => mSts src ta k r sat s
  | .lidx td w => mIdx td w s
  | .lend => mEnd s
  | _ => .error ⟨.encOp, 0, none⟩

/-! ## Elements and rows (06 R188) -/

/-- An element starts: t0 takes its value, the others +0; at a row's first element the row state is empty. -/
def startElem (d : Drain) (s : State) : State :=
  let row := d.e % 64 = 0
  s.modCore fun c =>
    let x := fld (c.acc[d.acc]?.getD 0) (32 * d.e) 32
    { c with t := (Vector.replicate 8 0).setIfInBounds 0 (BitVec.ofNat 32 x), drnElem := d.e, drnPc := 0, drnStores := [], drnSlow := 0
             rmax := if row then negInf else d.rmax
             terms := if row then [] else d.terms }

/-- The micro-ops of a program until LEND; a word that decodes to none, or no LEND, faults (06 R188). -/
def runOps : List W32 → State → Except Flt State
  | [], _ => .error ⟨.drnProg, 0, none⟩
  | w :: ws, s =>
    match decodeDrn w with
    | .error c => .error ⟨c, 0, none⟩
    | .ok .lend => mEnd s
    | .ok i => match microOp i s with
      | .error f => .error f
      | .ok s => runOps ws s

/-- The program captured with the drain's command. -/
def progOf (s : State) (d : Drain) : List W32 := ((cmdOf s d.seq).map (·.prog)).getD []

/-- Put the head drain's record as d. -/
def setDrain (d : Drain) (s : State) : State := s.modCore fun c => { c with drains := d :: c.drains.drop 1 }

/-- Cycles of a row: 2, and for each micro-op 2 for LEXP, LRCP, LTANH and LSID and 1 for the rest (06 R188). -/
def rowCost : List W32 → Nat
  | [] => 2
  | w :: ws => match decodeDrn w with
    | .ok .lend => 3
    | .ok (.lexp ..) | .ok (.lrcp ..) | .ok (.ltanh ..) | .ok (.lsid ..) => rowCost ws + 2
    | _ => rowCost ws + 1

/-- The drain stands one element on; the unit's next row starts once the row's cycles, with those of its slowest element, are over (04
R119; 06 R188). -/
def nextElem (d : Drain) (ws : List W32) (s : State) : State :=
  (setDrain { d with e := d.e + 1, rmax := s.core.rmax, terms := s.core.terms } s).modCore fun c =>
    { c with drnReady := max c.drnReady (s.now + rowCost ws + c.drnSlow) }

/-- Element e of the head drain, whole: its stores performed and the drain one element on; or its fault. -/
def runElem (d : Drain) (s : State) : Except Flt State :=
  match runOps (progOf s d) (startElem d s) with
  | .error f => .error f
  | .ok t => .ok (nextElem d (progOf s d) t)

/-- Elements to the end of the row, or to one that faults. -/
def runRow : Nat → State → State
  | 0, s => s
  | n + 1, s =>
    match s.core.drains.head? with
    | none => s
    | some d => match runElem d s with
      | .error _ => s
      | .ok s => runRow n s

/-- Does a micro-op raise a cause whatever memory holds (06 R189, R192). -/
def opStops (op : Instr) (s : State) : Bool :=
  match op with
  | .lrng .. | .ldrp .. | .lst .. | .lsts .. => match microOp op s with
    | .ok _ => false
    | .error _ => true
  | _ => false

/-- Offset of the first fetch from side tensor i that the element makes when the drain resumes; 0 where it makes none: an element outside
the tensor fetches nothing (03 R96), and a micro-op that raises a cause ends the program (06 R195). -/
def sideCursor (i : Nat) (s : State) : List W32 → Nat
  | [] => 0
  | w :: ws =>
    match decodeDrn w with
    | .error _ | .ok .lend => 0
    | .ok (.lsid _ mode ds _) =>
      if mode = .const then sideCursor i s ws
      else match bindArg s (1 + ds.toNat) with
        | .error _ => 0
        | .ok d =>
          let p := sidIdx s mode
          if ds.toNat = i ∧ d.inside p.1 p.2 0 0 then (d.offset p.1 p.2 0 0 % 2 ^ 32).toNat else sideCursor i s ws
    | .ok op => if opStops op s then 0 else sideCursor i s ws

/-- The head drain's record names the first side fetches that its element makes (06 R195). -/
def showCursors (s : State) : State :=
  match s.core.drains.head? with
  | none => s
  | some d =>
    let at' := s.modCore fun c => { c with drnElem := d.e }
    setDrain { d with cur0 := sideCursor 0 at' (progOf s d), cur1 := sideCursor 1 at' (progOf s d) } s

/-- A drain that has read its last element: the tile is held no more (06 R171, R178). -/
def closeDrain (s : State) : State :=
  match s.core.drains.head? with
  | none => s
  | some d =>
    if d.e < 4096 then s
    else showCursors (s.modCore fun c => { c with drains := c.drains.drop 1, held := setFld c.held d.acc 1 0 })

def execDrainRow (s : State) : Host.Outcome State Fault Refusal :=
  match s.core.drains.head? with
  | none => .next s
  | some d =>
    if d.halt.isSome || s.core.drnRun || engineHeld s || decide (s.now < s.core.drnReady) then .next s
    else
      let t := closeDrain (showCursors (runRow (64 - d.e % 64) s))
      .next (match t.core.drains.head?.map (runElem · t) with
        | some (.error f) => joinQueue f t
        | _ => t)

/-- The fault the head drain stands before. -/
def drainFault (s : State) : Option Flt :=
  match s.core.drains.head? with
  | none => none
  | some d =>
    if d.halt.isSome || s.core.drnRun || decide (s.now < s.core.drnReady) then none
    else match runElem d s with
      | .error f => if f.shut then none else some f
      | .ok _ => none

/-- The frame's header for a halt of the drain unit at a core that no trap holds: its cause under the unit's tag, VLD 0 (02 R55,
R64; DESIGN CHOICE, log entry 45). -/
def drainHeader (f : Flt) (s : State) : Trap :=
  let c := s.core
  { cause := some f.c, agent := .drn, fva := f.va, pc := BitVec.ofNat 52 (lanePc c.ctl.line c.ctl.lane), tag := 5, aux := 0
    act := actOf (actByte s c.job f.c), ticks := s.now, uh := c.uh, uepc := if c.uh then BitVec.ofNat 52 (c.uepc.toNat * 4) else 0
    pre := false, ctl := c.ctl, acs := c.acs, vec := c.vec, mov := c.mov, replay := [], done := true }

/-- The drain halts at its element: its state goes to DRN_STATE in the frame, the cause to the Rank Scheduler (06 R194). -/
def haltDrain (f : Flt) (s : State) : State :=
  match s.core.drains.head? with
  | none => s
  | some d =>
    let held := match s.core.trap with
      | some t => !t.done
      | none => false
    let s := showCursors (setDrain { d with halt := some f.c, fva := f.va } (quitQueues s.core.phys s))
    let s := writeFrame (if held then s else s.modCore fun c => { c with trap := some (drainHeader f s) })
    let repl := (List.range 4).any fun i => (bindDesc s i).repl
    agentFault 4 .drn f repl s

def execDrainFaultHalt (s : State) : Host.Outcome State Fault Refusal :=
  match drainFault s with
  | none => .next s
  | some f => .next (haltDrain f s)

/-! ## One micro-op as a step -/

/-- A micro-op done: the next one follows, it waits for its way, or the drain halts at the element. -/
def microDone (r : Except Flt State) (s : State) : Host.Outcome State Fault Refusal :=
  match r with
  | .ok s' => .next (s'.modCore fun c => { c with drnPc := c.drnPc + 1 })
  | .error f => .next (if f.shut then joinQueue f s else (haltDrain f s).modCore fun c => { c with drnRun := false })

def execLadd (td ta tb : BitVec 3) (r : Rnd) (s : State) := microDone (microOp (.ladd td ta tb r) s) s
def execLmul (td ta tb : BitVec 3) (r : Rnd) (s : State) := microDone (microOp (.lmul td ta tb r) s) s
def execLfma (td ta tb tc : BitVec 3) (r : Rnd) (s : State) := microDone (microOp (.lfma td ta tb tc r) s) s
def execLmax (td ta tb : BitVec 3) (s : State) := microDone (microOp (.lmax td ta tb) s) s
def execLmin (td ta tb : BitVec 3) (s : State) := microDone (microOp (.lmin td ta tb) s) s
def execLsel (td ta tb tc : BitVec 3) (s : State) := microDone (microOp (.lsel td ta tb tc) s) s
def execLcmp (c : VCond) (td ta tb : BitVec 3) (s : State) := microDone (microOp (.lcmp c td ta tb) s) s
def execLexp (td ta : BitVec 3) (r : Rnd) (s : State) := microDone (microOp (.lexp td ta r) s) s
def execLrcp (td ta : BitVec 3) (r : Rnd) (s : State) := microDone (microOp (.lrcp td ta r) s) s
def execLtanh (td ta : BitVec 3) (r : Rnd) (s : State) := microDone (microOp (.ltanh td ta r) s) s
def execLcvt (td ta : BitVec 3) (ty : ETy) (r : Rnd) (sat : Bool) (s : State) := microDone (microOp (.lcvt td ta ty r sat) s) s
def execLrng (td : BitVec 3) (k : BitVec 8) (s : State) := microDone (microOp (.lrng td k) s) s
def execLdrp (td ta tb : BitVec 3) (k : BitVec 8) (r : Rnd) (s : State) := microDone (microOp (.ldrp td ta tb k r) s) s
def execLrmx (ta : BitVec 3) (s : State) := microDone (microOp (.lrmx ta) s) s
def execLrsm (ta : BitVec 3) (s : State) := microDone (microOp (.lrsm ta) s) s
def execLsid (td : BitVec 3) (mode : SidSel) (ds : BitVec 1) (k : BitVec 2) (s : State) :=
  microDone (microOp (.lsid td mode ds k) s) s
def execLst (ta : BitVec 3) (r : Rnd) (sat : Bool) (s : State) := microDone (microOp (.lst ta r sat) s) s
def execLsts (src : StsSel) (ta k : BitVec 3) (r : Rnd) (sat : Bool) (s : State) := microDone (microOp (.lsts src ta k r sat) s) s
def execLidx (td : BitVec 3) (w : LidxSel) (s : State) := microDone (microOp (.lidx td w) s) s

/-- LEND ends the element: its stores perform, and the head drain is one element on. -/
def execLend (s : State) : Host.Outcome State Fault Refusal :=
  match microDone (microOp .lend s) s with
  | .next s' =>
    let done := s'.modCore fun c => { c with drnRun := false }
    if !s'.core.drnRun then .next s'
    else match s'.core.drains.head? with
      | none => .next done
      | some d => .next (closeDrain (showCursors (nextElem d (progOf done d) done)))
  | o => o

end Sys2Proof.Machine
end

