-- ==== Sys2Proof/Machine/Mtx.lean ====
section
/-!
DEFINITION. The matrix engine (06 R167 to R186): CTL's matrix instructions, nests, loaders, tile steps, retirement.
-/
namespace Sys2Proof.Machine

/-! ## The nest image (06 R172) -/

/-- A 32-bit signed or unsigned field of the image, by its bit. -/
def nestOrg (n : BitVec 1536) (lo : Nat) : Int := sfld n lo 32
/-- The signed step of level l at offset o. -/
def nestStep (n : BitVec 1536) (l o : Nat) : Int := sfld n (128 * l + o) 16
def nestKstep (n : BitVec 1536) : Nat := fld n 787 10
def nestAccBase (n : BitVec 1536) : Nat := fld n 797 4
def nestAccN (n : BitVec 1536) : Nat := fld n 801 5
def nestOsBase (n : BitVec 1536) : Nat := fld n 806 5
def nestOsN (n : BitVec 1536) : Nat := fld n 811 6
def nestZero (n : BitVec 1536) : Bool := bitOf n 817
def nestDen (n : BitVec 1536) : Bool := bitOf n 818
def nestEntry (n : BitVec 1536) : Nat := fld n 819 6
def nestRnd (n : BitVec 1536) : Nat := fld n 825 3
def nestTri (n : BitVec 1536) : Nat := fld n 828 2
def nestDiag (n : BitVec 1536) : Int := sfld n 1024 32
def nestFill (n : BitVec 1536) : Nat := fld n 1056 32

/-- An RF bit of the image is set. -/
def nestRf (n : BitVec 1536) : Bool :=
  ((List.range 6).any fun l => fld n (128 * l + 112) 16 != 0) || fld n 830 2 != 0 || fld n 1088 192 != 0
    || fld n 1312 32 != 0 || fld n 1369 39 != 0

/-- An origin plus the six levels' indices times their steps at offset o (06 R173). -/
def nestSum (n : BitVec 1536) (red step org o : Nat) : Int :=
  (List.range 6).foldl (fun a l => a + (nestIdx n red step l : Int) * nestStep n l o) (nestOrg n org)

/-- Output origin of a reduction (06 R173). -/
def nestM0 (n : BitVec 1536) (red : Nat) : Int := nestSum n red 0 992 96
def nestN0 (n : BitVec 1536) (red : Nat) : Int := nestSum n red 0 960 80

/-- TriMasked and TriSkip (06 R174). -/
def triMasked (n : BitVec 1536) (m k : Int) : Bool :=
  match nestTri n with
  | 1 => m + nestDiag n < k
  | 2 => k < m + nestDiag n
  | _ => false
def triSkip (n : BitVec 1536) (m0 n0 : Int) : Bool :=
  match nestTri n with
  | 1 => m0 + 63 + nestDiag n < n0
  | 2 => n0 + 63 < m0 + nestDiag n
  | _ => false

/-! ## MXCFG (06 R181) -/

/-- How a field is checked: unsigned, signed, f32. -/
inductive FieldKind | u | i | f
deriving DecidableEq, Repr

/-- Bit, width and kind of the field a code names. -/
def mxField (level f : Nat) : Option (Nat × Nat × FieldKind) :=
  if level ≤ 5 then
    if f < 7 then some (128 * level + 16 * f, 16, if f = 0 then .u else .i) else none
  else if level = 6 then
    ([(768, 8, .u), (776, 8, .u), (784, 3, .u), (787, 10, .u), (797, 4, .u), (801, 5, .u), (806, 5, .u), (811, 6, .u),
      (817, 1, .u), (818, 1, .u), (819, 6, .u), (825, 3, .u), (832, 32, .i), (864, 32, .i), (896, 32, .i), (928, 32, .i),
      (960, 32, .i), (992, 32, .i), (828, 2, .u), (1024, 32, .i), (1056, 32, .f)] : List (Nat × Nat × FieldKind))[f]?
  else
    ([(1280, 8, .u), (1288, 8, .u), (1296, 8, .u), (1304, 8, .u), (1344, 25, .u), (1408, 32, .f), (1440, 32, .f),
      (1472, 32, .f), (1504, 32, .f)] : List (Nat × Nat × FieldKind))[f]?

/-- Does the value fit the field: DKEEP has a limit of its own. -/
def mxFits (lo w : Nat) (k : FieldKind) (x : Word) : Bool :=
  match k with
  | .i => -(2 ^ (w - 1) : Int) ≤ x.toInt && x.toInt < 2 ^ (w - 1)
  | _ => x.toNat < 2 ^ w && (lo != 1344 || x.toNat ≤ 2 ^ 24)

/-- MXCFG g, image: 192 bytes of the scratchpad window (06 R181). An address in the private space or the fabric window raises MX_FIELD
(DESIGN CHOICE, log entry 53). -/
def mxImage (a : Nat) (s : State) : Out :=
  let j := s.myJob
  let bad (c : Cause) : Out := .trap ⟨c, a % 2 ^ 52, none⟩ 0 s
  if 2 ^ 52 ≤ a then bad .vaHole
  else match regionOf j.width j.v a 192 with
    | .error .spadHole => bad .spadHole
    | .error .vaHole => bad .vaHole
    | .ok (.spad _) =>
      if a % 64 ≠ 0 then bad .mxField
      else if s.core.accq.any (·.q == .ctl) then .stall s
      else if !mayGo s (s.req 0) (.read 192) a 192 then .stall s
      else match readMem s (s.req 0) a 192 with
        | .error f => .trap f 0 s
        | .ok (s', bs) =>
          let n : BitVec 1536 := BitVec.ofNat 1536 (leVal bs)
          if nestRf n ∨ 2 ^ 24 < fld n 1344 25 then bad .mxField
          else .ok (issued .ctl 1 (accLatency s a 6) (s'.modCore fun c => { c with nestSh := n }))
    | _ => bad .mxField

def execMxcfg (level : BitVec 3) (field : BitVec 5) (a : Src) (s : State) : Host.Outcome State Fault Refusal :=
  finish .ctl <| notInUh s <| withSrc .ctl a s fun x =>
    if level = 6 ∧ field = 21 then mxImage x.toNat s
    else if level = 6 ∧ field = 22 then
      if a ≠ .r 0 then .raise .encRsv s else .ok (issued .ctl 1 1 (s.modCore fun c => { c with nestSh := nestReset }))
    else match mxField level.toNat field.toNat with
      | none => .raise .encOp s
      | some (lo, w, k) =>
        if !mxFits lo w k x then .raise .mxField s
        else .ok (issued .ctl 1 1 (s.modCore fun c => { c with nestSh := setFld c.nestSh lo w x.toNat }))

/-! ## Slots (06 R169, R170) -/

def slotAt (s : State) (n : Nat) : Slot := s.core.slots[n]?.getD {}
def setSlots (f : Nat → Slot → Slot) (s : State) : State := s.modCore fun c => { c with slots := c.slots.mapIdx f }

def execMxclm (n : BitVec 5) (s : State) : Host.Outcome State Fault Refusal :=
  finish .ctl <| notInUh s <|
    match (slotAt s n.toNat).st with
    | .claimed => .raise .mxSlot s
    | .nest => .wait { eng := true } s
    | .free => .ok (issued .ctl 1 1 (setSlots (fun i x => if i = n.toNat then { x with st := .claimed, rel := false } else x) s))

def execMxrel (n : BitVec 5) (s : State) : Host.Outcome State Fault Refusal :=
  finish .ctl <| notInUh s <|
    if !slotMine s n.toNat then .raise .mxSlot s
    else .ok (issued .ctl 1 1 (settleSlots (setSlots (fun i x => if i = n.toNat then { x with rel := true } else x) s)))

/-! ## TIDW (06 R185) -/

/-- A command of the rank that was accepted with entry n and has not ended (01 R30). -/
def entryUsed (s : State) (n : Nat) : Bool :=
  (s.coresOf s.core.job s.core.rank).any fun c => c.cmds.any fun x => x.tis.contains n

def execTidw (n : BitVec 8) (a : Src) (s : State) : Host.Outcome State Fault Refusal :=
  finish .ctl <| notInUh s <| withSrc .ctl a s fun x =>
    if n = 255 then .raise .tiReserved s
    else if entryUsed s n.toNat then
      .wait { eng := s.core.cmds.any fun x => x.tis.contains n.toNat && s.core.needsMtx x.seq } s
    else issueNow .ctl (.tidw n.toNat) x.toNat 64 (accLatency s x.toNat 0) s

/-! ## MXGO and MXMMA at issue (06 R175, R182 to R184) -/

/-- Footprint bytes of a tensor of a matrix command, where its entry is valid (06 R184). -/
def tensorRes (d : Desc) : List Res := if d.vld then extRes d else []

/-- Tiles ACCBASE to ACCBASE + ACCN − 1. -/
def tileRes (base n : Nat) : List Res := (List.range n).map fun i => .tile (base + i)

/-- Binding tensors of the shadow set: DOUT, DS0, DS1, DSTAT. -/
def bindNums (n : BitVec 1536) : List Nat := (List.range 4).map fun i => fld n (1280 + 8 * i) 8
def bindOf (s : State) (n : BitVec 1536) : List Desc := (bindNums n).map s.myRank.tensor

/-- What a drain adds to a footprint: reads, writes. -/
def drainRes (den : Bool) (b : List Desc) : List Res × List Res :=
  if !den then ([], [])
  else (tensorRes (b[1]?.getD 0) ++ tensorRes (b[2]?.getD 0), tensorRes (b[0]?.getD 0) ++ tensorRes (b[3]?.getD 0))

/-- The checks of R175 before those on slots, in order. -/
def mxgoCheck (s : State) (n : BitVec 1536) : Option Cause :=
  let k := s.myRank
  let ta := fld n 768 8
  let tb := fld n 776 8
  let bad := nestRf n ∨ nestKdepth n = 7 ∨ 6 ≤ nestRnd n ∨ nestTri n = 3 ∨ ((List.range 6).any fun l => nestCnt n l == 0)
    ∨ nestAccN n = 0 ∨ 16 < nestAccBase n + nestAccN n ∨ nestOsN n % 2 = 1 ∨ nestOsN n < 2 ∨ 32 < nestOsBase n + nestOsN n
    ∨ ((List.range (nestKdepth n)).any fun l => nestStep n l 80 != 0 || nestStep n l 96 != 0)
    ∨ (nestTri n ≠ 0 ∧ !nestDen n)
  if bad then some .mxNest
  else if ta = 255 ∨ tb = 255 then some .tiReserved
  else if !(k.tensor ta).vld ∨ !(k.tensor tb).vld then some .tiInvalid
  else match pairKS (k.tensor ta).ty (k.tensor tb).ty with
    | none => some .mxType
    | some ks =>
      if nestKstep n = 0 ∨ ks < nestKstep n then some .mxNest
      else if s.core.mxKcap.toNat < nestSteps n then some .mxKlong
      else if nestDen n ∧ (drainProg s.core.drnMem (nestEntry n)).isNone then some .drnProg
      else none

/-- Commands that MTX has accepted and not retired: at most four (06 R177, R182). -/
def mtxFull (s : State) : Bool := 4 ≤ (s.core.cmds.filter (·.op.isMtx)).length

/-- Is slot i in the nest's range. -/
def inRange (n : BitVec 1536) (i : Nat) : Bool := nestOsBase n ≤ i && i < nestOsBase n + nestOsN n

/-- A matrix command enters MTX's queue. -/
def enqueueMtx (q : W32) (s : State) : State := s.modCore fun c => { c with mtxQ := c.mtxQ ++ [q] }

def mxgoIssue (t : Toks) (s : State) : Out :=
  let n := s.core.nestSh
  match mxgoCheck s n with
  | some c => .raise c s
  | none =>
    let slots := s.core.slots.toList.zipIdx.filter fun p => inRange n p.2
    if slots.any fun p => p.1.st == .claimed then .raise .mxSlot s
    else if slots.any (fun p => p.1.st == .nest) || mtxFull s then .wait { eng := true } (captureCmd .ctl t s)
    else
      let k := s.myRank
      let ta := k.tensor (fld n 768 8)
      let tb := k.tensor (fld n 776 8)
      let b := bindOf s n
      let dr := drainRes (nestDen n) b
      let q := s.core.seqCtr
      accept .ctl 2 t
        { op := .mxgo n ta tb, rd := tensorRes ta ++ tensorRes tb ++ dr.1
          wr := tileRes (nestAccBase n) (nestAccN n) ++ (List.range (nestOsN n)).map (fun i => Res.slot (nestOsBase n + i)) ++ dr.2
          tis := fld n 768 8 :: fld n 776 8 :: (if nestDen n then bindNums n else [])
          cbs := k.cbs, bind := b
          prog := if nestDen n then (drainProg s.core.drnMem (nestEntry n)).getD [] else [] } s
        fun s => enqueueMtx q (setSlots (fun i x => if inRange n i then { x with st := .nest, rel := false } else x) s)

def execMxgo (t : Toks) (s : State) : Host.Outcome State Fault Refusal := finish .ctl (notInUh s (mxgoIssue t s))

/-- The slot, type and shape checks of R183 in order. -/
def mmaCheck (s : State) (o : Mma) : Option Cause :=
  let a := slotAt s o.osA.toNat
  let b := slotAt s o.osB.toNat
  if !slotMine s o.osA.toNat ∨ !slotMine s o.osB.toNat then some .mxSlot
  else if a.ty ≠ o.tyA.ety ∨ b.ty ≠ o.tyB.ety then some .mxType
  else if a.klen ≠ b.klen then some .mxShape
  else if o.den ∧ (drainProg s.core.drnMem o.entry.toNat).isNone then some .drnProg
  else none

def mmaIssue (o : Mma) (s : State) : Out :=
  match mmaCheck s o with
  | some c => .raise c s
  | none =>
    if mtxFull s then .wait { eng := true } (captureCmd .ctl o.t s)
    else
      let n := s.core.nestSh
      let a := slotAt s o.osA.toNat
      let sb := slotAt s o.osB.toNat
      let b := bindOf s n
      let dr := drainRes o.den b
      let q := s.core.seqCtr
      let r := accept .ctl 2 o.t
        { op := .mxmma n o a.klen a.cb sb.cb a.scale sb.scale, rd := [.slot o.osA.toNat, .slot o.osB.toNat] ++ dr.1, wr := .tile o.acc.toNat :: dr.2
          tis := if o.den then bindNums n else [], cbs := s.myRank.cbs, bind := b
          prog := if o.den then (drainProg s.core.drnMem o.entry.toNat).getD [] else [] } s (enqueueMtx q)
      match r with
      | .ok s' => if nestTri n = 3 ∨ (nestTri n ≠ 0 ∧ !o.den) then .raise .mxNest s else .ok s'
      | out => out

def execMxmma (o : Mma) (s : State) : Host.Outcome State Fault Refusal := finish .ctl (notInUh s (mmaIssue o s))

/-! ## Tile steps (06 R168) -/

/-- The value of row r, position k of an operand slot (03 R94; 06 R168). -/
def slotVal (cbs : BitVec 4096) (x : Slot) (r k : Nat) : XVal :=
  (decodeCb (cbEntry cbs x.cb) x.ty (fld x.data (2048 * r + k * tyBits x.ty) (tyBits x.ty))).scale x.scale

/-- TileStep's new tile. -/
def tileStep (cbs : BitVec 4096) (acc : BitVec 131072) (a b : Slot) (len : Nat) (md : Mode) : BitVec 131072 :=
  let g := sumGroup a.ty b.ty
  BitVec.ofNat 131072 (packCodes 32 ((List.range 4096).map fun e =>
    let terms := (List.range len).map fun k => XVal.mul (slotVal cbs a (e / 64) k) (slotVal cbs b (e % 64) k)
    accGroups md g.1 g.2 terms len (fld acc (32 * e) 32)))

/-- The masked elements of a tile at (m0, n0) take the fill value (06 R174). -/
def triFill (n : BitVec 1536) (m0 n0 : Int) (acc : BitVec 131072) : BitVec 131072 :=
  BitVec.ofNat 131072 (packCodes 32 ((List.range 4096).map fun e =>
    if triMasked n (m0 + (e / 64 : Nat)) (n0 + (e % 64 : Nat)) then nestFill n else fld acc (32 * e) 32))

def fillTile (x : Nat) : BitVec 131072 := BitVec.ofNat 131072 (packCodes 32 (List.replicate 4096 x))

def tileAt (s : State) (i : Nat) : BitVec 131072 := s.core.acc[i]?.getD 0
def setTile (i : Nat) (x : BitVec 131072) (s : State) : State := s.modCore fun c => { c with acc := c.acc.setIfInBounds i x }
def tileHeld (s : State) (i : Nat) : Bool := bitOf s.core.held i
def holdTile (i : Nat) (s : State) : State := s.modCore fun c => { c with held := setFld c.held i 1 1 }
def freeTile (i : Nat) (s : State) : State := s.modCore fun c => { c with held := setFld c.held i 1 0 }

/-- Undefined contents of a tile (01 R20; 06 R171; log entry 4): +0 under DET. -/
def undefTile (s : State) (i : Nat) : State :=
  if s.myJob.det then setTile i 0 s
  else
    let w := BitVec.ofNat 131072 (packCodes 32768 ((List.range 4).map fun k => (Config.freeVec (s.freeCtr + k)).toNat))
    { setTile i w s with freeCtr := s.freeCtr + 4 }

/-- A tile left by an earlier task is undefined for the first command of a task that names it (06 R171). -/
def claimTile (task : Nat) (s : State) (i : Nat) : State :=
  if s.core.accTask[i]? = some task then s
  else undefTile (s.modCore fun c => { c with accTask := c.accTask.setIfInBounds i task }) i

/-- Tiles a matrix command uses. -/
def CmdOp.tiles : CmdOp → List Nat
  | .mxgo n _ _ => (List.range (nestAccN n)).map fun i => nestAccBase n + i
  | .mxmma _ o .. => [o.acc.toNat]
  | _ => []

/-- The end of a reduction: masked elements filled, the tile drained or free (06 R171, R173). -/
def endReduction (seq : W32) (red k acc entry : Nat) (den : Bool) (n : BitVec 1536) (m0 n0 : Int) (s : State) : State :=
  let s := if nestTri n = 0 then s else setTile acc (triFill n m0 n0 (tileAt s acc)) s
  if den then
    let d : Drain :=
      { seq := seq, red := red, k := k, acc := acc, entry := entry, m0 := m0, n0 := n0, e := 0, rmax := negInf, terms := [], nest := n,
        halt := none, fva := 0 }
    showCursors (s.modCore fun c => { c with drains := c.drains ++ [d] })
  else freeTile acc s

/-! ## Starting (06 R171, R177, R183) -/

/-- Was command a accepted before command b? -/
def before (s : State) (a b : W32) : Bool := (s.core.cmds.takeWhile (·.seq != b)).any (·.seq == a)

/-- Has the last reduction of the nest started? -/
def lastStarted (x : Nest) : Bool := x.started && x.red + 1 == nestReds x.nest

/-- The first queued matrix command that has not started, when it may: predecessors retired, no earlier task's command on its
tiles, no stop asked (10 R316), issue not held; behind a nest, an MXMMA once the nest's last reduction has started, an MXGO once
the nest is no longer active (06 R177). -/
def mtxReady (s : State) : Option Cmd :=
  match (s.core.mtxQ.filterMap (cmdOf s)).find? (·.st == .waiting) with
  | none => none
  | some x =>
    let old := s.core.cmds.any fun y => decide (y.task < x.task) && y.op.tiles.any x.op.tiles.contains
    let behind := match s.core.nest, x.op with
      | none, _ => false
      | some n, .mxmma .. => !lastStarted n
      | some _, _ => true
    if mayStart s x && !old && !behind && s.core.stopReq.isNone && !engineHeld s then some x else none

/-- A matrix command starts: tiles left by an earlier task are claimed by its own. An MXMMA stays in the
queue until the array takes its step. -/
def execMtxCommandStart (s : State) : Host.Outcome State Fault Refusal :=
  match mtxReady s with
  | none => .next s
  | some x =>
    let s := x.op.tiles.foldl (claimTile x.task) s
    let s := modCmd s x.seq fun y => { y with st := .running }
    match x.op with
    | .mxgo n _ _ =>
      let nest : Nest := { seq := x.seq, nest := n, red := 0, step := 0, started := false, loaded := none, rot := 0, cause := none, fva := 0 }
      .next (s.modCore fun c => { c with mtxQ := c.mtxQ.erase x.seq, nest := some nest })
    | _ => .next s

/-- The MXMMA whose step the array may take next: started, no nest before it active, its tile not held (06 R171, R177). -/
def mmaReady (s : State) : Option Cmd :=
  match (s.core.mtxQ.filterMap (cmdOf s)).find? (·.st == .running) with
  | none => none
  | some x =>
    let first := match s.core.nest with
      | none => true
      | some n => before s x.seq n.seq
    if first && !(x.op.tiles.any (tileHeld s)) && s.core.stopReq.isNone && !engineHeld s then some x else none

/-- MXMMA's one reduction of one step, on its slots under the tags captured at its issue (06 R183). -/
def runMma (x : Cmd) (s : State) : State :=
  match x.op with
  | .mxmma n o klen ca cb sa sb =>
    let acc := o.acc.toNat
    let m0 := nestOrg n 992
    let n0 := nestOrg n 960
    let s := holdTile acc (s.modCore fun c => { c with mtxQ := c.mtxQ.erase x.seq })
    let a : Slot := { slotAt s o.osA.toNat with ty := o.tyA.ety, cb := ca, scale := sa }
    let b : Slot := { slotAt s o.osB.toNat with ty := o.tyB.ety, cb := cb, scale := sb }
    let s :=
      if triSkip n m0 n0 then setTile acc (fillTile (nestFill n)) s
      else setTile acc (tileStep x.cbs (if o.zero then 0 else tileAt s acc) a b klen (rndMode .rne o.rnd)) s
    let s := endReduction x.seq 0 x.k acc o.entry.toNat o.den n m0 n0 s
    modCmd s x.seq fun y => { y with st := .flag }
  | _ => s

/-! ## Loaders (06 R173, R179) -/

/-- The two tensors of a nest's command. -/
def nestTensors (s : State) (x : Nest) : Desc × Desc :=
  match cmdOf s x.seq with
  | none => (0, 0)
  | some y => match y.op with
    | .mxgo _ a b => (a, b)
    | _ => (0, 0)

/-- Codes of one row of an operand from K index k on. -/
def loadRow (d : Desc) (r : Req) (k m : Int) : Nat → State → Except Flt (State × List Nat)
  | 0, s => .ok (s, [])
  | n + 1, s =>
    match readTensor s r d k m 0 0 with
    | .error f => .error f
    | .ok (s, c) =>
      match loadRow d r (k + 1) m n s with
      | .error f => .error f
      | .ok (s, cs) => .ok (s, c :: cs)

/-- Sixty-four rows, packed as a slot holds them. -/
def loadRows (d : Desc) (r : Req) (k m : Int) (len : Nat) : Nat → State → Except Flt (State × Nat)
  | 0, s => .ok (s, 0)
  | n + 1, s =>
    match loadRow d r k m len s with
    | .error f => .error f
    | .ok (s, cs) =>
      match loadRows d r k (m + 1) len n s with
      | .error f => .error f
      | .ok (s, x) => .ok (s, packCodes (tyBits d.ty) cs + 2 ^ 2048 * x)

/-- A slot filled by a loader. -/
def loadSlot (os : Nat) (d : Desc) (k m : Int) (len : Nat) (s : State) : Except Flt State :=
  match loadRows d (s.agentReq 3) k m len 64 s with
  | .error f => .error f
  | .ok (s, x) =>
    .ok (setSlots (fun i y =>
      if i = os then { y with data := BitVec.ofNat 131072 x, ty := d.ty, cb := d.cb, scale := d.scale, klen := len } else y) s)

/-- Does the nest wait for operands: it is not halted, none are loaded, and its reduction is not skipped. -/
def needsLoad (x : Nest) : Bool :=
  x.cause.isNone && x.loaded.isNone && !triSkip x.nest (nestM0 x.nest x.red) (nestN0 x.nest x.red)

/-- The operands of the nest's next step, into the next two slots of its range. -/
def loadStep (x : Nest) (s : State) : Except Flt State :=
  let n := x.nest
  let t := nestTensors s x
  let osA := nestOsBase n + x.rot
  match loadSlot osA t.1 (nestSum n x.red x.step 832 16) (nestSum n x.red x.step 864 32) (nestKstep n) s with
  | .error f => .error f
  | .ok s =>
    match loadSlot (osA + 1) t.2 (nestSum n x.red x.step 896 48) (nestSum n x.red x.step 928 64) (nestKstep n) s with
    | .error f => .error f
    | .ok s =>
      let x' : Nest := { x with loaded := some (osA, osA + 1), rot := (x.rot + 2) % max 2 (nestOsN n) }
      .ok (s.modCore fun c => { c with nest := some x' })

/-- The nest that waits for operands, and what loading them gives. -/
def loadTry (s : State) : Option (Nest × Except Flt State) :=
  match s.core.nest with
  | none => none
  | some x => if needsLoad x then some (x, loadStep x s) else none

def execNestLoaderFill (s : State) : Host.Outcome State Fault Refusal :=
  match loadTry s with
  | some (_, .ok s') => .next s'
  | some (_, .error f) => .next (joinQueue f s)
  | none => .next s

/-- A loader fault halts the engine before the step (06 R179). -/
def execNestLoaderFault (s : State) : Host.Outcome State Fault Refusal :=
  match loadTry s with
  | some (x, .error f) =>
    if f.shut then .next s
    else
    let s' := (quitQueues s.core.phys s).modCore fun c => { c with nest := some { x with cause := some f.c, fva := f.va } }
    .next (agentFault 3 .mtx f ((nestTensors s x).1.repl || (nestTensors s x).2.repl) s')
  | _ => .next s

/-! ## Steps of the nest (06 R173) -/

/-- May the array take the nest's next step: operands loaded, or a skipped tile; a new reduction's tile not held, no MXMMA started
before it (06 R177), and no stop asked (10 R316). -/
def stepReady (s : State) : Option Nest :=
  match s.core.nest with
  | none => none
  | some x =>
    let acc := nestAccBase x.nest + x.red % max 1 (nestAccN x.nest)
    let skip := triSkip x.nest (nestM0 x.nest x.red) (nestN0 x.nest x.red)
    let mma := (s.core.mtxQ.filterMap (cmdOf s)).any fun y => y.st == .running && before s y.seq x.seq
    if x.cause.isSome || (!skip && x.loaded.isNone) || (!x.started && (tileHeld s acc || s.core.stopReq.isSome)) || mma || engineHeld s
    then none else some x

/-- The reduction is over: the next one follows, or the nest is active no more (06 R173, R177). -/
def nextReduction (x : Nest) (s : State) : State :=
  let n := x.nest
  let acc := nestAccBase n + x.red % max 1 (nestAccN n)
  let k := ((cmdOf s x.seq).map (·.k)).getD 0
  let s := endReduction x.seq x.red k acc (nestEntry n) (nestDen n) n (nestM0 n x.red) (nestN0 n x.red) s
  if x.red + 1 < nestReds n then
    s.modCore fun c => { c with nest := some { x with red := x.red + 1, step := 0, started := false, loaded := none } }
  else (modCmd s x.seq fun y => { y with st := .flag }).modCore fun c => { c with nest := none }

def execTileStep (s : State) : Host.Outcome State Fault Refusal :=
  match mmaReady s, stepReady s with
  | some x, _ => .next (runMma x s)
  | none, none => .next s
  | none, some x =>
    let n := x.nest
    let acc := nestAccBase n + x.red % max 1 (nestAccN n)
    let s := holdTile acc s
    match x.loaded with
    | none => .next (nextReduction x (setTile acc (fillTile (nestFill n)) s))
    | some (a, b) =>
      let t0 := if x.step = 0 ∧ nestZero n then 0 else tileAt s acc
      let cbs := ((cmdOf s x.seq).map (·.cbs)).getD 0
      let s := setTile acc (tileStep cbs t0 (slotAt s a) (slotAt s b) (nestKstep n) (modeOfCode (nestRnd n))) s
      if x.step + 1 < nestSteps n then
        .next (s.modCore fun c => { c with nest := some { x with step := x.step + 1, started := true, loaded := none } })
      else .next (nextReduction x s)

/-! ## Retirement (06 R182) -/

/-- A matrix command whose reductions are over and whose drains have stored everything. -/
def mtxDone (s : State) (x : Cmd) : Bool := x.op.isMtx && x.st == .flag && !s.core.drains.any (·.seq == x.seq)

def execMtxCommandRetire (seq : W32) (s : State) : Host.Outcome State Fault Refusal :=
  match cmdOf s seq with
  | none => .next s
  | some x => if mtxDone s x then .next (retireCmd seq s) else .next s

end Sys2Proof.Machine
end

