-- ==== Sys2Proof/Machine/Collect.lean ====
section
/-!
DEFINITION. The Collective Engine (04 R108 to R115; 08 R249; 09 R284, R285, R443; 12 R359, R360): the answer of
deterministic requests at the close of a phase, group edits, and collectives.
-/
namespace Sys2Proof.Machine

/-! ## Deterministic requests at close (04 R113 to R115) -/

/-- Ascending logical key; requests of different tasks that share rank, order and sequencer stand as they arrived (04 R113). -/
def Det.le (a b : Det) : Bool :=
  let k (d : Det) : List Nat := [d.rank, d.order, b2n d.mov]
  decide (k a < k b) || (k a == k b && (a.core != b.core || a.task != b.task || a.idx ≤ b.idx))
def insDet (x : Det) : List Det → List Det
  | [] => [x]
  | y :: ys => if x.le y then x :: y :: ys else y :: insDet x ys
def sortDets (l : List Det) : List Det := l.foldr insDet []

/-- Do two requests share rank, order and sequencer and come from different tasks (04 R113). -/
def Det.twin (a b : Det) : Bool :=
  a.rank == b.rank && a.order == b.order && a.mov == b.mov && (a.core != b.core || a.task != b.task)

/-- A request that is answered: its result stored, its command finished (04 R114; 09 R283); the result of a rank elsewhere goes
there. A result word on a poisoned line is not written, and its rank hears of that (09 R267; 13 R381; 15 R400). -/
def answerDet (j : Nat) (d : Det) (v : Nat) (s : State) : State :=
  if (s.rank? j d.rank).isNone then s.post .fabric [j, d.rank, d.res, v]
  else
  let ends (st c n a : Nat) (s : State) : State := if d.mov then s.atMember j d.rank d.core (finishCmd d.seq st c n a) else s
  match writeMem s (s.unitReq j d.rank false) d.res (leBytes 8 v) with
  | .ok s => ends 0 0 8 0 s
  | .error f =>
    let s := ends 1 (causeCode f.c) 0 f.va s
    if f.c = .memPoison then s.atMember j d.rank d.core fun s => poisonItem s f.va false else reportItem s j d.rank f.c f.va

/-- A request that is not answered: a command ends FAILED with the cause. -/
def dropDet (j : Nat) (c : Cause) (d : Det) (s : State) : State :=
  if d.mov then s.atMember j d.rank d.core (finishCmd d.seq 2 (causeCode c) 0 d.fva) else s

/-- One item for each issuing rank of the requests (04 R113, R114; 15 R402). -/
def detItems (j : Nat) (c : Cause) (l : List Det) (s : State) : State :=
  (ascNats (l.map (·.rank))).foldl (fun s r =>
    if (s.rank? j r).isNone then s.post .report [j, r, causeCode c]
    else reportItem s j r c (((l.find? (·.rank == r)).map (·.fva)).getD 0)) s

/-- The word's value after a request (04 R114). -/
def Det.apply (d : Det) (v : Nat) : Nat :=
  match d.op with
  | some op => atomOp op 64 v d.x.toNat
  | none => if v = d.exp.toNat then d.x.toNat else v

/-- DetAnswer in key order: the value left, the results stored. -/
def detAnswer (j : Nat) : List Det → Nat → State → State × Nat
  | [], v, s => (s, v)
  | d :: ds, v, s => detAnswer j ds (d.apply v) (answerDet j d v s)

/-- Where a target word stands at the close, by its owner and private address; a rank elsewhere holds it there (04 R114,
R115; log entry 11). -/
def detPlace (s : State) (j tr tva : Nat) : Except Flt (State × Piece) :=
  match s.rank? j tr with
  | some _ => locate s (s.unitReq j tr false) tva 8 .write
  | none =>
    if (placeOf s j tr).state = .withdrawn then .error ⟨.rankLost, tva, none⟩
    else .ok (s, ⟨farKey j tr tva, 8, 0, tva, tva⟩)

/-- What requests on a word that another chip holds return is not known here (log entry 20). -/
def hideDets (j n : Nat) : List Det → State → State
  | [], s => s
  | d :: ds, s => hideDets j (n + 1) ds (answerDet j d (Config.freeRemote n % 2 ^ 64) s)

/-- One target word's requests, in key order (04 R114): those of every rank where the word lies here, since requests of ranks on
other chips come as transactions; a word that another chip holds is answered there. -/
def answerWord (j : Nat) (l : List Det) (s : State) : State :=
  match l.head? with
  | none => s
  | some d =>
    let bad (c : Cause) (s : State) : State := detItems j c l (l.foldl (fun s d => dropDet j c d s) s)
    match detPlace s j d.trank d.tva with
    | .error f => bad f.c s
    | .ok (s, p) =>
      match poisonAt s false p with
      | some _ => bad .memPoison s
      | none =>
        let put (v : Nat) (s : State) : State := recheck (writePieces s [p] (leBytes 8 v))
        if (s.rank? j d.trank).isNone then { hideDets j s.freeCtr l s with freeCtr := s.freeCtr + l.length }
        else
          let (s, v) := detAnswer j l (s.word p.key).toNat s
          put v s

/-- Requests grouped by target word, each word once. -/
def detWords : Nat → List Det → List (List Det)
  | 0, _ => []
  | _, [] => []
  | n + 1, d :: ds =>
    let same (x : Det) : Bool := x.trank == d.trank && x.tva == d.tva
    (d :: ds.filter same) :: detWords n (ds.filter fun x => !same x)

/-- The interval of phase p of group g closes (04 R112 to R114). -/
def closeDets (j g p : Nat) (s : State) : State :=
  match s.job? j with
  | none => s
  | some jb =>
    let mine (d : Det) : Bool := d.g == g && d.phase == p
    let all := sortDets (jb.dets.filter mine)
    let s := s.modJob j fun x => { x with dets := x.dets.filter fun d => !mine d }
    let twin (d : Det) : Bool := jb.det && all.any d.twin
    let bad := all.filter twin
    let s := if bad.isEmpty then s else
      detItems j .detViolation bad (bad.foldl (fun s d => dropDet j .detViolation d s) s)
    (detWords all.length (all.filter fun d => !twin d)).foldl (fun s l => answerWord j l s) s

/-- Has every FATM.det of the interval that this chip issued started: its predecessors retired, its issuer's accesses performed (07
R207, R208)? -/
def detsStarted (s : State) (j g p : Nat) : Bool :=
  ((s.job? j).map (·.dets)).getD [] |>.all fun d =>
    !(d.mov && d.g == g && d.phase == p) || (s.coresOf j d.rank).all fun c =>
      c.coreId.toNat != d.core || (c.cmds.find? (·.seq == d.seq)).all fun x => x.st != .waiting

/-! ## Phases (08 R249, R250; 09 R287; 12 R356, R359, R360) -/

/-- Does a member count as arrived. -/
def memberIn (s : State) (j : Nat) (g : Group) (r : Nat) : Bool :=
  g.arrived.any (·.1 == r) || g.gone.contains r || (placeOf s j r).state == .withdrawn
    || (g.g == 0 && (placeOf s j r).state == .cold)

/-- Is the group's phase complete: every member has arrived or counts as arrived; where none arrived by BARV at g0, some
cold member has WAKE (08 R250). -/
def phaseReady (s : State) (j : Nat) (g : Group) : Bool :=
  !g.memb.isEmpty && g.memb.all (memberIn s j g)
    && (!g.arrived.isEmpty || g.g != 0 || g.memb.any fun r => (placeOf s j r).state == .cold && (placeOf s j r).wake)

/-- The phase word of group g written at a rank of this chip, a cold rank's captured image included (08 R249; 12 R356). -/
def putPhase (j g p : Nat) (s : State) (r : Nat) : State :=
  match s.rank? j r with
  | none => s
  | some k =>
    match writeMem s (s.unitReq j r true) (k.phaseBase.toNat + 8 * g) (leBytes 8 p) with
    | .ok s => s
    | .error _ => s

/-- A phase is over: counted, arrivals cleared, edits applied, members withdrawn by force gone from any group but g0 (09
R287; 12 R359, R360). -/
def Group.next (lost : Nat → Bool) (g : Group) : Group :=
  let m := g.edits.foldl (fun m e => e.apply m) g.memb
  let out (r : Nat) : Bool := g.g != 0 && (g.gone.contains r || lost r)
  { g with
    phase := g.phase + 1, arrived := [], edits := [], memb := m.filter fun r => !out r,
    gen := g.gen + (if g.edits.isEmpty then 0 else 1) + (if m.any out then 1 else 0)
    gone := if g.g = 0 then g.gone else [] }

/-- CHKPT's request falls due at its phase (08 R252). -/
def chkptAt (p : Nat) (j : Job) : Job :=
  if j.chkpt.contains p then { j with chkpt := j.chkpt.filter (· != p), chkptDue := true } else j

/-- The FCOLs of a group and its collectives whose phase now begins have its members from here on (04 R110). -/
def nameMembers (j g : Nat) (memb : List Nat) (s : State) : State :=
  let cmd (x : Cmd) : Cmd := match x.op with
    | .fcol op red g' n d src [] => if g' = g then { x with op := .fcol op red g' n d src memb } else x
    | _ => x
  let core (c : Core) : Core := if c.job = j then { c with cmds := c.cmds.map cmd } else c
  let s := s.mapCores core
  ({ s with ranks := s.ranks.map fun k => { k with saved := k.saved.map core } } : State).modJob j fun x =>
    { x with cols := x.cols.map fun c => if c.g = g ∧ c.members = [] then { c with members := memb } else c }

/-- What every completion does: the interval closes, the group moves on. -/
def phaseOver (j : Nat) (g : Group) (s : State) : State :=
  let s := closeDets j g.g g.phase s
  let lost (r : Nat) : Bool := (placeOf s j r).state == .withdrawn
  let s := nameMembers j g.g (g.next lost).memb (modGroup s j g.g (Group.next lost))
  if g.g = 0 then s.modJob j (chkptAt g.phase) else s

/-! ## Collectives (04 R108 to R111; 09 R284, R285, R443) -/

/-- A member's command in the collective; that of a saved member too (09 R443). -/
def memberCmd (s : State) (j : Nat) (c : Col) (r : Nat) : Option (Nat × Cmd) :=
  match c.joined.find? (·.1 == r) with
  | none => none
  | some (_, i, q) =>
    match (rankCores s j r).find? (·.coreId.toNat == i) with
    | none => none
    | some k => (k.cmds.find? (·.seq == q)).map fun x => (i, x)

/-- A command's operation, reduction, destination and source descriptors, and codebooks. -/
structure ColArgs where
  op : ColSel
  red : RedSel
  d : Desc
  src : Desc
  cbs : BitVec 4096
deriving DecidableEq, Repr

def Cmd.col (x : Cmd) : Option ColArgs :=
  match x.op with
  | .fcol op red _ _ d src _ => some ⟨op, red, d, src, x.cbs⟩
  | _ => none

def colArgs (s : State) (j : Nat) (c : Col) (r : Nat) : Option ColArgs := (memberCmd s j c r).bind fun p => p.2.col

/-- Is a member gone. -/
def colLost (s : State) (j r : Nat) : Bool := (placeOf s j r).state == .withdrawn

/-- Is a member's command halted (09 R443). -/
def colHalted (s : State) (j : Nat) (c : Col) (r : Nat) : Bool := ((memberCmd s j c r).map fun p => p.2.st == .halted).getD false

/-- Do two members' commands disagree (09 R284); a bcast member that is not the root brings no source. -/
def colClash (c : Col) (a b : Nat × ColArgs) : Bool :=
  let quiet (p : Nat × ColArgs) : Bool := p.2.op == .bcast && c.members.head? != some p.1
  a.2.op != b.2.op || a.2.red != b.2.red || a.2.d.ty != b.2.d.ty || a.2.d.count != b.2.d.count
    || (!quiet a && !quiet b && (a.2.src.ty != b.2.src.ty || a.2.src.count != b.2.src.count))

def findCol (s : State) (j g n : Nat) : Option Col := (s.job? j).bind fun x => x.cols.find? fun c => c.g == g && c.n == n
def modCol (s : State) (j g n : Nat) (f : Col → Col) : State :=
  s.modJob j fun x => { x with cols := x.cols.map fun c => if c.g = g ∧ c.n = n then f c else c }
def dropCol (s : State) (j g n : Nat) : State :=
  s.modJob j fun x => { x with cols := x.cols.filter fun c => !(c.g == g && c.n == n) }

/-- Every member on this chip has started, or is withdrawn. -/
def colReady (s : State) (j : Nat) (c : Col) : Bool :=
  !c.started && !c.members.isEmpty && !c.joined.isEmpty && c.members.all fun r =>
    (s.rank? j r).isNone || colLost s j r || c.joined.any (·.1 == r)

/-- Is the rank no member, or do its tensors not fit the number of members. -/
def colUnfit (c : Col) (p : Nat × ColArgs) : Bool :=
  !c.members.contains p.1
    || !(p.2.op == .bcast && c.members.head? != some p.1 || colShape p.2.op c.members.length p.2.src.count p.2.d.count)

/-- The collective starts, or fails for every member on a mismatch (09 R284); so does the FCOL of a rank that an edit has left no member, or
whose tensors no longer fit the number of members (log entry 49). -/
def execCollectiveStart (job g n : Nat) (s : State) : Host.Outcome State Fault Refusal :=
  match findCol s job g n with
  | none => .next s
  | some c =>
    if !colReady s job c then .next s
    else
      let l := c.joined.filterMap fun m => (colArgs s job c m.1).map fun a => (m.1, a)
      if l.any fun a => colUnfit c a || l.any fun b => colClash c a b then
        .next (dropCol (c.joined.foldl (fun s m => s.atMember job m.1 m.2.1 (finishCmd m.2.2 2 (causeCode .fcolMismatch) 0 0)) s)
          job g n)
      else .next (modCol s job g n fun c => { c with started := true })

/-- Items of a member's output: blocks of allgather and alltoall, else one (09 R285). -/
def colItems (c : Col) (op : ColSel) : Nat :=
  match op with
  | .allgather | .alltoall => c.members.length
  | _ => 1

/-- The members an item of output depends on. -/
def colFrom (c : Col) (op : ColSel) (block : Nat) : List Nat :=
  match op with
  | .allgather | .alltoall => (c.members[block]?).toList
  | .bcast => c.members.head?.toList
  | _ => c.members

/-- Position of a member. -/
def colPos (c : Col) (r : Nat) : Nat := c.members.idxOf r

/-- Indices of an element taken in linear order, dimension 0 fastest. -/
def Desc.indices (d : Desc) (x : Nat) : Int × Int × Int × Int :=
  let d0 := d.dim 0
  let d1 := d.dim 1
  let d2 := d.dim 2
  ((x % d0 : Nat), (x / d0 % d1 : Nat), (x / (d0 * d1) % d2 : Nat), (x / (d0 * d1 * d2) : Nat))

/-- Destination elements of an item, as first and count, for output descriptor d of rank r. -/
def colSpan (c : Col) (op : ColSel) (d : Desc) (block : Nat) : Nat × Nat :=
  match op with
  | .allgather | .alltoall =>
    let n := d.count / max 1 c.members.length
    (block * n, n)
  | _ => (0, d.count)

/-- The source element, at any contributor, of element x of the item of rank r. -/
def colSrc (c : Col) (op : ColSel) (d : Desc) (r x : Nat) : Nat :=
  match op with
  | .reducescatter => colPos c r * d.count + x
  | .alltoall => colPos c r * (d.count / max 1 c.members.length) + x
  | _ => x

/-- The members whose sources the collective reads. -/
def colReads (c : Col) (op : ColSel) : List Nat := if op = .bcast then c.members.head?.toList else c.members

/-- Elements x, x + 1, … of member m's source: their codes, and the poisoned ones. -/
def readSource (j m : Nat) (d : Desc) : Nat → Nat → State → Except Flt (State × List Nat × List (Nat × Nat))
  | 0, _, s => .ok (s, [], [])
  | n + 1, x, s =>
    match d.indices x with
    | (i0, i1, i2, i3) =>
      let rest (c : Nat) (bad : List (Nat × Nat)) (s : State) := match readSource j m d n (x + 1) s with
        | .error f => .error f
        | .ok (s, cs, bs) => .ok (s, c :: cs, bad ++ bs)
      match readTensor s { s.unitReq j m false with agent := true } d i0 i1 i2 i3 with
      | .ok (s, c) => rest c [] s
      | .error f => if f.c = .memPoison then rest 0 [(x, f.va)] s else .error f

/-- Every source, read once before anything is delivered (04 R108 to R111): that of a member on another chip is not known here (log
entry 20). The member whose memory faults, with its fault. -/
def readSources (j : Nat) (c : Col) (a : ColArgs) : List Nat → State → Except (Nat × Flt) (State × List ColSrc)
  | [], s => .ok (s, [])
  | m :: ms, s =>
    let rest (x : ColSrc) (s : State) := match readSources j c a ms s with
      | .error e => .error e
      | .ok (s, l) => .ok (s, x :: l)
    match colArgs s j c m with
    | some b => match readSource j m b.src b.src.count 0 s with
      | .error f => .error (m, f)
      | .ok (s, cs, bad) => rest ⟨m, cs, bad⟩ s
    | none =>
      let n := a.src.count
      rest ⟨m, (List.range n).map fun i => Config.freeRemote (s.freeCtr + i) % 2 ^ tyBits a.src.ty, []⟩ { s with freeCtr := s.freeCtr + n }

/-- The source of member m. -/
def srcOf (l : List ColSrc) (m : Nat) : ColSrc := (l.find? (·.rank == m)).getD ⟨m, [], []⟩

/-- The first poisoned element that an item of rank r depends on: its member and address. -/
def itemPoison (c : Col) (a : ColArgs) (l : List ColSrc) (r block : Nat) : Option (Nat × Nat) :=
  let n := (colSpan c a.op a.d block).2
  (colFrom c a.op block).findSome? fun m =>
    ((srcOf l m).bad.find? fun b => decide (colSrc c a.op a.d r 0 ≤ b.1) && decide (b.1 < colSrc c a.op a.d r 0 + n)).map fun b => (m, b.2)

/-- Selection of R107 on exact values. -/
def pickMax (mx : Bool) (a b : XVal) : XVal :=
  match a, b with
  | .nan, _ | _, .nan => .nan
  | x, y =>
    let neg : XVal → Bool | .fin n _ _ => n | _ => false
    if XVal.cmp x y = 0 then (if neg x == mx then y else x)
    else if decide (XVal.cmp x y < 0) == mx then y else x

/-- The integer total of R109: exact over scaled values, divided by 2^SCALE, rounded, wrapped. -/
def intTotal (d : Desc) (l : List XVal) : Nat :=
  match l.foldl (XVal.addM .rne) (.fin false 0 0) with
  | .fin neg sig exp =>
    let r := roundUnits (modeOfCode d.rnd) neg sig (exp - d.scale) 0
    wrapI d.ty (if neg then -(r : Int) else r)
  | _ => 0

/-- The code a reduction delivers, through output descriptor d and codebooks cbs (04 R108, R109). -/
def reduceCode (red : RedSel) (d : Desc) (cbs : BitVec 4096) (l : List XVal) : Nat :=
  match red with
  | .sum => if isInt d.ty then intTotal d l else d.code cbs .dflt false (alignedSum 100 l)
  | .max | .min =>
    match l with
    | [] => 0
    | v :: vs => d.code cbs .dflt false (vs.foldl (pickMax (red == .max)) v)

/-- The value of a member's code; a far member's tensor is taken as the root's (log entry 20). -/
def contribVal (s : State) (j : Nat) (c : Col) (root : ColArgs) (m v : Nat) : XVal :=
  let b := (colArgs s j c m).getD root
  b.src.value b.cbs v

/-- The codes of an item of rank r. Allreduce delivers one root's code: that of the first member with a command on this chip (DESIGN
CHOICE, log entry 49). -/
def itemCodes (s : State) (j : Nat) (c : Col) (a : ColArgs) (l : List ColSrc) (r block : Nat) : List Nat :=
  let from' := colFrom c a.op block
  let root := match a.op with
    | .allreduce => ((c.members.findSome? fun m => colArgs s j c m)).getD a
    | _ => a
  (List.range (colSpan c a.op a.d block).2).map fun x =>
    let code (m : Nat) : Nat := (srcOf l m).codes[colSrc c a.op a.d r x]?.getD 0
    if colReduces a.op then reduceCode a.red root.d root.cbs (from'.map fun m => contribVal s j c root m (code m))
    else (from'.head?.map code).getD 0

/-- Do the elements of the output that are delivered fill the line? -/
def outCovers (d : Desc) (sure : Nat → Bool) (line : Nat) : Bool :=
  let hits := (List.range d.count).foldl (fun (n : Nat) x =>
    match d.indices x with
    | (i0, i1, i2, i3) =>
      let at' := (elemAddr d.ty d.base (d.offset i0 i1 i2 i3)).1
      if (line : Int) ≤ at' ∧ at' < (line : Int) + 64 ∧ sure x then n + tyBits d.ty else n) 0
  512 ≤ hits

/-- Store codes at elements x, x + 1, …: a poisoned line that the collective does not fill keeps its bytes; such addresses, one a
line, and the elements passed over (09 R443; 13 R381). -/
def putCodes (j r : Nat) (d : Desc) (sure : Nat → Bool) : List Nat → Nat → List Nat × Nat → State → Except Flt (State × List Nat × Nat)
  | [], _, p, s => .ok (s, p)
  | v :: vs, x, p, s =>
    match d.indices x with
    | (i0, i1, i2, i3) =>
      let req := { s.unitReq j r false with agent := true }
      match writeTensor s req d i0 i1 i2 i3 v with
      | .ok s => putCodes j r d sure vs (x + 1) p s
      | .error f =>
        if f.c ≠ .memPoison then .error f
        else if outCovers d sure (f.va / 64 * 64) then
          match locate s (req.via d) f.va 1 .write with
          | .error f => .error f
          | .ok (s, pc) =>
            match writeTensor { s with poison := s.poison.erase (pc.key / 64) } req d i0 i1 i2 i3 v with
            | .ok s => putCodes j r d sure vs (x + 1) p s
            | .error f => .error f
        else putCodes j r d sure vs (x + 1) (if p.1.any fun v => v / 64 == f.va / 64 then p.1 else p.1 ++ [f.va], p.2 + 1) s

/-- What delivering an item comes to: delivered, failed on a member's account, or halted at a member. -/
inductive Item
  | done (s : State)
  | failed (m : Nat) (c : Cause) (va : Nat) (s : State)
  | halt (m : Nat) (f : Flt)
  | wait

/-- The sources, read now unless they have been; none while a member that is to be read is halted. -/
def colSources (s : State) (j : Nat) (c : Col) (a : ColArgs) : Option (Except (Nat × Flt) (State × List ColSrc)) :=
  let ms := (colReads c a.op).filter fun m => !colLost s j m
  match c.srcs with
  | some l => some (.ok (s, l))
  | none => if ms.any (colHalted s j c) then none else some (readSources j c a ms s)

/-- Is element x of rank r's output delivered, or to be delivered: its block has not failed and will not for what is known. -/
def elemSure (s : State) (j : Nat) (c : Col) (a : ColArgs) (l : List ColSrc) (r x : Nat) : Bool :=
  let b := if colItems c a.op = 1 then 0 else x / max 1 (colSpan c a.op a.d 0).2
  !(c.failed.any fun f => f.1 == r && f.2.1 == b) && !((colFrom c a.op b).any (colLost s j)) && (itemPoison c a l r b).isNone

/-- Deliver an item whose sources have been read. -/
def putItem (j : Nat) (c : Col) (a : ColArgs) (l : List ColSrc) (r block : Nat) (s : State) : Item :=
  match itemPoison c a l r block with
  | some (m, va) => .failed m .memPoison va s
  | none =>
    match putCodes j r a.d (elemSure s j c a l r) (itemCodes s j c a l r block) (colSpan c a.op a.d block).1 ([], 0) s with
    | .error f => .halt r f
    | .ok (s, [], _) => .done s
    | .ok (s, va :: vas, n) =>
      let i := ((memberCmd s j c r).map (·.1)).getD 0
      let q := ((memberCmd s j c r).map (·.2.seq)).getD 0
      .done (s.atMember j r i fun s => modCmd ((va :: vas).foldl (fun s v => poisonItem s v a.d.repl) s) q fun y =>
        if y.fault = 0 then { y with fault := causeCode .memPoison, addr := va, skip := y.skip + n } else { y with skip := y.skip + n })

/-- An item whose way is shut waits (10 R311). -/
def Item.orWait : Item → Item
  | .halt m f => if f.shut then .wait else .halt m f
  | i => i

def tryItem (j : Nat) (c : Col) (r block : Nat) (s : State) : Item :=
  match colArgs s j c r with
  | none => .wait
  | some a =>
    let from' := colFrom c a.op block
    if !c.started || colItems c a.op ≤ block || c.done.contains (r, block) || c.failed.any (fun f => f.1 == r && f.2.1 == block)
        || colHalted s j c r || from'.any (colHalted s j c) then .wait
    else match from'.find? (colLost s j) with
      | some m => .failed m .rankLost 0 s
      | none => match colSources s j c a with
        | none => .wait
        | some (.error (m, f)) => (Item.halt m f).orWait
        | some (.ok (s, l)) => (putItem j c a l r block <| modCol s j c.g c.n fun y => { y with srcs := some l }).orWait

/-- Is an item of rank r settled. -/
def itemOver (c : Col) (r b : Nat) : Bool := c.done.contains (r, b) || c.failed.any fun f => f.1 == r && f.2.1 == b

/-- A member's output is delivered and its own source is read no more (09 R284). -/
def memberOver (s : State) (j : Nat) (c : Col) (r : Nat) : Bool :=
  match colArgs s j c r with
  | none => false
  | some a =>
    (List.range (colItems c a.op)).all (itemOver c r) && c.members.all fun m =>
      (colArgs s j c m).isNone ||
        (List.range (colItems c a.op)).all fun b => !(colFrom c a.op b).contains r || itemOver c m b

/-- Bytes delivered to a member, those of lines passed over not among them (09 R271). -/
def colBytes (c : Col) (a : ColArgs) (r skip : Nat) : Nat :=
  let n := (c.done.filter (·.1 == r)).length
  elemBytes a.d.ty (n * (colSpan c a.op a.d 0).2 - skip)

/-- The summary of a member (09 R285). -/
def endMember (j : Nat) (c : Col) (r : Nat) (s : State) : State :=
  match memberCmd s j c r, colArgs s j c r with
  | some (i, x), some a =>
    if x.st != .flag then s
    else
      let ok := c.done.any (·.1 == r)
      let bad := c.failed.any (·.1 == r)
      let st := if !ok then 2 else if bad || x.fault != 0 then 1 else 0
      let why := if st = 0 then 0 else if x.fault ≠ 0 then x.fault else
        if (c.failed.find? (·.1 == r)).any (fun f => colLost s j f.2.2) then causeCode .rankLost else causeCode .memPoison
      s.atMember j r i (finishCmd x.seq st why (colBytes c a r x.skip) (if st = 0 then 0 else x.addr))
  | _, _ => s

/-- Members whose part is over end; a collective without a command left goes. -/
def settleCol (j g n : Nat) (s : State) : State :=
  match findCol s j g n with
  | none => s
  | some c =>
    let s := c.joined.foldl (fun s m => if memberOver s j c m.1 then endMember j c m.1 s else s) s
    if c.joined.all fun m => ((memberCmd s j c m.1).map fun p => p.2.st == .record).getD true then dropCol s j g n else s

/-- The record of a failed item (09 R285). -/
def failRecord (j : Nat) (c : Col) (r block m : Nat) (why : Cause) (s : State) : State :=
  match memberCmd s j c r with
  | none => s
  | some (i, x) =>
    s.atMember j r i (extraRec ⟨x.ring, x.desc, x.seq, 2, 0x19, causeCode why, 0, m + 2 ^ 16 * block + 2 ^ 63, false, x.task⟩)

/-- The first faulting address of a member's command, for its summary (09 R271). -/
def noteAddr (j : Nat) (c : Col) (r va : Nat) (s : State) : State :=
  match memberCmd s j c r with
  | some (i, x) => s.atMember j r i fun s => modCmd s x.seq fun y => if y.addr = 0 then { y with addr := va } else y
  | none => s

def execCollectiveItemDeliver (job g n rank block : Nat) (s : State) : Host.Outcome State Fault Refusal :=
  match findCol s job g n with
  | none => .next s
  | some c =>
    match tryItem job c rank block s with
    | .wait | .halt .. => .next s
    | .done s => .next (settleCol job g n (modCol s job g n fun c => { c with done := c.done ++ [(rank, block)] }))
    | .failed m why va s =>
      let s := noteAddr job c rank va (failRecord job c rank block m why s)
      let s := modCol s job g n fun c => { c with failed := c.failed ++ [(rank, block, m)] }
      let s :=
        if why = .memPoison then
          match memberCmd s job c m, colArgs s job c m with
          | some (i, _), some a => s.atMember job m i fun s => poisonItem s va a.src.repl
          | _, _ => s
        else s
      .next (settleCol job g n s)

/-- A member's memory faults: its command halts, and the others wait (09 R443; 13 R371). The event names a fault that
stands. -/
def execCollectiveMemberFault (job g n rank : Nat) (_c : Cause) (_fva : BitVec 52) (s : State) : Host.Outcome State Fault Refusal :=
  match findCol s job g n with
  | none => .next s
  | some c =>
    let here (r : Nat) : List (Nat × Nat) := match colArgs s job c r with
      | none => []
      | some a => (List.range (colItems c a.op)).map fun b => (r, b)
    let hit := (c.members.flatMap here).findSome? fun p => match tryItem job c p.1 p.2 s with
      | .halt m f => if m = rank then some f else none
      | _ => none
    match hit, memberCmd s job c rank with
    | some f, some (i, x) =>
      match engineFault s 2 ((s.rank? job rank).map (·.asid) |>.getD 0) f.va f.c with
      | none => .next s
      | some s => .next (s.atMember job rank i fun s => applyAction (haltCmd x.seq f s) f.c .mov f.va)
    | _, _ => .next s

end Sys2Proof.Machine
end

