-- ==== Sys2Proof/Machine/Save.lean ====
section
/-!
DEFINITION. Blocks of cores (01 R10), what a rank's cores are saved as (10 R315; 12 R348; 15 R418; the layouts of 10 R315 and
12 R345), and how a core stops and is restored (10 R313 to R317; log entry 7).
-/
namespace Sys2Proof.Machine

/-! ## Blocks (01 R10) -/

/-- May a block of width w begin at this column and row. -/
def originOk (w col row : Nat) : Bool :=
  let (a, b) := match w with
    | 4 => (2, 2)
    | 8 => (4, 2)
    | 16 => (4, 4)
    | 32 => (8, 4)
    | _ => (8, 8)
  col % a == 0 && row % b == 0 && col + blockCols w ≤ 16 && row + blockRows w ≤ 8 && [4, 8, 16, 32, 64, 128].contains w

/-- Physical cores of a block in rank-relative order. -/
def blockPhys (w col row : Nat) : List Nat :=
  (List.range w).map fun i => (row + i / blockCols w) * 16 + col + i % blockCols w

def jobWidth (s : State) (j : Nat) : Nat := ((s.job? j).map (·.width)).getD 4

/-- Ranks that have been announced and have not come (12 R350). -/
def awaited (s : State) (cold : Bool) : List Mig := s.chip.migs.filter fun m => m.inward && m.active && m.cold == cold

/-- Is the core promised to a rank that is on its way here (12 R344). -/
def promised (s : State) (p : Nat) : Bool :=
  (awaited s false).any fun m => (blockPhys (jobWidth s m.job) m.ocol m.orow).contains p

/-- A free core; in Limited Service only die 0 runs (15 R426). -/
def coreFree (s : State) (p : Nat) : Bool :=
  (s.allCores.any fun c => c.phys == p && c.job == 0) && (s.chip.svc == 2 || p % 16 < 8) && !promised s p

def blockFree (s : State) (w col row : Nat) : Bool := originOk w col row && (blockPhys w col row).all (coreFree s)

/-- The lowest free block of a width, by its origin's physical core. -/
def lowestBlock (s : State) (w : Nat) : Option (Nat × Nat) :=
  ((List.range 128).find? fun p => blockFree s w (p % 16) (p / 16)).map fun p => (p % 16, p / 16)

/-- Give each core of a block to a rank. -/
def takeBlock (w col row : Nat) (mk : Nat → Core → Core) (s : State) : State :=
  let ps := blockPhys w col row
  s.mapCores fun c => if ps.contains c.phys then mk (ps.idxOf c.phys) c else c

/-- Core i of a rank as it is when the rank is placed: its bases come from the placement entry (10 R298; 12 R342). -/
def ownCore (e : PlaceEntry) (j r i : Nat) (c : Core) : Core :=
  { c.freed with
    job := j, rank := r, coreId := BitVec.ofNat 7 i, trapFrame := e.frameBase + BitVec.ofNat 52 (8192 * i),
    accSave := e.accBase + BitVec.ofNat 52 (2 ^ 18 * i), ctxSave := e.ctxBase + BitVec.ofNat 52 (2 ^ 23 * i) }

/-- Cores a job holds on the chip, or is to hold for ranks on their way here (13 R374). -/
def coresHeld (s : State) (j : Nat) : Nat :=
  (s.allCores.filter (·.job == j)).length + jobWidth s j * ((awaited s false).filter (·.job == j)).length

/-- Active and cold ranks of the chip, those on their way here among them (01 R14; 12 R344). -/
def activeCount (s : State) : Nat := (s.ranks.filter fun k => !k.cold).length + (awaited s false).length
def coldCount (s : State) : Nat := (s.ranks.filter (·.cold)).length + (awaited s true).length

/-! ## Context areas (10 R315; 12 R345) -/

/-- Bytes at a privileged address of a rank's space, where they translate. -/
def putSys (s : State) (j r va : Nat) (bs : List Byte) : State :=
  match writeMem s (s.unitReq j r true) va bs with
  | .ok s => s
  | .error _ => s

def wideBytes {w : Nat} (n : Nat) (l : List (BitVec w)) : List Byte := l.flatMap fun x => leBytes n x.toNat

/-- The scratchpad slice of a core, in parts of 64 KiB: the offset of each, and its bytes. -/
def slice (s : State) (c : Core) : List (Nat × List Byte) :=
  (List.range 48).map fun i =>
    (i * 2 ^ 16, Memory.range s.mem (spadKey c.job c.rank (c.coreId.toNat * 2 ^ 22 + i * 2 ^ 16)) (2 ^ 16))

/-- The WATCH part of a core. -/
def watchPart (l : List (Option WEnt)) : List Byte :=
  l.flatMap fun o => wordBytes (match o with
    | none => List.replicate 16 0
    | some e => watchWords false e)

/-- A latch list as four words, and its bits that say which hold a value. -/
def latWords (l : List (Latch Word)) : List Nat := padTo 4 (l.map (·.val.toNat))
def latBits {α : Type} (l : List (Latch α)) : Nat := 2 ^ min 4 l.length - 1

/-- An operand slot's doubleword: STATE, TYPE, CB, SCALE, KLEN from bits 0, 2, 6, 10 and 18 (DESIGN CHOICE, log entry 7). -/
def slotWord (x : Slot) : Nat :=
  (match x.st with | .free => 0 | .claimed => 1 | .nest => 2) + 2 ^ 2 * tyCode x.ty + 2 ^ 6 * x.cb + 2 ^ 10 * (BitVec.ofInt 8 x.scale).toNat
    + 2 ^ 18 * x.klen

/-- Head and tail of each queue: a queue stands in QBUF from its head, entry 0, on (DESIGN CHOICE, log entry 7). -/
def queueWords (c : Core) : List Nat := (c.lq.toList ++ c.sq.toList).map fun q => 2 ^ 32 * q.length

/-- The parts of a core's context area that a pre-emption writes (10 R315); those whose layout inside the area the spec does not
state hold unspecified bytes (log entry 7). -/
def contextParts (s : State) (c : Core) : List (Nat × List Byte) :=
  let qb (l : List (List QEnt)) : List Byte := l.flatMap fun q => wideBytes 4096 ((q.map (·.data)) ++ List.replicate (8 - q.length) 0)
  let t := { s with core := c }
  slice s c ++ [(0x300000, wideBytes 4096 c.v.toList), (0x3C0000, wideBytes 16384 (c.slots.toList.map (·.data))),
    (0x440000, qb (c.lq.toList ++ c.sq.toList)), (0x4A0000, leBytes 1024 0 ++ wideBytes 1024 (c.m.toList.drop 1)),
    (0x4A4000, wideBytes 8 c.s.toList), (0x4A4180, wideBytes 8 c.shadow.toList), (0x4A41C0, wideBytes 8 c.a.toList),
    (0x4A42C0, wideBytes 8 c.d.toList), (0x4A43C0, wideBytes 4 c.tok.toList ++ leBytes 4 c.seqCtr.toNat),
    (0x4A4500, wordBytes (c.slots.toList.map slotWord)), (0x4A4600, wideBytes 64 (c.strm.toList.map (·.image))),
    (0x4A4A00, wordBytes (c.strm.toList.flatMap fun p => (strmWords p).drop 8)),
    (0x4A4B00, wideBytes 32 (c.rings.toList.map fun d => d.getD 0)),
    (0x4A4C00, wordBytes [c.curRing, c.openB.length, c.batches.length]),
    (0x4A4C40, wordBytes [(modeStat t).toNat, c.atomGroup.toNat, c.atomOrder.toNat, c.uiv.toNat * 32, c.uepc.toNat * 4]),
    (0x4A4C80, wordBytes (queueWords c) ++ freeBytes s.freeCtr 800), (0x4A5000, wideBytes 4 c.drnMem.toList), (0x4A6000, watchPart c.watch.toList),
    (0x4A7000, wideBytes 4096 ((c.latV.map (·.val)) ++ List.replicate (4 - c.latV.length) 0)),
    (0x4AB000, wordBytes (latWords c.latC ++ latWords c.latA ++ latWords c.latM ++ latWords c.latSet)),
    (0x4AB080, wordBytes [latBits c.latV + 2 ^ 4 * latBits c.latC + 2 ^ 8 * latBits c.latA + 2 ^ 12 * latBits c.latM
      + 2 ^ 16 * latBits c.latSet])]

/-- A stopped core's areas in memory: context and accumulators (06 R178; 10 R315). -/
def saveCore (s : State) (c : Core) : State :=
  let s := (contextParts s c).foldl (fun s p => putSys s c.job c.rank (c.ctxSave.toNat + p.1) p.2) { s with freeCtr := s.freeCtr + 800 }
  putSys s c.job c.rank c.accSave.toNat (wideBytes 16384 c.acc.toList)

/-- What a capture of a quiesced rank writes: slices and watch entries (12 R348). -/
def captureCore (s : State) (c : Core) : State :=
  (slice s c ++ [(0x4A6000, watchPart c.watch.toList)]).foldl (fun (s : State) (p : Nat × List Byte) => putSys s c.job c.rank (c.ctxSave.toNat + p.1) p.2) s

/-- Watch entries of core i from an image. -/
def imageWatch (l : List (Nat × Nat × WEnt)) (i : Nat) : Vector (Option WEnt) 32 :=
  Vector.ofFn fun n : Fin 32 => (l.find? fun p => p.1 == i && p.2.1 == n.1).map (·.2.2)

/-- A watch entry of 16 words (08 R244). -/
def entryWords16 (s : State) (a : Nat) : Option WEnt :=
  let w (i : Nat) : Word := s.word (a + 8 * i)
  if !bitOf (w 0) 52 then none
  else some { waddr := fld (w 0) 0 52, rdy := bitOf (w 0) 53, stage := fld (w 0) 55 4, thresh := w 1, cont := BitVec.ofNat 47 (fld (w 2) 5 47),
              rtime := (w 3).toNat, save := (List.range 8).map fun i => w (4 + i) }

/-- The spilled watch entries that lie in a rank's pages at WATCH_BASE (08 R245; 12 R345). -/
def spilledIn (s : State) (k : Rank) : List (Nat × WEnt) :=
  (List.range 4096).filterMap fun n =>
    match locate s { s.unitReq k.job k.rank true with keepA := true } (k.watchBase.toNat + 128 * n) 128 .read with
    | .ok (_, p) => (entryWords16 s p.key).map fun e => (n, e)
    | .error _ => none

/-- A pending request as DETQ holds it (12 R345). -/
def detWord6 (d : Det) : List Nat :=
  let op := (d.op.map AtomSel.code).getD 0
  [d.fva % 2 ^ 52 + 2 ^ 52 * op + 2 ^ 56 * b2n d.op.isNone + 2 ^ 57 * b2n d.mov + 2 ^ 58, d.x.toNat, d.exp.toNat, d.res % 2 ^ 52,
    d.order % 2 ^ 16 + 2 ^ 16 * (d.idx % 2 ^ 16) + 2 ^ 32 * d.g, 0]

/-- The rank's tables as TABLES holds them (12 R345). -/
def tableParts (s : State) (j : Job) (k : Rank) (num : Nat) : List (Nat × List Byte) :=
  let e := placeOf s k.job k.rank
  let mine := (j.groups.filter fun g => g.memb.contains k.rank).take 4
  let grp (g : Group) : List Nat := [g.g + 256, g.gen, g.phase, b2n (g.arrived.any (·.1 == k.rank))]
  let next (a b : BitVec 52) : Nat := if a = b then 0 else b.toNat
  [(0, wideBytes 64 k.ti.toList), (0x4000, wideBytes 16 k.stages.toList), (0x4100, leBytes 512 k.cbs.toNat),
    (0x4300, wideBytes 8 ([e.phaseBase, e.stageBase, e.exportBase, e.watchBase, e.frameBase, e.accBase, e.ctxBase].map
      fun x => x.setWidth 64)),
    (0x4340, wordBytes [k.cbBase.toNat, k.expBase.toNat, next k.cbBase k.cbNext, next k.expBase k.expNext]),
    (0x4400, wordBytes (padTo 16 (mine.flatMap grp))), (0x4480, wordBytes [j.stepNo.toNat, num])]

/-- The copy a checkpoint close writes into a rank's context areas (15 R418). -/
def captureTables (s : State) (j : Job) (k : Rank) (num : Nat) : State :=
  let area (i : Nat) : Nat := (placeOf s k.job k.rank).ctxBase.toNat + 2 ^ 23 * i
  let s := (tableParts s j k num).foldl (fun s p => putSys s k.job k.rank (area 0 + 0x4AF000 + p.1) p.2) s
  (List.range j.width).foldl (fun s i =>
    let l := (j.dets.filter fun d => d.rank == k.rank && d.core == i).take 256
    putSys s k.job k.rank (area i + 0x4AC000) (wordBytes (padTo 1536 (l.flatMap detWord6)))) s

/-! ## Stopping (10 R313 to R315) -/

/-- Do the core's sequencers stand where a stop may fall. -/
def atPoint (c : Core) : Bool :=
  let ok (x : SeqSt) : Bool := !x.run || x.point
  if c.x then ok c.ctl else ok c.ctl && ok c.acs && ok c.vec && ok c.mov

/-- Has the matrix engine come to an accumulator retirement, or halted (06 R178; 10 R315, R316). -/
def mtxStopped (c : Core) : Bool :=
  (match c.nest with
    | none => true
    | some n => !n.started || n.cause.isSome)
    && (match c.drains.head? with
      | none => true
      | some d => d.halt.isSome)

/-- Have MOV's commands retired, but for halted ones. -/
def movStopped (c : Core) : Bool := c.cmds.all fun x => x.op.isMtx || x.st == .halted

/-- A held core's sequencers stand still already. -/
def heldCore (c : Core) : Bool := match c.trap with
  | some t => !t.done
  | none => false

/-- Do the core's sequencers come to a stop now: they stand where one may fall, and no trap holds them (10 R313). -/
def mayHalt (c : Core) : Bool := c.stopReq.isSome && !c.stopped && !heldCore c && atPoint c

/-- May a core whose sequencers stand still stop whole: MTX at an accumulator retirement or a halt, MOV's commands retired (06
R178; 10 R315). -/
def mayStop (c : Core) : Bool := c.stopReq.isSome && !c.stopped && heldCore c && mtxStopped c && movStopped c

def canStop (c : Core) : Bool := mayHalt c || mayStop c

/-- The focused core's sequencers stop with PRE = 1 (10 R314; 15 R407); once MTX and MOV have stopped as well, the frame, a trapped
core's too, takes the drain record, the nest record, MTX's queue and the halted commands as they now stand (06 R178; 10 R315). -/
def stopCore (s : State) : State :=
  if heldCore s.core then
    (writeFrame (s.modCore fun c => { c with trap := c.trap.map (recordHalted c) })).modCore fun c => { c with stopped := true }
  else enterTrap none .rs 0 0 .park (lanePc s.core.ctl.line s.core.ctl.lane) 0 [] none s

/-- A stop is asked of every core of a rank (10 R313). -/
def askStop (s : State) (j r : Nat) : State :=
  let n := s.now
  (s.modRank j r fun k => { k with noDispatch := true }).mapCores fun c =>
    if State.owned j r c && c.stopReq.isNone then { c with stopReq := some n } else c

/-- A boundary of the job is in progress: a rank that goes on is dispatched once that has ended (12 R346). -/
def inBound (s : State) (j : Nat) : Bool := ((s.job? j).bind (·.bound)).isSome

/-- A rank's saved cores go on in the block at the origin (10 R317): the resume sequence
ends with RFT (15 R414, log entry 17). -/
def restoreRank (j r w col row : Nat) (s : State) : State :=
  match s.rank? j r with
  | none => s
  | some k =>
    let back (i : Nat) (c : Core) : Core := match k.saved.find? (·.coreId.toNat == i) with
      | none => c
      | some x =>
        { x with phys := c.phys, stopReq := none, stopped := false, saved := false, icache := [], tlb := [] }
    let s := (takeBlock w col row back s).modRank j r fun k => { k with saved := [], parked := false, noDispatch := inBound s j, fwds := [] }
    (s.coresOf j r).foldl (fun s c => s.atCore c.phys resumeCore) s

/-- A rank whose stop has not ended goes on where it is. -/
def cancelStop (j r : Nat) (s : State) : State :=
  let s := s.modRank j r fun k => { k with parked := false, noDispatch := inBound s j, fwds := [] }
  (s.coresOf j r).foldl (fun s c => s.atCore c.phys fun s =>
    resumeCore (s.modCore fun c => { c with stopReq := none, stopped := false })) s

end Sys2Proof.Machine
end

