-- ==== Sys2Proof/Machine/Sched.lean ====
section
/-!
DEFINITION. The Rank Scheduler's dispatch and pre-emption (01 R20; 10 R304 to R308, R313 to R317), the starts and ends of
programs (10 R300, R301), and the shared ports' rotation (10 R310 to R312).
-/
namespace Sys2Proof.Machine

/-! ## Ready continuations (10 R306) -/

/-- A ready continuation with its watch index (10 R307). -/
structure Ready where
  ix : Nat
  e : WEnt
deriving DecidableEq, Repr

/-- The rank's ready continuations. -/
def readyOf (s : State) (j r : Nat) : List Ready :=
  let table := (s.coresOf j r).flatMap fun c => (c.watch.toList.zipIdx).filterMap fun p => match p.1 with
    | some e => if e.rdy then some ⟨32 * c.coreId.toNat + p.2, e⟩ else none
    | none => none
  let spill := ((s.rank? j r).map (·.spill)).getD [] |>.filterMap fun x => if x.2.rdy then some ⟨4096 + x.1, x.2⟩ else none
  table ++ spill

/-- Stage s's control words, and its occupancy (10 R304). -/
def stageWord (s : State) (k : Rank) (off : Nat) : Nat :=
  match locate s { s.unitReq k.job k.rank true with keepA := true } (k.stageBase.toNat + off) 8 .read with
  | .ok (_, p) => (s.word p.key).toNat
  | .error _ => 0
def occOf (s : State) (k : Rank) (st : Nat) : Nat := (stageWord s k (16 * st) + 2 ^ 64 - stageWord s k (16 * st + 8)) % 2 ^ 64
/-- Is the output queue of a stage full. -/
def stageFull (s : State) (k : Rank) (st : Nat) : Bool :=
  let depth := fld (k.stages[st]?.getD 0) 64 16
  depth != 0 && depth ≤ occOf s k st

/-- Backlog of a stage, and the cores that run it (10 R307). -/
def backlog (s : State) (k : Rank) (l : List Ready) (st : Nat) : Nat :=
  (l.filter (·.e.stage == st)).length + (if st = 0 then 0 else occOf s k (st - 1))
def stageCores (s : State) (k : Rank) (st : Nat) : Nat := ((s.coresOf k.job k.rank).filter (·.stage == some st)).length

/-- The first by a key, in lexicographic order. -/
def firstBy (key : Ready → List Nat) : List Ready → Option Ready
  | [] => none
  | x :: xs => match firstBy key xs with
    | none => some x
    | some y => if decide (key y < key x) then some y else some x

/-- The scheduler's choice (10 R307). -/
def chooseReady (s : State) (k : Rank) (l : List Ready) : Option Ready :=
  let stages := ascNats (l.map (·.e.stage))
  let free := stages.filter fun st => !stageFull s k st
  let cands := if free.isEmpty then stages else free
  let urgent := l.filter fun x => x.e.urgent.isSome && cands.contains x.e.stage
  if !urgent.isEmpty then firstBy (fun x => [x.e.urgent.getD 0, x.e.rtime, x.ix]) urgent
  else
    let ratio (st : Nat) : Nat × Nat := (backlog s k l st, max 1 (stageCores s k st))
    let less (a b : Nat) : Bool := decide ((ratio a).1 * (ratio b).2 < (ratio b).1 * (ratio a).2)
    let kept := cands.filter fun a => !cands.any fun b => less a b
    firstBy (fun x => [x.e.rtime, x.ix]) (l.filter fun x => kept.contains x.e.stage)

/-- A core that holds no task and is not stopping (10 R306). -/
def idleCore (c : Core) : Bool := c.stage.isNone && !heldCore c && !c.stopped && c.stopReq.isNone && !c.drnRun

/-- May the rank's continuations be dispatched. -/
def mayDispatch (s : State) (k : Rank) : Bool :=
  !k.noDispatch && !k.cold && !k.parked && ((s.job? k.job).map fun x => x.status == .running && !x.rolling).getD false

/-- The next dispatch of a rank: its core, the entry. -/
def dispatchOf (s : State) (j r : Nat) : Option (Core × Ready) :=
  match s.rank? j r with
  | none => none
  | some k =>
    if !mayDispatch s k then none
    else match (s.coresOf j r).find? idleCore with
      | none => none
      | some c => (chooseReady s k (readyOf s j r)).map fun x => (c, x)

/-- The other ready continuations count the dispatch; the 64th makes one urgent (10 R308). -/
def countPass (s : State) (k : Rank) (e : WEnt) : WEnt :=
  if !e.rdy || stageFull s k e.stage then e
  else
    let n := e.passed + 1
    { e with passed := n, urgent := if n = 64 ∧ e.urgent.isNone then some k.dispatches else e.urgent }

/-- The chosen entry leaves its table, the others count. -/
def takeEntry (k : Rank) (x : Ready) (s : State) : State :=
  let t := s
  let pass (e : WEnt) : WEnt := countPass t k e
  let s := if 4096 ≤ x.ix then writeSpill s k (x.ix - 4096) (List.replicate 16 0) else s
  let s := s.mapCores fun c =>
    if State.owned k.job k.rank c then
      { c with watch := c.watch.mapIdx fun i o => if 32 * c.coreId.toNat + i = x.ix then none else o.map pass }
    else c
  s.modRank k.job k.rank fun k =>
    { k with dispatches := k.dispatches + 1,
             spill := (k.spill.filter fun y => 4096 + y.1 != x.ix).map fun y => (y.1, pass y.2) }

/-- The n-th word, and the n-th vector, of undefined task state (01 R20; 04 R116; log entry 4). -/
def undefWord (s : State) (n : Nat) : Word := if s.myJob.det then 0 else Config.freeWord (s.freeCtr + n)
def undefVec (s : State) (n : Nat) : VWord := if s.myJob.det then 0 else Config.freeVec (s.freeCtr + n)

/-- Tag and contents of an operand slot that no earlier command names, from the n-th word and vector on (06 R169; log entry 4). -/
def undefSlot (s : State) (n : Nat) : Slot :=
  let w (k : Nat) : Nat := (undefWord s (n + k)).toNat
  { data := BitVec.ofNat 131072 (packCodes 32768 ((List.range 4).map fun k => (undefVec s (n + k)).toNat))
    ty := [ETy.bf16, .f16, .e4m3, .e5m2, .cb4][w 0 % 5]?.getD .bf16, cb := w 1 % 16, scale := sgn 8 (w 2 % 256), klen := w 3 % 513 }

/-- A task begins at the focused core (01 R20; 08 R254, R255; 10 R306): s1 to s8 from the entry, other task state undefined,
accumulators claimed on first use (06 R171); a slot that an earlier command names is in NEST, any other is FREE (06 R169). -/
def startTask (e : WEnt) (s : State) : State :=
  let u := undefWord s
  let w := undefVec s
  let n := s.now
  let c := s.core
  let used := (c.cmds.flatMap fun x => x.op.tiles)
  let s := ((List.range 16).filter fun i => !used.contains i).foldl undefTile s
  let seq : SeqSt := { run := false, ready := n + 24 }
  let seqOf (q : Seqr) : SeqSt := { seq with count := (c.seq q).count }
  { s.modCore (fun c =>
    { c with
      ctl := { seqOf .ctl with run := true, line := e.cont }, acs := seqOf .acs, vec := seqOf .vec, mov := seqOf .mov
      slots := Vector.ofFn fun i : Fin 32 =>
        if c.cmds.any (·.namesSlot i.1) then { slotAt s i.1 with st := .nest } else undefSlot s (224 + 4 * i.1)
      s := Vector.ofFn fun i : Fin 48 => if i.1 = 0 then 0 else if i.1 < 9 then e.save[i.1 - 1]?.getD 0 else u i.1
      shadow := Vector.ofFn fun i : Fin 8 => u (48 + i.1)
      a := Vector.ofFn fun i : Fin 32 => u (56 + i.1)
      d := Vector.ofFn fun i : Fin 32 => u (88 + i.1)
      v := Vector.ofFn fun i : Fin 192 => w i.1
      m := Vector.ofFn fun i : Fin 16 => if i.1 = 0 then BitVec.allOnes 8192 else (w (192 + i.1)).setWidth 8192
      strm := Vector.ofFn fun i : Fin 16 => { image := (w (208 + i.1)).setWidth 512, desc := 0 }
      lq := Vector.replicate 8 [], sq := Vector.replicate 4 []
      latC := [], latSet := [], latA := [], latV := [], latM := []
      rings := Vector.replicate 8 none, curRing := 0, openB := [], batches := [], detC := 0, detM := 0, epoch := 0
      accTask := c.accTask.mapIdx fun i t => if used.contains i then t else c.taskId + 1
      stage := some e.stage, taskId := c.taskId + 1, suspending := false, barv := none, pend := []
      fresh := true, divz := false, uie := false, uh := false, uipend := 0, uiv := 0, uepc := 0, atomGroup := 0
      atomOrder := c.coreId.setWidth 16 }) with freeCtr := s.freeCtr + 352 }

def execTaskDispatch (job rank : Nat) (s : State) : Host.Outcome State Fault Refusal :=
  match dispatchOf s job rank, s.rank? job rank with
  | some (c, x), some k => .next ((takeEntry k x s).atCore c.phys (startTask x.e))
  | _, _ => .next s

/-! ## Pre-emption (10 R313 to R317) -/

/-- A park, or system software, asks for the rank's cores; it waits for RESUME_RANK. -/
def execPreemptRequest (job rank : Nat) (s : State) : Host.Outcome State Fault Refusal :=
  match s.rank? job rank with
  | none => .next s
  | some k => if k.cold then .next s else .next (askStop (s.modRank job rank fun k => { k with parked := true }) job rank)

/-- The first core that may stop does. -/
def execCoreStop (s : State) : Host.Outcome State Fault Refusal :=
  match s.allCores.find? canStop with
  | none => .next s
  | some c => .next (s.atCore c.phys stopCore)

/-- A core of the rank that has not stopped within PRE_WAIT (10 R314). -/
def lateStop (s : State) (j r : Nat) : Option Core :=
  (s.coresOf j r).find? fun c => match c.stopReq with
    | some t => !c.stopped && t + c.preWait.toNat ≤ s.now
    | none => false

/-- PRE_TIMEOUT goes to the action table; the request stands, and its time counts anew. -/
def execPreTimeout (job rank : Nat) (s : State) : Host.Outcome State Fault Refusal :=
  match lateStop s job rank with
  | none => .next s
  | some c =>
    let n := s.now
    let s := s.mapCores fun k => if State.owned job rank k ∧ !k.stopped ∧ k.stopReq.isSome then { k with stopReq := some n } else k
    .next (s.atCore c.phys fun s => applyAction s .preTimeout .rs 0)

/-- Every core of the rank has stopped. -/
def rankStopped (s : State) (j r : Nat) : Bool :=
  let cs := s.coresOf j r
  !cs.isEmpty && cs.all (·.stopped)

/-- The rank's state lies in its save areas, and its cores are free (10 R315). -/
def execContextSaveDone (job rank : Nat) (s : State) : Host.Outcome State Fault Refusal :=
  if !rankStopped s job rank then .next s
  else
    let cs := s.coresOf job rank
    let s := cs.foldl saveCore s
    let s := s.modRank job rank fun k => { k with saved := cs.map fun c => { c with saved := true } }
    .next ((s.mapCores fun c => if State.owned job rank c then c.freed else c).post .event [evSaved, job, rank])

/-! ## Programs (10 R300, R301) -/

/-- The device-virtual words of a job image at a rank (10 R297). -/
def readRank (s : State) (j r va n : Nat) : Option (List Byte) :=
  match readMem s (s.unitReq j r true) va n with
  | .ok (_, bs) => some bs
  | .error _ => none

/-- The header of a job image, at its device address (10 R297). -/
structure Image where
  kind : Nat
  width : Nat
  det : Bool
  v : Nat
  seed : Nat
  stages : Nat
  groups : Nat
  tensors : Nat
  cblock : Nat
deriving DecidableEq, Repr

def readImage (s : State) (pa : Nat) : Option Image :=
  let w (i : Nat) : Nat := (s.word (pa + 8 * i)).toNat
  let h := w 0
  let code := h / 2 ^ 17 % 8
  if h % 2 ^ 16 ≠ 0x4A4B ∨ 6 ≤ code ∨ h / 2 ^ 35 ≠ 0 ∨ (h / 2 ^ 16 % 2 = 1 ∧ w 3 ≠ 0) ∨ w 6 ≠ 0 ∨ w 7 ≠ 0 ∨ 2 ^ 52 ≤ w 2 ∨ 2 ^ 52 ≤ w 3 ∨ 2 ^ 52 ≤ w 4 ∨ 2 ^ 52 ≤ w 5
      ∨ w 2 % 64 ≠ 0 then none
  else some ⟨h / 2 ^ 16 % 2, 2 ^ (code + 2), h / 2 ^ 20 % 2 = 1, h / 2 ^ 21 % 2 ^ 14 + 1, w 1, w 2, w 3, w 4, w 5⟩

/-- The stage table of an image as 16 entries (10 R302). -/
def stageTable (bs : List Byte) : Vector (BitVec 128) 16 :=
  Vector.ofFn fun i : Fin 16 => BitVec.ofNat 128 (leVal ((bs.drop (16 * i.1)).take 16))

/-- Is a stage table valid (10 R303). -/
def stagesOk (t : Vector (BitVec 128) 16) : Bool :=
  let l := t.toList
  let vld (d : BitVec 128) : Bool := bitOf d 52
  (l.all fun d => fld d 53 11 == 0 && fld d 80 48 == 0 && (!vld d || fld d 0 5 == 0)) && (l.head?.map vld).getD false
    && (l.zip (l.drop 1)).all fun p => vld p.1 || !vld p.2

/-- The initial continuations of a program, in stage order (10 R300). -/
def initialEntries (t : Vector (BitVec 128) 16) (now : Nat) : List WEnt :=
  (t.toList.zipIdx.filter fun p => bitOf p.1 52).map fun p =>
    { waddr := 0, rdy := true, stage := p.2, thresh := 0, cont := BitVec.ofNat 47 (fld p.1 5 47), rtime := now,
      save := List.replicate 8 0 }

/-- The address space advances its generation; from then on no entry of a translation cache and no instruction-cache line loaded under an
earlier one is used (13 R369). -/
def advanceGen (s : State) (asid : BitVec 16) : State :=
  let at' := s.chip.asBase.toNat + 32 * asid.toNat + 8
  let w := entryAt s at'
  let g : BitVec 12 := BitVec.ofNat 12 (fld w 0 12 + 1)
  let s := setEntry s at' (BitVec.ofNat 64 (w.toNat / 2 ^ 12 * 2 ^ 12 + g.toNat))
  let drop (c : Core) : Core := { c with tlb := c.tlb.filter (·.asid != asid), icache := c.icache.filter (·.asid != asid) }
  { s.mapCores drop with
    ranks := s.ranks.map fun k => if k.asid = asid then { k with gen := g, saved := k.saved.map drop } else k }

/-- Codebooks from the block at CB_BASE; a block that faults leaves them and is reported (01 R31). -/
def loadCodebooks (s : State) (j r : Nat) : Except Flt State :=
  match s.rank? j r with
  | none => .ok s
  | some k =>
    match readMem s (s.unitReq j r true) k.cbBase.toNat 512 with
    | .error f => .error f
    | .ok (s, bs) => .ok (s.modRank j r fun k => { k with cbs := BitVec.ofNat 4096 (leVal bs) })

/-- Drain memory of each core from the image that ti255 describes (06 R187). Where reading the image faults, drain memory stays as it
was and nothing is reported: the spec states neither (DESIGN CHOICE, log entry 51). -/
def loadDrain (s : State) (j r : Nat) : State :=
  match s.rank? j r with
  | none => s
  | some k =>
    match readMem s (s.unitReq j r true) (k.tensor 255).base 4096 with
    | .error _ => s
    | .ok (s, bs) =>
      let m : Vector W32 1024 := Vector.ofFn fun i : Fin 1024 => BitVec.ofNat 32 (leVal ((bs.drop (4 * i.1)).take 4))
      (s.mapCores fun c => if State.owned j r c then { c with drnMem := m } else c).modRank j r fun k =>
        { k with saved := k.saved.map fun (c : Core) => { c with drnMem := m } }

/-- Code, stage table, tensors, codebooks and drain image of an image at a rank (10 R297, R298). Where reading one of them faults nothing is
reported: the tensor table then holds 256 invalid descriptors, and the codebooks and drain memory stay as they were; the spec states neither
(DESIGN CHOICE, log entry 51). -/
def loadImage (i : Image) (j r : Nat) (s : State) : State :=
  let st := stageTable ((readRank s j r i.stages 256).getD [])
  let ti := (readRank s j r i.tensors 16384).getD []
  let s := s.modRank j r fun k =>
    { k with
      stages := st, cbBase := BitVec.ofNat 52 i.cblock, cbNext := BitVec.ofNat 52 i.cblock
      ti := Vector.ofFn fun n : Fin 256 => BitVec.ofNat 512 (leVal ((ti.drop (64 * n.1)).take 64)) }
  let s := match loadCodebooks s j r with
    | .ok s => s
    | .error _ => s
  let s := loadDrain s j r
  match s.rank? j r with
  | none => s
  | some k => advanceGen s k.asid

/-- The WATCH parts of a cold rank's captured image hold its entries (12 R348, R356); ages there count back from now. -/
def coldWatch (j r : Nat) (s : State) : State :=
  let l := ((s.rank? j r).map (·.image)).getD []
  let n := s.now
  let old (e : WEnt) : WEnt := if e.rdy then { e with rtime := n - e.rtime } else e
  (List.range (jobWidth s j)).foldl (fun s i =>
    putSys s j r ((placeOf s j r).ctxBase.toNat + 2 ^ 23 * i + 0x4A6000) (watchPart ((imageWatch l i).toList.map (Option.map old)))) s

/-- A rank's program starts (10 R300): entries 0, 1, … of core 0's table; a cold rank's stand in its image, with its WAKE set in every
entry of the job's table (12 R342; 19 R441). -/
def startProgram (j r : Nat) (s : State) : State :=
  match s.rank? j r with
  | none => s
  | some k =>
    let es := initialEntries k.stages s.now
    let s := s.modRank j r fun k => { k with finished := false }
    if k.cold then
      let s := setPlace (s.modRank j r fun k => { k with image := es.zipIdx.map fun p => (0, p.2, { p.1 with rtime := 0 }) }) j r
        fun e => { e with wake := true }
      coldWatch j r (tellPlace j r (placeOf s j r) s)
    else s.mapCores fun c =>
      if State.owned j r c then
        let c := { c with trigged := false, trigSent := false }
        if c.coreId = 0 then { c with watch := Vector.ofFn fun i : Fin 32 => es[i.1]? } else c
      else c

/-- The queue descriptor's words (10 R291). -/
def qdAt (s : State) (q : Nat) : Nat := s.chip.qdBase.toNat + 64 * q
def qdWord (s : State) (q i : Nat) : Word := s.word (qdAt s q + 8 * i)
def qNotify (s : State) (q : Nat) : Nat := fld (qdWord s q 1) 0 32
def qServed (s : State) (q : Nat) : Nat := fld (qdWord s q 1) 32 32
def qTenant (s : State) (q : Nat) : Nat := fld (qdWord s q 0) 57 4
def qErr (s : State) (q : Nat) : Bool := bitOf (qdWord s q 2) 8
/-- Is the queue valid (10 R291). A reserved field of the descriptor that is not zero makes it invalid: the spec names no fault for
one (DESIGN CHOICE, log entry 50). -/
def qValid (s : State) (q : Nat) : Bool :=
  let d := qdWord s q 0
  bitOf d 56 && 1 ≤ fld d 52 4 && fld d 52 4 ≤ 12 && fld d 61 3 == 0 && (List.range 5).all fun i => qdWord s q (3 + i) == 0

/-- Word 2 of the descriptor follows the queue's state (10 R291). -/
def showQueue (s : State) (q : Nat) : State :=
  let m := s.chip.mapped.find? (·.q == q)
  let err := qErr s q
  let run := qNotify s q != qServed s q && !err
  s.pokeWord (qdAt s q + 16) (BitVec.ofNat 64 (((m.map (·.slot)).getD 0) + 2 ^ 6 * b2n m.isSome + 2 ^ 7 * b2n run + 2 ^ 8 * b2n err))

/-- A queue with unserved entries and no slot stands among the runnable ones, any other does not (10 R292 to R294). -/
def listQueue (s : State) (q : Nat) : State :=
  let run := qNotify s q != qServed s q && !qErr s q && !(s.chip.mapped.any (·.q == q))
  s.modChip fun c =>
    { c with runnable := if !run then c.runnable.filter (·.q != q)
        else if c.runnable.any (·.q == q) then c.runnable else c.runnable ++ [⟨q, c.ticks⟩] }

def setNotify (s : State) (q n : Nat) : State := s.pokeWord (qdAt s q + 8) (BitVec.ofNat 64 (n + 2 ^ 32 * qServed s q))
/-- An entry's status has been written: SERVED advances (10 R292). -/
def serveNext (s : State) (q : Nat) : State :=
  let s := s.pokeWord (qdAt s q + 8) (BitVec.ofNat 64 (qNotify s q + 2 ^ 32 * ((qServed s q + 1) % 2 ^ 32)))
  showQueue (s.modChip fun c => { c with mapped := c.mapped.map fun m => if m.q = q then { m with idle := false } else m }) q

/-- An entry of the queue is in progress: its successor has not started (10 R292). -/
def queueBusy (s : State) (q : Nat) : Bool := s.jobs.any fun j => (j.succ.map (·.q)) == some q

/-- Do the job's ranks on other chips meet a condition now: what those chips tell of it is not this chip's to know (log entry 20). -/
def farMeet (s : State) (j what : Nat) : Bool := (farChips s j).isEmpty || Config.farState j what s.now

/-- May the successor's rank start (10 R301): its predecessor has finished; early, every core of every rank has triggered or its rank
has finished. -/
def succReady (s : State) (j r : Nat) : Bool :=
  match s.job? j, s.rank? j r with
  | some x, some k =>
    match x.succ with
    | none => false
    | some u =>
      let cs (y : Rank) : List Core := rankCores s j y.rank
      let trig (y : Rank) : Bool := y.finished || u.started.contains y.rank || (!(cs y).isEmpty && (cs y).all (·.trigSent))
      k.finished && !u.started.contains r && !k.parked
        && (if u.early then (s.ranks.filter (·.job == j)).all trig && farMeet s j 1 else x.status == .retired)
  | _, _ => false

/-- Commands of a rank's cores, on the chip or saved, that have not retired. -/
def rankCmds (s : State) (j r : Nat) : List (Nat × Nat × W32) :=
  (rankCores s j r).flatMap fun c => c.cmds.map fun x => (r, c.coreId.toNat, x.seq)

/-- When every rank here has started, STARTED is written and the entry is served (10 R296, R301). -/
def succStarted (j : Nat) (u : Succ) (s : State) : State :=
  match s.job? j with
  | none => s
  | some x =>
    if !(s.ranks.filter (·.job == j)).all fun k => u.started.contains k.rank then s
    else
      let s := s.modJob j fun y =>
        { y with succ := none, status := .running, doneAt := u.done,
                 oldDone := if x.status = .running then some x.doneAt else y.oldDone }
      serveNext (statusRecord s u.done 0 1 j 0) u.q

def execSuccessorStart (job rank : Nat) (s : State) : Host.Outcome State Fault Refusal :=
  if !succReady s job rank then .next s
  else match (s.job? job).bind (·.succ) with
    | none => .next s
    | some u =>
      match readImage s u.image with
      | none => .next s
      | some i =>
        let u' : Succ := { u with started := u.started ++ [rank] }
        let old := rankCmds s job rank
        let s := startProgram job rank (loadImage i job rank s)
        .next (succStarted job u' (s.modJob job fun x => { x with succ := some u', oldCmds := x.oldCmds ++ old }))

/-- Commands of an earlier program that still run. -/
def oldLeft (s : State) (x : Job) : List (Nat × Nat × W32) :=
  x.oldCmds.filter fun o => (rankCmds s x.num o.1).contains o

/-- May the program retire: every rank has finished and every command of its cores has retired (10 R301). -/
def programOver (s : State) (x : Job) : Bool :=
  let begun := (x.succ.map (·.started)).getD []
  x.status == .running && (oldLeft s x).isEmpty && (s.ranks.any (·.job == x.num) || !(farChips s x.num).isEmpty) && farMeet s x.num 0 && (s.ranks.filter (·.job == x.num)).all fun k =>
    begun.contains k.rank || (k.finished && (rankCmds s x.num k.rank).isEmpty)

/-- RETIRED (10 R296): of a predecessor whose last commands have ended, else of the program. -/
def execProgramRetire (job : Nat) (s : State) : Host.Outcome State Fault Refusal :=
  match s.job? job with
  | none => .next s
  | some x =>
    match x.oldDone with
    | some d =>
      if (oldLeft s x).isEmpty then
        .next (statusRecord (s.modJob job fun y => { y with oldDone := none, oldCmds := [] }) d 16 2 job 0)
      else .next s
    | none =>
      if programOver s x then
        .next (statusRecord (s.modJob job fun y => { y with status := .retired, oldCmds := [] }) x.doneAt 16 2 job 0)
      else .next s

/-- System software ends the job: cores and memory go back (10 R301). Its quota record stays. -/
def execJobEnd (job : Nat) (s : State) : Host.Outcome State Fault Refusal :=
  match s.job? job with
  | none => .next s
  | some x =>
    if x.status = .free then .next s
    else
      let s := s.mapCores fun c => if c.job = job then c.freed else c
      let s := dropTraffic { s with ranks := s.ranks.filter (·.job != job) } job
      .next ((freeFrames (·.job == job) s).modJob job fun x =>
        { num := x.num, hbmq := x.hbmq, lpq := x.lpq, coreq := x.coreq, laneq := x.laneq, repl := x.repl, rnum := x.rnum,
          status := .free })

/-! ## Shared ports (10 R310 to R312) -/

/-- The entry in force follows TICKS (10 R310). -/
def execPortSlotAdvance (s : State) : Host.Outcome State Fault Refusal :=
  .next (s.modChip fun c => { c with portSlot := c.ticks / 40 % 64 })

/-- New tables take effect at a rotation boundary (10 R312). -/
def portsDue (s : State) : Bool := s.chip.portsNext.isSome && s.chip.portsAt ≤ s.now

def execPortRotationBoundary (s : State) : Host.Outcome State Fault Refusal :=
  if !portsDue s then .next s
  else .next (s.modChip fun c => { c with ports := c.portsNext.getD c.ports, portsNext := none })

/-- The next rotation boundary after now. -/
def nextRotation (s : State) : Nat := (s.now / 2560 + 1) * 2560

end Sys2Proof.Machine
end

