-- ==== Sys2Proof/Machine/Launch.lean ====
section
/-!
DEFINITION. The launch front end: doorbells and queues (10 R291 to R294; 14 R391, R396; 16 R430), launch entries (10 R295,
R296) and the launch of a job (10 R297 to R299; 01 R15; 19 R441).
-/
namespace Sys2Proof.Machine

/-! ## Tenant interfaces and the port (14 R391, R395, R398) -/

def tdiAt (s : State) (t : Nat) : Tdi := s.chip.tdi[t]?.getD {}
def modTdi (s : State) (t : Nat) (f : Tdi → Tdi) : State :=
  s.modChip fun c => { c with tdi := c.tdi.mapIdx fun i x => if i = t then f x else x }
/-- REJ counts a rejected access, saturating (14 R395). -/
def reject (s : State) (t : Nat) : State := modTdi s t fun x => { x with rej := min (x.rej + 1) (2 ^ 24 - 1) }
/-- Is the interface locked or running. -/
def tdiHeld (s : State) (t : Nat) : Bool := (tdiAt s t).st == .locked || (tdiAt s t).st == .run
/-- Does an access reach the interface's pages and memory (14 R391). -/
def ideOk (s : State) (t : Nat) (ide : Ide) : Bool := !tdiHeld s t || (ide == some t && (tdiAt s t).ide.isSome)

/-- A running state of the device. -/
def powered (s : State) : Bool := (s.chip.pwr == .full || s.chip.pwr == .reduced) && s.chip.pwrTo.isNone

/-- A wake event in idle or retain, or on the way there: the previous running state becomes the target, taken once a transition under way
has ended (14 R398; 16 R435). -/
def wakeUp (s : State) : State :=
  if s.chip.pwrTo = some .idle ∨ s.chip.pwrTo = some .retain then s.modChip fun c => { c with targetNext := some c.pwrPrev }
  else if (s.chip.pwr = .idle ∨ s.chip.pwr = .retain) ∧ s.chip.pwrTo.isNone then
    s.modChip fun c => { c with target := c.pwrPrev, pwrTo := some (if c.pwrPrev = 1 || c.throt then .reduced else .full) }
  else s

/-- A device in recovery answers nothing but the load of a new image (14 R385). -/
def answering (s : State) (r : Host.Outcome State Fault Refusal) : Host.Outcome State Fault Refusal := if s.chip.recovery then .next s else r

/-! ## Doorbells (10 R292; 16 R430) -/

/-- The front end takes notify value n for queue q (10 R292). -/
def ringQueue (s : State) (q n : Nat) : State :=
  if !qValid s q then s
  else
    let d := (n + 2 ^ 32 - qNotify s q) % 2 ^ 32
    if d = 0 ∨ 2 ^ 31 ≤ d then s
    else
      let s := setNotify s q n
      let full := 2 ^ fld (qdWord s q 0) 52 4 < (n + 2 ^ 32 - qServed s q) % 2 ^ 32
      let s := if full then s.pokeWord (qdAt s q + 16) (qdWord s q 2 ||| 0x100) else s
      let s := s.modChip fun c => { c with mapped := c.mapped.map fun m => if m.q = q then { m with idle := false } else m }
      showQueue (listQueue s q) q

/-- A write to a doorbell page: turned away with Unsupported Request where it is not on the interface's stream (14 R391), dropped and
counted in CONFIG_LOCKED (14 R396). -/
def execDoorbell (tdi off width : Nat) (value : Word) (ide : Ide) (s : State) : Host.Outcome State Fault Refusal :=
  answering s <| if 16 ≤ tdi then .next s
  else if !ideOk s tdi ide then .next ((reject s tdi).post .response [1])
  else if off ≠ 0 then .next s
  else if (tdiAt s tdi).st == .locked then .next (reject s tdi)
  else
    let q := fld value 32 12
    if fld value 44 20 ≠ 0 ∨ width ≠ 8 ∨ qTenant s q ≠ tdi then .next (reject s tdi)
    else .next (ringQueue (wakeUp s) q (fld value 0 32))

/-! ## Slots (10 R293, R294) -/

/-- A queue leaves its slot; one with unserved entries is runnable again (10 R294). -/
def unmapQueue (s : State) (q : Nat) : State :=
  let s := s.modChip fun c => { c with mapped := c.mapped.filter (·.q != q), runnable := c.runnable.filter (·.q != q) }
  showQueue (listQueue s q) q

/-- Places in a table of `count` records of `size` bytes from base that the n bytes from pa touch. -/
def touched (base size count pa n : Nat) : List Nat :=
  let last := pa + (n - 1)
  if last < base then [] else (List.range (min count ((last - base) / size + 1) - (pa - base) / size)).map (· + (pa - base) / size)

/-- Queue q's descriptor after a write of system software at it: NOTIFY, SERVED and the read-only fields of word 2 stay as they were,
`clr`, a 1 written at ERR, clears it, and the queue is then runnable again where it has entries to serve (10 R291, R292). Words that
are no descriptor, before or after, are plain memory (log entry 50). -/
def settleQueue (old : State) (clr : Bool) (q : Nat) (s : State) : State :=
  if !(bitOf (qdWord old q 0) 56 || bitOf (qdWord s q 0) 56) then s
  else
    let w2 := qdWord old q 2
    let s := (s.pokeWord (qdAt s q + 8) (qdWord old q 1)).pokeWord (qdAt s q + 16) (if clr then setFld w2 8 1 0 else w2)
    if clr && qErr old q && qValid s q then showQueue (listQueue s q) q else s

/-- Ask for an unmap: at once, or when the entry in progress has its status. -/
def askUnmap (s : State) (q : Nat) : State :=
  if queueBusy s q then s.modChip fun c => { c with mapped := c.mapped.map fun m => if m.q = q then { m with unmapping := true } else m }
  else unmapQueue s q

/-- Oldest first, lower number first at a tie. -/
def oldestRun : List RunQ → Option RunQ
  | [] => none
  | x :: xs => match oldestRun xs with
    | none => some x
    | some y => if y.since < x.since ∨ (y.since = x.since ∧ y.q < x.q) then some y else some x

/-- May the queue hold a slot: its tenant's interface is not in ERROR (14 R395). -/
def mayMap (s : State) (q : Nat) : Bool := (tdiAt s (qTenant s q)).st != .error && qValid s q

/-- Waiting queues take free slots, lowest slot first. -/
def mapQueues : Nat → List RunQ → State → State
  | 0, _, s => s
  | n + 1, l, s =>
    match oldestRun l, firstFree 64 (s.chip.mapped.map (·.slot)) with
    | some x, some slot =>
      let s := s.modChip fun c => { c with mapped := c.mapped ++ [⟨x.q, slot, c.ticks, false, false⟩], runnable := c.runnable.erase x }
      mapQueues n (l.erase x) (showQueue s x.q)
    | _, _ => s

/-- Queues that have held their slot for four quanta, longest first. -/
def longestHeld : List MapQ → Option MapQ
  | [] => none
  | x :: xs => match longestHeld xs with
    | none => some x
    | some y => if y.since < x.since then some y else some x

/-- Step 2 of R293. -/
def makeRoom (want : Nat) : Nat → State → State
  | 0, s => s
  | n + 1, s =>
    let held := s.chip.mapped.filter fun m => !m.unmapping
    if want ≤ 64 - held.length then s
    else match longestHeld (held.filter fun m => decide (m.since + 240000 ≤ s.now)) with
      | none => s
      | some m => makeRoom want n (askUnmap s m.q)

def execQuantumBoundary (s : State) : Host.Outcome State Fault Refusal :=
  if s.now < s.chip.quantum then .next s
  else
    let s := s.modChip fun c => { c with quantum := (c.ticks / 60000 + 1) * 60000 }
    let quiet (m : MapQ) : Bool := m.idle && qNotify s m.q == qServed s m.q
    let s := (s.chip.mapped.filter quiet).foldl (fun s m => askUnmap s m.q) s
    let wait := s.chip.runnable.filter fun x => mayMap s x.q
    let s := makeRoom wait.length 64 s
    let s := mapQueues 64 wait s
    let t := s
    .next (s.modChip fun c => { c with mapped := c.mapped.map fun m => { m with idle := qNotify t m.q == qServed t m.q } })

def execQueueUnmapComplete (q : Nat) (s : State) : Host.Outcome State Fault Refusal :=
  if (s.chip.mapped.any fun m => m.q == q && m.unmapping) && !queueBusy s q then .next (unmapQueue s q) else .next s

/-! ## Placement images (10 R299; 12 R342) -/

/-- A placement entry from its 64 bytes. -/
def entryOf (bs : List Byte) : PlaceEntry :=
  let w (i : Nat) : Nat := imgVal bs (8 * i) 8
  let b (i : Nat) : BitVec 52 := BitVec.ofNat 52 (w i)
  let st : PlaceState := match w 0 / 2 ^ 17 % 8 with
    | 1 => .active | 2 => .cold | 3 => .moving | 4 => .forward | 5 => .withdrawn | _ => .absent
  { chip := w 0 % 2 ^ 10, ocol := w 0 / 2 ^ 10 % 16, orow := w 0 / 2 ^ 14 % 8, state := st, pendack := w 0 / 2 ^ 20 % 2 ^ 11,
    wake := w 0 / 2 ^ 31 % 2 = 1, pgen := BitVec.ofNat 16 (w 0 / 2 ^ 32), phaseBase := b 1, stageBase := b 2, exportBase := b 3,
    watchBase := b 4, frameBase := b 5, accBase := b 6, ctxBase := b 7 }

/-- Entries of a staged image. -/
def stagedEntries (bs : List Byte) : List PlaceEntry :=
  (List.range (imgVal bs 0 8 % 2 ^ 15)).map fun v => entryOf ((bs.drop (64 + 64 * v)).take 64)

/-- Does an image pass R299 for a job of V ranks of width w on this chip. -/
def placementOk (s : State) (v w : Nat) (bs : List Byte) : Bool :=
  let es := stagedEntries bs
  let here := es.filter fun e => e.chip == s.chip.id
  let act := here.filter (·.state == .active)
  let cores := act.flatMap fun e => blockPhys w e.ocol e.orow
  let bases (e : PlaceEntry) : Bool :=
    e.phaseBase.toNat % 64 == 0 && e.stageBase.toNat % 16 == 0 && e.exportBase.toNat % 2 ^ 26 == 0 && e.watchBase.toNat % 2 ^ 16 == 0
      && e.frameBase.toNat % 2 ^ 13 == 0 && e.accBase.toNat % 2 ^ 18 == 0 && e.ctxBase.toNat % 2 ^ 23 == 0
  imgVal bs 0 8 == v && (List.range 6).all (fun i => imgVal bs (16 + 8 * i) 8 == 0)
    && (es.all fun e => (e.state == .active || e.state == .cold) && e.pgen == 0 && e.pendack == 0 && !e.wake && bases e)
    && (act.all fun e => originOk w e.ocol e.orow) && cores.eraseDups.length == cores.length
    && act.length ≤ 32 && (here.filter (·.state == .cold)).length ≤ 64

/-- Would the chip hold more than 32 active or 64 cold ranks with those of the image (01 R14). R296 names no cause for it: it is refused
as what lacks cores is (DEDUCED, log entry 27). -/
def ranksOver (s : State) (bs : List Byte) : Bool :=
  let here (st : PlaceState) : Nat := ((stagedEntries bs).filter fun e => e.chip == s.chip.id && e.state == st).length
  32 < activeCount s + here .active || 64 < coldCount s + here .cold

/-! ## Launch (10 R295 to R298) -/

/-- Address spaces that name a job, in ascending ASID (13 R369). Ranks of the chip take them in ascending virtual rank (log
entry 21). -/
def jobSpaces (s : State) (j : Nat) : List Nat :=
  let base := s.chip.asBase.toNat
  -- a record's VLD lies in its byte 6, which memory lists
  let ids := s.mem.filterMap fun c =>
    if base ≤ c.1 ∧ c.1 < base + 2 ^ 21 ∧ (c.1 - base) % 32 = 6 then some ((c.1 - base) / 32) else none
  ids.filter fun a => bitOf (s.word (base + 32 * a)) 52 && fld (s.word (base + 32 * a + 8)) 12 16 == j

/-- The lowest number that no job on the chip holds (10 R296). -/
def newJob (s : State) : Nat :=
  ((List.range 65535).map (· + 1)).find? (fun n => !s.jobs.any fun j => j.num == n && j.status != .free) |>.getD 0

/-- Bytes of an image in an address space. -/
def readSpace (s : State) (i : Image) (j asid va n : Nat) : Option (List Byte) :=
  let r : Req := { job := j, rank := 0, width := i.width, v := i.v, asid := BitVec.ofNat 16 asid, gen := 0, priv := true, client := 9 }
  match readMem s r va n with
  | .ok (_, bs) => some bs
  | .error _ => none

/-- Groups from a group table image, and the numbers of those refused: g0 holds every rank; a definition that would put a rank in a
fifth group is refused (01 R15). -/
def loadGroups (v : Nat) (bs : List Byte) : List Group × List Nat :=
  let g0 : Group := { g := 0, memb := List.range v }
  (List.range 255).foldl (fun l n =>
    let m := (bitmapRanks ((bs.drop (2048 * (n + 1))).take 2048)).filter (· < v)
    if m.isEmpty then l
    else if m.any fun r => 4 ≤ (l.1.filter fun g : Group => g.memb.contains r).length then (l.1, l.2 ++ [n + 1])
    else (l.1 ++ [{ g := n + 1, memb := m }], l.2)) ([g0], [])

/-- What a close captures of the job on this chip (15 R418). -/
def captureOf (s : State) (j num : Nat) : Option Ckpt :=
  (s.job? j).map fun x =>
    { num := num, ranks := s.ranks.filter (·.job == j)
      watch := (s.ranks.filter (·.job == j)).flatMap fun k =>
        (s.coresOf j k.rank).map fun c => (k.rank, c.coreId.toNat, c.watch.toList)
      groups := x.groups, dets := x.dets, stepNo := x.stepNo
      spad := s.mem.filter fun c => decide (spadKey j 0 0 ≤ c.1) && decide (c.1 < spadKey (j + 1) 0 0) }

/-- A rank placed cold receives its image: its slices, at its context areas (10 R298; 12 R348). -/
def coldSlices (w j r : Nat) (s : State) : State :=
  (List.range w).foldl (fun s i =>
    let c := ownCore (placeOf s j r) j r i (Core.reset 0)
    (slice s c).foldl (fun s p => putSys s j r (c.ctxSave.toNat + p.1) p.2) s) s

/-- One rank of the launch (10 R298). -/
def placeRank (i : Image) (j asid r : Nat) (e : PlaceEntry) (s : State) : State :=
  let cold := e.state == .cold
  let gen : BitVec 12 := BitVec.ofNat 12 (fld (s.word (s.chip.asBase.toNat + 32 * asid + 8)) 0 12)
  let k : Rank :=
    { job := j, rank := r, asid := BitVec.ofNat 16 asid, gen := gen, expBase := e.exportBase, expNext := e.exportBase,
      phaseBase := e.phaseBase, stageBase := e.stageBase, watchBase := e.watchBase, cold := cold }
  let s := { s with ranks := s.ranks ++ [k],
                    mem := s.mem.filter fun c => decide (c.1 < spadKey j r 0) || decide (spadKey j (r + 1) 0 ≤ c.1) }
  let s := if cold then s else takeBlock i.width e.ocol e.orow (ownCore e j r) s
  let s := putSys s j r e.phaseBase.toNat (List.replicate 2048 0)
  let s := putSys s j r e.stageBase.toNat (List.replicate 256 0)
  let s := startProgram j r (loadImage i j r s)
  if cold then coldSlices i.width j r s else s

/-- A placement image staged for the tenant is used up (10 R299). -/
def takeStaged (t : Nat) (s : State) : State := s.modChip fun c => { c with staged := c.staged.filter (·.1 != t) }

/-- A JOB launch whose checks have passed. Where reading the group table faults the job has g0 alone, and nothing is reported: the spec
does not say (DESIGN CHOICE, log entry 51). -/
def launchJob (s : State) (i : Image) (j tenant : Nat) (lim : Bool) (done : Nat) (bs : List Byte) : State :=
  let es := stagedEntries bs
  let spaces := jobSpaces s j
  let old := (s.job? j).getD { num := j }
  let groups := loadGroups i.v (if i.groups = 0 then [] else (readSpace s i j (spaces.head?.getD 0) i.groups 524288).getD [])
  let job : Job :=
    { old with tenant := tenant, v := i.v, width := i.width, det := i.det, seed := BitVec.ofNat 64 i.seed,
               pid := BitVec.ofNat 64 (imgVal bs 8 8), lim := lim, groups := groups.1, act := [], laneq := old.laneqNext.getD old.laneq, laneqNext := none, place := es, doneAt := done, status := .running }
  let s := { s with jobs := s.jobs.filter (fun (x : Job) => x.num != j) ++ [job] }
  let s := groups.2.foldl (fun s g => s.post .event [causeCode .grpLimit, j, g]) s
  let here := es.zipIdx.filter fun p => p.1.chip == s.chip.id
  let s := (here.zipIdx).foldl (fun s p => placeRank i j (spaces[p.2]?.getD 0) p.1.2 p.1.1 s) s
  let s := s.modJob j fun x => { x with ckpt := captureOf s j 0 }
  statusRecord ((peerChips s).foldl askBaseline s) done 0 1 j 0

/-- The words of a launch entry (10 R295). -/
structure Entry where
  op : Nat
  early : Bool
  lim : Bool
  job : Nat
  image : Nat
  done : Nat
  bad : Bool
deriving DecidableEq, Repr

def entryWords (s : State) (at' : Nat) : Entry :=
  let w (i : Nat) : Word := s.word (at' + 8 * i)
  let op := fld (w 0) 0 8
  let bad := fld (w 0) 10 22 ≠ 0 ∨ fld (w 0) 48 16 ≠ 0 ∨ fld (w 1) 52 12 ≠ 0 ∨ fld (w 2) 52 12 ≠ 0
    ∨ ((List.range 5).any fun i => w (i + 3) != 0) ∨ (op ≠ 1 ∧ op ≠ 2) ∨ (op = 1 ∧ fld (w 0) 32 16 ≠ 0)
    ∨ fld (w 1) 0 12 ≠ 0 ∨ fld (w 2) 0 5 ≠ 0
  ⟨op, bitOf (w 0) 8, bitOf (w 0) 9, fld (w 0) 32 16, fld (w 1) 0 52, fld (w 2) 0 52, decide bad⟩

/-- The refusal a launch entry meets, in the order of R296; the last two also under R426. -/
def launchRefusal (s : State) (q : Nat) (e : Entry) : Option Cause :=
  if e.bad then some .launchEntry
  else match readImage s e.image with
    | none => some .launchImage
    | some i =>
      let t := qTenant s q
      if i.kind + 1 ≠ e.op then some .launchImage
      else if e.op = 2 then
        match s.job? e.job with
        | none => some .launchBusy
        | some x =>
          -- a job that has ended holds no rank in whose space the image could be read
          if x.status = .free ∨ x.status = .killed then some .launchBusy
          else
          let st := (s.ranks.find? (·.job == e.job)).bind fun k => readRank s e.job k.rank i.stages 256
          if i.width ≠ x.width ∨ i.v ≠ x.v ∨ !(st.map fun b => stagesOk (stageTable b)).getD false then some .launchImage
          else if x.tenant ≠ t ∨ x.succ.isSome then some .launchBusy
          else if s.chip.svc = 1 ∧ !e.lim then some .launchLimited
          else none
      else
        let j := newJob s
        let st := (jobSpaces s j).head?.bind fun a => readSpace s i j a i.stages 256
        if !(st.map fun b => stagesOk (stageTable b)).getD false then some .launchImage
        else match s.chip.staged.lookup t with
          | none => some .launchPlace
          | some bs =>
            let act := (stagedEntries bs).filter fun p => p.chip == s.chip.id && p.state == .active
            let need := i.width * act.length
            if !placementOk s i.v i.width bs then some .launchPlace
            else if ranksOver s bs ∨ ((s.job? j).map (·.coreq)).getD 0 < need ∨ !act.all (fun p => blockFree s i.width p.ocol p.orow)
                ∨ (s.chip.svc = 1 ∧ (i.width = 128 ∨ 64 < need)) then some .launchCores
            else if s.chip.svc = 1 ∧ (!e.lim ∨ (stagedEntries bs).any fun p => p.chip != s.chip.id) then some .launchLimited
            else none

/-- May the front end take an entry of the queue (10 R292; 14 R395). -/
def takeReady (s : State) (q : Nat) : Bool :=
  powered s && s.chip.svc != 0 && (s.chip.mapped.any fun m => m.q == q && !m.unmapping) && !queueBusy s q
    && qNotify s q != qServed s q && !qErr s q && (tdiAt s (qTenant s q)).st != .error

def execLaunchEntryTake (q : Nat) (s : State) : Host.Outcome State Fault Refusal :=
  if !takeReady s q then .next s
  else
    let n := 2 ^ fld (qdWord s q 0) 52 4
    let e := entryWords s (fld (qdWord s q 0) 0 52 + 64 * (qServed s q % n))
    match launchRefusal s q e with
    | some c =>
      let s := if e.op = 1 then takeStaged (qTenant s q) s else s
      .next (serveNext (statusRecord s e.done 0 3 (if e.op = 2 then e.job else 0) (causeCode c)) q)
    | none =>
      if e.op = 2 then
        .next (s.modJob e.job fun x => { x with succ := some ⟨q, e.image, e.early, e.done, []⟩ })
      else match readImage s e.image with
        | none => .next s
        | some i =>
          let bs := (s.chip.staged.lookup (qTenant s q)).getD []
          .next (serveNext (launchJob (takeStaged (qTenant s q) s) i (newJob s) (qTenant s q) e.lim e.done bs) q)

end Sys2Proof.Machine
end

