-- ==== Sys2Proof/Machine/Aperture.lean ====
section
/-!
DEFINITION. The Aperture of a job (11 R331 to R336): the schedule that an accepted image resolves to on this chip, its
activation, slots and windows. A window's byte budget is timing and left out (log entry 22).
-/
namespace Sys2Proof.Machine

/-! ## Resolution (11 R333) -/

/-- A mapping record of an image: slot, source and destination rank, lanes, window. -/
structure AptRec where
  slot : Nat
  src : Nat
  dst : Nat
  lanes : Nat
  woff : Nat
  wlen : Nat
deriving DecidableEq, Repr

def aptRecs (bs : List Byte) : List AptRec :=
  (List.range (imgVal bs 0 8 / 256 % 8192)).map fun i =>
    let a := imgVal bs (64 + 16 * i) 8
    let b := imgVal bs (72 + 16 * i) 8
    ⟨a % 16, a / 2 ^ 4 % 2 ^ 14, a / 2 ^ 18 % 2 ^ 14, a / 2 ^ 32 % 16, b % 2 ^ 16, b / 2 ^ 16 % 2 ^ 16⟩

/-- The chip of a rank. -/
def chipOf (s : State) (j r : Nat) : Nat :=
  match s.rank? j r with
  | some _ => s.chip.id
  | none => (placeOf s j r).chip

/-- The mappings that govern: those of one chip are dropped, then the first of each slot and pair of chips stays. -/
def governing (s : State) (j : Nat) : List AptRec → List (Nat × Nat × Nat) → List AptRec
  | [], _ => []
  | m :: ms, seen =>
    let a := chipOf s j m.src
    let b := chipOf s j m.dst
    if a = b ∨ seen.contains (m.slot, a, b) then governing s j ms seen
    else m :: governing s j ms ((m.slot, a, b) :: seen)

/-- This chip's mappings in image order, each with the lanes of its slot it takes; a mapping past Q is left out. `used`: lanes taken of each
slot. -/
def takeLanes (s : State) (j q : Nat) : List AptRec → List (Nat × Nat) → List AptMap
  | [], _ => []
  | m :: ms, used =>
    let u := (used.lookup m.slot).getD 0
    if chipOf s j m.src ≠ s.chip.id ∨ q < u + m.lanes then takeLanes s j q ms used
    else
      { slot := m.slot, peer := chipOf s j m.dst, woff := m.woff, wlen := m.wlen, need := m.lanes }
        :: takeLanes s j q ms ((m.slot, u + m.lanes) :: used.filter (·.1 != m.slot))

/-- The schedule an image gives this chip. -/
def planOf (s : State) (j : Nat) (bs : List Byte) : AptPlan :=
  { lens := (List.range (imgVal bs 0 8 % 32)).map (slotLen bs), maps := takeLanes s j (laneQuota s j) (governing s j (aptRecs bs) []) [] }

/-- Lanes of the chip a schedule takes: the most of any slot. -/
def AptPlan.count (p : AptPlan) : Nat :=
  (List.range p.lens.length).foldl (fun n i => max n ((p.maps.filter (·.slot == i)).foldl (fun a m => a + m.need) 0)) 0

/-- Lanes the job holds apart from its Aperture's. -/
def heldLanes (s : State) (j : Nat) : Nat :=
  (s.chip.egress.filter fun l => l.job == j && l.peerRank != 16384 && l.st == .leased).length

/-- The job's own leases are revoked, reason QUOTA, until n Aperture lanes fit beside them (11 R328, R333). -/
def makeAptRoom (j n : Nat) (s : State) : State :=
  let excess := heldLanes s j + n - laneQuota s j
  let vs := (leaseRanks s j).map fun r => (j, r, (heldAll s j r : Int))
  if excess = 0 then s else revokeAll 1 (vs.foldr insVictim []) excess s

/-- The pod slot clock, in TICKS of 10/12 ns (11 R334): every chip of the pod reads the same. -/
def podNow (s : State) : Nat := s.now + s.chip.podOff

/-- The first activation time at least 20 µs away (11 R334). -/
def aptTime (now : Nat) : Nat := (now + 24000 + 11999) / 12000 * 12000

/-- The first start of a rotation at least 20 µs away. -/
def nextRotation0 (a : Aperture) (now : Nat) : Nat :=
  let period := 12 * a.plan.lens.foldl (· + ·) 0
  let start := a.slotAt - 12 * (a.plan.lens.take a.slot).foldl (· + ·) 0
  if !a.act || period = 0 then aptTime now else start + (now + 24000 - start + period - 1) / period * period

/-- What an image resolves to: its slots' lengths, this chip's quota, then of each mapping that governs slot, chips, lanes and window (11
R333). -/
def podOf (s : State) (j : Nat) (bs : List Byte) : List (List Nat) :=
  (List.range (imgVal bs 0 8 % 32)).map (slotLen bs)
    :: [laneQuota s j] :: (governing s j (aptRecs bs) []).map fun m => [m.slot, chipOf s j m.src, chipOf s j m.dst, m.lanes, m.woff, m.wlen]

/-- The job's Aperture lasers. -/
def aptLanes (s : State) (j : Nat) : List Nat :=
  ascNats (s.chip.egress.filterMap fun l => if l.st = .aperture ∧ l.job = j then some l.k else none)

/-- Lasers a mapping has or has asked for; those of a slot, and of a schedule. -/
def AptMap.uses (m : AptMap) : List Nat := m.lanes ++ m.waiting
def AptPlan.slotUses (p : AptPlan) (slot : Nat) : List Nat := (p.maps.filter (·.slot == slot)).flatMap (·.uses)
def AptPlan.uses (p : AptPlan) : List Nat := ascNats (p.maps.flatMap (·.uses))

/-- Lasers a mapping may still ask its peer for, in order: those of the schedule that its slot leaves, then, as far as the schedule's count
allows, those of the Aperture before it and the lowest dark ones (11 R327, R333). -/
def aptAsks (s : State) (j : Nat) (p : AptPlan) (m : AptMap) : List Nat :=
  let mine := p.uses
  let new := ((aptLanes s j) ++ darkLanes s).filter fun k => !mine.contains k && !m.tried.contains k
  let own := mine.filter fun k => !(p.slotUses m.slot).contains k && !m.tried.contains k
  (own ++ new.take (p.count - mine.length)).take (m.need - m.uses.length)

/-- One mapping of the schedule that is to take effect asks its peer for the lanes it lacks, as rank 16384 and the mapping's number; dark
lasers it names are reserved (11 R327). -/
def askMap (j : Nat) (s : State) (i : Nat) : State :=
  match (s.job? j).bind (·.apt.next) with
  | none => s
  | some p => match p.maps[i]? with
    | none => s
    | some m =>
      let ks := aptAsks s j p m
      if ks.isEmpty then s
      else
        let new (k : Nat) : Lane := { k := k, peer := 0, wave := 0, st := .pending, holder := 16384, job := j }
        let dark := ks.filter (laneFree s.chip.egress)
        let s := s.modChip fun c => { c with egress := dark.foldl (fun l k => lightIn (new k) l) c.egress }
        let maps := p.maps.mapIdx fun n x => if n = i then { x with waiting := x.waiting ++ ks } else x
        (s.modJob j fun x => { x with apt := { x.apt with next := some { p with maps := maps } } }).post .leaseOffer
          ([m.peer, j, 16384 + i, 0] ++ ks.map (· / 8))

/-- Every mapping of the schedule that is to take effect asks for what it lacks. -/
def growPlan (j : Nat) (s : State) : State :=
  match (s.job? j).bind (·.apt.next) with
  | none => s
  | some p => (List.range p.maps.length).foldl (askMap j) s

/-- Mapping i of the schedule to come. -/
def nextMap (s : State) (j i : Nat) : Option AptMap := ((s.job? j).bind fun x => x.apt.next).bind fun p => p.maps[i]?

/-- Lasers and wavelengths that mapping i of the schedule to come may not clash with: leases', other jobs' and those of its own slot (11
R318). -/
def clashes (s : State) (j i : Nat) : List (Nat × Nat) :=
  match nextMap s j i with
  | none => []
  | some m => litWaves s ++ aptWaves s fun n new x => n != j || (new && x.slot == m.slot)

/-- The pairs a peer gave for mapping i of the schedule that is to take effect; for lasers it had none for, others are tried, and a pair
that clashes goes back. -/
def takeWaves (j i : Nat) (pairs : List (Nat × Nat)) (s : State) : State :=
  let o := clashes s j i
  let bad := (pairs.filter fun p => !clearWave o p).map (·.2)
  let s := ((nextMap s j i).map fun m => giveBack m.peer j (16384 + i) bad s).getD s
  let add (m : AptMap) : AptMap :=
    let got := pairs.filter fun p => m.waiting.contains p.1 && clearWave o p
    { m with lanes := m.lanes ++ got.map (·.1), waves := m.waves ++ got.map fun p => (p.1, p.2 % 8), waiting := []
             tried := m.tried ++ m.waiting.filter fun k => !got.any (·.1 == k) }
  askMap j (s.modJob j fun x =>
    { x with apt := { x.apt with next := x.apt.next.map fun p => { p with maps := p.maps.mapIdx fun n m => if n = i then add m else m } } }) i

/-- The accepted image is resolved for the placement that holds, to take effect at a time; the job's own leases make room (11 R333,
R334). -/
def installPlan (j at' : Nat) (bs : List Byte) (s : State) : State :=
  let p := planOf s j bs
  let pod := podOf s j bs
  growPlan j ((makeAptRoom j p.count s).modJob j fun x =>
    { x with apt := { x.apt with accepted := some bs, fresh := false, pod := pod, next := some p, at' := at' } })

/-- At a step boundary the Prism of virtual rank 0's chip, the controller, resolves the image accepted last; where that is new, or resolves to
something else than before, its slots begin at a time that every chip of the job hears of with the image (11 R332 to R334). An image
accepted on another chip goes to the controller. A chip whose own quota alone has changed resolves anew with a rotation of the schedule in
force. -/
def resolveAperture (j : Nat) (s : State) : State :=
  match s.job? j with
  | none => s
  | some x =>
    match x.apt.accepted with
    | none => s
    | some bs =>
      let pod := podOf s j bs
      if !x.apt.fresh && pod = x.apt.pod then s
      else if (s.rank? j 0).isSome then
        let at' := aptTime (podNow s)
        let s := installPlan j at' bs s
        (farChips s j).foldl (fun s c => s.post .aperture ([c, j, at'] ++ bs.map (·.toNat))) s
      else if x.apt.fresh then
        (s.modJob j fun y => { y with apt := { y.apt with accepted := none, fresh := false } }).post .aperture
          ([chipOf s j 0, j, 0] ++ bs.map (·.toNat))
      else if pod.eraseIdx 1 = x.apt.pod.eraseIdx 1 then installPlan j (nextRotation0 x.apt (podNow s)) bs s
      else s

/-! ## Rotation (11 R334, R335) -/

/-- Lanes of the slot in progress point at their peers, on the wavelengths these gave. -/
def pointLanes (j : Nat) (s : State) : State :=
  match s.job? j with
  | none => s
  | some x =>
    let here := x.apt.plan.maps.filter (·.slot == x.apt.slot)
    s.modChip fun c =>
      { c with egress := c.egress.map fun l =>
          match here.find? (·.lanes.contains l.k) with
          | some m => if l.st = .aperture ∧ l.job = j then { l with peer := m.peer, wave := (m.waves.lookup l.k).getD l.wave } else l
          | none => l }

/-- Ingress lanes a mapping's lasers land on. -/
def AptMap.ingress (m : AptMap) : List Nat := m.waves.map fun w => w.1 / 8 * 8 + w.2

/-- The schedule that waits takes effect, with its lasers: those for which a peer gave a wavelength are APERTURE, as the ingress
lanes at the peers are, and those of the Aperture before go dark (11 R325, R333, R334); one of no slots removes the Aperture (11
R331). -/
def activate (j : Nat) (p : AptPlan) (s : State) : State :=
  let old := ((s.job? j).map (·.apt.plan.maps)).getD []
  let on := p.maps.flatMap (·.lanes)
  let s := old.foldl (fun s m => giveBack m.peer j 16384 m.ingress s) s
  let s := darkenLanes (fun l => l.st == .aperture && l.job == j && !on.contains l.k) s
  let lit (l : Lane) : List Lane :=
    if l.st = .pending ∧ l.job = j ∧ l.holder = 16384 then
      if on.contains l.k then [{ l with st := .aperture, holder := 0, at' := s.now }] else l.darken
    else [l]
  let s := s.modChip fun c => { c with egress := c.egress.flatMap lit }
  let s := p.maps.zipIdx.foldl (fun (s : State) (m : AptMap × Nat) =>
    if m.1.waves.isEmpty then s else s.post .leaseOffer ([m.1.peer, j, 16384 + m.2, 4, 4] ++ m.1.ingress)) s
  pointLanes j (s.modJob j fun x =>
    { x with apt := { x.apt with plan := p, next := none, act := !p.lens.isEmpty, slot := 0, slotAt := x.apt.at', openW := [] } })

def execApertureActivate (job : Nat) (s : State) : Host.Outcome State Fault Refusal :=
  match s.job? job with
  | none => .next s
  | some x => match x.apt.next with
    | none => .next s
    | some p => if x.apt.at' ≤ podNow s then .next (activate job p s) else .next s

/-- Length of the slot in progress, in TICKS of the pod slot clock. -/
def Aperture.len (a : Aperture) : Nat := 12 * a.plan.lens[a.slot]?.getD 1000

/-- Is the slot in progress over. -/
def slotOver (s : State) (a : Aperture) : Bool := a.act && decide (a.slotAt + a.len ≤ podNow s)

/-- The next slot of the rotation begins; its windows open later (11 R335). -/
def execApertureSlotStart (job : Nat) (s : State) : Host.Outcome State Fault Refusal :=
  match s.job? job with
  | none => .next s
  | some x =>
    if !slotOver s x.apt then .next s
    else .next (pointLanes job (s.modJob job fun x =>
      { x with apt := { x.apt with slot := (x.apt.slot + 1) % max 1 x.apt.plan.lens.length, slotAt := x.apt.slotAt + x.apt.len,
                                   openW := [] } }))

/-- Start and end of a mapping's window in the slot in progress. -/
def windowOf (a : Aperture) (m : AptMap) : Nat × Nat :=
  (a.slotAt + 12 * m.woff, if m.wlen = 0 then a.slotAt + a.len else a.slotAt + 12 * (m.woff + m.wlen))

/-- May window i open, or must it close. -/
def opens (s : State) (a : Aperture) (i : Nat) : Bool :=
  match a.plan.maps[i]? with
  | none => false
  | some m => a.act && m.slot == a.slot && !a.openW.contains i && (windowOf a m).1 ≤ podNow s && podNow s < (windowOf a m).2
def closes (s : State) (a : Aperture) (i : Nat) : Bool :=
  match a.plan.maps[i]? with
  | none => false
  | some m => a.openW.contains i && decide ((windowOf a m).2 ≤ podNow s)

/-- A window opens; what waits for a lane toward its peer leaves first (11 R328, R335, R336). -/
def execApertureWindowOpen (job i : Nat) (s : State) : Host.Outcome State Fault Refusal :=
  match s.job? job with
  | none => .next s
  | some x =>
    if opens s x.apt i then
      let s := s.modJob job fun x => { x with apt := { x.apt with openW := x.apt.openW ++ [i] } }
      .next (match x.apt.plan.maps[i]? with
        | none => s
        | some m => match m.lanes.find? fun k => (laneAt s k).any fun l => l.st == .aperture with
          | none => s
          | some k => relight k m.peer s)
    else .next s

def execApertureWindowClose (job i : Nat) (s : State) : Host.Outcome State Fault Refusal :=
  match s.job? job with
  | none => .next s
  | some x =>
    if closes s x.apt i then .next (s.modJob job fun x => { x with apt := { x.apt with openW := x.apt.openW.filter (· != i) } })
    else .next s

end Sys2Proof.Machine
end

