-- ==== Sys2Proof/Machine/Elastic.lean ====
section
/-!
DEFINITION. Step boundaries (12 R346; 08 R249, R250): quiescing and capture (12 R347, R348), moves (R349 to R353), cold ranks
(R355 to R357), what takes effect (01 R31; 06 R187), the checkpoint's close (15 R417, R418).
-/
namespace Sys2Proof.Machine

/-! ## Parts of a boundary -/

def modBound (s : State) (j : Nat) (f : Bound → Bound) : State := s.modJob j fun x => { x with bound := x.bound.map f }
def setPart (j n : Nat) (s : State) : State := modBound s j fun b => { b with part := n }
/-- A rank changed its place or temperature at this boundary. -/
def noteMoved (j : Nat) (s : State) : State := modBound s j fun b => { b with moved := true }

/-- The job's ranks on this chip, in ascending virtual rank. -/
def localRanks (s : State) (j : Nat) : List Nat := ascNats ((s.ranks.filter (·.job == j)).map (·.rank))

/-- Dispatch goes on unless system software or a park holds the rank. -/
def resumeDispatch (j r : Nat) (s : State) : State := s.modRank j r fun k => { k with noDispatch := k.parked, quiet := false }
def holdDispatch (j r : Nat) (s : State) : State := s.modRank j r fun k => { k with noDispatch := true }

/-- Requests of a kind that the boundary takes for ranks on this chip, in ascending rank: those accepted before it began (12 R344). -/
def reqsOf (s : State) (j : Nat) (kinds : List Nat) : List PlaceReq :=
  let l := (((s.job? j).bind (·.bound)).map (·.reqs)).getD []
  (localRanks s j).filterMap fun r => l.find? fun q => q.rank == r && kinds.contains q.kind
def dropPlaceReq (j r : Nat) (s : State) : State := modBound s j fun b => { b with reqs := b.reqs.filter (·.rank != r) }

/-- A request is refused at the boundary: the rank stays, and the host hears of it (12 R344, R355). -/
def refusePlace (j r : Nat) (c : Cause) (s : State) : State :=
  resumeDispatch j r ((dropPlaceReq j r s).post .event [causeCode c, j, r])

/-! ## Quiescing (12 R347) -/

/-- A BWLS that waits in the Prism's queue (11 R326). -/
def queuedLease (s : State) (c : Core) (x : Cmd) : Bool :=
  s.chip.leaseQ.any fun q => q.job == c.job && q.rank == c.rank && q.core == c.coreId.toNat && q.seq == x.seq

/-- An idle core whose commands have all retired, but for queued BWLS, which go with their rank (12 R353); no stream or drain halted. -/
def quietCore (s : State) (c : Core) : Bool :=
  c.stage.isNone && !c.drnRun && c.cmds.all (queuedLease s c) && c.recs.isEmpty && c.accq.isEmpty && c.drains.isEmpty
    && c.strm.toList.all fun p => p.st != .halted
def rankQuiet (s : State) (j r : Nat) : Bool := (rankCores s j r).all (quietCore s)

/-! ## Pages and lines (12 R349, R350) -/

/-- Leaves below a table that holds level `lvl`: first address, level, word; entries of level 0 from 0x380 on are ignored (13 R363). -/
def leavesBelow (s : State) : List (Nat × Nat × Nat) → Nat → Nat → List (Nat × Nat × Word)
  | [], _, _ => []
  | (lvl, lo, n) :: rest, t, va =>
    (List.range (if lvl = 0 then 0x380 else 2 ^ n)).flatMap fun i =>
      let e := entryAt s (t + 8 * i)
      if !physOk (t + 8 * i) || !bitOf e 0 then []
      else if !bitOf e 1 then leavesBelow s rest (fld e 8 44 * 256) (va + i * 2 ^ lo)
      else if lvl = 0 then [] else [(va + i * 2 ^ lo, lvl, e)]

/-- Present pages of an address space in memory of the chip. -/
def presentPages (s : State) (asid : BitVec 16) : List (Nat × Nat × Word) :=
  let root := entryAt s (s.chip.asBase.toNat + 32 * asid.toNat)
  if bitOf root 52 then (leavesBelow s walkLevels (fld root 13 39 * 2 ^ 13) 0).filter fun p => decide (fld p.2.2 5 2 ≤ 1) else []

/-- Their lines, by number. -/
def rankLines (s : State) (asid : BitVec 16) : List Nat :=
  (presentPages s asid).flatMap fun p => (List.range (2 ^ (pageBits p.2.1 - 6))).map (· + p.1 / 64)

def migOf (s : State) (j r : Nat) (inward : Bool) : Option Mig :=
  s.chip.migs.find? fun m => m.job == j && m.rank == r && m.inward == inward
def modMig (s : State) (j r : Nat) (inward : Bool) (f : Mig → Mig) : State :=
  s.modChip fun c => { c with migs := c.migs.map fun m => if m.job = j ∧ m.rank = r ∧ m.inward = inward then f m else m }
def dropMig (s : State) (j r : Nat) (inward : Bool) : State :=
  s.modChip fun c => { c with migs := c.migs.filter fun m => !(m.job == j && m.rank == r && m.inward == inward) }

/-! ## Leaving (12 R350 to R352) -/

/-- The last line has flipped: the rank lives elsewhere, and its cores and blocks here are free (12 R351). -/
def leave (m : Mig) (s : State) : State :=
  let old := placeOf s m.job m.rank
  let st : PlaceState := if m.cold then .cold else .active
  let new : PlaceEntry := { old with chip := m.chip, ocol := m.ocol, orow := m.orow, state := st, pgen := old.pgen + 1, wake := false }
  let s := setPlace s m.job m.rank fun _ => new
  let n := (farChips s m.job).length
  let s := tellPlace m.job m.rank new s
  let s := setPlace s m.job m.rank fun _ => { new with state := .forward, pendack := n }
  let s := modMig s m.job m.rank false fun x => { x with active := false, flipped := [] }
  -- lanes toward the new home stay lit while forwarding has no other (12 R353)
  let lit := s.chip.egress.any fun l => l.st == .baseline && l.peer == m.chip
  let goes (l : Lane) : Bool := l.peerRank == 16384 || l.st == .pending || l.peer != m.chip || lit
  let s := darkenLanes (fun l => l.job == m.job && l.holder == m.rank && (l.st == .leased || l.st == .pending) && goes l) s
  let mine (j r : Nat) : Bool := j == m.job && r == m.rank
  let s := s.modChip fun c =>
    { c with leases := c.leases.filter fun l => !mine l.job l.rank, leaseQ := c.leaseQ.filter fun q => !mine q.job q.rank }
  noteMoved m.job (dropPlaceReq m.job m.rank
    { s.mapCores (fun c => if State.owned m.job m.rank c then c.freed else c) with
      ranks := s.ranks.filter fun k => !(k.job == m.job && k.rank == m.rank) })

/-- Has every line flipped. -/
def allFlipped (s : State) (m : Mig) : Bool :=
  match s.rank? m.job m.rank with
  | none => false
  | some k => (rankLines s k.asid).all m.flipped.contains

def settleMig (j r : Nat) (s : State) : State :=
  match migOf s j r false with
  | none => s
  | some m => if m.active && allFlipped s m then leave m s else s

/-- The lane an engine's copy takes: one lent to it, else the baseline lane (12 R349). -/
def copyLane (s : State) (j r c : Nat) : Option Nat :=
  ((s.chip.egress.find? fun l => l.st == .leased && l.job == j && l.holder == r && l.peerRank == 16384 && l.peer == c).map (·.k)).or
    ((s.chip.egress.find? fun l => l.st == .baseline && l.peer == c).map (·.k))

/-- A line of a moving rank is copied and flips (12 R350): it goes to the new chip with its page's level and leaf, and its poison goes with
it (15 R416). A page fault is the migration engine's (13 R371), which waits where no record is free. -/
def flipLine (j r line : Nat) (s : State) : State :=
  match translate s (s.unitReq j r true).asid (line * 64) .read true with
  | .error c => (engineFault s 1 (s.unitReq j r true).asid (line * 64) c).getD s
  | .ok l =>
    let pa := tierHome s (fld l.e 16 36 * 2 ^ 16 + line * 64 % 2 ^ pageBits l.lvl)
    let far := farKey j r (line * 64)
    let bad := s.poison.contains (pa / 64)
    let s := s.poke far (s.bytes pa 64)
    let bs := (s.bytes pa 64).map (·.toNat)
    let s := if bad then { s with poison := (far / 64) :: s.poison.erase (pa / 64) } else s
    let s := match migOf s j r false with
      | none => s
      | some m => sendOn m.chip (copyLane s j r m.chip) ([j, r, line * 64, 64, 7, l.lvl, l.e.toNat, b2n bad] ++ bs) s
    modMig s j r false fun m => { m with flipped := line :: m.flipped }

/-- A copy to another chip begins (12 R349), where there is a fabric (15 R426): the new home hears of it, with the request's kind where PENDACK stands, and every free
lane toward it is to be lent to the engine. -/
def startCopy (j : Nat) (q : PlaceReq) (s : State) : State :=
  if s.chip.lost.contains q.chip || s.chip.svc == 1 then refusePlace j q.rank .placeRoom s
  else
    let m : Mig :=
      { job := j, rank := q.rank, inward := false, chip := q.chip, ocol := q.ocol, orow := q.orow, flipped := [], markers := [], held := [],
        active := true, cold := q.kind == 2 }
    let e : PlaceEntry := { placeOf s j q.rank with chip := q.chip, ocol := q.ocol, orow := q.orow, state := .moving, pendack := q.kind }
    let s := s.post .placement ([q.chip, j, q.rank] ++ placeWords e)
    let ks := darkLanes s
    let s := if ks.isEmpty then s else offerLasers j q.rank 16384 q.chip ks s
    settleMig j q.rank (s.modChip fun c => { c with migs := c.migs ++ [m] })

/-- Lanes lent for a rank's copy go dark, without a record (12 R349). -/
def unlend (j r : Nat) (s : State) : State :=
  darkenLanes (fun l => l.job == j && l.holder == r && l.peerRank == 16384) s

/-- A move is abandoned: lines that had flipped are authoritative here again, with what reached them (12 R361). -/
def abandonMove (m : Mig) (s : State) : State :=
  let back (s : State) (line : Nat) : State :=
    match translate s (s.unitReq m.job m.rank true).asid (line * 64) .read true with
    | .error _ => s
    | .ok l =>
      let pa := tierHome s (fld l.e 16 36 * 2 ^ 16 + line * 64 % 2 ^ pageBits l.lvl)
      let far := farKey m.job m.rank (line * 64)
      let s := s.poke pa (s.bytes far 64)
      if s.poison.contains (far / 64) then { s with poison := (pa / 64) :: (s.poison.erase (far / 64)).erase (pa / 64) } else s
  unlend m.job m.rank (dropMig (m.flipped.foldl back s) m.job m.rank false)

/-! ## Here (12 R344, R355 to R357) -/

def activeHere (s : State) (j r : Nat) : Bool := ((s.rank? j r).map fun k => !k.cold).getD false

/-- Watch entries of a rank by core and index. -/
def watchImage (s : State) (j r : Nat) : List (Nat × Nat × WEnt) :=
  (rankCores s j r).flatMap fun c => (c.watch.toList.zipIdx).filterMap fun p => p.1.map fun e => (c.coreId.toNat, p.2, e)

/-- What an entry had been ready for at capture (12 R351); and its RTIME once it stands in a table again. -/
def aged (at' : Nat) (e : WEnt) : WEnt := if e.rdy then { e with rtime := at' - e.rtime } else e
def young (now : Nat) (e : WEnt) : WEnt := if e.rdy then { e with rtime := now - e.rtime } else e
def capTime (s : State) (j r : Nat) : Nat := ((s.rank? j r).map (·.capAt)).getD s.now

/-- A rank's cores at a new block, with its watch entries compared at once (12 R351). -/
def seat (j r col row : Nat) (l : List (Nat × Nat × WEnt)) (s : State) : State :=
  let e := placeOf s j r
  recheck (loadDrain (takeBlock (jobWidth s j) col row (fun i c => { ownCore e j r i c with watch := imageWatch l i }) s) j r)

/-- What goes with a rank beside its capture: what the early-launch release has told (log entry 38), and queued BWLS with the numbers their
core has given out (12 R353). -/
def carried (old : List Core) (c : Core) : Core :=
  match old.find? (·.coreId == c.coreId) with
  | none => c
  | some x =>
    { c with trigged := x.trigged, trigSent := x.trigSent, cmds := x.cmds, seqCtr := x.seqCtr, tok := x.tok, tokLast := x.tokLast }

/-- A move to another block of this chip: the capture goes to the new cores, and dispatch resumes there (12 R351). -/
def moveHere (j : Nat) (q : PlaceReq) (s : State) : State :=
  if !blockFree s (jobWidth s j) q.ocol q.orow then refusePlace j q.rank .placeRoom s
  else
    let n := s.now
    let cap := capTime s j q.rank
    let again (e : WEnt) : WEnt := young n (aged cap e)
    let l := (watchImage s j q.rank).map fun p => (p.1, p.2.1, again p.2.2)
    let old := rankCores s j q.rank
    let s := (s.mapCores fun c => if State.owned j q.rank c then c.freed else c).modRank j q.rank fun k =>
      { k with saved := [], spill := k.spill.map fun x => (x.1, again x.2) }
    let s := setPlace s j q.rank fun e => { e with ocol := q.ocol, orow := q.orow, pgen := e.pgen + 1 }
    let s := tellPlace j q.rank (placeOf s j q.rank) s
    let s := (seat j q.rank q.ocol q.orow l s).mapCores fun c => if State.owned j q.rank c then carried old c else c
    resumeDispatch j q.rank (noteMoved j (dropPlaceReq j q.rank s))

/-- Does DEMOTE stand against what the rank still holds (12 R355). -/
def demoteBusy (s : State) (j r : Nat) : Bool :=
  (((s.job? j).map (·.groups)).getD []).any (fun g => g.g != 0 && g.memb.contains r) || heldAll s j r != 0
    || (s.chip.leaseQ.any fun q => q.job == j && q.rank == r) || !(readyOf s j r).isEmpty

/-- A demotion to this chip's LPDDR-6: cores are freed, and HBM4E pages are to move later (12 R355). -/
def demoteHere (j : Nat) (q : PlaceReq) (s : State) : State :=
  if 64 ≤ coldCount s then refusePlace j q.rank .placeRoom s
  else
    let n := capTime s j q.rank
    let l := (watchImage s j q.rank).map fun p => (p.1, p.2.1, aged n p.2.2)
    let asid := (s.unitReq j q.rank true).asid
    let pages := (presentPages s asid).filter fun p => fld p.2.2 5 2 = 0
    let s := (s.mapCores fun c => if State.owned j q.rank c then c.freed else c).modRank j q.rank fun k =>
      { k with cold := true, image := l, saved := [], noDispatch := k.parked, quiet := false,
               spill := k.spill.map fun x => (x.1, aged n x.2) }
    let s := setPlace s j q.rank fun e => { e with state := .cold, pgen := e.pgen + 1, chip := s.chip.id, wake := false }
    let s := tellPlace j q.rank (placeOf s j q.rank) s
    noteMoved j (dropPlaceReq j q.rank (pages.foldl (fun s p => queueMove s asid p.1 1 (fld p.2.2 7 3)) s))

/-- A cold rank is restored into the block at the origin (12 R357); it is dispatched once the boundary has ended (19 R441). -/
def recallTo (j r col row : Nat) (s : State) : State :=
  match s.rank? j r with
  | none => s
  | some k =>
    let n := s.now
    let s := setPlace s j r fun e => { e with state := .active, ocol := col, orow := row, pgen := e.pgen + 1, wake := false }
    let s := tellPlace j r (placeOf s j r) s
    let s := s.modRank j r fun k => { k with cold := false, image := [], noDispatch := true, spill := k.spill.map fun x => (x.1, young n x.2) }
    noteMoved j (dropPlaceReq j r (seat j r col row (k.image.map fun p => (p.1, p.2.1, young n p.2.2)) s))

/-- May the rank take a block of the chip (12 R344). -/
def roomFor (s : State) (j : Nat) : Bool :=
  activeCount s < 32 && coresHeld s j + jobWidth s j ≤ ((s.job? j).map (·.coreq)).getD 0

/-- RECALL to a block of this chip. -/
def recallHere (j : Nat) (q : PlaceReq) (s : State) : State :=
  if roomFor s j && blockFree s (jobWidth s j) q.ocol q.orow then recallTo j q.rank q.ocol q.orow s
  else refusePlace j q.rank .placeRoom s

/-- A cold rank with WAKE set goes to the lowest free block; without room it is tried again (12 R356). -/
def wakeHere (j r : Nat) (s : State) : State :=
  match s.rank? j r with
  | none => s
  | some k =>
    if !k.cold || !(placeOf s j r).wake || !roomFor s j then s
    else match lowestBlock s (jobWidth s j) with
      | none => s
      | some (col, row) => recallTo j r col row s

/-! ## Leases follow (12 R353) -/

/-- A lane quota that waits for the boundary takes effect (16 R432), and lanes above it are revoked (11 R330). -/
def newLanes (j : Nat) (s : State) : State :=
  match (s.job? j).bind (·.laneqNext) with
  | none => s
  | some q => trimLanes j (s.modJob j fun x => { x with laneq := q, laneqNext := none })

/-- Leases toward a peer rank that lives elsewhere now: their lanes go, and one request a lane stands at the head of the
queue, as old as the lane's grant (11 R339). -/
def followPeers (j : Nat) (s : State) : State :=
  let mine := s.chip.egress.filter fun l => l.leased && l.job == j && l.peer != chipOf s j l.peerRank
  let pairs := (mine.map fun l => (l.holder, l.peerRank)).eraseDups
  let gone := mine.map (·.k)
  let t := darkenLanes (fun l => gone.contains l.k) s
  pairs.foldl (fun s p =>
    match leaseOf s j p.1 p.2, farChip s j p.2 with
    | some l, some _ =>
      let lost := mine.filter fun l => l.holder == p.1 && l.peerRank == p.2
      s.modChip fun c => { c with leaseQ := lost.map (fun x => replacement l x.at') ++ c.leaseQ }
    | _, _ => s) t

/-! ## What takes effect (01 R29, R31; 06 R187) -/

/-- Codebooks, drain memory and EXPORT_BASE of one rank. -/
def renewRank (j : Nat) (s : State) (r : Nat) : State :=
  let s := s.modRank j r fun k => { k with cbBase := k.cbNext }
  let s := match loadCodebooks s j r with
    | .ok s => s
    | .error f => reportItem (noteFault s 9 f) j r f.c f.va
  let s := loadDrain s j r
  match s.rank? j r with
  | none => s
  | some k =>
    if k.expNext = k.expBase then s
    else
      let s := (s.modRank j r fun k => { k with expBase := k.expNext })
      let s := setPlace s j r fun e => { e with exportBase := k.expNext }
      advanceGen (tellPlace j r (placeOf s j r) s) k.asid

/-! ## The end of a boundary -/

/-- Does the checkpoint interval close at this boundary (15 R417). -/
def closeDue (x : Job) (moved : Bool) : Bool :=
  x.ckptEvery ≤ x.bounds + 1 || x.chkptDue || moved || x.logFull || 3 * x.logLines ≤ 4 * x.log.length

/-- The phase word of g0 at a rank; a cold rank's captured image holds it too (12 R356). -/
def putG0 (j p : Nat) (s : State) (r : Nat) : State :=
  let s := putPhase j 0 p s r
  match s.rank? j r with
  | none => s
  | some k =>
    if !k.cold then s
    else
      let off := k.phaseBase.toNat - spadLo
      putSys s j r ((placeOf s j r).ctxBase.toNat + off / 2 ^ 22 * 2 ^ 23 + off % 2 ^ 22) (leBytes 8 p)

/-- Part 9 (08 R250): STEP_NO advances, then the phase words are written. -/
def endBoundary (j : Nat) (s : State) : State :=
  let s := s.modJob j fun x => { x with stepNo := x.stepNo + 1, bound := none }
  let p := (((s.job? j).bind (·.group? 0)).map (·.phase)).getD 0
  let s := (localRanks s j).foldl (putG0 j p) s
  (localRanks s j).foldl (fun s r => resumeDispatch j r s) s

/-- Copies under way. -/
def copying (s : State) (j : Nat) : Bool := s.chip.migs.any fun m => m.job == j && m.active

/-- The leases that a rank which came held at its old home are given anew, ahead of every queued request, and its queued BWLS are queued with the time they were accepted (12 R353); how many toward which ranks, the old
home sent (log entry 20). -/
def arrivedLeases (j : Nat) (s : State) (r : Nat) : State :=
  let f (i : Nat) : Nat := Config.freeRemote (s.freeCtr + i)
  let v := ((s.job? j).map (·.v)).getD 1
  let mk (i : Nat) : LeaseReq :=
    { job := j, rank := r, peer := f (8 * i + 1) % v, count := f (8 * i + 2) % 2048 + 1, min := f (8 * i + 3) % 2048 + 1, at' := f (8 * i + 4)
      core := f (8 * i + 5) % jobWidth s j, seq := BitVec.ofNat 32 (f (8 * i + 6)), ring := f (8 * i + 7) % 8, desc := BitVec.ofNat 256 (f (8 * i + 8))
      task := 0 }
  let own (q : LeaseReq) : Lease := ⟨q.job, q.rank, q.peer, q.core, q.seq, q.ring, q.desc, q.task⟩
  let held := (List.range (f 0 % 8)).map mk
  let queued := (List.range (f 0 / 8 % 8)).map fun i => let q := mk (8 + i); { q with min := min q.min q.count }
  let cmd (q : LeaseReq) : Cmd :=
    { seq := q.seq, k := 0, preds := [], op := .bwls q.peer q.count q.min, st := .flag, ring := q.ring, desc := q.desc }
  let s := s.mapCores fun c =>
    if State.owned j r c then { c with cmds := c.cmds ++ ((queued.filter fun q => q.core == c.coreId.toNat).map cmd) } else c
  { s.modChip fun c =>
      { c with leaseQ := held.flatMap (fun q => List.replicate q.count (replacement (own q) q.at')) ++ c.leaseQ ++ queued
               leases := held.map own ++ c.leases } with
    freeCtr := s.freeCtr + 160 }

/-- Do the job's ranks on other chips make the interval close at this boundary: a log there is three quarters full (15 R417; log entry
20). -/
def farClose (s : State) (j : Nat) : Bool := !(farChips s j).isEmpty && Config.farState j 2 s.now

/-- The work of the part a boundary stands at, and of those after it that need not wait (12 R346). -/
def advance : Nat → Nat → State → State
  | 0, _, s => s
  | n + 1, j, s =>
    match (s.job? j).bind (·.bound) with
    | none => s
    | some b =>
      let here (q : PlaceReq) : Bool := q.chip == s.chip.id
      match b.part with
      | 3 =>
        if !b.waiting.isEmpty then s
        else advance n j (((reqsOf s j [1]).filter fun q => !here q).foldl (fun s q => startCopy j q s) (setPart j 4 s))
      | 4 =>
        if copying s j then s
        else
          let away (s : State) (q : PlaceReq) : State :=
            if q.kind = 2 ∧ demoteBusy s j q.rank then refusePlace j q.rank .placeBusy s else startCopy j q s
          let down (s : State) (q : PlaceReq) : State :=
            if demoteBusy s j q.rank then refusePlace j q.rank .placeBusy s else demoteHere j q s
          let s := ((reqsOf s j [1]).filter here).foldl (fun s q => moveHere j q s) (setPart j 5 s)
          let s := ((reqsOf s j [2, 3]).filter fun q => !here q).foldl away s
          let s := ((reqsOf s j [2]).filter here).foldl down s
          let s := ((reqsOf s j [3]).filter here).foldl (fun s q => recallHere j q s) s
          advance n j ((localRanks s j).foldl (fun s r => wakeHere j r s) s)
      | 5 =>
        if copying s j then s
        else advance n j (setPart j 6 (baselines (resolveAperture j (b.came.foldl (arrivedLeases j) (followPeers j (newLanes j s))))))
      | 6 =>
        if !baselinesLit s then s else advance n j (setPart j 7 s)
      | 7 =>
        let s := (localRanks s j).foldl (renewRank j) s
        match s.job? j with
        | none => s
        | some x =>
          let due := closeDue x ((x.bound.map (·.moved)).getD false) || farClose s j
          let s := s.modJob j fun x => { x with bounds := x.bounds + 1 }
          if !due then advance n j (setPart j 9 s)
          else
            let rs := (localRanks s j).filter (activeHere s j)
            let now := s.now
            modBound (rs.foldl (fun s r => holdDispatch j r s) s) j fun b => { b with part := 8, ckpt := true, waiting := rs, start := now }
      | 9 => endBoundary j s
      | _ => s

/-- A step boundary begins: parts 1 and 2 are done with the phase; it takes the requests accepted so far, and ranks to be moved or demoted
stop (12 R344, R346, R347). -/
def startBoundary (j : Nat) (s : State) : State :=
  let now := s.now
  let s := s.modJob j fun x =>
    { x with bound := some { part := 3, waiting := [], ckpt := false, moved := false, start := now, reqs := x.reqs.filter (·.kind != 4) }
             reqs := x.reqs.filter (·.kind == 4) }
  let rs := ((reqsOf s j [1, 2]).filter fun q => activeHere s j q.rank).map (·.rank)
  advance 8 j (modBound (rs.foldl (fun s r => holdDispatch j r s) s) j fun b => { b with waiting := rs })

/-! ## Phases complete (08 R249, R250) -/

/-- Is the phase of g0 a step boundary, or mixed. -/
def stepPhase (g : Group) : Bool := g.g == 0 && g.arrived.all (·.2)
def mixedPhase (g : Group) : Bool := g.g == 0 && g.arrived.any (·.2) && g.arrived.any fun a => !a.2

def execPhaseComplete (job g : Nat) (s : State) : Host.Outcome State Fault Refusal :=
  match s.job? job with
  | none => .next s
  | some x =>
    match x.group? g with
    | none => .next s
    | some gr =>
      let first := x.groups.all fun y => g ≤ y.g || !phaseReady s job y || (y.g == 0 && x.bound.isSome)
      if !phaseReady s job gr || (g == 0 && x.bound.isSome) || !first || s.now ≤ gr.lastAt || !detsStarted s job g gr.phase then .next s
      else
        let t := phaseOver job gr s
        if stepPhase gr then .next (startBoundary job t)
        else
          let t := gr.memb.foldl (putPhase job g (gr.phase + 1)) t
          if mixedPhase gr then .next ((localRanks t job).foldl (fun s r => reportItem s job r .barvMix 0) t) else .next t

/-! ## Quiesced ranks (12 R347, R348; 15 R418) -/

/-- Does the boundary wait for the rank. -/
def boundWaits (s : State) (j r : Nat) : Bool := (((s.job? j).bind (·.bound)).map fun b => b.waiting.contains r).getD false

def execRankQuiesced (job rank : Nat) (s : State) : Host.Outcome State Fault Refusal :=
  if !boundWaits s job rank || !rankQuiet s job rank then .next s
  else
    let s := (rankCores s job rank).foldl captureCore s
    let n := s.now
    let s := s.modRank job rank fun k => { k with quiet := true, capAt := n }
    .next (advance 8 job (modBound s job fun b => { b with waiting := b.waiting.filter (· != rank) }))

/-- Has MIG_WAIT, of the rank's core 0, passed since the wait began; of a rank on another chip, which that chip tells (log entry 1),
it matters to a close alone. -/
def migLate (s : State) (j r : Nat) : Bool :=
  match (s.job? j).bind (·.bound) with
  | none => false
  | some b => if (s.rank? j r).isNone then b.part == 8 && b.ckpt && (farChip s j r).isSome else b.waiting.contains r && decide (b.start + (((rankCores s j r).head?.map (·.migWait.toNat)).getD (2 ^ 22)) ≤ s.now)

/-- A rank that does not quiesce: its request is abandoned, or the close put off (12 R347; 15 R418). -/
def execMigTimeout (job rank : Nat) (s : State) : Host.Outcome State Fault Refusal :=
  if !migLate s job rank then .next s
  else match (s.job? job).bind (·.bound) with
    | none => .next s
    | some b =>
      if b.part = 8 then
        -- the close is put off on every chip of the job
        let s := s.modJob job fun x => { x with chkptDue := true }
        let s := modBound s job fun b => { b with part := 9, waiting := [], ckpt := false }
        .next (advance 8 job ((localRanks s job).foldl (fun s r => resumeDispatch job r s) s))
      else
        let s := resumeDispatch job rank (dropPlaceReq job rank s)
        let s := modBound s job fun b => { b with waiting := b.waiting.filter (· != rank) }
        .next (advance 8 job (reportItem s job rank .migTimeout 0))

/-- The checkpoint commits (15 R417, R418): what the chip keeps, the copies in the context areas, an empty log, dispatch
resumed. -/
def execCheckpointCommit (job : Nat) (s : State) : Host.Outcome State Fault Refusal :=
  match s.job? job with
  | none => .next s
  | some x =>
    match x.bound with
    | none => .next s
    | some b =>
      if b.part != 8 || !b.ckpt || !b.waiting.isEmpty then .next s
      else
        let n := x.ckptNo + 1
        let s := (s.ranks.filter (·.job == job)).foldl (fun s k => captureTables s x k n) s
        let cap := captureOf s job n
        let s := s.modJob job fun x =>
          { x with ckptNo := n, ckpt := cap, log := [], logFull := false, bounds := 0, chkptDue := false }
        let s := (localRanks s job).foldl (fun s r => resumeDispatch job r s) s
        .next (advance 8 job (modBound s job fun b => { b with part := 9, ckpt := false }))

/-! ## Lines and entries (12 R349 to R352) -/

/-- The engine copies the next line, in the port's entries of the job's tenant alone (10 R311; 12 R349, R350). -/
def execMigrationLineFlip (job rank line : Nat) (s : State) : Host.Outcome State Fault Refusal :=
  match migOf s job rank false, s.rank? job rank with
  | some m, some k =>
    if !m.active || m.flipped.contains line || !(rankLines s k.asid).contains line || !portHeld s 2 job then .next s
    else .next (advance 8 job (settleMig job rank (flipLine job rank line s)))
  | _, _ => .next s

/-- Address space and tables of a rank that comes from another chip are what that chip sent (01 R19; log entry 20); one that is recalled is
dispatched once the boundary has ended (19 R441). -/
def arrivedRank (s : State) (j r : Nat) (e : PlaceEntry) (again : Bool) : Rank :=
  let n := s.freeCtr
  let w {k : Nat} (i : Nat) : BitVec k := BitVec.ofNat k (Config.freeRemote (n + i))
  { job := j, rank := r, asid := w 277, gen := w 278, ti := Vector.ofFn fun i : Fin 256 => w i.1, cbs := w 256
    stages := Vector.ofFn fun i : Fin 16 => w (257 + i.1), cbBase := w 273, cbNext := w 274, expBase := e.exportBase, expNext := w 275
    phaseBase := e.phaseBase, stageBase := e.stageBase, watchBase := e.watchBase, fwdRing := w 276, cold := e.state == .cold
    noDispatch := again && ((s.job? j).bind (·.bound)).isSome }

/-- The age at capture of the i-th entry that came ready: the new chip has it from the old one (12 R351; log entry 20). -/
def arrivedAge (s : State) (i : Nat) (e : WEnt) : WEnt := if e.rdy then { e with rtime := Config.freeRemote (s.freeCtr + i) } else e

/-! ### Pages of a rank that comes (12 R349) -/

/-- n frames in a row of a tier for the job, aligned to their size. -/
def newFrames (j tier n : Nat) (s : State) : Option (State × Nat) :=
  (findRun s tier (n * 2 ^ 16)).map fun pa => (giveFrames j pa n s, pa)

/-- The table an entry leads to, made where the entry is not valid. -/
def tableAt (j ea : Nat) (s : State) : Option (State × Nat) :=
  let e := entryAt s ea
  if bitOf e 0 then (if bitOf e 1 then none else some (s, fld e 8 44 * 256))
  else (newFrames j 1 1 s).map fun p => (setEntry p.1 ea (BitVec.ofNat 64 (1 + p.2)), p.2)

/-- A page's leaf is written at its level, through the levels from table t on. -/
def mapLeaf (j va lvl : Nat) (leaf : Word) : List (Nat × Nat × Nat) → Nat → State → Option State
  | [], _, _ => none
  | (l, lo, n) :: rest, t, s =>
    let ea := t + 8 * (va / 2 ^ lo % 2 ^ n)
    if l = lvl then some (setEntry s ea leaf)
    else match tableAt j ea s with
      | none => none
      | some (s, t) => mapLeaf j va lvl leaf rest t s

/-- Root table of an address space, made with its record where there is none (13 R363, R369). -/
def rootAt (k : Rank) (s : State) : Option (State × Nat) :=
  let ea := s.chip.asBase.toNat + 32 * k.asid.toNat
  if bitOf (entryAt s ea) 52 then some (s, fld (entryAt s ea) 13 39 * 2 ^ 13)
  else (newFrames k.job 1 1 s).map fun p =>
    (setEntry (setEntry p.1 ea (BitVec.ofNat 64 (p.2 + 2 ^ 52))) (ea + 8) (BitVec.ofNat 64 (k.gen.toNat + 2 ^ 12 * k.job)), p.2)

/-- Frames for a page that came: in its tier, or in LPDDR-6 where the rank comes cold, the job's quota puts it lower, or HBM4E has no room
(12 R349, R355). -/
def pageFrames (k : Rank) (leaf : Word) (n : Nat) (s : State) : Option (State × Nat × Nat) :=
  let over' : Bool := match s.job? k.job with
    | some x => decide (x.hbmq < x.hbmu + n)
    | none => true
  let low := (newFrames k.job 1 n s).map fun p => (p.1, 1, p.2)
  if k.cold || fld leaf 5 2 != 0 || over' then low
  else match newFrames k.job 0 n s with
    | some p => some (p.1, 0, p.2)
    | none => low

/-- A page that came is mapped at its virtual address, with its level and leaf; one for which the chip has no frames left stays out, which
the spec does not speak of (DESIGN CHOICE, log entry 38). -/
def mapPage (k : Rank) (s : State) (p : Nat × Nat × Word) : State :=
  match pageFrames k p.2.2 (2 ^ (pageBits p.2.1 - 16)) s with
  | none => s
  | some (t, tier, pa) =>
    let leaf := setFld (setFld (setFld p.2.2 5 2 tier) 12 1 0) 16 36 (pa / 2 ^ 16)
    match rootAt k t with
    | none => s
    | some (t, root) => (mapLeaf k.job p.1 p.2.1 leaf walkLevels root t).getD s

/-- What is kept of a rank of another chip, bytes and poisoned lines, goes. -/
def isFar (j r key : Nat) : Bool := decide (farKey j r 0 ≤ key) && decide (key < farKey j r (2 ^ 52))
def dropFar (j r : Nat) (s : State) : State :=
  { s with mem := s.mem.filter fun c => !isFar j r c.1, poison := s.poison.filter fun l => !isFar j r (l * 64) }

/-- Every page that came is mapped, and the bytes that the copy and forwarded accesses left for the rank now lie in them, with their
poison (12 R349, R350). -/
def landPages (k : Rank) (pages : List (Nat × Nat × Word)) (s : State) : State :=
  let lo := farKey k.job k.rank 0
  let cells := s.mem.filter fun c => isFar k.job k.rank c.1
  let bad := s.poison.filter fun l => isFar k.job k.rank (l * 64)
  let s := dropFar k.job k.rank (pages.foldl (mapPage k) s)
  let at' (s : State) (key : Nat) : Option Nat :=
    match locate s { s.unitReq k.job k.rank true with keepA := true } (key - lo) 1 .read with
    | .ok (_, p) => some p.key
    | .error _ => none
  let s := cells.foldl (fun s c => match at' s c.1 with
    | some key => s.poke key [c.2]
    | none => s) s
  bad.foldl (fun s l => match at' s (l * 64) with
    | some key => { s with poison := key / 64 :: s.poison }
    | none => s) s

/-- Bytes of a rank's context area, from its pages; where they do not translate, what the old chip sent (log entry 20). -/
def areaBytes (s : State) (j r va n : Nat) : List Byte :=
  match readMem s (s.unitReq j r true) va n with
  | .ok (_, bs) => bs
  | .error _ => (List.range n).map fun i => BitVec.ofNat 8 (Config.freeRemote (s.freeCtr + va + i))

/-- The captured watch entries in a rank's context areas (12 R348). -/
def watchIn (s : State) (j r : Nat) : List (Nat × Nat × WEnt) :=
  (List.range (jobWidth s j)).flatMap fun c => (List.range 32).filterMap fun n =>
    match locate s { s.unitReq j r true with keepA := true } ((placeOf s j r).ctxBase.toNat + 2 ^ 23 * c + 0x4A6000 + 128 * n) 128 .read with
    | .ok (_, p) => (entryWords16 s p.key).map fun e => (c, n, e)
    | .error _ => none

/-- A rank is activated here (12 R351): its pages are mapped, and its slices and watch entries are those of its context areas; one that
comes cold holds no block (12 R355). -/
def arriveRank (j r : Nat) (e : PlaceEntry) (m : Mig) (s : State) : State :=
  let k := arrivedRank s j r e m.recalled
  let s := landPages k m.pages { s with freeCtr := s.freeCtr + 279, ranks := s.ranks ++ [k] }
  let s := (List.range (jobWidth s j)).foldl (fun s c =>
    (List.range 48).foldl (fun s i =>
      let off := c * 2 ^ 22 + i * 2 ^ 16
      s.poke (spadKey j r off) (areaBytes s j r (e.ctxBase.toNat + 2 ^ 23 * c + i * 2 ^ 16) (2 ^ 16))) s) s
  let n := s.now
  let entry (p : (Nat × Nat × WEnt) × Nat) : Nat × Nat × WEnt := (p.1.1, p.1.2.1, arrivedAge s p.2 p.1.2.2)
  let l := (watchIn s j r).zipIdx.map entry
  let spill := (spilledIn s k).zipIdx.map fun p => (p.1.1, arrivedAge s (4096 + p.2) p.1.2)
  let s := { s with freeCtr := s.freeCtr + 8192 }
  let s := s.modRank j r fun k =>
    { k with image := if k.cold then l else [], spill := if k.cold then spill else spill.map fun x => (x.1, young n x.2) }
  let s := if k.cold then s else if (((s.job? j).bind (·.bound)).map fun b => decide (b.part ≤ 5)).getD false then modBound s j fun b => { b with came := b.came ++ [r] }
    else arrivedLeases j s r
  if k.cold then s else seat j r e.ocol e.orow (l.map fun p => (p.1, p.2.1, young n p.2.2)) s

/-! ### Transactions (11 R320, R324; 12 R350, R352) -/

/-- Bytes a transaction touches, and what its message says it asks (11 R320). -/
def fabSize : FabOp → Nat
  | .read n => n
  | .write b => b.length
  | .copy _ _ _ _ b => b.length
  | _ => 8
def fabAsks : FabOp → List Nat
  | .read _ => [0]
  | .write b => 1 :: b.map (·.toNat)
  | .atomic op x => [2, op.code, x.toNat]
  | .cas x new => [3, x.toNat, new.toNat]
  | .det r => [5, r.core, r.task, r.order, b2n r.mov, r.idx, r.g, r.phase, (r.op.map AtomSel.code).getD 9, r.x.toNat, r.exp.toNat, r.res]
  | .copy va lvl leaf bad b => [7, va, lvl, leaf.toNat, b2n bad] ++ b.map (·.toNat)
  | .place w0 w1 w2 => [8, w0.toNat, w1.toNat, w2.toNat]

/-- The new home an old home passes a transaction on to: its line has flipped, or the rank has left (12 R350, R352). -/
def passTo (s : State) (x : FabTx) : Option Mig :=
  (migOf s x.job x.rank false).filter fun m =>
    !m.active || m.flipped.contains (((placeOf s x.job x.rank).exportBase.toNat + x.off.toNat) / 64)

/-- It goes on in this chip's own sequence, with its source and its number there, which the new home answers (12 R352). -/
def passOn (c : Nat) (x : FabTx) (s : State) : State :=
  sendOn c (laneFor s x.job x.rank c (fabLo + x.rank * 2 ^ 33 + x.off.toNat))
    ([x.job, x.rank, x.off.toNat, fabSize x.op, 6, x.src, x.seq] ++ fabAsks x.op) s

/-- What a read, write or atomic of another chip does at its piece, and what is answered. -/
def performTx (x : FabTx) (p : Piece) (s : State) : State × List Nat :=
  let old := leVal (s.bytes p.key 8)
  match x.op with
  | .read n => (s, (s.bytes p.key n).map (·.toNat))
  | .write b => (recheck (writePieces s [p] b), [])
  | .atomic op v => (recheck (writePieces s [p] (leBytes 8 (atomOp op 64 old v.toNat))), [old])
  | .cas v new => (recheck (writePieces s [p] (leBytes 8 (if old = v.toNat then new.toNat else old))), [old])
  | .copy .. | .place .. | .det _ => (s, [])

/-- A line that the old home has copied: its page is noted with its level and leaf, and its bytes wait for the rank (12 R349, R350). -/
def landLine (j r va lvl : Nat) (leaf : Word) (bad : Bool) (bs : List Byte) (s : State) : State :=
  if !((migOf s j r true).any (·.active)) then s
  else
    let page := va / 2 ^ pageBits lvl * 2 ^ pageBits lvl
    let key := farKey j r (va / 64 * 64)
    let s := modMig s j r true fun m => if m.pages.any (·.1 == page) then m else { m with pages := m.pages ++ [(page, lvl, leaf)] }
    let s := s.poke key (bs.take 64)
    if bad then { s with poison := key / 64 :: s.poison } else s

/-- A request that another chip was asked for comes to the chip of its rank (12 R343, R344); the later of two for a rank stands. -/
def landPlace (j : Nat) (w0 w2 : Word) (s : State) : State :=
  let q : PlaceReq := ⟨fld w0 0 3, fld w0 16 14, fld w0 32 10, fld w0 42 4, fld w0 46 3, fld w2 0 52⟩
  s.modJob j fun x => { x with reqs := x.reqs.filter (·.rank != q.rank) ++ [q] }

/-- A deterministic request of another chip stands with those of its word (04 R112 to R115). One of CTL passes the checks of translation
and poison on arrival (08 R235); R283 asks none of FATM.det. Under DET a word with pending requests of another group takes none. -/
def landDet (x : FabTx) (r : DetTx) (s : State) : Except Flt State :=
  let o := x.off.toNat
  let fva := fabLo + x.rank * 2 ^ 33 + o
  let tva := ((s.rank? x.job x.rank).map (·.expBase.toNat)).getD (placeOf s x.job x.rank).exportBase.toNat + o
  let near : Except Flt State :=
    if r.mov then .ok s
    else match serveExport s (s.unitReq x.job 0 false) x.rank o 8 fva .write with
      | .error f => .error f
      | .ok (s, p) => match poisonAt s false p with
        | some va => .error ⟨.memPoison, va, none⟩
        | none => .ok s
  match near, s.job? x.job with
  | .error f, _ => .error f
  | .ok s, some j =>
    if j.det && j.dets.any fun d => d.trank == x.rank && d.tva == tva && d.g != r.g then .error ⟨.detViolation, fva, none⟩
    else
      let d : Det :=
        { rank := r.rank, core := r.core, task := r.task, order := r.order, mov := r.mov, idx := r.idx, g := r.g, phase := r.phase,
          trank := x.rank, tva := tva, fva := fva, op := r.op, x := r.x, exp := r.exp, res := r.res, seq := 0 }
      .ok (s.modJob x.job fun y => { y with dets := y.dets ++ [d] })
  | .ok s, none => .ok s

/-- What a transaction of another chip does here, and what is answered, or its fault (11 R320; 12 R356; 13 R366). -/
def answerTx (x : FabTx) (s : State) : Except Flt (State × List Nat) :=
  let o := x.off.toNat
  let fva := fabLo + x.rank * 2 ^ 33 + o
  let k : Kind := match x.op with
    | .read _ => .read
    | _ => .write
  match x.op with
  | .det r => (landDet x r s).map fun s => (s, [])
  | _ =>
    if 2 ^ 33 < o + fabSize x.op then .error ⟨.fabRange, fva, none⟩
    else match serveExport s (s.unitReq x.job 0 false) x.rank o (fabSize x.op) fva k with
      | .error f => .error f
      | .ok (s, p) =>
        match poisonAt s (match x.op with | .write _ => true | _ => false) p with
        | some va => .error ⟨.memPoison, va, none⟩
        | none => .ok (performTx x p s)

/-- A transaction of another chip whose turn has come: an old home passes it on, and keeps what it wrote beside what its own accesses to
the rank wrote (log entry 11); else it performs and is answered, and a fault is gathered here too (11 R320; 12 R350, R352; 13 R366). -/
def serveTx (x : FabTx) (s : State) : State :=
  match x.op with
  | .copy va lvl leaf bad bs => landLine x.job x.rank va lvl leaf bad bs s
  | .place w0 _ w2 => landPlace x.job w0 w2 s
  | _ =>
    match passTo s x with
    | some m =>
      let va := (placeOf s x.job x.rank).exportBase.toNat + x.off.toNat
      (performTx x ⟨farKey x.job x.rank va, fabSize x.op, 0, va, va⟩ (passOn m.chip x s)).1
    | none => match answerTx x s with
      | .ok (s, l) => s.post .response ([x.src, x.seq, 0] ++ l)
      | .error f => (noteFault s 9 f).post .response [x.src, x.seq, causeCode f.c, f.va]

/-- Does the new home hold the transaction back (12 R352): what the old home copies or passes on is not. -/
def heldTx (s : State) (x : FabTx) : Bool :=
  match migOf s x.job x.rank true, x.op with
  | none, _ | _, .copy .. | _, .place .. => false
  | some m, _ => !x.viaOld && (m.active || (x.src != m.chip && !m.markers.contains x.src))

/-- The chip in whose sequence a transaction stands: the old home's when that has passed it on (11 R324; 12 R352). -/
def rxKey (s : State) (x : FabTx) : Nat := if x.viaOld then ((migOf s x.job x.rank true).map (·.chip)).getD x.src else x.src
/-- The number below which all of a chip's transactions have performed, and whether number n has. -/
def nextNumber (s : State) (k : Nat) : Nat := (s.chip.rxNext.lookup k).getD 1
def doneTx (s : State) (k n : Nat) : Bool := n < nextNumber s k || s.chip.rxDone.contains (k, n)

/-- Numbers that have performed in a row are counted together. -/
def settleRx (k : Nat) : Nat → State → State
  | 0, s => s
  | n + 1, s =>
    let i := nextNumber s k
    if !s.chip.rxDone.contains (k, i) then s
    else settleRx k n (s.modChip fun c => { c with rxNext := (k, i + 1) :: c.rxNext.filter (·.1 != k), rxDone := c.rxDone.erase (k, i) })
def noteDone (k i : Nat) (s : State) : State :=
  let s := s.modChip fun c => { c with rxDone := (k, i) :: c.rxDone }
  settleRx k s.chip.rxDone.length s

/-- A transaction whose turn has come performs, or the new home holds it back. -/
def takeTx (k : Nat) (x : FabTx) (s : State) : State :=
  let s := noteDone k x.seq (s.modChip fun c => { c with rxHeld := c.rxHeld.filter fun y => !(y == x) })
  if heldTx s x then modMig s x.job x.rank true fun m => { m with held := m.held ++ [x] } else serveTx x s

/-- Transactions of a chip that waited for one before them to their line. -/
def takeHeld (k : Nat) : Nat → State → State
  | 0, s => s
  | n + 1, s => match s.chip.rxHeld.find? fun x => rxKey s x == k && doneTx s k x.after with
    | none => s
    | some x => takeHeld k n (takeTx k x s)
def takeAllHeld (k : Nat) (s : State) : State := takeHeld k s.chip.rxHeld.length s

/-- A transaction that came in order on its link: one taken or held already is done with; it performs once that before it to its line has,
and is not held back for another line (11 R324). -/
def turnTx (k : Nat) (x : FabTx) (s : State) : State :=
  if doneTx s k x.seq || s.chip.rxHeld.any fun y => rxKey s y == k && y.seq == x.seq then s
  else if doneTx s k x.after then takeAllHeld k (takeTx k x s)
  else s.modChip fun c => { c with rxHeld := c.rxHeld ++ [x] }

/-- A transaction comes on a lane of another chip: one that leaves a gap on its link is asked for again there and goes no further, one that
the link has brought before is acknowledged and no more, else it is acknowledged and takes its turn (11 R324, R338, R339). How a receiver
knows the transaction before it to its line the spec does not say (DESIGN CHOICE, log entry 52). -/
def execFabricTransactionReceive (tx : FabTx) (s : State) : Host.Outcome State Fault Refusal :=
  let k := rxKey s tx
  match s.chip.ingress.find? fun l => l.k == tx.lane && l.peer == k with
  | none => .next s
  | some l =>
    let n := l.last k
    let flit (a m : Nat) (s : State) : State := s.post .flit [k, tx.lane, a, m]
    if (s.job? tx.job).isNone || s.chip.lost.contains tx.src then .next s
    else if tx.link ≤ n then .next (flit 2 n s)
    else if n + 1 < tx.link then .next (flit 1 n s)
    else
      let came (l : Lane) : Lane := if l.k = tx.lane then { l with links := (k, n + 1) :: l.links.filter (·.1 != k) } else l
      .next (flit 2 (n + 1) (turnTx k tx (s.modChip fun c => { c with ingress := c.ingress.map came })))

/-- Held transactions of a chip in its sequence order. -/
def insTx (x : FabTx) : List FabTx → List FabTx
  | [] => [x]
  | y :: ys => if x.seq ≤ y.seq then x :: y :: ys else y :: insTx x ys

/-- Chips whose markers the two homes wait for: the job's chips but the old home. -/
def markerChips (s : State) (m : Mig) : List Nat :=
  ascNats (((farChips s m.job) ++ [s.chip.id]).filter fun c => c != (if m.inward then m.chip else s.chip.id))

/-- A marker takes a place in this chip's sequence toward a chip, behind all it has sent there (12 R352). -/
def sendMarker (c j r src : Nat) (s : State) : State :=
  let i := nextTx s c
  (takeNumber c s).post .marker [c, j, r, src, i]

/-- A marker of chip src: the old home forwards it and, with the last one, ends forwarding; the new home performs what it
held of that chip (12 R352). -/
def takeMarker (j r src : Nat) (s : State) : State :=
  match migOf s j r false with
  | some m =>
    if m.active || m.markers.contains src then s
    else
      let s := modMig s j r false fun m => { m with markers := m.markers ++ [src] }
      let s := sendMarker m.chip j r src (setPlace s j r fun e => { e with pendack := e.pendack - 1 })
      if (placeOf s j r).pendack ≠ 0 then s
      else
        let s := dropMig (setPlace s j r fun e => { e with state := if m.cold then .cold else .active }) j r false
        darkenLanes (fun l => l.job == j && l.holder == r && l.st == .leased) s
  | none =>
    match migOf s j r true with
    | none => s
    | some m =>
      let mine := (m.held.filter (·.src == src)).foldr insTx []
      let s := modMig s j r true fun m => { m with markers := m.markers ++ [src], held := m.held.filter (·.src != src) }
      let s := mine.foldl (fun s x => serveTx x s) s
      match migOf s j r true with
      | none => s
      | some m => if !m.active && (markerChips s m).all m.markers.contains then dropMig s j r true else s

/-- A marker whose turn has come: it stands at the next number of the sequence it came in, that of chip src at the old home, of the old home at
the new one (12 R352). -/
def execGenerationMarkerReceive (job rank src : Nat) (s : State) : Host.Outcome State Fault Refusal :=
  match (migOf s job rank false).or (migOf s job rank true) with
  | none => .next s
  | some m =>
    let k := if m.inward then m.chip else src
    if m.markers.contains src || (m.active && !m.inward) then .next s
    else .next (takeAllHeld k (takeMarker job rank src (noteDone k (nextNumber s k) s)))

/-- Has this chip room for a rank that is announced: a block, or a place among its cold ranks (12 R344). -/
def roomToCome (s : State) (j : Nat) (e : PlaceEntry) : Bool :=
  if e.pendack = 2 then coldCount s < 64 else roomFor s j && blockFree s (jobWidth s j) e.ocol e.orow

/-- A rank is announced: its entry is MOVING here and it is awaited; without room the host and the old home hear that, the latter by an
entry ABSENT (12 R344, R350). -/
def awaitRank (j r : Nat) (e : PlaceEntry) (s : State) : State :=
  let old := (placeOf s j r).chip
  if (migOf s j r true).isSome then s
  else if !roomToCome s j e then
    (s.post .event [causeCode .placeRoom, j, r]).post .placement ([old, j, r] ++ placeWords { e with state := .absent })
  else
    let m : Mig :=
      { job := j, rank := r, inward := true, chip := old, ocol := e.ocol, orow := e.orow, flipped := [], markers := [], held := [],
        active := true, cold := e.pendack == 2, recalled := e.pendack == 3 }
    (setPlace s j r fun _ => { e with pendack := 0 }).modChip fun c => { c with migs := c.migs ++ [m] }

/-- A group that a rank restored on another chip rejoins (12 R345): with the arrivals and phase of the checkpoint; the generation counts the
return of each rank once, beside one step for those that stay away (15 R421; log entry 37). -/
def rejoinFar (r : Nat) (lost : Nat → Bool) (gs : List Group) (g : Group) : Group :=
  match gs.find? fun x => x.g == g.g && x.memb.contains r with
  | none => g
  | some old =>
    let arr := g.arrived.filter (·.1 != r) ++ old.arrived.filter (·.1 == r)
    if g.memb.contains r then { g with gone := g.gone.filter (· != r), arrived := if g.g = 0 then arr else g.arrived }
    else { g with memb := insAsc r g.memb, arrived := arr, gen := g.gen + b2n (old.memb.any fun x => x != r && lost x) }

/-- A withdrawn rank lives again, on another chip: its groups take it back, and its requests to words of this chip stand again (12 R345). -/
def returnFar (j r : Nat) (s : State) : State :=
  match (s.job? j).bind (·.ckpt) with
  | none => s
  | some k =>
    let t := s
    s.modJob j fun x =>
      { x with groups := x.groups.map (rejoinFar r (fun y => (placeOf t j y).state == .withdrawn) k.groups)
               dets := x.dets.filter (·.rank != r) ++ k.dets.filter (·.rank == r) }

/-- An entry from another chip (12 R342, R344, R345, R350 to R352): a rank is coming here, is activated here, lives again, or lives elsewhere
from now on, and then this chip's marker goes to the old home; of a rank that is leaving, the new home's refusal. -/
def execPlacementEntryUpdate (job rank : Nat) (e : PlaceEntry) (s : State) : Host.Outcome State Fault Refusal :=
  let old := placeOf s job rank
  let mark (s : State) : State := sendMarker old.chip job rank s.chip.id s
  if (s.job? job).isNone then .next s
  else if (s.rank? job rank).isSome then
    match migOf s job rank false with
    | none => .next s
    | some m =>
      if m.active ∧ e.state = .absent ∧ e.chip = m.chip then .next (advance 8 job (refusePlace job rank .placeRoom (abandonMove m s)))
      else .next s
  else if e.chip ≠ s.chip.id then
    let t := (if old.chip ≠ e.chip ∨ old.state ≠ e.state ∨ old.ocol ≠ e.ocol ∨ old.orow ≠ e.orow then noteMoved job else id) (setPlace s job rank fun _ => e)
    .next (if old.state = .withdrawn then (if e.state = .active then returnFar job rank t else t)
      else if old.chip = e.chip ∨ old.chip = s.chip.id then t else mark t)
  else match e.state with
    | .moving => .next (awaitRank job rank e s)
    | .active | .cold =>
      match migOf s job rank true with
      | none => .next s
      | some m =>
        if !m.active then .next s
        else
          let s := modMig (setPlace s job rank fun _ => e) job rank true fun x => { x with active := false, pages := [] }
          let s := noteMoved job (arriveRank job rank e m s)
          .next (advance 8 job (sendMarker m.chip job rank s.chip.id s))
    | _ => .next (setPlace s job rank fun _ => e)

/-! ## A lost chip (11 R330; 12 R352, R360, R361) -/

/-- Leases toward the chip end at once, with REVOKED, reason UNREACH; queued requests toward it are refused (11 R330). -/
def loseLeases (c : Nat) (s : State) : State :=
  let hit := s.chip.egress.filter fun l => l.peer == c && l.job != 0 && (l.leased || l.st == .notice)
  let pairs := (hit.map fun l => (l.job, l.holder, l.peerRank)).eraseDups
  let ks := hit.map (·.k)
  let gone (l : Lane) : Bool := l.peer == c && l.st != .retired && l.st != .aperture && l.st != .dark
  let s := s.modChip fun x =>
    { x with
      egress := x.egress.flatMap fun l => if gone l then l.darken else [l]
      ingress := x.ingress.flatMap fun l => if gone l then l.darken else [l]
      resend := x.resend.filter (·.1 != c), rxHeld := x.rxHeld.filter (·.src != c), askers := x.askers.filter (·.1 != c)
      notices := x.notices.filter fun n => !(n.lanes.any ks.contains), guards := x.guards.filter fun g => g.lanes.all fun k =>
        x.egress.any fun l => l.k == k && !gone l
      sendQ := x.sendQ.filter (·.1 != c) }
  let s := pairs.foldl (fun s p => tellHolder p.1 p.2.1 p.2.2 5 (leaseAddr p.2.2 0 3) s) s
  let s := s.modChip fun x => { x with leases := x.leases.filter fun l => !(pairs.contains (l.job, l.rank, l.peer)) }
  (s.chip.leaseQ.filter fun q => farChip s q.job q.peer == some c).foldl (fun s q => refuseReq q 3 s) s

/-- Ranks of a job that the loss withdraws: those whose home it was, or that were coming from it (12 R360, R361). -/
def lostRanks (s : State) (x : Job) (c : Nat) : List Nat :=
  (List.range x.v).filter fun r =>
    let e := placeOf s x.num r
    if (s.rank? x.num r).isSome || e.state == .withdrawn then false
    else match migOf s x.num r true with
      | some m => m.active && m.chip == c
      | none => e.chip == c

/-- Moves the loss ends, and markers that count as sent (12 R352, R361); of a rank lost on its way here, what the new home held for it is
answered RANK_LOST (12 R360). With the old home lost once the rank has come, no marker can come through it, and none is waited for (DEDUCED,
log entry 38). -/
def settleLoss (c : Nat) (m : Mig) (s : State) : State :=
  if m.inward then
    let fail (s : State) (x : FabTx) : State :=
      if x.src = c then s else s.post .response [x.src, x.seq, causeCode .rankLost, fabLo + x.rank * 2 ^ 33 + x.off.toNat]
    if m.active then
      if m.chip ≠ c then s else advance 8 m.job (dropFar m.job m.rank (dropMig (m.held.foldl fail s) m.job m.rank true))
    else
      let s := modMig s m.job m.rank true fun x => { x with held := x.held.filter (·.src != c) }
      if m.chip = c then (markerChips s m).foldl (fun s k => takeMarker m.job m.rank k s) s else takeMarker m.job m.rank c s
  else if m.active then
    if m.chip ≠ c then s
    else
      advance 8 m.job (resumeDispatch m.job m.rank (dropPlaceReq m.job m.rank (abandonMove m s)))
  else if m.chip = c then dropMig s m.job m.rank false
  else takeMarker m.job m.rank c s

/-- Withdrawal by force in one job (12 R360). -/
def loseIn (c : Nat) (s : State) (x : Job) : State :=
  let rs := lostRanks s x c
  let s := s.chip.migs.foldl (fun s m => if m.job = x.num then settleLoss c m s else s) s
  if rs.isEmpty then s
  else
    let s := s.modJob x.num fun y =>
      { y with place := y.place.mapIdx fun i e => if rs.contains i then { e with state := .withdrawn } else e
               groups := y.groups.map fun g => { g with gone := g.gone ++ rs.filter g.memb.contains }
               dets := y.dets.filter fun d => !rs.contains d.rank }
    (localRanks s x.num).foldl (fun s r => reportItem s x.num r .rankLost 0) s

def execChipLost (chip : Nat) (s : State) : Host.Outcome State Fault Refusal :=
  if chip = s.chip.id ∨ s.chip.lost.contains chip then .next s
  else
    let s := loseLeases chip (s.modChip fun c => { c with lost := chip :: c.lost })
    .next (s.jobs.foldl (loseIn chip) s)

end Sys2Proof.Machine
end

