-- ==== Sys2Proof/Machine/Tier.lean ====
section
/-!
DEFINITION. The Tier Manager and the memory controllers: frames given back (13 R373), tier moves and victims
(13 R375 to R380), uncorrectable errors (13 R381; 15 R416) and dies mapped out (15 R423, R424).
-/
namespace Sys2Proof.Machine

/-! ## Tier moves (13 R377 to R380) -/

/-- Job that owns an address space. -/
def spaceJob (s : State) (asid : BitVec 16) : Nat := fld (entryAt s (s.chip.asBase.toNat + 32 * asid.toNat + 8)) 12 16

/-- HBM4E pages of a job, in frame order. -/
def insPage (x : BitVec 16 × PageAt) : List (BitVec 16 × PageAt) → List (BitVec 16 × PageAt)
  | [] => [x]
  | y :: ys => if x.2.pa ≤ y.2.pa then x :: y :: ys else y :: insPage x ys
def jobPages (s : State) (j : Nat) : List (BitVec 16 × PageAt) :=
  ((jobSpaces s j).flatMap fun a =>
    let asid := BitVec.ofNat 16 a
    (presentPages s asid).filterMap fun p =>
      if fld p.2.2 5 2 = 0 then (pageAt s asid p.1).map fun q => (asid, q) else none).foldr insPage []

/-- First addresses of the pages that hold spill areas, which are pinned (08 R245); a cold rank's go with it (12 R355). -/
def spillPages (s : State) : List Nat :=
  (s.ranks.filter fun k => !k.cold && k.watchBase != 0).flatMap fun k =>
    (List.range 9).filterMap fun i => (pageAt s k.asid (k.watchBase.toNat / 2 ^ 16 * 2 ^ 16 + i * 2 ^ 16)).bind fun p =>
      if p.va < k.watchBase.toNat + 2 ^ 19 then some p.pa else none

/-- Is a page pinned, by a command or stream or as part of a spill area (08 R245; 13 R378). -/
def pinnedRange (s : State) (pa size : Nat) : Bool :=
  (s.chip.frames.any fun f => decide (pa ≤ f.pa) && decide (f.pa < pa + size) && f.pins != 0)
    || (spillPages s).any fun a => decide (pa ≤ a) && decide (a < pa + size)

/-- The victim of a job: its sweep passes pinned pages, those with SPIN or M, and clears A of those it passes over otherwise (13
R380). -/
def chooseVictim (s : State) (j : Nat) : Option (State × BitVec 16 × PageAt) :=
  let cur := ((s.job? j).map (·.sweep)).getD 0
  let pages := (jobPages s j).filter fun p => !pinnedRange s p.2.pa p.2.size && !bitOf p.2.leaf.e 13 && !bitOf p.2.leaf.e 12
  let order := (pages.filter fun p => decide (cur ≤ p.2.pa)) ++ pages.filter fun p => decide (p.2.pa < cur)
  let clear (s : State) (p : BitVec 16 × PageAt) : State :=
    setEntry s p.2.leaf.ea (entryAt s p.2.leaf.ea &&& ~~~(0x400 : Word))
  let take (passed : List (BitVec 16 × PageAt)) (p : BitVec 16 × PageAt) : State × BitVec 16 × PageAt :=
    ((passed.foldl clear s).modJob j fun x => { x with sweep := p.2.pa + p.2.size }, p.1, p.2)
  match order.find? fun p => !bitOf p.2.leaf.e 10 with
  | some p => some (take (order.takeWhile fun q => bitOf q.2.leaf.e 10) p)
  | none => order.head?.map (take order)

/-- A victim's demotion, merged with what is queued for its page (13 R379), goes to the head of the requests, unless one of the job's is on
its way. -/
def demoteVictim (s : State) (j : Nat) : Option State :=
  if s.chip.moves.any fun m => m.tier == 1 && spaceJob s m.asid == j then none
  else (chooseVictim s j).map fun v =>
    let mine (m : Move) : Bool := m.asid == v.2.1 && m.va == v.2.2.va && !m.held
    (queueMove v.1 v.2.1 v.2.2.va 1 (fld v.2.2.leaf.e 7 3)).modChip fun c =>
      { c with moves := c.moves.filter mine ++ c.moves.filter fun m => !mine m }

/-- The backing of a page's frames, when each has one and they lie in a row. -/
def backingOf (s : State) (pa size : Nat) : Option Nat :=
  match (frameOf s pa).bind (·.back) with
  | none => none
  | some b =>
    if (List.range (size / 2 ^ 16)).all fun i => ((frameOf s (pa + i * 2 ^ 16)).bind (·.back)) == some (b + i * 2 ^ 16) then some b else none

/-- A leaf's M bit (13 R364, R377). -/
def setM (on : Bool) (p : PageAt) (s : State) : State := setEntry s p.leaf.ea (setFld (entryAt s p.leaf.ea) 12 1 (b2n on))

/-- Step 1: the request takes the page's migration lock and sets M. -/
def lockMove (m : Move) (p : PageAt) (s : State) : State :=
  let m' : Move := { m with va := p.va, size := p.size, src := p.pa, locked := true }
  (setM true p s).modChip fun c => { c with moves := c.moves.map fun x => if x = m then m' else x }

/-- The move goes under way, with M set: its lines flip from the first on. -/
def beginMove (m : Move) (p : PageAt) (tier dst : Nat) (s : State) : State :=
  let m' : Move := { m with va := p.va, size := p.size, tier := tier, src := p.pa, dst := dst, next := 0, busy := true }
  (setM true p s).modChip fun c => { c with moves := c.moves.map fun x => if x = m then m' else x }

def dropMove (m : Move) (s : State) : State := s.modChip fun c => { c with moves := c.moves.erase m }

/-- A request is dropped; one that held the lock gives it back. -/
def refuseMove (m : Move) (p : PageAt) (s : State) : State := dropMove m (if m.locked then setM false p s else s)

/-- The fault of a page that is asked for and does not translate; a page of a target rank is none of the Tier Manager's. -/
def moveFault (s : State) (m : Move) : Option Cause :=
  match translate s m.asid m.va .read true with
  | .error c => some c
  | .ok _ => none

/-- A request for a page that is not there is reported as the Tier Manager's fault and dropped; without a free record it waits (13 R371). -/
def lostMove (s : State) (m : Move) : Option State :=
  match moveFault s m with
  | none => some (dropMove m s)
  | some c => (engineFault s 3 m.asid m.va c).map (dropMove m)

/-- Start a request, or say that it waits (13 R377, steps 1 and 2; R378; R380; 15 R424): it takes the lock first, then a
destination; one for HBM4E waits while the service is limited (15 R426, R427). -/
def tryMove (s : State) (m : Move) : Option State :=
  let mine (x : Move) : Bool := x.asid == m.asid && x.va == m.va && x.held && x != m
  if m.busy || s.chip.moves.any mine || (m.tier == 0 && s.chip.svc == 1) then none
  else match pageAt s m.asid m.va with
    | none => lostMove s m
    | some p =>
      let j := spaceJob s m.asid
      let ct := fld p.leaf.e 5 2
      let n := p.size / 2 ^ 16
      let job := (s.job? j).getD { num := j }
      let stay := pinnedRange s p.pa p.size || bitOf p.leaf.e 13
      let fresh (t : Nat) : Option State := (findRun s t p.size).map fun a => beginMove m p t a (giveFrames j a n s)
      let lock : Option State := if m.locked then none else some (lockMove m p s)
      if m.evac then
        if pinnedRange s p.pa p.size then none
        else match fresh 0 with
          | some s => some s
          | none => match backingOf s p.pa p.size with
            | some b => some (beginMove m p 1 b s)
            | none => (fresh 1).or lock
      else if ct = m.tier then some (beginMove m p ct p.pa s)
      else if m.tier = 1 then
        if stay then some (refuseMove m p s)
        else match backingOf s p.pa p.size with
          | some b => some (beginMove m p 1 b s)
          | none => (if job.lpu + n ≤ job.lpq then fresh 1 else none).or lock
      else if job.hbmu + n ≤ job.hbmq then (fresh 0).or lock
      else if m.locked then demoteVictim s j
      else lock

/-- The next thing the Tier Manager starts: a request in order; else a victim of a job over its quota (13 R374). -/
def tierStart (s : State) : Option State :=
  match s.chip.moves.findSome? (tryMove s) with
  | some t => some t
  | none => s.jobs.findSome? fun (x : Job) => if x.hbmq < x.hbmu then demoteVictim s x.num else none

def execTierMoveStart (s : State) : Host.Outcome State Fault Refusal := .next ((tierStart s).getD s)

/-- The moving page whose next line flips; moves work only in entries of the HBM ports' table that no tenant holds (10 R311; 13 R375). -/
def flipping (s : State) : Option Move :=
  if (s.chip.ports[0]?.getD []).all fun e => bitOf e 4 then none
  else s.chip.moves.find? fun m => m.busy && decide (m.next < m.size)

/-- Does the destination hold the line already: a clean chunk of a page with backing (13 R377). -/
def cleanChunk (s : State) (m : Move) : Bool :=
  m.tier == 1 && m.src != m.dst &&
    (match frameOf s (m.src + m.next) with
      | none => false
      | some f => f.back == some (m.dst + m.next / 2 ^ 16 * 2 ^ 16) && !bitOf f.dirty (m.next % 2 ^ 16 / 4096))

/-- One line is copied where it must be, and its destination is authoritative: its poison and its log record go with it; a line that a
promotion read stays poisoned at its backing too (13 R377, R381). -/
def flipMove (m : Move) (s : State) : State :=
  let a := m.src + m.next
  let b := m.dst + m.next
  let s :=
    if m.src = m.dst then s
    else if cleanChunk s m then { s with poison := s.poison.erase (a / 64) }
    else
      let bad := s.poison.contains (a / 64)
      let s := s.poke b (s.bytes a 64)
      let rest := if tierOf a = 1 ∧ tierOf b = 0 then s.poison else s.poison.erase (a / 64)
      { s with poison := (if bad then [b / 64] else []) ++ rest.erase (b / 64) }
  let relog (r : LogRec) : LogRec := if r.pa = a then { r with pa := b } else r
  let s : State := { s with jobs := s.jobs.map fun (x : Job) => { x with log := x.log.map relog } }
  s.modChip fun c => { c with moves := c.moves.map fun x => if x = m then { x with next := x.next + 64 } else x }

def execTierMoveLineFlip (s : State) : Host.Outcome State Fault Refusal :=
  match flipping s with
  | none => .next s
  | some m => .next (flipMove m s)

/-- A page all of whose lines have flipped. -/
def flipped (s : State) : Option Move := s.chip.moves.find? fun m => m.busy && decide (m.size ≤ m.next)

/-- Steps 4 to 6 (13 R377): the leaf, the caches, the frames; pins stay with the page, a promoted page keeps its frame as
backing. -/
def endMove (m : Move) (s : State) : State :=
  let s := match pageAt s m.asid m.va with
    | none => s
    | some p =>
      let e := entryAt s p.leaf.ea
      setEntry s p.leaf.ea (setFld (setFld (setFld (setFld e 12 1 0) 5 2 m.tier) 7 3 m.comp) 16 36 (m.dst / 2 ^ 16))
  let s := s.mapCores fun c => { c with tlb := c.tlb.filter fun t => !(t.asid == m.asid && decide (m.va ≤ t.va) && decide (t.va < m.va + m.size)) }
  let s := dropMove m s
  if m.src = m.dst then s
  else
    let inSrc (f : Frame) : Bool := decide (m.src ≤ f.pa) && decide (f.pa < m.src + m.size)
    let old := s.chip.frames.filter inSrc
    let up := tierOf m.src == 1 && tierOf m.dst == 0
    let take (f : Frame) : Frame :=
      match old.find? fun o => o.pa - m.src + m.dst == f.pa with
      | none => f
      | some o =>
        if up then { f with pins := o.pins, back := some o.pa }
        else if tierOf m.dst = 0 then { f with pins := o.pins, back := o.back, dirty := f.dirty ||| o.dirty }
        else { f with pins := o.pins }
    let s := s.modChip fun c => { c with frames := c.frames.map fun f => if inSrc f then { f with pins := 0 } else take f }
    if up then s else freeFrames inSrc s

def execTierMoveDone (s : State) : Host.Outcome State Fault Refusal :=
  match flipped s with
  | none => .next s
  | some m => .next (endMove m s)

/-! ## Errors of memory and SRAM (13 R381; 15 R416, R424) -/

/-- An uncorrectable read poisons the line at its authoritative copy; an error of a die is counted by its row (15 R424). -/
def execMemoryUncorrectableError (pa : Nat) (s : State) : Host.Outcome State Fault Refusal :=
  if !physOk pa then .next s
  else
    let l := tierHome s pa / 64
    let s := if s.poison.contains l then s else { s with poison := l :: s.poison }
    if tierOf pa = 1 then .next s
    else match hbmLoc s pa with
      | none => .next s
      | some o =>
        let n := s.now
        .next (s.modChip fun c => { c with ueRows := (locStack o, locDie o, locRow o, n) :: c.ueRows.filter fun x => decide (n < x.2.2.2 + 1200000000) })

def execSramCorrectableError (s : State) : Host.Outcome State Fault Refusal :=
  .next (s.modChip fun c => { c with correctable := c.correctable + 1 })

/-- What was held in a struck item of a core's array is lost: its value is free (15 R416; log entry 57). s0 and m0 hold none. -/
def loseItem (x : CoreItem) (s : State) : State :=
  let k := s.freeCtr
  let v : VWord := Config.freeVec k
  let w : Word := Config.freeWord k
  let big : BitVec 131072 := BitVec.ofNat 131072 (packCodes 32768 ((List.range 4).map fun i => (Config.freeVec (k + i)).toNat))
  let lost (c : Core) : Core :=
    match x with
    | .scalar n => c.putS n w
    | .shadow n => { c with shadow := c.shadow.setIfInBounds n w }
    | .addr n => { c with a := c.a.setIfInBounds n w }
    | .delta n => { c with d := c.d.setIfInBounds n w }
    | .vreg n => { c with v := c.v.setIfInBounds n v }
    | .mask n => if n = 0 then c else { c with m := c.m.setIfInBounds n (BitVec.ofNat _ v.toNat) }
    | .slot n => { c with slots := c.slots.setIfInBounds n { c.slots[n]?.getD {} with data := big } }
    | .tile n => { c with acc := c.acc.setIfInBounds n big }
    | .entry store q n =>
      let hit (l : List QEnt) : List QEnt := l.mapIdx fun i e => if i = n then { e with data := v } else e
      if store then { c with sq := c.sq.mapIdx fun i l => if i = q then hit l else l }
      else { c with lq := c.lq.mapIdx fun i l => if i = q then hit l else l }
    | .drain n => { c with drnMem := c.drnMem.setIfInBounds n (w.setWidth 32) }
    | .watch n =>
      let f (i : Nat) : Nat := (Config.freeWord (k + i)).toNat
      let e : WEnt :=
        { waddr := f 0 % 2 ^ 49 * 8, rdy := f 1 % 2 == 1, stage := f 2 % 16, thresh := Config.freeWord (k + 3)
          cont := BitVec.ofNat 47 (f 4), rtime := f 5, save := (List.range 8).map fun i => Config.freeWord (k + 6 + i) }
      { c with watch := c.watch.mapIdx fun i o => if i = n then o.map fun _ => e else o }
    | .token n => { c with tok := c.tok.setIfInBounds n (w.setWidth 32) }
  { s.modCore lost with freeCtr := k + 16 }

/-- An uncorrectable SRAM error: a scratchpad line of the core's rank, an array of the core, or a chip-level word of a job. -/
def execSramUncorrectableError (site : SramSite) (s : State) : Host.Outcome State Fault Refusal :=
  match site with
  | .spad off =>
    if s.core.job = 0 then .next s
    else
      let l := spadKey s.core.job s.core.rank off.toNat / 64
      .next (if s.poison.contains l then s else { s with poison := l :: s.poison })
  | .coreArray x =>
    if s.core.job = 0 then .next s
    else
      let s := loseItem x s
      let b := actByte s s.core.job .sramUe
      let t := if s.core.trap.all (·.done) then
          enterTrap (some .sramUe) .rs 0 0 (actOf b) (lanePc s.core.ctl.line s.core.ctl.lane) 0 [] none s
        else s
      .next (applyAction t .sramUe .rs 0)
  | .chipArray j => .next ((localRanks s j).foldl (fun s r => reportItem s j r .sramUe 0) s)

/-! ## Dies mapped out (15 R424) -/

def busyDie (s : State) (stack : Nat) : Option Nat := s.chip.mapBusy[stack]?.getD none
def dieOut (s : State) (stack die : Nat) : Bool := bitOf (s.chip.outD[stack]?.getD 0) die

/-- The frames of regions that map the die. -/
def dieFrame (s : State) (stack die : Nat) (f : Frame) : Bool :=
  f.alloc && tierOf f.pa == 0 && s.chip.regions.toList.any fun r => regHas r (f.pa / 64) && regMeets r stack die

/-- Pages of the regions that map the die are to move, but for those to be passed over. -/
def askEvac (pass : BitVec 16 × PageAt → Bool) (stack die : Nat) (s : State) : State :=
  let pages := s.jobs.flatMap fun (x : Job) => (jobPages s x.num).filter fun p =>
    s.chip.frames.any fun f => dieFrame s stack die f && decide (p.2.pa ≤ f.pa) && decide (f.pa < p.2.pa + p.2.size)
  let ask (s : State) (p : BitVec 16 × PageAt) : State :=
    let m : Move := { asid := p.1, va := p.2.va, size := p.2.size, tier := 0, comp := fld p.2.leaf.e 7 3, evac := true }
    s.modChip fun c => { c with moves := (c.moves.filter fun x => x.held || x.asid != p.1 || x.va != p.2.va) ++ [m] }
  (pages.filter fun p => !pass p).foldl ask s

/-- Is a page's move out of a region asked for already. -/
def evacAsked (s : State) (p : BitVec 16 × PageAt) : Bool := s.chip.moves.any fun m => m.evac && m.asid == p.1 && m.va == p.2.va

/-- A map-out starts: BUSY, and every page of the region is to move. -/
def startMapout (stack die : Nat) (s : State) : State :=
  askEvac (fun _ => false) stack die (s.modChip fun c => { c with mapBusy := c.mapBusy.mapIdx fun i b => if i = stack then some die else b })

/-- Four distinct rows of the die have failed within a second of TICKS. -/
def dieBad (s : State) (stack die : Nat) : Bool :=
  let rows := s.chip.ueRows.filterMap fun x => if x.1 = stack ∧ x.2.1 = die ∧ s.now < x.2.2.2 + 1200000000 then some x.2.2.1 else none
  4 ≤ rows.eraseDups.length

def execDieMapoutTrigger (stack die : Nat) (s : State) : Host.Outcome State Fault Refusal :=
  if stack < 8 ∧ (busyDie s stack).isNone ∧ !dieOut s stack die ∧ dieBad s stack die then .next (startMapout stack die s) else .next s

/-- Pages mapped since the start are asked for too; once the region holds no frame, OUT is set and the stack shrinks; once MAP_LOAD has left no line on the die, BUSY ends and the
host hears of it. -/
def execDieMapoutDone (stack die : Nat) (s : State) : Host.Outcome State Fault Refusal :=
  if busyDie s stack ≠ some die then .next s
  else if !dieOut s stack die then
    if s.chip.frames.any (dieFrame s stack die) then .next (askEvac (evacAsked s) stack die s)
    else
      let bit : BitVec 16 := BitVec.ofNat 16 (2 ^ die)
      .next (s.modChip fun c =>
        { c with outD := c.outD.mapIdx fun i x => if i = stack then x ||| bit else x
                 dies := c.dies.mapIdx fun i n => if i = stack then n - 1 else n })
  else if s.chip.regions.toList.any fun r => regMeets r stack die then .next s
  else
    .next ((s.modChip fun c => { c with mapBusy := c.mapBusy.mapIdx fun i b => if i = stack then none else b }).post .event
      [causeCode .dieMapout, stack, die])

/-! ## Frames freed (15 R404) -/

/-- System software frees a frame that the job holds, and its backing with it. -/
def execFrameFree (job pa : Nat) (s : State) : Host.Outcome State Fault Refusal :=
  match frameOf s pa with
  | none => .next s
  | some f =>
    if !f.alloc || f.job != job then .next s
    else .next (freeFrames (fun x => x.pa == f.pa || f.back == some x.pa) s)

end Sys2Proof.Machine
end

