-- ==== Sys2Proof/Machine/Prism.lean ====
section
/-!
DEFINITION. The Prism's events: rounds, offers, commits, guards, forced requests and notices (11 R326 to R330; 10 R299), retry
and repair (11 R338 to R340).
-/
namespace Sys2Proof.Machine

/-! ## Requests (11 R326, R327) -/

/-- One round: a baseline lane that is lacking goes before every request (11 R339); then the oldest request of every rank is tried
once. -/
def execLeaseRound (s : State) : Host.Outcome State Fault Refusal :=
  let s := (peerChips s).foldl askBaseline s
  .next ((oldestEach s.chip.leaseQ []).foldl (fun s q => if s.chip.leaseQ.contains q then attempt s q else s) s)

/-- Lowest free ingress wavelength of a fibre. -/
def freeWave (s : State) (f : Nat) : Option Nat := (List.range 8).find? fun w => laneFree s.chip.ingress (8 * f + w)

/-- A lane of the other chip is promised to its offer; the chosen lane. -/
def reserveWave (src job rank f : Nat) (s : State) : State × Option Nat :=
  match freeWave s f with
  | none => (s, none)
  | some w =>
    let l : Lane := { k := 8 * f + w, peer := src, wave := w, st := .pending, holder := rank, job := job }
    (s.modChip fun c => { c with ingress := lightIn l c.ingress }, some (8 * f + w))

/-- An offer is answered with the lanes reserved, one at most for each fibre offered; the rank counts among those that request ingress lanes
here (11 R325, R327, step 3). -/
def answerOffer (src job rank : Nat) (fibres : List Nat) (s : State) : State :=
  let s := if 16384 ≤ rank ∨ job = 0 then s
    else s.modChip fun c => { c with askers := (src, job, rank) :: c.askers.filter (· != (src, job, rank)) }
  let (s, ks) := fibres.foldl (fun (p : State × List Nat) f =>
    if 256 ≤ f then p
    else match reserveWave src job rank f p.1 with
      | (s, some k) => (s, p.2 ++ [k])
      | (s, none) => (s, p.2)) (s, [])
  s.post .leaseReply ([src, job, rank] ++ ks)

/-- The state a code of R321 names. -/
def laneState (n : Nat) : LaneSt :=
  [LaneSt.dark, .baseline, .leased, .notice, .aperture, .repair, .retired, .pending][n]?.getD .dark

/-- Ingress lanes stand as their sender says; a RETIRED lane stays so (11 R321). A rank that is given lanes, or whose request has ended,
requests none any longer. -/
def setIngress (src job rank st : Nat) (ks : List Nat) (s : State) : State :=
  let one (l : Lane) : List Lane :=
    if l.peer ≠ src ∨ !ks.contains l.k ∨ l.st = .retired then [l]
    else if laneState st = .dark then l.darken
    else [{ l with st := laneState st, job := job, holder := rank }]
  let ended := st ≠ 0 ∨ ks.isEmpty
  s.modChip fun c =>
    { c with ingress := c.ingress.flatMap one, askers := if ended then c.askers.filter (· != (src, job, rank)) else c.askers }

/-- Remote ranks that hold, or ask for, ingress lanes here: chip, job, rank (11 R325). -/
def ingressRanks (s : State) : List (Nat × Nat × Nat) :=
  (s.chip.ingress.filterMap fun l =>
    if l.job ≠ 0 ∧ l.holder < 16384 ∧ (l.st = .leased ∨ l.st = .pending) then some (l.peer, l.job, l.holder) else none)
    ++ s.chip.askers |>.eraseDups

/-- Ingress lanes a remote rank holds; the ingress fair share of each (11 R325). -/
def ingressHeld (s : State) (v : Nat × Nat × Nat) : Nat :=
  (s.chip.ingress.filter fun l => l.st == .leased && (l.peer, l.job, l.holder) == v).length
def ingressShare (s : State) (rs : List (Nat × Nat × Nat)) : Nat :=
  let out := s.chip.ingress.filter fun l => l.st == .baseline || l.st == .aperture || l.st == .retired || 16384 ≤ l.holder
  (2048 - out.length) / max 1 rs.length

/-- Remote victims in the order of R329: greatest excess, lowest job number, highest rank. -/
def insRemote (x : (Nat × Nat × Nat) × Nat) : List ((Nat × Nat × Nat) × Nat) → List ((Nat × Nat × Nat) × Nat)
  | [] => [x]
  | y :: ys =>
    if y.2 < x.2 ∨ (y.2 = x.2 ∧ (x.1.2.1 < y.1.2.1 ∨ (x.1.2.1 = y.1.2.1 ∧ y.1.2.2 ≤ x.1.2.2))) then x :: y :: ys else y :: insRemote x ys

/-- The victims' own Prisms are told how many lanes to revoke. -/
def tellVictims : List ((Nat × Nat × Nat) × Nat) → Nat → State → State
  | [], _, s => s
  | v :: vs, n, s =>
    let m := min n v.2
    tellVictims vs (n - m) (if m = 0 then s else s.post .leaseOffer [v.1.1, v.1.2.1, v.1.2.2, 3, m])

/-- A forced request of a remote rank lacks n ingress lanes here: what the free ones leave missing the victims give in order, none beyond
its excess; where that does not suffice the answer names no lane (11 R329). -/
def forceIngress (src job rank n : Nat) (s : State) : State :=
  let me := (src, job, rank)
  let rs := ingressRanks s
  let share := ingressShare s (if rs.contains me then rs else me :: rs)
  let vs := ((rs.filter (· != me)).map fun v => (v, ingressHeld s v - share)).foldr insRemote []
  let need := n - ((List.range 2048).filter (laneFree s.chip.ingress)).length
  if vs.foldl (fun a v => a + v.2) 0 < need then s.post .leaseReply [src, job, rank] else tellVictims vs need s

/-- A message of another chip's Prism about lanes (11 R322, R327 to R329, R334); `time`: when the Aperture it brings begins, else 0. -/
def execLeaseOfferReceive (src job rank : Nat) (m : PrismMsg) (time : Nat) (s : State) : Host.Outcome State Fault Refusal :=
  if s.chip.lost.contains src then .next s
  else match m with
    | .offer fibres => .next (answerOffer src job rank fibres s)
    | .lanes st ks => .next (setIngress src job rank st ks s)
    | .force n => .next (forceIngress src job rank n s)
    | .revoke n => .next (revokeFrom (fun l => l.peer == src) job rank 2 n s)
    | .aperture bs =>
      if time = 0 then .next (s.modJob job fun x => { x with apt := { x.apt with accepted := some bs, fresh := true } })
      else .next (installPlan job time bs s)

/-- Lane changes are ordered: the pairs' lanes take their wavelengths and wait out one guard interval (11 R319). -/
def orderLanes (j r peer : Nat) (pairs : List (Nat × Nat)) (req : Option LeaseReq) (s : State) : State :=
  let s := releasePending j r peer (pairs.map (·.1)) s
  let n := s.now
  s.modChip fun c =>
    { c with guards := c.guards ++ [⟨pairs.map (·.1), j, r, peer, n + usec, req⟩]
             egress := c.egress.map fun l =>
               match pairs.find? (·.1 == l.k) with
               | some p => if l.st = .pending then { l with wave := p.2 % 8 } else l
               | none => l }

/-- Is a change of the request's lanes inside its guard interval. -/
def guarded (s : State) (j r peer : Nat) : Bool := s.chip.guards.any fun g => g.job == j && g.rank == r && g.peer == peer

/-- The answer for a baseline lane: it is ordered, or the next laser is tried (11 R322, R327). -/
def commitBase (chip : Nat) (ps : List (Nat × Nat)) (s : State) : State :=
  let (ps, bad) := clearPairs s ps
  let s := giveBack chip 0 0 (bad.map (·.2)) s
  match ps with
  | [] =>
    let ks := (s.chip.egress.filter (Lane.pendingFor 0 0 chip)).map fun l => (chip, l.k)
    if ks.isEmpty then s
    else askBaseline ((releasePending 0 0 chip [] s).modChip fun c => { c with baseTried := c.baseTried ++ ks }) chip
  | p :: rest =>
    giveBack chip 0 0 (rest.map (·.2)) ((orderLanes 0 0 chip [p] none s).modChip fun c => { c with baseTried := c.baseTried.filter (·.1 != chip) })

/-- The answer for a request in the queue (11 R327, steps 4 and 5): with the target reached it commits; else further lasers are
offered; with none left it commits where dMin is reached, and otherwise releases what it has reserved, on both chips. A pair whose
wavelength another laser of the fibre has goes back (11 R318). A forced request that the peer has no lanes for, nor victims, is refused
(11 R329). -/
def commitReq (q : LeaseReq) (ps : List (Nat × Nat)) (s : State) : State :=
  let chip := (farChip s q.job q.peer).getD s.chip.id
  let (got, bad) := clearPairs s (q.got ++ ps)
  let away := (s.chip.egress.filter fun l => l.pendingFor q.job q.rank q.peer && !got.any (·.1 == l.k)).map (·.k)
  let held := heldBy s q.job q.rank q.peer
  let t := leaseTarget s q
  let s1 := giveBack chip q.job q.rank (bad.map (·.2)) (releasePending q.job q.rank q.peer (got.map (·.1)) s)
  let more := ((darkLanes s1).filter fun k => !(q.tried ++ away).contains k).take (t - held - got.length)
  let own := { q with tried := [], got := [] }
  let commit (n : Nat) : State :=
    let s := modReq q (fun _ => own) (giveBack chip q.job q.rank ((got.drop n).map (·.2)) s1)
    if n = 0 then grantReq own (askEnds own (releasePending q.job q.rank q.peer [] s))
    else orderLanes q.job q.rank q.peer (got.take n) (some own) s
  let stop (b : Nat) : State :=
    modReq q (fun _ => { own with block := b }) (giveBack chip q.job q.rank (got.map (·.2)) (releasePending q.job q.rank q.peer [] s1))
  if !inProgress s q then (if q.forced ∧ q.block = 3 then refuseReq q 2 s else giveBack chip q.job q.rank (ps.map (·.2)) s)
  else if t < leastOf s q then stop 1
  else if t ≤ held + got.length then commit (t - held)
  else if !more.isEmpty then
    offerLasers q.job q.rank q.peer chip more (modReq q (fun x => { x with tried := q.tried ++ away, got := got }) s1)
  else if leastOf s q ≤ held + got.length then commit got.length
  else stop 3

/-- The answer to an offer. A baseline lane's offer has job 0 and the chip as its peer, an Aperture's a rank from 16384 on, the
offer of lanes lent to the Fabric Migration Engine the peer 16384. -/
def execLeaseCommit (job rank peer : Nat) (pairs : List (Nat × Nat)) (s : State) : Host.Outcome State Fault Refusal :=
  let ps := pairs.filter fun p => s.chip.egress.any fun l => l.k == p.1 && l.pendingFor job rank peer
  if 16384 ≤ rank then .next (takeWaves job (rank - 16384) pairs s)
  else if guarded s job rank peer then .next s
  else if job = 0 then .next (commitBase peer ps s)
  else if peer = 16384 then
    let (ps, bad) := clearPairs s ps
    let s := match bad.head?.bind fun p => (laneAt s p.1).map (·.peer) with
      | none => s
      | some c => giveBack c job rank (bad.map (·.2)) s
    .next (if ps.isEmpty then releasePending job rank peer [] s else orderLanes job rank peer ps none s)
  else match s.chip.leaseQ.find? fun q => q.job == job && q.rank == rank && q.peer == peer with
    | none => .next (giveBack ((farChip s job peer).getD s.chip.id) job rank (pairs.map (·.2)) (releasePending job rank peer [] s))
    | some q => .next (commitReq q ps s)


def guardOver (s : State) : Option Guard := s.chip.guards.find? fun g => decide (g.ends ≤ s.now)

/-- Chips of a new baseline lane exchange the PID of each job that spans them (10 R299). -/
def sendPids (c : Nat) (s : State) : State :=
  s.jobs.foldl (fun s (x : Job) =>
    if x.status = .running ∧ (farChips s x.num).contains c ∧ (s.ranks.any (·.job == x.num)) then
      s.post .pid [c, x.num, x.pid.toNat] else s) s

/-- Is it the same request, whatever an attempt has noted of it. -/
def LeaseReq.same (a b : LeaseReq) : Bool :=
  { a with block := 1, forced := false, at' := 0, tried := [], got := [] } == { b with block := 1, forced := false, at' := 0, tried := [], got := [] }

/-- The lanes are LEASED, or BASELINE, carry what waits for a lane, and their peers hear of it; the grant is recorded; a boundary that
waits for a baseline lane goes on (11 R322, R327). -/
def execGuardIntervalEnd (s : State) : Host.Outcome State Fault Refusal :=
  match guardOver s with
  | none => .next s
  | some g =>
    let st : LaneSt := if g.job = 0 then .baseline else .leased
    let n := s.now
    let on (l : Lane) : Bool := g.lanes.contains l.k && l.st == .pending
    let lit := (s.chip.egress.filter on).map fun l => { l with st := st, at' := n }
    let s := s.modChip fun c =>
      { c with guards := c.guards.erase g, egress := c.egress.map fun l => if on l then { l with st := st, at' := n } else l }
    let s := lit.foldl (fun s l => relight l.k l.peer (tellLane st s l)) s
    let s := if g.job = 0 then sendPids g.peer s else s
    let s := match g.req.bind fun q => s.chip.leaseQ.find? (q.same ·) with
      | some q => grantReq q s
      | none => s
    .next (s.jobs.foldl (fun s (x : Job) => advance 8 x.num s) s)

/-! ## Forced requests and notices (11 R328 to R330) -/

/-- Requests that have waited 200 µs and are not forced yet, or 210 µs; one whose lanes are ordered is granted. -/
def overdue (s : State) : Option LeaseReq :=
  s.chip.leaseQ.find? fun q =>
    !guarded s q.job q.rank q.peer && decide (q.at' + (if q.forced || inProgress s q then 252000 else 240000) ≤ s.now)

/-- The reason of what blocks a request (09 R286). -/
def blockReason (q : LeaseReq) : Nat := if q.block = 1 then 1 else if q.block = 2 then 7 else 2

/-- A request ends without a grant, and what an attempt has reserved for it goes back (11 R327, R329). -/
def giveUp (q : LeaseReq) (s : State) : State :=
  let s := match farChip s q.job q.peer with
    | none => s
    | some c => giveBack c q.job q.rank (q.got.map (·.2)) s
  refuseReq q (blockReason q) (releasePending q.job q.rank q.peer [] s)

/-- R329 for one request: victims' lanes are revoked, or it is refused. -/
def forceReq (q : LeaseReq) (s : State) : State :=
  if q.forced || inProgress s q then giveUp q s
  else
    let want := min (mostOf s q) (max (leastOf s q) (fairShare s q.job))
    let need := want - heldBy s q.job q.rank q.peer
    let mark (s : State) : State :=
      let n := s.now
      modReq q (fun x => { x with forced := true, at' := max x.at' (n - 240000) }) s
    let others := (victims s (if q.block = 1 then [q.job] else ascNats (s.jobs.map (·.num)))).filter fun v => !(v.1 == q.job && v.2.1 == q.rank)
    if q.block = 3 then
      (mark s).post .leaseOffer [(farChip s q.job q.peer).getD s.chip.id, q.job, q.rank, 2, need]
    else
      let have' := if q.block = 1 then quotaRoom s q.job else (darkLanes s).length
      let total := others.foldl (fun (n : Nat) v => n + v.2.2.toNat) 0
      if total < need then refuseReq q (blockReason q) s else revokeAll (blockReason q) others (need - have') (mark s)

def execLeaseForce (s : State) : Host.Outcome State Fault Refusal :=
  match overdue s with
  | none => .next s
  | some q =>
    -- with lanes free now it is tried as any other; one that the peer blocks is not, for its offer would be answered as before
    let t := if q.block = 3 || q.forced || inProgress s q then s else attempt s q
    match t.chip.leaseQ.find? fun x => { x with block := q.block } = q with
    | some x => .next (if inProgress t x && !inProgress s q then t else forceReq x t)
    | none => .next t

/-- The first notice that has run. -/
def noticeOver (s : State) : Option Notice := s.chip.notices.find? fun n => decide (n.ends ≤ s.now)

/-- The lanes go dark; flits not yet sent move to the rest of the eligible set, or wait for a lane; REVOKED is written (11 R328). An
Aperture that waits for lasers takes them (11 R333). -/
def execNoticeExpire (s : State) : Host.Outcome State Fault Refusal :=
  match noticeOver s with
  | none => .next s
  | some n =>
    let out (l : Lane) : Bool := n.lanes.contains l.k && l.st == .notice
    let chip := (s.chip.egress.find? out).map (·.peer)
    let s := (darkenLanes out s).modChip fun c => { c with notices := c.notices.erase n }
    let s := match chip.bind fun c => (laneSet s n.job n.rank c).head?.map fun k => (c, k) with
      | none => s
      | some (c, k) => relight k c s
    let held := heldBy s n.job n.rank n.peer
    let s := if n.reason = 0 then s else tellHolder n.job n.rank n.peer 5 (leaseAddr n.peer held n.reason) s
    .next (s.jobs.foldl (fun s (x : Job) => growPlan x.num s) s)

/-! ## Chips agree on a placement (10 R299) -/

/-- The other chip's PID differs: the job ends here too, and the host hears of it. -/
def execPidExchange (job _peer : Nat) (pid : Word) (s : State) : Host.Outcome State Fault Refusal :=
  match s.job? job with
  | none => .next s
  | some x =>
    if x.pid = pid ∨ x.status = .free ∨ x.status = .killed then .next s
    else .next ((killJob s job (causeCode .launchPlace)).post .event [causeCode .launchPlace, job])

/-! ## Retry and repair (11 R338 to R340) -/

/-- An error is counted; the window begins with the first one (11 R339). -/
def countErr (n : Nat) (l : Lane) : Lane := { l with err := min 255 (l.err + 1), errAt := if l.err = 0 then n else l.errAt }

/-- The receiver of a lane meets an error or a gap and asks for replay from the flit acknowledged last (11 R338). -/
def execFlitCrcError (lane : Nat) (s : State) : Host.Outcome State Fault Refusal :=
  match s.chip.ingress.find? (·.k == lane) with
  | none => .next s
  | some l =>
    let n := s.now
    .next ((s.modChip fun c => { c with ingress := c.ingress.map fun x => if x.k = lane then countErr n x else x }).post .flit
      [l.peer, lane, 1, l.last l.peer])

/-- The flits of a lane's link with a chip up to a number are acknowledged, with every copy of what they carried (11 R320, R338, R339). -/
def ackFlits (src lane seq : Nat) (s : State) : State :=
  match laneAt s lane with
  | none => s
  | some l =>
    let got := (l.unacked.filter fun x => x.peer == src && decide (x.link ≤ seq)).map (·.tx)
    s.modChip fun c =>
      { c with egress := c.egress.map fun x => { x with unacked := x.unacked.filter fun f => !(f.peer == src && got.contains f.tx) }
               resend := (c.resend.map fun r => if r.1 = src then (r.1, r.2.filter fun n => !got.contains n) else r).filter fun r => !r.2.isEmpty }

/-- The sender counts the error and replays from the last acknowledged flit of the chip's link on the same lane (11 R338). -/
def execReplayRequestReceive (p : PeerLane) (seq : Nat) (s : State) : Host.Outcome State Fault Refusal :=
  match laneAt s p.lane with
  | none => .next s
  | some l =>
    let n := s.now
    let s := modLane (ackFlits p.src p.lane seq s) p.lane (countErr n)
    .next (s.post .flit ([p.src, p.lane, 0] ++ (l.unacked.filter fun x => x.peer == p.src && decide (seq < x.link)).map (·.tx)))

def execFlitAckReceive (p : PeerLane) (seq : Nat) (s : State) : Host.Outcome State Fault Refusal := .next (ackFlits p.src p.lane seq s)

/-- What a lane that leaves its set has not had acknowledged by a chip is issued again on the set's other lanes, or the baseline lane, and
with none of these when a lane is lit (11 R339, step 2). -/
def issueAgain (l : Lane) (s : State) (c : Nat) : State :=
  let txs := (l.unacked.filter (·.peer == c)).map (·.tx)
  let set := laneSet s l.job (if l.st = .aperture then 16384 else l.holder) c
  let base := (s.chip.egress.filter fun x => x.st == .baseline && x.peer == c).map (·.k)
  match (set ++ base).head? with
  | none => s.modChip fun x => { x with resend := keepFlits c txs x.resend }
  | some k => carryOn k c txs s

/-- A lane in use. -/
def inUse (l : Lane) : Bool := l.st == .leased || l.st == .baseline || l.st == .notice || l.st == .aperture

/-- Sixteen errors in a window: the lane leaves every set, and its flits are issued again on others (11 R339). -/
def execLaneRepairStart (lane : Nat) (s : State) : Host.Outcome State Fault Refusal :=
  match laneAt s lane with
  | none => .next s
  | some l =>
    if !inUse l || l.err < 16 then .next s
    else
      let s := tellLane .repair (modLane s lane fun x => { x with st := .repair, was := l.st }) l
      .next ((ascNats (l.unacked.map (·.peer))).foldl (issueAgain l) s)

/-- Every flit is acknowledged: the lane is RETIRED, and its holder is given another ahead of every queued request (11 R339). -/
def execLaneRetire (lane : Nat) (s : State) : Host.Outcome State Fault Refusal :=
  match laneAt s lane with
  | none => .next s
  | some l =>
    if l.st != .repair || !l.unacked.isEmpty then .next s
    else
      let s := tellLane .retired (modLane s lane fun x => { x with st := .retired, holder := 0, job := 0, peerRank := 0 }) l
      if l.was = .baseline then .next (askBaseline s l.peer)
      else if l.was ≠ .leased then .next s
      else match leaseOf s l.job l.holder l.peerRank with
        | none => .next s
        | some x =>
          let q := replacement x l.at'
          .next (attempt (s.modChip fun c => { c with leaseQ := q :: c.leaseQ }) q)

/-- A window of errors ends 1 ms after its first (11 R339, R340). -/
def windowDone (s : State) (l : Lane) : Bool := l.err != 0 && decide (l.errAt + 1200000 ≤ s.now)

def execErrcntWindowEnd (lane : Nat) (s : State) : Host.Outcome State Fault Refusal :=
  let t := s
  let clear (l : Lane) : List Lane :=
    if l.k ≠ lane ∨ !windowDone t l then [l] else if l.st = .dark then [] else [{ l with err := 0 }]
  .next (s.modChip fun c => { c with egress := c.egress.flatMap clear, ingress := c.ingress.flatMap clear })

end Sys2Proof.Machine
end

