-- ==== Sys2Proof/Machine/Recovery.lean ====
section
/-!
DEFINITION. Rollback (15 R420 to R422) and the restore of a withdrawn rank from an image (12 R345); a rank resumed by system
software (15 R404; 10 R317).
-/
namespace Sys2Proof.Machine

/-! ## The log (15 R419, R421) -/

/-- A record of the log, 10 words (15 R419); where in the chip's frames it stands the spec does not say. -/
def LogRec.words (r : LogRec) : List Nat := [r.va % 2 ^ 52 / 64 * 64, r.asid.toNat] ++ (List.range 8).map fun i => leVal ((r.old.drop (8 * i)).take 8)

/-- Where a log record's line is authoritative now: through its address space; a write that no virtual line names goes back
where it was, as long as the frame is held. -/
def logHome (s : State) (r : LogRec) : Option Nat :=
  if r.asid = 0 ∧ r.va = 0 then (if r.pa = noLine then none else some (tierHome s r.pa))
  else match translate s r.asid r.va .read true with
    | .error _ => none
    | .ok l => if fld l.e 5 2 = 2 then none else some (tierHome s (fld l.e 16 36 * 2 ^ 16 + r.va % 2 ^ pageBits l.lvl))

/-- One record applied, or a hole reported. -/
def undoLine (j : Nat) (s : State) (r : LogRec) : State :=
  match logHome s r with
  | none => s.post .event [causeCode .ckptHole, j, r.va]
  | some pa => (clearPoison (markDirty s pa 64) ⟨pa, 64, r.asid, r.va, r.va⟩).poke pa r.old

/-- Records newest first. -/
def undoLog (j : Nat) (l : List LogRec) (s : State) : State := l.reverse.foldl (undoLine j) s

/-! ## What the capture restores (15 R421) -/

/-- A rank's cores begin anew, with the watch entries of the capture; what the early-launch release has told stays told. -/
def renewCore (e : PlaceEntry) (j r i : Nat) (w : List (Option WEnt)) (old : Bool × Bool) (c : Core) : Core :=
  { ownCore e j r i c with watch := Vector.ofFn fun n : Fin 32 => (w[n.1]?).getD none, trigged := old.1, trigSent := old.2 }

/-- A rank that goes on in another block has it in every entry of the job's table (12 R342). -/
def rehome (j r col row : Nat) (s : State) : State :=
  let e := placeOf s j r
  if e.ocol = col ∧ e.orow = row then s
  else
    let s := setPlace s j r fun e => { e with ocol := col, orow := row }
    tellPlace j r (placeOf s j r) s

/-- Where a rank's cores go on: where they are, else its own block, else the lowest free one. -/
def blockFor (s : State) (j r : Nat) : Option (Nat × Nat) :=
  let e := placeOf s j r
  if !(s.coresOf j r).isEmpty || blockFree s (jobWidth s j) e.ocol e.orow then some (e.ocol, e.orow) else lowestBlock s (jobWidth s j)

/-- One rank restored from the capture, its scratchpad cells and drain memory included (01 R23); a rank for which no block is free stays saved. -/
def restoreOne (k : Ckpt) (j : Nat) (s : State) (old : Rank) : State :=
  match s.rank? j old.rank with
  | none => s
  | some cur =>
    let r := old.rank
    let e := placeOf s j r
    let watch (i : Nat) : List (Option WEnt) := ((k.watch.find? fun w => w.1 == r && w.2.1 == i).map (·.2.2)).getD []
    let trig (i : Nat) : Bool × Bool :=
      ((rankCores s j r).find? (·.coreId.toNat == i)).map (fun (c : Core) => (c.trigged, c.trigSent)) |>.getD (false, false)
    let mk (i : Nat) (c : Core) : Core := renewCore e j r i (watch i) (trig i) c
    let back : Rank :=
      { old with asid := cur.asid, gen := cur.gen, noDispatch := false, quiet := false, parked := false, saved := [],
                 dispatches := cur.dispatches }
    let lo := spadKey j r 0
    let hi := spadKey j (r + 1) 0
    let s := { s with mem := s.mem.filter fun c => decide (c.1 < lo) || decide (hi ≤ c.1) }
    let s := (k.spad.filter fun c => decide (lo ≤ c.1) && decide (c.1 < hi)).foldl (fun s c => s.poke c.1 [c.2]) s
    let s := s.modRank j r fun _ => back
    if back.cold then s
    else match blockFor s j r with
      | some (col, row) =>
        let s := s.mapCores fun c => if State.owned j r c then mk c.coreId.toNat c else c
        let s := rehome j r col row s
        loadDrain (if (s.coresOf j r).isEmpty then takeBlock (jobWidth s j) col row mk s else s) j r
      | none =>
        let cs := (List.range (jobWidth s j)).map fun i => { mk i (Core.reset 0) with saved := true }
        loadDrain (s.modRank j r fun x => { x with saved := cs, parked := true, noDispatch := true }) j r

/-! ## The rank restore image (12 R345) -/

/-- The bytes of TABLES and DETQ, as physical words. -/
structure RestImg where
  rank : Nat
  width : Nat
  ckpt : Nat
  asid : Nat
  ctx : Nat
  bad : Bool
deriving DecidableEq, Repr

def readRestImg (s : State) (pa : Nat) : RestImg :=
  let w (i : Nat) : Nat := (s.word (pa + 8 * i)).toNat
  ⟨w 0 % 2 ^ 14, w 0 / 2 ^ 14 % 8, w 1, w 2, w 3,
    w 0 / 2 ^ 17 != 0 || w 2 / 2 ^ 16 != 0 || w 3 / 2 ^ 52 != 0 || (List.range 4).any fun i => w (i + 4) != 0⟩

/-- First of the TABLES bytes of an image's core 0. -/
def tablesAt (i : RestImg) : Nat := i.ctx + 0x4AF000

/-- Why a RESTORE is refused, in order. -/
def restRefusal (s : State) (x : Job) (q : PlaceReq) (i : RestImg) : Option Cause :=
  let rec' := s.chip.asBase.toNat + 32 * i.asid
  let num := ((x.ckpt.map (·.num)).getD 0)
  if i.bad ∨ i.rank ≠ q.rank ∨ 2 ^ (i.width + 2) ≠ x.width ∨ !bitOf (s.word rec') 52 ∨ fld (s.word (rec' + 8)) 12 16 ≠ x.num
      ∨ i.ctx % 2 ^ 23 ≠ 0 then some .placeArg
  else if i.ckpt ≠ num ∨ (s.word (tablesAt i + 0x4488)).toNat ≠ num then some .placeArg
  else if !roomFor s x.num ∨ !blockFree s x.width q.ocol q.orow then some .placeRoom
  else none

/-- The owner and private address of a .det target in a rank's space (04 R115). -/
def detTarget (s : State) (j r va : Nat) : Nat × Nat :=
  let q := s.unitReq j r true
  let fab (t o : Nat) : Nat × Nat := (t, (placeOf s j t).exportBase.toNat + o)
  match regionOf q.width q.v va 8 with
  | .ok (.fab t o) => fab t o
  | .ok .priv =>
    match translate s q.asid va .read true with
    | .ok l =>
      if fld l.e 5 2 = 2 then
        let f := fld l.e 16 31 * 2 ^ 16 + va % 2 ^ pageBits l.lvl
        fab (f / 2 ^ 33) (f % 2 ^ 33)
      else (r, va)
    | .error _ => (r, va)
  | _ => (r, va)

/-- The pending requests in a core's DETQ (12 R345). -/
def detsOf (s : State) (j r i a : Nat) : List Det :=
  (List.range 256).filterMap fun n =>
    let w (m : Nat) : Word := s.word (a + 48 * n + 8 * m)
    if !bitOf (w 0) 58 then none
    else
      let t := detTarget s j r (fld (w 0) 0 52)
      let g := fld (w 4) 32 8
      let p := (((s.job? j).bind (·.group? g)).map (·.openPhase r)).getD 0
      some { rank := r, core := i, task := 0, order := fld (w 4) 0 16, mov := bitOf (w 0) 57, idx := fld (w 4) 16 16, g := g, phase := p,
             trank := t.1, tva := t.2, fva := fld (w 0) 0 52, op := if bitOf (w 0) 56 then none else atomOf (fld (w 0) 52 4), x := w 1,
             exp := w 2, res := fld (w 3) 0 52, seq := 0 }

/-- A group the rank belonged to: phases and generation are those of TABLES, it rejoins, its generation advances, and it has arrived or
not as at the close (12 R345). -/
def rejoin (s : State) (a r : Nat) (g : Group) : Group :=
  let row := (List.range 4).find? fun i => fld (s.word (a + 0x4400 + 32 * i)) 0 9 == g.g + 256
  match row with
  | none => g
  | some i =>
    let there := bitOf (s.word (a + 0x4400 + 32 * i + 24)) 0
    let arr := g.arrived.filter (·.1 != r)
    let gen := fld (s.word (a + 0x4400 + 32 * i + 8)) 0 64
    { g with
      gen := if g.g = 0 then gen else gen + 1, phase := fld (s.word (a + 0x4400 + 32 * i + 16)) 0 64, gone := g.gone.filter (· != r)
      arrived := if there then arr ++ [(r, ((g.arrived.lookup r).getD true))] else arr }

/-- A withdrawn rank placed again from an image that passes. -/
def restoreFrom (j : Nat) (q : PlaceReq) (i : RestImg) (s : State) : State :=
  let r := q.rank
  let a := tablesAt i
  let b (n : Nat) : BitVec 52 := BitVec.ofNat 52 (fld (s.word (a + 0x4300 + 8 * n)) 0 52)
  let t (n : Nat) : BitVec 52 := BitVec.ofNat 52 (fld (s.word (a + 0x4340 + 8 * n)) 0 52)
  let next (now new : BitVec 52) : BitVec 52 := if new = 0 then now else new
  let big (n off len : Nat) : BitVec n := BitVec.ofNat n (leVal (s.bytes (a + off) len))
  let asid := BitVec.ofNat 16 i.asid
  let k : Rank :=
    { job := j, rank := r, asid := asid, gen := BitVec.ofNat 12 (fld (s.word (s.chip.asBase.toNat + 32 * i.asid + 8)) 0 12),
      ti := Vector.ofFn fun n : Fin 256 => big 512 (64 * n.1) 64, cbs := big 4096 0x4100 512,
      stages := Vector.ofFn fun n : Fin 16 => big 128 (0x4000 + 16 * n.1) 16, cbBase := t 0, cbNext := next (t 0) (t 2),
      expBase := t 1, expNext := next (t 1) (t 3), phaseBase := b 0, stageBase := b 1, watchBase := b 3 }
  let w := jobWidth s j
  let l := (List.range w).flatMap fun c => (List.range 32).filterMap fun n =>
    (entryWords16 s (i.ctx + 2 ^ 23 * c + 0x4A6000 + 128 * n)).map fun e => (c, n, e)
  let s := setPlace s j r fun e =>
    { e with chip := s.chip.id, ocol := q.ocol, orow := q.orow, state := .active, pendack := 0, wake := false, pgen := e.pgen + 1,
             phaseBase := b 0, stageBase := b 1, exportBase := t 1, watchBase := b 3, frameBase := b 4, accBase := b 5, ctxBase := b 6 }
  let s := tellPlace j r (placeOf s j r) s
  let src := s
  let step := BitVec.ofNat 32 (fld (src.word (a + 0x4480)) 0 32)
  let s := s.modJob j fun x =>
    { x with groups := x.groups.map (rejoin src a r), reqs := x.reqs.filter (·.rank != r), stepNo := step }
  let s := { s with ranks := s.ranks ++ [k] }
  let s := s.modRank j r fun k => { k with spill := spilledIn s k }
  let s := (List.range w).foldl (fun s c => s.poke (spadKey j r (c * 2 ^ 22)) (src.bytes (i.ctx + 2 ^ 23 * c) 0x300000)) s
  let s := s.modJob j fun x => { x with dets := x.dets.filter (·.rank != r) ++ (List.range w).flatMap fun c => detsOf s j r c (i.ctx + 2 ^ 23 * c + 0x4AC000) }
  let s := advanceGen (seat j r q.ocol q.orow l s) asid
  -- the chip's capture holds the rank from now on, should the job roll back to the checkpoint once more
  let t := s
  let hold (c : Ckpt) : Ckpt :=
    { c with ranks := c.ranks ++ (t.rank? j r).toList
             watch := c.watch ++ (List.range w).map fun i => (r, i, (imageWatch l i).toList)
             dets := c.dets.filter (·.rank != r) ++ (((t.job? j).map (·.dets)).getD []).filter (·.rank == r)
             spad := c.spad ++ t.mem.filter fun x => decide (spadKey j r 0 ≤ x.1) && decide (x.1 < spadKey j (r + 1) 0) }
  s.modJob j fun x => { x with ckpt := x.ckpt.map hold }

def dropRestore (j r : Nat) (s : State) : State := s.modJob j fun x => { x with reqs := x.reqs.filter (·.rank != r) }

/-- The RESTORE requests of the job for this chip are taken, or refused to the host. -/
def restoreWithdrawn (j : Nat) (s : State) : State :=
  match s.job? j with
  | none => s
  | some x =>
    let mine := (ascNats ((x.reqs.filter fun q => q.kind == 4 && q.chip == s.chip.id).map (·.rank))).filterMap fun r =>
      x.reqs.find? fun q => q.rank == r && q.kind == 4 && q.chip == s.chip.id
    mine.foldl (fun s q =>
      if (placeOf s j q.rank).state ≠ .withdrawn then dropRestore j q.rank s
      else
        let i := readRestImg s q.rimg
        match restRefusal s x q i with
        | some c => (dropRestore j q.rank s).post .event [causeCode c, j, q.rank]
        | none => restoreFrom j q i s) s

/-! ## Rollback (15 R421, R422) -/

/-- Step 1: commands, accesses, send-queue traffic and queued requests of the job go without records; moves end, and the requests of a boundary
in progress stand for the next one (12 R344). -/
def stopAll (j : Nat) (s : State) : State :=
  let s := s.chip.migs.foldl (fun s m => if m.job = j ∧ !m.inward ∧ m.active then settleLoss m.chip m s else s)
    (s.modJob j fun x => { x with bound := none, reqs := x.reqs ++ ((x.bound.map (·.reqs)).getD []).filter fun q => !x.reqs.any (·.rank == q.rank) })
  s.modChip fun c =>
    { c with sendQ := (c.sendQ.map fun q => (q.1, q.2.filter (·.2.job != j))).filter fun q => !q.2.isEmpty
             leaseQ := c.leaseQ.filter (·.job != j), guards := c.guards.filter (·.job != j)
             egress := c.egress.flatMap fun l => if l.st = .pending ∧ l.job = j ∧ l.holder ≠ 16384 then l.darken else [l] }

/-- Groups of the capture; a withdrawn rank that is not placed again leaves every group but g0, and the generation advances. -/
def keptGroup (s : State) (j : Nat) (g : Group) : Group :=
  let lost (r : Nat) : Bool := (placeOf s j r).state == .withdrawn
  if g.g = 0 ∨ !g.memb.any lost then g
  else { g with memb := g.memb.filter fun r => !lost r, arrived := g.arrived.filter fun a => !lost a.1, gen := g.gen + 1 }

/-- The rollback of a job to its checkpoint. Interval 0's is the launch state, which no boundary has closed: part 9 runs again for
the others (log entry 24). -/
def rollBack (j : Nat) (k : Ckpt) (s : State) : State :=
  let s := stopAll j s
  let s := undoLog j (((s.job? j).map (·.log)).getD []) s
  let s := s.modJob j fun x =>
    { x with groups := k.groups, dets := k.dets, cols := [], stepNo := k.stepNo, log := [], logFull := false, chkpt := [],
             chkptDue := false, bounds := 0, oldCmds := [], rolling := false }
  let s := k.ranks.foldl (restoreOne k j) s
  let s := restoreWithdrawn j s
  let t := s
  let lost (r : Nat) : Bool := (placeOf t j r).state == .withdrawn
  let s := s.modJob j fun x => { x with groups := x.groups.map (keptGroup t j), dets := x.dets.filter fun d => !lost d.rank }
  let s := if k.num = 0 then s else endBoundary j s
  (recheck s).post .event [evRolledBack, j, k.num]

/-- The rollback; of a job that was killed meanwhile steps 1 and 2 alone (15 R422). -/
def execRollback (job : Nat) (s : State) : Host.Outcome State Fault Refusal :=
  match s.job? job with
  | none => .next s
  | some x =>
    match x.ckpt with
    | none => .next s
    | some k =>
      if x.rolling && x.status != .killed && x.status != .free then
        match x.rollEnd with
        | none => .next (rollBack job k s)
        | some c => .next (killJob ((undoLog job x.log (stopAll job s)).modJob job fun x => { x with rolling := false, rollEnd := none }) job c)
      else .next s

/-! ## RESUME_RANK (10 R317; 15 R404) -/

/-- A rank that goes on raises anew what still stands (15 R404), a poisoned line's item among it. -/
def forgetItems (j r : Nat) (s : State) : State := s.modJob j fun x => { x with poisoned := x.poisoned.filter (·.1 != r) }

/-- A stopped rank, or one held for a forward record, goes on: in its block, else the lowest free one; none when no block is
free. -/
def goOnAt (j r : Nat) (s : State) : Option State :=
  match s.rank? j r with
  | none => none
  | some k =>
    if k.saved.isEmpty then
      let held := (s.coresOf j r).filter fun c => !c.fwds.isEmpty && c.stopReq.isNone
      let t := cancelStop j r (forgetItems j r s)
      some (held.foldl (fun s c => s.atCore c.phys resumeCore) t)
    else
      let e := placeOf s j r
      let w := jobWidth s j
      let at' := if blockFree s w e.ocol e.orow then some (e.ocol, e.orow) else lowestBlock s w
      at'.map fun p => restoreRank j r w p.1 p.2
        (rehome j r p.1 p.2 (forgetItems j r s))

/-- Do ranks stand still for the device: for idle, retain, or the Loupe's halt (14 R397, R398). -/
def resting (s : State) : Bool :=
  let low (p : PwrSt) : Bool := p == .idle || p == .retain
  low s.chip.pwr || s.chip.pwrTo.any low || s.chip.loupe == .halt

/-- A parked rank, or one held for a forward record, goes on (15 R404), as soon as the device lets it; any other stays as it is. -/
def resumeRankAt (j r : Nat) (s : State) : Option State :=
  match s.rank? j r with
  | none => none
  | some k =>
    if !k.parked && k.fwds.isEmpty && (s.coresOf j r).all (·.fwds.isEmpty) then some s
    else if resting s then
      some ((s.modRank j r fun k => { k with parked := false, fwds := [] }).mapCores fun c => if State.owned j r c then { c with fwds := [] } else c)
    else goOnAt j r s

end Sys2Proof.Machine
end

