-- ==== Sys2Proof/Machine/Security.lean ====
section
/-!
DEFINITION. Bring-up (14 R385; 15 R425 to R427), keys and attestation (14 R386, R387), security states (R388), tenant interfaces (R389
to R396), host accesses to memory (14 R391; 16 R429), and the Loupe (14 R397, R399).
-/
namespace Sys2Proof.Machine

/-! ## Ranks stop for the device and go on (10 R313; 14 R398; 15 R427) -/

/-- Every active rank of the chip, with its job. -/
def activeRanks (s : State) : List (Nat × Nat) := s.ranks.filterMap fun k => if k.cold then none else some (k.job, k.rank)

/-- Pre-emption of every rank is asked for. -/
def stopRanks (s : State) : State :=
  (activeRanks s).foldl (fun s p => if (s.coresOf p.1 p.2).any fun c => c.stopReq.isNone then askStop s p.1 p.2 else s) s

/-- No rank holds cores. -/
def ranksSaved (s : State) : Bool := (activeRanks s).all fun p => (s.coresOf p.1 p.2).isEmpty

/-- Every rank that the device stopped, and no park holds, goes on. -/
def resumeRanks (s : State) : State :=
  (activeRanks s).foldl (fun s p =>
    match s.rank? p.1 p.2 with
    | none => s
    | some k =>
      if k.parked then s
      else if !k.saved.isEmpty || (s.coresOf p.1 p.2).any fun c => c.stopReq.isSome then (goOnAt p.1 p.2 s).getD s
      else s) s

/-! ## Secrets (log entry 14) -/

def drawSecret (s : State) : State × Nat := ({ s with freeCtr := s.freeCtr + 1 }, Config.freeSecret s.freeCtr)

/-! ## Bring-up (14 R385; 15 R425 to R427) -/

/-- What outlives a reset: fuses, non-volatile counters and keys, the stored image, the owner's hash; and what has gone out or
waits outside. -/
def resetDevice (s : State) : State :=
  let c := s.chip
  { State.reset with
    agenda := s.agenda, freeCtr := s.freeCtr
    chip := { State.reset.chip with
      id := c.id, outbox := c.outbox, secState := c.secState, fw := c.fw, minSvn := c.minSvn, idKey := c.idKey, attKey := c.attKey,
      idIdx := c.idIdx, attIdx := c.attIdx, ownerKey := c.ownerKey } }

/-- May the image run. -/
def imageOk (s : State) (i : FwImage) : Bool := i.sigOk && s.chip.minSvn.toNat ≤ i.svn.toNat

/-- The root of trust verifies the image: a refused one leaves the device in recovery, and the host hears of it. -/
def verifyImage (s : State) : State :=
  let ok := (s.chip.fw.map (imageOk s)).getD false
  let s := s.modChip fun c => { c with recovery := !ok }
  if ok then s else s.post .event [evService, 0]

def execDeviceReset (s : State) : Host.Outcome State Fault Refusal := .next (verifyImage (resetDevice s))

def execFirmwareImageLoad (img : FwImage) (s : State) : Host.Outcome State Fault Refusal :=
  if s.chip.recovery then .next (verifyImage (s.modChip fun c => { c with fw := some img })) else .next s

/-- A verified image runs. -/
def booted (s : State) : Bool := s.chip.fw.isSome && !s.chip.recovery

def execLpddrTrainingDone (s : State) : Host.Outcome State Fault Refusal :=
  if booted s && s.chip.svc == 0 then .next ((s.modChip fun c => { c with svc := 1 }).post .event [evService, 1]) else .next s

/-- HBM4E training: stacks that fail have no good die (15 R425). -/
def execHbmTrainingDone (failed : List Nat) (s : State) : Host.Outcome State Fault Refusal :=
  if s.chip.svc ≠ 1 ∨ s.chip.hbmUp then .next s
  else
    let up := (List.range 8).filter fun i => !failed.contains i
    .next (s.modChip fun c =>
      { c with hbmUp := true
               stacksUp := BitVec.ofNat 8 (up.foldl (fun n i => n + 2 ^ i) 0)
               dies := c.dies.mapIdx fun i n => if failed.contains i then 0 else n })

/-- The move to full service: every rank is pre-empted; when they are saved the service is full, the ranks go on in their blocks
and the host hears of it (15 R427); the Prism follows the pod slot clock, which the spec aligns with no TICKS (11 R334). -/
def execOpticalCalibrationDone (s : State) : Host.Outcome State Fault Refusal :=
  if s.chip.svc ≠ 1 ∨ !s.chip.hbmUp then .next s
  else if !ranksSaved s then .next (stopRanks s)
  else
    let off := Config.freeRemote s.freeCtr
    let s := { s with freeCtr := s.freeCtr + 1 }
    .next ((resumeRanks (s.modChip fun c => { c with svc := 2, optics := true, podOff := off })).post .event [evService, 2])

/-! ## Security states and keys (14 R386 to R388) -/

/-- The fuses go forward only; production is not entered with the Loupe in observe or halt, for which it asks an authorization (14 R388,
R399). -/
def execSecurityStateTransition (dest : SecState) (s : State) : Host.Outcome State Fault Refusal :=
  match s.chip.secState, dest with
  | .manufacturing, .development | .manufacturing, .production | .development, .production =>
    if dest = .production ∧ s.chip.loupe ≠ .off then .next s else .next (s.modChip fun c => { c with secState := dest })
  | _, _ => .next s

/-- Keys are generated at manufacture. -/
def execIdentityKeyGeneration (s : State) : Host.Outcome State Fault Refusal :=
  if s.chip.secState = .manufacturing then .next (s.modChip fun c => { c with idKey := true, attKey := true, idIdx := 0, attIdx := 0 })
  else .next s

def secCode : SecState → Nat
  | .manufacturing => 0 | .development => 1 | .production => 2
def loupeCode : LoupeSt → Nat
  | .off => 0 | .observe => 1 | .halt => 2

/-- Firmware hash, SVN, MIN_SVN. -/
def fwWords (s : State) : List Nat := [(s.chip.fw.map (·.hash)).getD 0, (s.chip.fw.map (·.svn.toNat)).getD 0, s.chip.minSvn.toNat]

/-! ## Tenant interfaces (14 R389 to R396) -/

/-- The frames of partition t's jobs. -/
def ownedBy (s : State) (t : Nat) (f : Frame) : Bool := f.alloc && jobPart s f.job == t

/-- Values of the registers that freeze with interface t, in ascending address among each kind: queue descriptors, quota records, the
records of address spaces (14 R393, R394). -/
def frozenWords (s : State) (t : Nat) : List Nat :=
  let rec8 (a n : Nat) : List Nat := (List.range n).map fun i => (s.word (a + 8 * i)).toNat
  let quota (x : Job) : List Nat := [x.num, x.hbmq, x.lpq, x.coreq, x.laneq, x.repl, x.rnum]
  let spaces := ascNats ((s.ranks.filter fun k => jobPart s k.job == t).map (·.asid.toNat))
  ((List.range 4096).filter fun q => qTenant s q == t && bitOf (qdWord s q 0) 56).flatMap (fun q => rec8 (qdAt s q) 8)
    ++ (s.jobs.filter fun x => jobPart s x.num == t).flatMap quota
    ++ spaces.flatMap fun a => rec8 (s.chip.asBase.toNat + 32 * a) 4

/-- The report of R394 for interface t: the pages with their attributes, and the device's own part. -/
def reportWords (s : State) (t : Nat) : List Nat :=
  let quota (x : Job) : List Nat := [x.num, x.hbmq, x.lpq, x.coreq, x.laneq]
  let page (i : Nat) : List Nat := [4096 * (2 * t + i), 1, Config.tdispInfo t (i + 1)]
  [t, Config.tdispInfo t 0] ++ page 0 ++ page 1 ++ fwWords s ++ [secCode s.chip.secState, (tdiAt s t).loupe, (tdiAt s t).hash]
    ++ (s.jobs.filter fun x => jobPart s x.num == t).flatMap quota ++ [Config.idCertHash, s.chip.id]

/-- MEASUREMENTS: the index is committed before the signature leaves; a spent key answers with an error; an interface that is not locked has
no report to hash (14 R386, R387). -/
def execMeasurements (s : State) : Host.Outcome State Fault Refusal :=
  answering s <| if !s.chip.attKey then .next (s.post .response [1])
  else if 2 ^ 20 ≤ s.chip.attIdx then .next ((s.post .response [1]).post .event [causeCode .attestExhausted])
  else
    let i := s.chip.attIdx
    let hash (t : Nat) : Nat := if (tdiAt s t).st = .unlocked then 0 else Config.sha384 (reportWords s t)
    let (s', sig) := drawSecret (s.modChip fun c => { c with attIdx := i + 1 })
    .next (s'.post .report (fwWords s ++ [secCode s.chip.secState, loupeCode s.chip.loupe] ++ (List.range 16).map hash ++ [i, sig]))

/-- Lines whose slot has lost its key read as zero (14 R390). -/
def blank (s : State) (f : Frame) : State :=
  { s with mem := s.mem.filter fun c => decide (c.1 < f.pa) || decide (f.pa + 2 ^ 16 ≤ c.1) }

/-- Partition t's memory key is zeroized. -/
def zeroize (t : Nat) (s : State) : State :=
  (s.chip.frames.filter (ownedBy s t)).foldl blank (modTdi s t fun x => { x with key := none })

/-- Entry into ERROR, in the order of R395. -/
def tdiError (t reason : Nat) (s : State) : State :=
  if !tdiHeld s t then s
  else
    let s := modTdi (zeroize t s) t fun x => { x with ide := none, st := .error, reason := reason }
    let s := s.jobs.foldl (fun s (x : Job) =>
      if x.tenant = t ∧ x.status ≠ .free ∧ x.status ≠ .killed then killJob s x.num 0 else s) s
    let s := (s.chip.mapped.filter fun m => qTenant s m.q == t).foldl (fun s m => unmapQueue s m.q) s
    s.post .event [evTdi, t, reason]

/-- LOCK_INTERFACE_REQUEST: a fresh key, under which what the partition's frames hold is not what it was. -/
def execLockInterfaceRequest (tdi : Nat) (s : State) : Host.Outcome State Fault Refusal :=
  let no (s : State) : State := s.post .response [tdi, 1]
  answering s <| if 16 ≤ tdi ∨ (tdiAt s tdi).st ≠ .unlocked ∨ s.chip.secState = .manufacturing ∨ s.chip.loupe = .halt
      ∨ (s.chip.mapped.any fun m => qTenant s m.q == tdi) then .next (no s)
  else
    let (s, key) := drawSecret s
    let hash := Config.sha384 (frozenWords s tdi)
    let lo := loupeCode s.chip.loupe
    let s := modTdi s tdi fun x => { x with st := .locked, key := some key, hash := hash, loupe := lo, reason := 0 }
    let s := (s.chip.frames.filter (ownedBy s tdi)).foldl (fun s f => scramble s f.pa (2 ^ 16)) s
    .next (s.post .response [tdi, 0])

def execStartInterfaceRequest (tdi : Nat) (s : State) : Host.Outcome State Fault Refusal :=
  answering s <| if 16 ≤ tdi ∨ (tdiAt s tdi).st ≠ .locked then .next (s.post .response [tdi, 1])
  else .next ((modTdi s tdi fun x => { x with st := .run }).post .response [tdi, 0])

/-- STOP_INTERFACE_REQUEST: from any state but CONFIG_UNLOCKED; the key goes. -/
def execStopInterfaceRequest (tdi : Nat) (s : State) : Host.Outcome State Fault Refusal :=
  answering s <| if 16 ≤ tdi ∨ (tdiAt s tdi).st = .unlocked then .next (s.post .response [tdi, 1])
  else
    let s := if tdiHeld s tdi then zeroize tdi s else s
    .next ((modTdi s tdi fun x => { x with st := .unlocked, ide := none, reason := 0 }).post .response [tdi, 0])

/-- The report of R394. -/
def execGetDeviceInterfaceReport (tdi : Nat) (s : State) : Host.Outcome State Fault Refusal :=
  answering s <| if 16 ≤ tdi ∨ (tdiAt s tdi).st = .unlocked then .next (s.post .response [tdi, 2]) else .next (s.post .report (reportWords s tdi))

/-- IDE_KM keys the TDI's selective stream; its binding is frozen from the lock on (14 R393). -/
def execIdeKm (tdi key : Nat) (s : State) : Host.Outcome State Fault Refusal :=
  answering s <| if 16 ≤ tdi then .next s else if tdiHeld s tdi then .next (tdiError tdi 1 s) else .next (modTdi s tdi fun x => { x with ide := some key })

def execIdeIntegrityFailure (tdi : Nat) (s : State) : Host.Outcome State Fault Refusal := .next (tdiError tdi 3 s)

/-! ## Frozen registers and host accesses (14 R391, R393, R396; 16 R429) -/

/-- Interfaces for which a write to the bytes from pa is a write to a frozen register: a descriptor of their queues, a record of
their jobs' address spaces. -/
def frozenBy (s : State) (pa n : Nat) : List Nat :=
  let q0 := s.chip.qdBase.toNat
  let a0 := s.chip.asBase.toNat
  let qs := (touched q0 64 4096 pa n).map (qTenant s)
  let js := (touched a0 32 65536 pa n).map fun a => jobPart s (spaceJob s (BitVec.ofNat 16 a))
  ascNats ((qs ++ js).filter (tdiHeld s))

/-- Partition that owns the frame of pa. -/
def partOf (s : State) (pa : Nat) : Option Nat :=
  match frameOf s pa with
  | none => none
  | some f => if f.alloc && jobPart s f.job < 16 then some (jobPart s f.job) else none

/-- Interfaces that turn the access away (14 R391). -/
def shutOut (s : State) (pa n : Nat) (ide : Ide) : List Nat :=
  ascNats (((List.range (n / 2 ^ 16 + 2)).filterMap fun i =>
    partOf s (min (pa / 2 ^ 16 * 2 ^ 16 + i * 2 ^ 16) (pa + (n - 1)))).filter fun t => !ideOk s t ide)

/-- Does an operation of system software read, in its record, bytes of an interface that is locked or running: it is refused (14 R384; log entry
14). -/
def hidden (s : State) (pa n : Nat) : Bool :=
  (List.range (n / 2 ^ 16 + 2)).any fun i =>
    (partOf s (min (pa / 2 ^ 16 * 2 ^ 16 + i * 2 ^ 16) (pa + (n - 1)))).any (tdiHeld s)

/-- A host read at offset off of BAR4: 0 and the bytes, all ones where memory is absent; 1 for Unsupported Request, 2 for a
poisoned line. -/
def execHostBar4Read (off n : Nat) (ide : Ide) (s : State) : Host.Outcome State Fault Refusal :=
  let pa := s.chip.winBase.toNat + off
  let out := shutOut s pa n ide
  answering s <| if n = 0 ∨ 2 ^ 36 < off + n then .next s
  else if !out.isEmpty then .next ((out.foldl reject s).post .response [1])
  else
    let at' (i : Nat) : Nat := tierHome s (pa + i)
    if (List.range n).any fun i => physOk (pa + i) && s.poison.contains (at' i / 64) then .next (s.post .response [2])
    else
      let byte (i : Nat) : Nat := if physOk (pa + i) then (s.byte (at' i)).toNat else 255
      .next (s.post .response (0 :: (List.range n).map byte))

/-- Host bytes, one by one or in whole lines where they cover them. -/
def hostPut : Nat → Nat → List Byte → State → State
  | 0, _, _, s => s
  | fuel + 1, pa, bs, s =>
    if bs.isEmpty then s
    else
      let m := min bs.length (64 - pa % 64)
      let p : Piece := ⟨tierHome s pa, m, 0, 0, pa⟩
      let s := if !physOk pa || (poisonAt s true p).isSome then s else writePieces s [p] (bs.take m)
      hostPut fuel (pa + m) (bs.drop m) s

/-- Words of the tables in memory that the device alone writes, each with its bits that a write at pa leaves as they are: the records
of the engines' faults, those of the fault ring that software has not consumed, the generation of an address space (13 R369 to R371). Bit
M of a leaf, which R364's table calls read-only, is not among them: the device does not know where in memory the tables of a space lie
(DESIGN CHOICE, log entry 56). -/
def roWords (s : State) (pa n : Nat) : List (Nat × Word) :=
  let c := s.chip
  let all (a : Nat) : List (Nat × Word) := (List.range 4).map fun i => (a + 8 * i, BitVec.allOnes 64)
  let bm := (touched c.fbBase.toNat 32 256 pa n).filter fun i => c.bfaults.any (·.idx == i)
  let ring := fld c.frBase 5 47 * 32
  let size := 2 ^ fld c.frBase 52 4
  let kept (i : Nat) : Bool := (i + size - c.frTail.toNat % size) % size < (c.frHead - c.frTail).toNat
  let asRec (i : Nat) : Nat := c.asBase.toNat + 32 * i
  bm.flatMap (fun i => all (c.fbBase.toNat + 32 * i))
    ++ ((touched ring 32 size pa n).filter kept).flatMap (fun i => all (ring + 32 * i))
    ++ ((touched c.asBase.toNat 32 65536 pa n).filter fun i => bitOf (s.word (asRec i)) 52).map fun i => (asRec i + 8, 0xFFF)

/-- A word with the bits of the mask as they were. -/
def keepWord (old s : State) (p : Nat × Word) : State :=
  s.pokeWord p.1 ((old.word p.1 &&& p.2) ||| (s.word p.1 &&& ~~~p.2))

/-- A 1 written at OPEN of an engine's fault record, bit 52 of its first word, frees the record (13 R371). -/
def closeFault (bytes : List Byte) (pa : Nat) (s : State) (i : Nat) : State :=
  let a := s.chip.fbBase.toNat + 32 * i
  if a + 6 < pa || !((bytes[a + 6 - pa]?).map (bitOf · 4)).getD false || !s.chip.bfaults.any (·.idx == i) then s
  else s.pokeWord a (setFld (s.word a) 52 1 0)

/-- What a host write at pa leaves of the tables in memory: read-only bits stay, OPEN is cleared by a 1. -/
def settleTables (old : State) (pa : Nat) (bytes : List Byte) (s : State) : State :=
  (touched old.chip.fbBase.toNat 32 256 pa bytes.length).foldl (closeFault bytes pa) ((roWords old pa bytes.length).foldl (keepWord old) s)

/-- A host write; one to a frozen register sends its TDI to ERROR (14 R392, R396); the read-only fields of the tables in memory stay
(10 R291; 13 R369 to R371). -/
def execHostBar4Write (off : Nat) (bytes : List Byte) (ide : Ide) (s : State) : Host.Outcome State Fault Refusal :=
  let pa := s.chip.winBase.toNat + off
  let n := bytes.length
  let out := shutOut s pa n ide
  answering s <| if n = 0 ∨ 2 ^ 36 < off + n then .next s
  else if !out.isEmpty then .next ((out.foldl reject s).post .response [1])
  else
    let s := (frozenBy s pa n).foldl (fun s t => tdiError t 1 s) s
    let old := s
    let s := settleTables old pa bytes (hostPut (n / 64 + 2) pa bytes s)
    let clr (q : Nat) : Bool :=
      let a := qdAt s q + 17
      decide (pa ≤ a) && ((bytes[a - pa]?).map (bitOf · 0)).getD false
    .next (recheck ((touched s.chip.qdBase.toNat 64 4096 pa n).foldl (fun s q => settleQueue old (clr q) q s) s))

/-! ## The Loupe (14 R397, R399) -/

/-- In production an authorization must name the device, the request and the nonce, under the owner's key. -/
def authOk (s : State) (a : DebugAuth) (toHalt : Bool) : Bool :=
  s.chip.secState != .production
    || (a.sigOk && a.toHalt == toHalt && a.device == s.chip.id && s.chip.nonce == some a.nonce && s.chip.ownerKey == some a.keyHash)

/-- An authorization is good for one entry. -/
def spendNonce (s : State) : State := if s.chip.secState = .production then s.modChip fun c => { c with nonce := none } else s

/-- Ranks stopped for halt alone go on. -/
def leaveHalt (s : State) : State := if s.chip.loupe = .halt ∧ powered s then resumeRanks s else s

def execLoupeObserveEnter (a : DebugAuth) (s : State) : Host.Outcome State Fault Refusal :=
  answering s <| if !authOk s a false then .next (s.post .response [1])
  else
    let s := spendNonce s
    .next ((leaveHalt s).modChip fun c => { c with loupe := .observe })

/-- Entry into halt: refused in retain or on the way there; held interfaces go to ERROR first, then every rank is pre-empted. -/
def execLoupeHaltEnter (a : DebugAuth) (s : State) : Host.Outcome State Fault Refusal :=
  answering s <| if s.chip.pwr = .retain ∨ s.chip.pwrTo = some .retain ∨ !authOk s a true then .next (s.post .response [1])
  else
    let s := (List.range 16).foldl (fun s t => tdiError t 2 s) (spendNonce s)
    .next ((stopRanks s).modChip fun c => { c with loupe := .halt })

def execLoupeOff (s : State) : Host.Outcome State Fault Refusal :=
  .next ((leaveHalt s).modChip fun c => { c with loupe := .off })

/-- What the Loupe reads of the trace in observe or halt: the entries, but of a job whose interface is locked or running the number
alone, by job (14 R397). -/
def loupeTrace (s : State) : Option (List TraceEnt × List (Nat × Nat)) :=
  let held (e : TraceEnt) : Bool := tdiHeld s (jobPart s e.job)
  let shut := s.chip.trace.filter held
  if s.chip.loupe = .off then none
  else some (s.chip.trace.filter fun e => !held e, (ascNats (shut.map (·.job))).map fun j => (j, (shut.filter (·.job == j)).length))

/-- What the Loupe reads of a core in halt, and the state after it has written one; the table has no row for either (14 R397; log entry
54). -/
def loupeCore (s : State) (p : Nat) : Option Core := if s.chip.loupe = .halt then s.allCores.find? (·.phys == p) else none
def loupeWrite (p : Nat) (f : Core → Core) (s : State) : State :=
  if s.chip.loupe = .halt then s.mapCores fun c => if c.phys = p then { f c with phys := p } else c else s

def execDebugNonceIssue (s : State) : Host.Outcome State Fault Refusal :=
  let (s', n) := drawSecret s
  answering s <| .next ((s'.modChip fun c => { c with nonce := some n }).post .response [0, n])

def execOwnerKeyProvision (hash : Nat) (s : State) : Host.Outcome State Fault Refusal :=
  answering s <| .next (s.modChip fun c => { c with ownerKey := some hash })

end Sys2Proof.Machine
end

