-- ==== Sys2Proof/Machine/Power.lean ====
section
/-!
DEFINITION. Power states, throttling and gating (14 R398, R399; 16 R434 to R436). A gated core's freeze is timing (log entry 22).
-/
namespace Sys2Proof.Machine

/-! ## Targets (16 R435) -/

def pwrCode : PwrSt → Nat
  | .full => 0 | .reduced => 1 | .idle => 2 | .retain => 3 | .off => 4

/-- Every job ends, with RB ignored. -/
def killAll (s : State) : State :=
  s.jobs.foldl (fun s (x : Job) => if x.status ≠ .free ∧ x.status ≠ .killed then killJob s x.num 0 else s) s

/-- A transition toward p begins; a change of clock waits for the next rotation boundary. -/
def goTo (p : PwrSt) (s : State) : State :=
  let at' := nextRotation s
  s.modChip fun c => { c with pwrTo := some p, pwrAt := at' }

/-- A sleeping state: ranks are pre-empted first; the running state is what a wake returns to. -/
def sleepTo (p : PwrSt) (t : Nat) (s : State) : State :=
  let was := if s.chip.pwr = .reduced then 1 else if s.chip.pwr = .full then 0 else s.chip.pwrPrev
  goTo p ((stopRanks s).modChip fun c => { c with target := t, pwrPrev := was })

/-- A TARGET is taken (16 R435); 0 to 4. -/
def takeTarget (t : Nat) (s : State) : State :=
  match t with
  | 0 =>
    let s := s.modChip fun c => { c with target := 0 }
    if s.chip.pwr = .full ∨ (s.chip.throt ∧ s.chip.pwr = .reduced) then s else goTo (if s.chip.throt then .reduced else .full) s
  | 1 =>
    let s := s.modChip fun c => { c with target := 1 }
    if s.chip.pwr = .reduced then s else goTo .reduced s
  | 2 => if s.chip.pwr = .idle then s.modChip fun c => { c with target := 2 } else sleepTo .idle 2 s
  | 3 =>
    if s.chip.loupe = .halt then s.modChip fun c => { c with refused := true }
    else if s.chip.pwr = .retain then s.modChip fun c => { c with target := 3 } else sleepTo .retain 3 s
  | _ => goTo .off ((killAll s).modChip fun c => { c with target := 4 })

/-- A write of TARGET: it wakes a sleeping device, and one during a transition is taken after it, the last one only. -/
def writeTarget (t : Nat) (s : State) : State :=
  if s.chip.pwr = .off then s
  else
    let s := wakeUp s
    if s.chip.pwrTo.isSome then s.modChip fun c => { c with targetNext := some t } else takeTarget t s

def execPwrTargetFull (s : State) : Host.Outcome State Fault Refusal := answering s (.next (writeTarget 0 s))
def execPwrTargetReduced (s : State) : Host.Outcome State Fault Refusal := answering s (.next (writeTarget 1 s))
def execPwrTargetIdle (s : State) : Host.Outcome State Fault Refusal := answering s (.next (writeTarget 2 s))
def execPwrTargetRetain (s : State) : Host.Outcome State Fault Refusal := answering s (.next (writeTarget 3 s))
def execPwrTargetOff (s : State) : Host.Outcome State Fault Refusal := answering s (.next (writeTarget 4 s))

/-- May the transition end: a change of clock at its rotation boundary, a sleep once every rank is saved. -/
def pwrReady (s : State) : Bool :=
  match s.chip.pwrTo with
  | none => false
  | some .full | some .reduced =>
    s.chip.pwr == .idle || s.chip.pwr == .retain || decide (s.chip.pwrAt ≤ s.now)
  | some .off => true
  | some _ => ranksSaved s

/-- The device is off: keys are not kept, cores and jobs are gone (14 R398, R399). -/
def powerOff (s : State) : State :=
  let c := s.chip
  { resetDevice s with
    chip := { (resetDevice s).chip with
      pwr := .off, ticks := c.ticks, tj := c.tj, sysKey := none, tdi := c.tdi.map fun x => { x with ide := none, key := none } } }

/-- A transition ends; ranks stopped for sleep go on in a running state; a TARGET written meanwhile is taken (16 R435). The millisecond
above the limit counts from the entry into reduced clock (16 R436). -/
def execPowerTransitionDone (s : State) : Host.Outcome State Fault Refusal :=
  if !pwrReady s then .next s
  else match s.chip.pwrTo with
    | none => .next s
    | some .off => .next ((powerOff s).post .event [evPower, 4])
    | some p =>
      let n := s.now
      let s := s.modChip fun c => { c with pwr := p, pwrTo := none, overAt := if p = .reduced then c.overAt.map fun _ => n else c.overAt }
      let s := if (p = .full ∨ p = .reduced) ∧ s.chip.loupe ≠ .halt then resumeRanks s else s
      let s := s.post .event [evPower, pwrCode p]
      .next (match s.chip.targetNext with
        | none => s
        | some t => takeTarget t (s.modChip fun c => { c with targetNext := none }))

/-- An interrupt or a wake of the debug host (14 R397, R398). -/
def execPowerWake (s : State) : Host.Outcome State Fault Refusal := .next (wakeUp s)

/-- Power returns: bring-up begins, and interfaces that were locked or running are in ERROR, reason 4 (14 R399). -/
def execPowerOn (s : State) : Host.Outcome State Fault Refusal :=
  if s.chip.pwr ≠ .off then .next s
  else
    let up (x : Tdi) : Tdi :=
      if x.st = .locked ∨ x.st = .run then { x with st := .error, reason := 4, key := none, ide := none }
      else if x.st = .error then x else { x with key := some 0 }
    let t := s.chip.tdi.map up
    let s := resetDevice s
    .next (verifyImage (s.modChip fun c => { c with tdi := t }))

/-- The supply is lost: nothing that needs it is kept, and no record is written (14 R386, R399). -/
def execPowerLoss (s : State) : Host.Outcome State Fault Refusal := .next (powerOff s)

/-! ## The limit (16 R436) -/

/-- TICKS of a millisecond. -/
def msec : Nat := 1200000

/-- Draw at or below 90 % of the limit. -/
def drawLow (s : State) (draw : Nat) : Bool := 10 * draw ≤ 9 * s.chip.limit

/-- A measured draw; an interval of low or of high draw begins with it. -/
def measure (draw : Nat) (s : State) : State :=
  let n := s.now
  let low := drawLow s draw
  s.modChip fun c =>
    { c with draw := draw
             overAt := if c.limit < draw then some (c.overAt.getD n) else none
             underAt := if low then some (c.underAt.getD n) else none
             lmiss := c.lmiss && decide (c.limit < draw) }

/-- Reduced clock is forced. -/
def forceReduced (s : State) : State :=
  let s := s.modChip fun c => { c with throt := true }
  if s.chip.pwr = .full ∧ s.chip.pwrTo.isNone then goTo .reduced s
  else if s.chip.pwrTo = some .full then s.modChip fun c => { c with pwrTo := some .reduced } else s

def execThrottleEnter (draw : Nat) (s : State) : Host.Outcome State Fault Refusal :=
  let s := measure draw s
  if s.chip.thr && decide (s.chip.limit < draw) && !s.chip.throt && powered s then
    let n := s.now
    .next ((forceReduced s).modChip fun c => { c with overAt := some n })
  else .next s

/-- A further millisecond above the limit in reduced clock raises GATE; at 15 it sets LMISS. -/
def execGateRaise (draw : Nat) (s : State) : Host.Outcome State Fault Refusal :=
  let s := measure draw s
  match s.chip.overAt with
  | none => .next s
  | some t =>
    if !s.chip.thr || !s.chip.throt || s.chip.pwr != .reduced || decide (s.now < t + msec) then .next s
    else
      let n := s.now
      if s.chip.gate < 15 then .next (s.modChip fun c => { c with gate := c.gate + 1, overAt := some n })
      else if s.chip.lmiss then .next s
      else .next ((s.modChip fun c => { c with lmiss := true }).post .event [evPower, 5])

/-- Has the draw been low for 10 ms. -/
def lowLong (s : State) : Bool := match s.chip.underAt with
  | none => false
  | some t => decide (t + 10 * msec ≤ s.now)

def execGateLower (draw : Nat) (s : State) : Host.Outcome State Fault Refusal :=
  let s := measure draw s
  if s.chip.gate = 0 ∨ !lowLong s then .next s
  else
    let n := s.now
    .next (s.modChip fun c => { c with gate := c.gate - 1, underAt := some n })

def execThrottleExit (draw : Nat) (s : State) : Host.Outcome State Fault Refusal :=
  let s := measure draw s
  if s.chip.throt && s.chip.gate == 0 && lowLong s && s.chip.target == 0 && decide (s.chip.tj < 105) then
    let s := s.modChip fun c => { c with throt := false }
    .next (if s.chip.pwr = .reduced ∧ s.chip.pwrTo.isNone then goTo .full s else s)
  else .next s

def execThermalReduce (tj : Nat) (s : State) : Host.Outcome State Fault Refusal :=
  let s := s.modChip fun c => { c with tj := tj }
  .next (if 105 ≤ tj ∧ powered s then forceReduced s else s)

def execThermalOff (tj : Nat) (s : State) : Host.Outcome State Fault Refusal :=
  let s := s.modChip fun c => { c with tj := tj }
  .next (if 115 ≤ tj ∧ s.chip.pwr ≠ .off then (powerOff (killAll s)).post .event [evPower, 4, tj] else s)

end Sys2Proof.Machine
end

