-- ==== Sys2Proof/Machine/Manage.lean ====
section
/-!
DEFINITION. Management registers (16 R431, R433, R434; 13 R370, R371; 14 R395) and the operations of system software (16 R432, with
the rules each row of its table names).
-/
namespace Sys2Proof.Machine

/-! ## Operations run one at a time (16 R432) -/

/-- Is operation n the one that runs. -/
def opOn (s : State) (n : Nat) : Bool := s.chip.opBusy && s.chip.opCmd == some n

/-- The operation has had its effect, or was refused with a cause. -/
def opEnd (c : Option Cause) (s : State) : State := s.modChip fun x => { x with opCmd := none, opCause := causeCodeO c }

/-- An operation on its two arguments: what it does, or its refusal. -/
def operate (n : Nat) (f : Word → Word → State → Except Cause State) (s : State) : Host.Outcome State Fault Refusal :=
  if !opOn s n then .next s
  else match f s.chip.opArg0 s.chip.opArg1 s with
    | .ok s => .next (opEnd none s)
    | .error c => .next (opEnd (some c) s)

/-- No bit of x at or above n. -/
def under (x : Word) (n : Nat) : Bool := fld x n (64 - n) == 0

/-- FRAME_ALLOC (13 R373, R374). -/
def doFrameAlloc (a b : Word) (s : State) : Except Cause State :=
  let j := fld a 0 16
  let t := fld a 16 1
  let k := fld a 17 5
  if !under a 22 ∨ b ≠ 0 ∨ 16 < k then .error .rsvField
  else
    let n := 2 ^ k
    let x := (s.job? j).getD { num := j }
    let full := if t = 0 then x.hbmq < x.hbmu + n else x.lpq < x.lpu + n
    if full then .error .allocQuota
    else match findRun s t (n * 2 ^ 16) with
      | none => .error .allocQuota
      | some pa => .ok ((giveFrames j pa n s).modChip fun c => { c with opRes := BitVec.ofNat 64 pa })

def execFrameAlloc (s : State) : Host.Outcome State Fault Refusal := operate 1 doFrameAlloc s

/-- PAGE_MOVE joins the requests for its page; it is done when they are (13 R375, R379). -/
def doPageMove (a b : Word) (s : State) : Except Cause State :=
  let asid : BitVec 16 := BitVec.ofNat 16 (fld a 0 16)
  if !under a 21 ∨ !under b 52 ∨ 1 < fld a 16 2 ∨ 3 < fld a 18 3 then .error .rsvField
  else
    let va := ((pageAt s asid b.toNat).map (·.va)).getD (b.toNat / 2 ^ 16 * 2 ^ 16)
    .ok ((queueMove s asid b.toNat (fld a 16 2) (fld a 18 3)).modChip fun c => { c with opWait := some (asid.toNat, va) })

def execPageMove (s : State) : Host.Outcome State Fault Refusal := operate 2 doPageMove s

/-- RESOLVE (13 R372). -/
def doResolve (a b : Word) (s : State) : Except Cause State :=
  if !under a 32 ∨ !under b 52 then .error .rsvField
  else
    let lo := b.toNat / 2 ^ 16 * 2 ^ 16
    .ok (resolveRange (BitVec.ofNat 16 (fld a 0 16)) lo (lo + fld a 16 16 * 2 ^ 16) s)

def execResolve (s : State) : Host.Outcome State Fault Refusal := operate 3 doResolve s

/-- AS_ADVANCE (13 R369). -/
def doAsAdvance (a b : Word) (s : State) : Except Cause State :=
  if !under a 16 ∨ b ≠ 0 then .error .rsvField else .ok (advanceGen s (BitVec.ofNat 16 (fld a 0 16)))

/-- The interface whose frozen record an operation writes, when it is one that does (14 R393): AS_ADVANCE an address space's record, QUOTA_SET a
quota record. -/
def opTenant (n : Nat) (a : Word) (s : State) : Option Nat :=
  match n with
  | 4 => some (jobPart s (spaceJob s (BitVec.ofNat 16 (fld a 0 16))))
  | 5 => some (jobPart s (fld a 0 16))
  | _ => none

def execAsAdvance (s : State) : Host.Outcome State Fault Refusal := operate 4 doAsAdvance s

/-- Would the quotas of all jobs pass what the tiers can give (13 R374). -/
def quotaOver (s : State) (j hbmq lpq : Nat) : Bool :=
  let rest := s.jobs.filter fun x => x.num != j
  let hbm := rest.foldl (fun (n : Nat) (x : Job) => n + x.hbmq) hbmq
  let lp := rest.foldl (fun (n : Nat) (x : Job) => n + x.lpq) lpq
  hbmAlloc s.chip / 2 ^ 16 < hbm || (lpAllocEnd - 0x20000000000) / 2 ^ 16 < lp

/-- QUOTA_SET (13 R374; 16 R432): the lane quota of a job that has ranks waits for its next step boundary; the record's
read-only fields are not taken. -/
def doQuotaSet (a b : Word) (s : State) : Except Cause State :=
  let j := fld a 0 16
  let w (i : Nat) : Word := s.word (b.toNat + 8 * i)
  let core := fld (w 2) 0 8
  let lane := fld (w 2) 16 12
  if !under a 16 ∨ !under b 52 ∨ hidden s b.toNat 64 ∨ fld (w 2) 40 24 ≠ 0 ∨ (List.range 4).any (fun i => w (i + 4) != 0) ∨ 128 < core ∨ 2047 < lane then
    .error .rsvField
  else if quotaOver s j (fld (w 0) 0 32) (fld (w 1) 0 32) then .error .quotaOver
  else
    let t := s
    let s : State := match s.job? j with
      | some _ => s
      | none => { s with jobs := s.jobs ++ [{ num := j, status := .free }] }
    .ok (s.modJob j fun x =>
      { x with hbmq := fld (t.word b.toNat) 0 32, lpq := fld (t.word (b.toNat + 8)) 0 32, coreq := core
               laneq := if x.status = .running ∨ x.status = .retired then x.laneq else lane
               laneqNext := if x.status = .running ∨ x.status = .retired then some lane else none
               repl := fld (t.word (b.toNat + 24)) 0 52, rnum := fld (t.word (b.toNat + 24)) 52 12 })

def execQuotaSet (s : State) : Host.Outcome State Fault Refusal := operate 5 doQuotaSet s

/-! ### MAP_LOAD (13 R382, R383) -/

/-- Elimination over GF(2): the rows below once column i is cleared, none when no row has it. -/
def pivot (i : Nat) : List Nat → Option (List Nat)
  | [] => none
  | r :: rs =>
    if r.testBit i then some (rs.map fun x => if x.testBit i then x ^^^ r else x)
    else (pivot i rs).map fun l => r :: l
def regular : Nat → List Nat → Bool
  | 0, _ => true
  | n + 1, l => match pivot n l with
    | none => false
    | some l => regular n l

/-- The refusal of a record for a region, in order. -/
def mapRefusal (s : State) (n : Nat) (r : BitVec 2304) : Option Cause :=
  let k := regK r
  let rf := fld r 40 24 != 0 || (List.range 35).any fun i => fld r (64 * (i + 1) + 33) 31 != 0
  let col (j : Nat) : Nat := (List.range 33).foldl (fun a i => a + b2n ((regRow r i).testBit j) * 2 ^ i) 0
  let sel := (List.range k).any (fun j => col j &&& regMask r != 0)
    || (regLoc r (regBase r) &&& regMask r) != (regVal r &&& regMask r)
  let others := (s.chip.regions.toList.zipIdx.filter fun p => p.2 != n && regOn p.1).map (·.1)
  let meets (o : BitVec 2304) : Bool :=
    (decide (regBase o < regBase r + 2 ^ k) && decide (regBase r < regBase o + 2 ^ regK o))
      || ((regVal o ^^^ regVal r) &&& regMask o &&& regMask r) == 0
  let old := s.chip.regions[n]?.getD 0
  let holds (x : BitVec 2304) (f : Frame) : Bool :=
    regOn x && decide (regBase x < f.pa / 64 + 1024) && decide (f.pa / 64 < regBase x + 2 ^ regK x)
  if rf ∨ 33 < k ∨ regBase r % 2 ^ k ≠ 0 ∨ 2 ^ 33 < regBase r + 2 ^ k then some .mapRegion
  else if !regular 33 ((List.range 33).map (regRow r)) then some .mapSingular
  else if sel then some .mapRegion
  else if regOn r && others.any meets then some .mapRegion
  else if s.chip.frames.any fun f => f.alloc && tierOf f.pa == 0 && (holds old f || holds r f) then some .mapBusy
  else none

def doMapLoad (a b : Word) (s : State) : Except Cause State :=
  let n := fld a 0 3
  let r : BitVec 2304 := BitVec.ofNat 2304 (leVal (s.bytes b.toNat 288))
  if !under a 3 ∨ !under b 52 ∨ hidden s b.toNat 288 then .error .rsvField
  else match mapRefusal s n r with
    | some c => .error c
    | none => .ok (s.modChip fun c => { c with regions := c.regions.setIfInBounds n r })

def execMapLoad (s : State) : Host.Outcome State Fault Refusal := operate 6 doMapLoad s

/-! ### Jobs and ranks -/

/-- Is the cause of a code replayable (15 R402). -/
def replayCode (c : Nat) : Bool := (0x205 ≤ c && c ≤ 0x20B) || c == 0x112 || c == 0x308 || c == 0x401 || c == 0x402

/-- ACT_SET (15 R403). -/
def doActSet (a b : Word) (s : State) : Except Cause State :=
  let c := fld a 16 16
  let e : BitVec 8 := BitVec.ofNat 8 (fld a 32 8)
  let ix := 64 * (c / 256 - 1) + c % 256
  if !under a 40 ∨ b ≠ 0 ∨ c / 256 = 0 ∨ 4 < c / 256 ∨ 63 < c % 256 ∨ fld e 5 3 ≠ 0 ∨ (fld e 0 2 = 1 ∧ !replayCode c) then
    .error .rsvField
  else .ok (s.modJob (fld a 0 16) fun x => { x with act := (ix, e) :: x.act.filter (·.1 != ix) })

def execActSet (s : State) : Host.Outcome State Fault Refusal := operate 7 doActSet s

/-- The cause a rank is held for. -/
def rankCause (s : State) (j r : Nat) : Nat := ((rankCores s j r).findSome? fun c => c.trap.bind (·.cause)).map causeCode |>.getD 0

/-- RESUME_RANK (15 R404). -/
def doResumeRank (a b : Word) (s : State) : Except Cause State :=
  let j := fld a 0 16
  let r := fld a 16 14
  let m := fld a 30 2
  if !under a 32 ∨ b ≠ 0 ∨ (m ≠ 1 ∧ m ≠ 2) ∨ (s.rank? j r).isNone then .error .rsvField
  else if m = 2 then .ok (killJob s j (rankCause s j r))
  else match resumeRankAt j r s with
    | some s => .ok s
    | none => .error .placeRoom

def execResumeRank (s : State) : Host.Outcome State Fault Refusal := operate 8 doResumeRank s

/-- Does a request fit the rank's state (12 R344). -/
def placeFits (kind : Nat) (rimg : Nat) (st : PlaceState) : Bool :=
  match kind, st with
  | 1, .active | 2, .active | 3, .cold => rimg == 0
  | 4, .withdrawn => rimg != 0
  | _, _ => false

/-- PLACE (12 R343, R344): accepted for the next boundary, or rollback; a rank elsewhere has its request passed on. -/
def doPlace (a b : Word) (s : State) : Except Cause State :=
  let w (i : Nat) : Word := s.word (b.toNat + 8 * i)
  let j := fld (w 1) 0 16
  let q : PlaceReq := ⟨fld (w 0) 0 3, fld (w 0) 16 14, fld (w 0) 32 10, fld (w 0) 42 4, fld (w 0) 46 3, fld (w 2) 0 52⟩
  if a ≠ 0 ∨ !under b 52 ∨ hidden s b.toNat 24 then .error .rsvField
  else match s.job? j with
    | none => .error .placeArg
    | some x =>
      let rf := fld (w 0) 3 13 != 0 || fld (w 0) 30 2 != 0 || fld (w 0) 49 15 != 0 || fld (w 1) 16 48 != 0 || fld (w 2) 52 12 != 0
      if rf ∨ x.v ≤ q.rank ∨ (q.kind ≠ 2 ∧ !originOk x.width q.ocol q.orow) ∨ !placeFits q.kind q.rimg (placeOf s j q.rank).state then
        .error .placeArg
      else
        let home := if q.kind = 4 then q.chip else (placeOf s j q.rank).chip
        let here := if home = s.chip.id then [q] else []
        let s := s.modJob j fun x => { x with reqs := x.reqs.filter (·.rank != q.rank) ++ here }
        .ok (if home = s.chip.id then s
          else sendOn home ((laneSet s 0 0 home).head?) [j, q.rank, 0, 24, 8, (w 0).toNat, (w 1).toNat, (w 2).toNat] s)

def execPlace (s : State) : Host.Outcome State Fault Refusal := operate 9 doPlace s

/-- SVN_COMMIT (14 R385). -/
def doSvnCommit (a b : Word) (s : State) : Except Cause State :=
  let svn := (s.chip.fw.map (·.svn)).getD 0
  if a ≠ 0 ∨ b ≠ 0 then .error .rsvField
  else .ok (s.modChip fun c => { c with minSvn := if c.minSvn.toNat < svn.toNat then svn else c.minSvn })

def execSvnCommit (s : State) : Host.Outcome State Fault Refusal := operate 10 doSvnCommit s

/-- PORT_SET (10 R312): three tables of 64 one-byte entries, in force from the next rotation, when it is done (16 R432). -/
def doPortSet (a b : Word) (s : State) : Except Cause State :=
  let table (i : Nat) : List (BitVec 5) := (s.bytes (b.toNat + 64 * i) 64).map fun x => BitVec.ofNat 5 x.toNat
  let few (l : List (BitVec 5)) : Bool := (l.filter fun x => !bitOf x 4).length < 8
  if a ≠ 0 ∨ !under b 52 ∨ hidden s b.toNat 192 then .error .rsvField
  else if few (table 0) || few (table 1) || few (table 2) then .error .portTable
  else
    let at' := nextRotation s
    .ok (s.modChip fun c => { c with portsNext := some (Vector.ofFn fun i : Fin 3 => table i.1), portsAt := at', opPorts := true })

def execPortSet (s : State) : Host.Outcome State Fault Refusal := operate 11 doPortSet s

/-- CKPT_SET (15 R417). -/
def doCkptSet (a b : Word) (s : State) : Except Cause State :=
  let n := fld a 16 16
  if !under a 32 ∨ b ≠ 0 ∨ n = 0 then .error .rsvField
  else .ok (s.modJob (fld a 0 16) fun x => { x with ckptEvery := n })

def execCkptSet (s : State) : Host.Outcome State Fault Refusal := operate 12 doCkptSet s

/-- MAPOUT (15 R424). -/
def doMapout (a b : Word) (s : State) : Except Cause State :=
  let st := fld a 0 3
  let d := fld a 4 4
  if fld a 3 1 ≠ 0 ∨ !under a 8 ∨ b ≠ 0 then .error .rsvField
  else if (busyDie s st).isSome ∨ dieOut s st d then .error .mapBusy
  else .ok (startMapout st d s)

def execMapout (s : State) : Host.Outcome State Fault Refusal := operate 13 doMapout s

/-- PLACE_STAGE (10 R299): the image's header says how many entries are copied. -/
def doPlaceStage (a b : Word) (s : State) : Except Cause State :=
  let t := fld a 0 4
  let n := fld (s.word b.toNat) 0 15
  if !under a 4 ∨ !under b 52 ∨ hidden s b.toNat (64 + 64 * n) then .error .rsvField
  else
    let bs := s.bytes b.toNat (64 + 64 * n)
    .ok (s.modChip fun c => { c with staged := (t, bs) :: c.staged.filter (·.1 != t) })

def execPlaceStage (s : State) : Host.Outcome State Fault Refusal := operate 14 doPlaceStage s

/-- May the operation end: its effect is visible, a page's requests are through, port tables are in force. -/
def opOver (s : State) : Bool :=
  s.chip.opBusy && s.chip.opCmd.isNone && (!s.chip.opPorts || s.chip.portsNext.isNone) && (match s.chip.opWait with
    | none => true
    | some (asid, va) => !s.chip.moves.any fun m => m.asid.toNat == asid && m.va == va)

def execOperationDone (s : State) : Host.Outcome State Fault Refusal :=
  if opOver s then .next (s.modChip fun c => { c with opBusy := false, opDone := true, opWait := none, opPorts := false }) else .next s

/-! ## Registers (16 R431, R433, R434) -/

/-- The operations by number. -/
def opNumber (n : Nat) : Option Instr :=
  match n with
  | 1 => some .frameAlloc | 2 => some .pageMove | 3 => some .resolve | 4 => some .asAdvance | 5 => some .quotaSet | 6 => some .mapLoad
  | 7 => some .actSet | 8 => some .resumeRank | 9 => some .place | 10 => some .svnCommit | 11 => some .portSet | 12 => some .ckptSet
  | 13 => some .mapout | 14 => some .placeStage | _ => none

/-- Would the operation, as it is received, write a frozen record of an interface: that goes to ERROR, whatever happens to the interface
before the operation has its turn (14 R396). -/
def frozenOp (n : Nat) (s : State) : State :=
  let a := s.chip.opArg0
  let b := s.chip.opArg1
  let ok : Bool := match (if n = 4 then doAsAdvance a b s else doQuotaSet a b s) with
    | .ok _ => true
    | .error _ => false
  match opTenant n a s with
  | some t => if ok then tdiError t 1 s else s
  | none => s

/-- A write of OP_CMD. -/
def writeOpCmd (x : Word) (s : State) : State :=
  if s.chip.opBusy then s.modChip fun c => { c with opOvr := true }
  else
    let n := fld x 0 8
    let s := s.modChip fun c => { c with opBusy := true, opDone := false, opCause := 0 }
    if !under x 8 || (opNumber n).isNone then opEnd (some .rsvField) s else (frozenOp n s).modChip fun c => { c with opCmd := some n }

/-- A value that PWR_CTL or PWR_LIMIT does not take: the host hears of RSV_FIELD, and no action table does, since no rank issued the write; who
takes the cause the spec does not say (DESIGN CHOICE, log entry 56; 16 R431, R434). -/
def badReg (off : Nat) (s : State) : State := s.post .event [causeCode .rsvField, off]

/-- A write of PWR_CTL. -/
def writePwrCtl (x : Word) (s : State) : State :=
  if !under x 4 ∨ 4 < fld x 0 3 then badReg 8 s
  else writeTarget (fld x 0 3) (s.modChip fun c => { c with thr := bitOf x 3 })

def execMgmtRegWrite (off : Nat) (value : Word) (s : State) : Host.Outcome State Fault Refusal :=
  let bits (lo hi : Nat) : Word := BitVec.ofNat 64 (fld value lo (hi + 1 - lo) * 2 ^ lo)
  let set (f : Chip → Chip) : Host.Outcome State Fault Refusal := .next (s.modChip f)
  if s.chip.recovery ∨ s.chip.pwr = .off then .next s
  else if off = 0x08 then .next (writePwrCtl value s)
  else if off = 0x10 then set fun c => { c with refused := c.refused && !bitOf value 5 }
  else if off = 0x18 then
    let w := fld value 0 12
    if 600 ≤ w ∧ w ≤ 2400 ∧ under value 12 then set fun c => { c with limit := w } else .next (badReg off s)
  else if off = 0x20 then set fun c => { c with mgmtLock := bitOf value 0 }
  else if off = 0x28 then set fun c => { c with winBase := bits 36 51 }
  else if off = 0x40 then set fun c => { c with qdBase := bits 6 51 }
  else if off = 0x48 then set fun c => { c with asBase := bits 0 51 }
  else if off = 0x50 then set fun c => { c with frBase := bits 5 51 ||| bits 52 55 }
  else if off = 0x58 then set fun c => { c with frTail := BitVec.ofNat 32 (fld value 32 32) }
  else if off = 0x60 then set fun c => { c with fbBase := bits 13 51 }
  else if off = 0x68 then set fun c => { c with rptSel := BitVec.ofNat 16 (fld value 0 16) }
  else if off = 0x100 then .next (writeOpCmd value s)
  else if off = 0x108 then set fun c => { c with opArg0 := value }
  else if off = 0x110 then set fun c => { c with opArg1 := value }
  else if off = 0x120 then set fun c => { c with opDone := c.opDone && !bitOf value 1, opOvr := c.opOvr && !bitOf value 2 }
  else if 0x1000 ≤ off ∧ off < 0x1080 ∧ off % 8 = 0 then
    .next (modTdi s ((off - 0x1000) / 8) fun t => { t with rej := t.rej &&& (2 ^ 24 - 1 - fld value 8 24) })
  else .next s

/-! ## What a read returns (16 R431; no row of the opcode table reads BAR0) -/

def tdiCode : TdiSt → Nat
  | .unlocked => 0 | .locked => 1 | .run => 2 | .error => 3
def tdiStat (t : Tdi) : Nat := tdiCode t.st + 2 ^ 2 * t.reason + 2 ^ 8 * t.rej
def svcState (s : State) : Nat := s.chip.svc + 2 ^ 2 * s.chip.stacksUp.toNat + 2 ^ 10 * b2n s.chip.optics
def pwrStat (s : State) : Nat :=
  let c := s.chip
  pwrCode c.pwr + 2 ^ 3 * b2n c.pwrTo.isSome + 2 ^ 4 * b2n c.throt + 2 ^ 5 * b2n c.refused + 2 ^ 6 * c.gate + 2 ^ 10 * b2n c.lmiss
    + 2 ^ 16 * (c.draw % 2 ^ 16) + 2 ^ 32 * (c.tj % 2 ^ 8)
def hbmStack (s : State) (i : Nat) : Nat :=
  let n := s.chip.dies[i]?.getD 0
  n + 2 ^ 5 * (s.chip.outD[i]?.getD 0).toNat + 2 ^ 21 * b2n (busyDie s i).isSome + 2 ^ 32 * (4 * n)
def laneWord (l : Lane) : Nat :=
  let who := if l.st = .leased ∨ l.st = .notice then l.holder else 0
  l.peer % 2 ^ 10 + 2 ^ 10 * (l.wave % 8) + 2 ^ 13 * laneCode l.st + 2 ^ 16 * who + 2 ^ 30 * l.job + 2 ^ 46 * l.err
def opStat (c : Chip) : Nat := b2n c.opBusy + 2 * b2n c.opDone + 4 * b2n c.opOvr + 2 ^ 16 * c.opCause

/-- The register at a BAR0 offset; an offset that the table does not give reads zero, and so does each in recovery (14 R385). -/
def mgmtRead (s : State) (off : Nat) : Nat :=
  let c := s.chip
  let lane (l : List Lane) (k : Nat) : Nat := ((l.find? (·.k == k)).map laneWord).getD 0
  let word (l : List Nat) (i : Nat) : Nat := l[i]?.getD 0
  if off % 8 ≠ 0 ∨ c.recovery then 0
  else if off = 0x00 then svcState s
  else if off = 0x08 then c.target + 2 ^ 3 * b2n c.thr
  else if off = 0x10 then pwrStat s
  else if off = 0x18 then c.limit
  else if off = 0x20 then b2n c.mgmtLock
  else if off = 0x28 then c.winBase.toNat
  else if off = 0x40 then c.qdBase.toNat
  else if off = 0x48 then c.asBase.toNat
  else if off = 0x50 then c.frBase.toNat
  else if off = 0x58 then c.frHead.toNat + 2 ^ 32 * c.frTail.toNat
  else if off = 0x60 then c.fbBase.toNat
  else if off = 0x68 then c.rptSel.toNat
  else if off = 0x108 then c.opArg0.toNat
  else if off = 0x110 then c.opArg1.toNat
  else if off = 0x118 then c.opRes.toNat
  else if off = 0x120 then opStat c
  else if 0x1000 ≤ off ∧ off < 0x1080 then tdiStat (tdiAt s ((off - 0x1000) / 8))
  else if 0x2000 ≤ off ∧ off < 0x2040 then hbmStack s ((off - 0x2000) / 8)
  else if 0x10000 ≤ off ∧ off < 0x14000 then lane c.egress ((off - 0x10000) / 8)
  else if 0x14000 ≤ off ∧ off < 0x18000 then lane c.ingress ((off - 0x14000) / 8)
  else if 0x20000 ≤ off ∧ off < 0x200C0 then
    leVal ((((c.ports[(off - 0x20000) / 64]?.getD []).map fun x => BitVec.ofNat 8 x.toNat).drop (off % 64)).take 8)
  else if 0x100000 ≤ off ∧ off < 0x200000 then
    let e := placeOf s c.rptSel.toNat ((off - 0x100000) / 64)
    word (placeWords e) (off % 64 / 8)
  else 0

/-- A TDI's status page (16 R430). -/
def statusPage (s : State) (t off : Nat) : Nat :=
  if off = 0 then svcState s else if off = 8 then tdiStat (tdiAt s t) else if off = 16 then s.now else 0
/-- A read of it by the host: none, for Unsupported Request, and counted, where it does not come on the interface's stream (14 R391). -/
def readStatusPage (t off : Nat) (ide : Ide) (s : State) : State × Option Nat :=
  if ideOk s t ide then (s, some (statusPage s t off)) else (reject s t, none)

/-- A frame's record (13 R373). -/
def frameRecord (f : Frame) : List Nat :=
  [f.dirty.toNat + 2 ^ 16 * f.pins + 2 ^ 24 * f.job + 2 ^ 40 * b2n f.alloc + 2 ^ 41 * b2n f.back.isSome, f.back.getD 0]

end Sys2Proof.Machine
end

