-- ==== Sys2Proof/Machine/Dispatch.lean ====
section
/-!
DEFINITION. The meaning of each constructor of Instr: one direct call, or a rejection by name.
-/
namespace Sys2Proof.Machine

def exec (i : Instr) (s : State) : Host.Outcome State Fault Refusal :=
  match i with
  | .add o => Sys2Proof.Machine.execAdd o s
  | .addi o => Sys2Proof.Machine.execAddi o s
  | .sub o => Sys2Proof.Machine.execSub o s
  | .mul f o => Sys2Proof.Machine.execMul f o s
  | .div f o => Sys2Proof.Machine.execDiv f o s
  | .and o => Sys2Proof.Machine.execAnd o s
  | .or o => Sys2Proof.Machine.execOr o s
  | .xor o => Sys2Proof.Machine.execXor o s
  | .logi f o => Sys2Proof.Machine.execLogi f o s
  | .shf f o => Sys2Proof.Machine.execShf f o s
  | .shfi f o => Sys2Proof.Machine.execShfi f o s
  | .cmp f o => Sys2Proof.Machine.execCmp f o s
  | .cmpi f o => Sys2Proof.Machine.execCmpi f o s
  | .sel o => Sys2Proof.Machine.execSel o s
  | .min u o => Sys2Proof.Machine.execMin u o s
  | .max u o => Sys2Proof.Machine.execMax u o s
  | .clz o => Sys2Proof.Machine.execClz o s
  | .popc o => Sys2Proof.Machine.execPopc o s
  | .ldi o => Sys2Proof.Machine.execLdi o s
  | .ldih o => Sys2Proof.Machine.execLdih o s
  | .br o => Sys2Proof.Machine.execBr o s
  | .jmp off => Sys2Proof.Machine.execJmp off s
  | .jal d off => Sys2Proof.Machine.execJal d off s
  | .jr a => Sys2Proof.Machine.execJr a s
  | .loop a e => Sys2Proof.Machine.execLoop a e s
  | .loopi c e => Sys2Proof.Machine.execLoopi c e s
  | .brkl => Sys2Proof.Machine.execBrkl s
  | .ld o => Sys2Proof.Machine.execLd o s
  | .st o => Sys2Proof.Machine.execSt o s
  | .atom op o => Sys2Proof.Machine.execAtom op o s
  | .atomDet op r a b => Sys2Proof.Machine.execAtomDet op r a b s
  | .cas o c => Sys2Proof.Machine.execCas o c s
  | .casDet r a b c => Sys2Proof.Machine.execCasDet r a b c s
  | .mark e => Sys2Proof.Machine.execMark e s
  | .join => Sys2Proof.Machine.execJoin s
  | .fork n off => Sys2Proof.Machine.execFork n off s
  | .rdv id => Sys2Proof.Machine.execRdv id s
  | .susp a b off => Sys2Proof.Machine.execSusp a b off s
  | .suspEnd => Sys2Proof.Machine.execSuspEnd s
  | .trig => Sys2Proof.Machine.execTrig s
  | .barv nw d step g => Sys2Proof.Machine.execBarv nw d step g s
  | .mxcfg level field a => Sys2Proof.Machine.execMxcfg level field a s
  | .mxgo t => Sys2Proof.Machine.execMxgo t s
  | .mxclm n => Sys2Proof.Machine.execMxclm n s
  | .mxrel n => Sys2Proof.Machine.execMxrel n s
  | .mxmma o => Sys2Proof.Machine.execMxmma o s
  | .tidw n a => Sys2Proof.Machine.execTidw n a s
  | .mfsr nw d r => Sys2Proof.Machine.execMfsr nw d r s
  | .mtsr r a => Sys2Proof.Machine.execMtsr r a s
  | .trap imm => Sys2Proof.Machine.execTrap imm s
  | .rft => Sys2Proof.Machine.execRft s
  | .rftU => Sys2Proof.Machine.execRftU s
  | .chkpt => Sys2Proof.Machine.execChkpt s
  | .nop => Sys2Proof.Machine.execNop s
  | .aadd o => Sys2Proof.Machine.execAadd o s
  | .aaddi o => Sys2Proof.Machine.execAaddi o s
  | .asub o => Sys2Proof.Machine.execAsub o s
  | .amul o => Sys2Proof.Machine.execAmul o s
  | .ashfi right o => Sys2Proof.Machine.execAshfi right o s
  | .aldi o => Sys2Proof.Machine.execAldi o s
  | .abr o => Sys2Proof.Machine.execAbr o s
  | .aloop c e => Sys2Proof.Machine.execAloop c e s
  | .aloopReg r e => Sys2Proof.Machine.execAloopReg r e s
  | .spw p field a => Sys2Proof.Machine.execSpw p field a s
  | .sload q p => Sys2Proof.Machine.execSload q p s
  | .sstore q p => Sys2Proof.Machine.execSstore q p s
  | .sidx p src => Sys2Proof.Machine.execSidx p src s
  | .amark => Sys2Proof.Machine.execAmark s
  | .asusp => Sys2Proof.Machine.execAsusp s
  | .aqres p => Sys2Proof.Machine.execAqres p s
  | .anop => Sys2Proof.Machine.execAnop s
  | .vadd o => Sys2Proof.Machine.execVadd o s
  | .vsub o => Sys2Proof.Machine.execVsub o s
  | .vmul o => Sys2Proof.Machine.execVmul o s
  | .vfma o => Sys2Proof.Machine.execVfma o s
  | .vfms o => Sys2Proof.Machine.execVfms o s
  | .vfnma o => Sys2Proof.Machine.execVfnma o s
  | .vmax o => Sys2Proof.Machine.execVmax o s
  | .vmin o => Sys2Proof.Machine.execVmin o s
  | .vabs o => Sys2Proof.Machine.execVabs o s
  | .vneg o => Sys2Proof.Machine.execVneg o s
  | .vdiv o => Sys2Proof.Machine.execVdiv o s
  | .vsqrt o => Sys2Proof.Machine.execVsqrt o s
  | .vrcp o => Sys2Proof.Machine.execVrcp o s
  | .vrsq o => Sys2Proof.Machine.execVrsq o s
  | .vexp o => Sys2Proof.Machine.execVexp o s
  | .vexp2 o => Sys2Proof.Machine.execVexp2 o s
  | .vln o => Sys2Proof.Machine.execVln o s
  | .vlog2 o => Sys2Proof.Machine.execVlog2 o s
  | .vtanh o => Sys2Proof.Machine.execVtanh o s
  | .vsigm o => Sys2Proof.Machine.execVsigm o s
  | .verf o => Sys2Proof.Machine.execVerf o s
  | .vsin o => Sys2Proof.Machine.execVsin o s
  | .vcos o => Sys2Proof.Machine.execVcos o s
  | .vcvt o => Sys2Proof.Machine.execVcvt o s
  | .vcbx o => Sys2Proof.Machine.execVcbx o s
  | .vcbq o => Sys2Proof.Machine.execVcbq o s
  | .vldx o => Sys2Proof.Machine.execVldx o s
  | .vdot o => Sys2Proof.Machine.execVdot o s
  | .vred o => Sys2Proof.Machine.execVred o s
  | .vscan o => Sys2Proof.Machine.execVscan o s
  | .vcmp o => Sys2Proof.Machine.execVcmp o s
  | .vsel o => Sys2Proof.Machine.execVsel o s
  | .vcls o => Sys2Proof.Machine.execVcls o s
  | .mlog o => Sys2Proof.Machine.execMlog o s
  | .mpop o => Sys2Proof.Machine.execMpop o s
  | .viadd o => Sys2Proof.Machine.execViadd o s
  | .visub o => Sys2Proof.Machine.execVisub o s
  | .vimul o => Sys2Proof.Machine.execVimul o s
  | .vimin o => Sys2Proof.Machine.execVimin o s
  | .vimax o => Sys2Proof.Machine.execVimax o s
  | .vand o => Sys2Proof.Machine.execVand o s
  | .vor o => Sys2Proof.Machine.execVor o s
  | .vxor o => Sys2Proof.Machine.execVxor o s
  | .vshf o => Sys2Proof.Machine.execVshf o s
  | .vmov o => Sys2Proof.Machine.execVmov o s
  | .vbcst o => Sys2Proof.Machine.execVbcst o s
  | .vbcstElem o => Sys2Proof.Machine.execVbcstElem o s
  | .viota o => Sys2Proof.Machine.execViota o s
  | .vperm o => Sys2Proof.Machine.execVperm o s
  | .vslide o => Sys2Proof.Machine.execVslide o s
  | .vcmprs o => Sys2Proof.Machine.execVcmprs o s
  | .vxpnd o => Sys2Proof.Machine.execVxpnd o s
  | .vrng o => Sys2Proof.Machine.execVrng o s
  | .vatom o => Sys2Proof.Machine.execVatom o s
  | .vloop c e => Sys2Proof.Machine.execVloop c e s
  | .vbrm nn m off => Sys2Proof.Machine.execVbrm nn m off s
  | .vsusp => Sys2Proof.Machine.execVsusp s
  | .vjmp off => Sys2Proof.Machine.execVjmp off s
  | .vnop => Sys2Proof.Machine.execVnop s
  | .dadd o => Sys2Proof.Machine.execDadd o s
  | .daddi o => Sys2Proof.Machine.execDaddi o s
  | .dsub o => Sys2Proof.Machine.execDsub o s
  | .dmul o => Sys2Proof.Machine.execDmul o s
  | .dshfi f o => Sys2Proof.Machine.execDshfi f o s
  | .dlogi f o => Sys2Proof.Machine.execDlogi f o s
  | .dldi o => Sys2Proof.Machine.execDldi o s
  | .dcmp f o => Sys2Proof.Machine.execDcmp f o s
  | .dbr o => Sys2Proof.Machine.execDbr o s
  | .djmp off => Sys2Proof.Machine.execDjmp off s
  | .dloop c e => Sys2Proof.Machine.execDloop c e s
  | .dloopReg r e => Sys2Proof.Machine.execDloopReg r e s
  | .dld o => Sys2Proof.Machine.execDld o s
  | .dst o => Sys2Proof.Machine.execDst o s
  | .copy o => Sys2Proof.Machine.execCopy o s
  | .copys o => Sys2Proof.Machine.execCopys o s
  | .copyo o => Sys2Proof.Machine.execCopyo o s
  | .cring n a => Sys2Proof.Machine.execCring n a s
  | .cringSelect n => Sys2Proof.Machine.execCringSelect n s
  | .batch => Sys2Proof.Machine.execBatch s
  | .suspb n off => Sys2Proof.Machine.execSuspb n off s
  | .expct a b => Sys2Proof.Machine.execExpct a b s
  | .arrv a b => Sys2Proof.Machine.execArrv a b s
  | .fst o => Sys2Proof.Machine.execFst o s
  | .fld o => Sys2Proof.Machine.execFld o s
  | .fatm o => Sys2Proof.Machine.execFatm o s
  | .fcol o => Sys2Proof.Machine.execFcol o s
  | .bwls p c m => Sys2Proof.Machine.execBwls p c m s
  | .bwrl p c => Sys2Proof.Machine.execBwrl p c s
  | .bwsl a => Sys2Proof.Machine.execBwsl a s
  | .grped g a => Sys2Proof.Machine.execGrped g a s
  | .rnkq nw d f g => Sys2Proof.Machine.execRnkq nw d f g s
  | .dsusp => Sys2Proof.Machine.execDsusp s
  | .dnop => Sys2Proof.Machine.execDnop s
  | .ladd td ta tb r => Sys2Proof.Machine.execLadd td ta tb r s
  | .lmul td ta tb r => Sys2Proof.Machine.execLmul td ta tb r s
  | .lfma td ta tb tc r => Sys2Proof.Machine.execLfma td ta tb tc r s
  | .lmax td ta tb => Sys2Proof.Machine.execLmax td ta tb s
  | .lmin td ta tb => Sys2Proof.Machine.execLmin td ta tb s
  | .lsel td ta tb tc => Sys2Proof.Machine.execLsel td ta tb tc s
  | .lcmp c td ta tb => Sys2Proof.Machine.execLcmp c td ta tb s
  | .lexp td ta r => Sys2Proof.Machine.execLexp td ta r s
  | .lrcp td ta r => Sys2Proof.Machine.execLrcp td ta r s
  | .ltanh td ta r => Sys2Proof.Machine.execLtanh td ta r s
  | .lcvt td ta ty r sat => Sys2Proof.Machine.execLcvt td ta ty r sat s
  | .lrng td n => Sys2Proof.Machine.execLrng td n s
  | .ldrp td ta tb n r => Sys2Proof.Machine.execLdrp td ta tb n r s
  | .lrmx ta => Sys2Proof.Machine.execLrmx ta s
  | .lrsm ta => Sys2Proof.Machine.execLrsm ta s
  | .lsid td mode ds k => Sys2Proof.Machine.execLsid td mode ds k s
  | .lst ta r sat => Sys2Proof.Machine.execLst ta r sat s
  | .lsts src ta k r sat => Sys2Proof.Machine.execLsts src ta k r sat s
  | .lidx td what => Sys2Proof.Machine.execLidx td what s
  | .lend => Sys2Proof.Machine.execLend s
  | .lineAdvance q => Sys2Proof.Machine.execLineAdvance q s
  | .modeCrossing => Sys2Proof.Machine.execModeCrossing s
  | .instructionCacheMiss q => Sys2Proof.Machine.execInstructionCacheMiss q s
  | .resultWriteback => Sys2Proof.Machine.execResultWriteback s
  | .scratchpadAccessComplete q => Sys2Proof.Machine.execScratchpadAccessComplete q s
  | .memoryAccessPerform q => Sys2Proof.Machine.execMemoryAccessPerform q s
  | .genStaleRetry q => Sys2Proof.Machine.execGenStaleRetry q s
  | .translationWalk q => Sys2Proof.Machine.execTranslationWalk q s
  | .faultBatchClose => Sys2Proof.Machine.execFaultBatchClose s
  | .streamLoadEntryDeliver p => Sys2Proof.Machine.execStreamLoadEntryDeliver p s
  | .streamStoreEntryWrite p => Sys2Proof.Machine.execStreamStoreEntryWrite p s
  | .streamFaultHalt p c fva => Sys2Proof.Machine.execStreamFaultHalt p c fva s
  | .taskDispatch job rank => Sys2Proof.Machine.execTaskDispatch job rank s
  | .userHandlerEntry => Sys2Proof.Machine.execUserHandlerEntry s
  | .markerReachHead e => Sys2Proof.Machine.execMarkerReachHead e s
  | .trigRelease => Sys2Proof.Machine.execTrigRelease s
  | .barvArrive job rank g step => Sys2Proof.Machine.execBarvArrive job rank g step s
  | .phaseComplete job g => Sys2Proof.Machine.execPhaseComplete job g s
  | .rankQuiesced job rank => Sys2Proof.Machine.execRankQuiesced job rank s
  | .migTimeout job rank => Sys2Proof.Machine.execMigTimeout job rank s
  | .migrationLineFlip job rank line => Sys2Proof.Machine.execMigrationLineFlip job rank line s
  | .checkpointCommit job => Sys2Proof.Machine.execCheckpointCommit job s
  | .rollback job => Sys2Proof.Machine.execRollback job s
  | .mtxCommandStart => Sys2Proof.Machine.execMtxCommandStart s
  | .nestLoaderFill => Sys2Proof.Machine.execNestLoaderFill s
  | .nestLoaderFault => Sys2Proof.Machine.execNestLoaderFault s
  | .tileStep => Sys2Proof.Machine.execTileStep s
  | .drainRow => Sys2Proof.Machine.execDrainRow s
  | .drainFaultHalt => Sys2Proof.Machine.execDrainFaultHalt s
  | .mtxCommandRetire seq => Sys2Proof.Machine.execMtxCommandRetire seq s
  | .movCommandStart seq => Sys2Proof.Machine.execMovCommandStart seq s
  | .copyArrival seq => Sys2Proof.Machine.execCopyArrival seq s
  | .fstFlagIncrement seq => Sys2Proof.Machine.execFstFlagIncrement seq s
  | .movCommandHalt seq c fva => Sys2Proof.Machine.execMovCommandHalt seq c fva s
  | .movCommandRetire seq => Sys2Proof.Machine.execMovCommandRetire seq s
  | .ringRecordWrite ring => Sys2Proof.Machine.execRingRecordWrite ring s
  | .collectiveStart job g n => Sys2Proof.Machine.execCollectiveStart job g n s
  | .collectiveItemDeliver job g n rank block => Sys2Proof.Machine.execCollectiveItemDeliver job g n rank block s
  | .collectiveMemberFault job g n rank c fva => Sys2Proof.Machine.execCollectiveMemberFault job g n rank c fva s
  | .trapEntry => Sys2Proof.Machine.execTrapEntry s
  | .forwardReply job rank => Sys2Proof.Machine.execForwardReply job rank s
  | .preemptRequest job rank => Sys2Proof.Machine.execPreemptRequest job rank s
  | .coreStop => Sys2Proof.Machine.execCoreStop s
  | .preTimeout job rank => Sys2Proof.Machine.execPreTimeout job rank s
  | .contextSaveDone job rank => Sys2Proof.Machine.execContextSaveDone job rank s
  | .queueUnmapComplete q => Sys2Proof.Machine.execQueueUnmapComplete q s
  | .launchEntryTake q => Sys2Proof.Machine.execLaunchEntryTake q s
  | .successorStart job rank => Sys2Proof.Machine.execSuccessorStart job rank s
  | .programRetire job => Sys2Proof.Machine.execProgramRetire job s
  | .apertureActivate job => Sys2Proof.Machine.execApertureActivate job s
  | .apertureSlotStart job => Sys2Proof.Machine.execApertureSlotStart job s
  | .apertureWindowOpen job ix => Sys2Proof.Machine.execApertureWindowOpen job ix s
  | .apertureWindowClose job ix => Sys2Proof.Machine.execApertureWindowClose job ix s
  | .laneRepairStart lane => Sys2Proof.Machine.execLaneRepairStart lane s
  | .laneRetire lane => Sys2Proof.Machine.execLaneRetire lane s
  | .errcntWindowEnd lane => Sys2Proof.Machine.execErrcntWindowEnd lane s
  | .dieMapoutTrigger stack die => Sys2Proof.Machine.execDieMapoutTrigger stack die s
  | .dieMapoutDone stack die => Sys2Proof.Machine.execDieMapoutDone stack die s
  | .placementEntryUpdate job rank e => Sys2Proof.Machine.execPlacementEntryUpdate job rank e s
  | .generationMarkerReceive job rank src => Sys2Proof.Machine.execGenerationMarkerReceive job rank src s
  | .chipLost chip => Sys2Proof.Machine.execChipLost chip s
  | .fabricTransactionReceive tx => Sys2Proof.Machine.execFabricTransactionReceive tx s
  | .doorbell tdi off width value ide => Sys2Proof.Machine.execDoorbell tdi off width value ide s
  | .quantumBoundary => Sys2Proof.Machine.execQuantumBoundary s
  | .portSlotAdvance => Sys2Proof.Machine.execPortSlotAdvance s
  | .portRotationBoundary => Sys2Proof.Machine.execPortRotationBoundary s
  | .leaseRound => Sys2Proof.Machine.execLeaseRound s
  | .leaseOfferReceive src job rank m time => Sys2Proof.Machine.execLeaseOfferReceive src job rank m time s
  | .leaseCommit job rank peer pairs => Sys2Proof.Machine.execLeaseCommit job rank peer pairs s
  | .guardIntervalEnd => Sys2Proof.Machine.execGuardIntervalEnd s
  | .leaseForce => Sys2Proof.Machine.execLeaseForce s
  | .noticeExpire => Sys2Proof.Machine.execNoticeExpire s
  | .pidExchange job peer pid => Sys2Proof.Machine.execPidExchange job peer pid s
  | .flitCrcError lane => Sys2Proof.Machine.execFlitCrcError lane s
  | .replayRequestReceive at' seq => Sys2Proof.Machine.execReplayRequestReceive at' seq s
  | .flitAckReceive at' seq => Sys2Proof.Machine.execFlitAckReceive at' seq s
  | .tierMoveStart => Sys2Proof.Machine.execTierMoveStart s
  | .tierMoveLineFlip => Sys2Proof.Machine.execTierMoveLineFlip s
  | .tierMoveDone => Sys2Proof.Machine.execTierMoveDone s
  | .memoryUncorrectableError pa => Sys2Proof.Machine.execMemoryUncorrectableError pa s
  | .sramCorrectableError => Sys2Proof.Machine.execSramCorrectableError s
  | .sramUncorrectableError site => Sys2Proof.Machine.execSramUncorrectableError site s
  | .deviceReset => Sys2Proof.Machine.execDeviceReset s
  | .firmwareImageLoad img => Sys2Proof.Machine.execFirmwareImageLoad img s
  | .lpddrTrainingDone => Sys2Proof.Machine.execLpddrTrainingDone s
  | .hbmTrainingDone failed => Sys2Proof.Machine.execHbmTrainingDone failed s
  | .opticalCalibrationDone => Sys2Proof.Machine.execOpticalCalibrationDone s
  | .measurements => Sys2Proof.Machine.execMeasurements s
  | .ideKm tdi key => Sys2Proof.Machine.execIdeKm tdi key s
  | .lockInterfaceRequest tdi => Sys2Proof.Machine.execLockInterfaceRequest tdi s
  | .startInterfaceRequest tdi => Sys2Proof.Machine.execStartInterfaceRequest tdi s
  | .stopInterfaceRequest tdi => Sys2Proof.Machine.execStopInterfaceRequest tdi s
  | .getDeviceInterfaceReport tdi => Sys2Proof.Machine.execGetDeviceInterfaceReport tdi s
  | .ideIntegrityFailure tdi => Sys2Proof.Machine.execIdeIntegrityFailure tdi s
  | .hostBar4Read off n ide => Sys2Proof.Machine.execHostBar4Read off n ide s
  | .hostBar4Write off bytes ide => Sys2Proof.Machine.execHostBar4Write off bytes ide s
  | .loupeObserveEnter a => Sys2Proof.Machine.execLoupeObserveEnter a s
  | .loupeHaltEnter a => Sys2Proof.Machine.execLoupeHaltEnter a s
  | .loupeOff => Sys2Proof.Machine.execLoupeOff s
  | .frameAlloc => Sys2Proof.Machine.execFrameAlloc s
  | .pageMove => Sys2Proof.Machine.execPageMove s
  | .resolve => Sys2Proof.Machine.execResolve s
  | .asAdvance => Sys2Proof.Machine.execAsAdvance s
  | .quotaSet => Sys2Proof.Machine.execQuotaSet s
  | .mapLoad => Sys2Proof.Machine.execMapLoad s
  | .actSet => Sys2Proof.Machine.execActSet s
  | .resumeRank => Sys2Proof.Machine.execResumeRank s
  | .place => Sys2Proof.Machine.execPlace s
  | .svnCommit => Sys2Proof.Machine.execSvnCommit s
  | .portSet => Sys2Proof.Machine.execPortSet s
  | .ckptSet => Sys2Proof.Machine.execCkptSet s
  | .mapout => Sys2Proof.Machine.execMapout s
  | .placeStage => Sys2Proof.Machine.execPlaceStage s
  | .operationDone => Sys2Proof.Machine.execOperationDone s
  | .mgmtRegWrite off value => Sys2Proof.Machine.execMgmtRegWrite off value s
  | .pwrTargetFull => Sys2Proof.Machine.execPwrTargetFull s
  | .pwrTargetReduced => Sys2Proof.Machine.execPwrTargetReduced s
  | .pwrTargetIdle => Sys2Proof.Machine.execPwrTargetIdle s
  | .pwrTargetRetain => Sys2Proof.Machine.execPwrTargetRetain s
  | .pwrTargetOff => Sys2Proof.Machine.execPwrTargetOff s
  | .powerTransitionDone => Sys2Proof.Machine.execPowerTransitionDone s
  | .powerWake => Sys2Proof.Machine.execPowerWake s
  | .powerOn => Sys2Proof.Machine.execPowerOn s
  | .throttleEnter draw => Sys2Proof.Machine.execThrottleEnter draw s
  | .gateRaise draw => Sys2Proof.Machine.execGateRaise draw s
  | .gateLower draw => Sys2Proof.Machine.execGateLower draw s
  | .throttleExit draw => Sys2Proof.Machine.execThrottleExit draw s
  | .thermalReduce tj => Sys2Proof.Machine.execThermalReduce tj s
  | .thermalOff tj => Sys2Proof.Machine.execThermalOff tj s
  | .powerLoss => Sys2Proof.Machine.execPowerLoss s
  | .securityStateTransition dest => Sys2Proof.Machine.execSecurityStateTransition dest s
  | .identityKeyGeneration => Sys2Proof.Machine.execIdentityKeyGeneration s
  | .frameFree job pa => Sys2Proof.Machine.execFrameFree job pa s
  | .jobEnd job => Sys2Proof.Machine.execJobEnd job s
  | .debugNonceIssue => Sys2Proof.Machine.execDebugNonceIssue s
  | .ownerKeyProvision hash => Sys2Proof.Machine.execOwnerKeyProvision hash s

end Sys2Proof.Machine
end

