-- ==== Sys2Proof/Machine/Agents.lean ====
section
/-!
DEFINITION. The events that stand ready for agents that run by themselves, taken in turn (log entries 5, 12), and the placing
of one instruction for fetch.
-/
namespace Sys2Proof.Machine

/-! ## What may be ready -/

/-- A stream's next entry, or the fault it meets. -/
def streamEvents (s : State) : List Instr :=
  (List.range 16).flatMap fun p =>
    let x := strmAt s p
    if x.st != .running then []
    else match strmFault p s with
      | some (f, _) => [.streamFaultHalt (BitVec.ofNat 4 p) f.c (BitVec.ofNat 52 f.va)]
      | none => if x.store then [.streamStoreEntryWrite (BitVec.ofNat 4 p)] else [.streamLoadEntryDeliver (BitVec.ofNat 4 p)]

/-- What a command of MOV, or a matrix command that retires, may do next. -/
def cmdEvents (s : State) : List Instr :=
  s.core.cmds.flatMap fun x =>
    if x.op.isMtx then [.mtxCommandRetire x.seq]
    else match haltCause s x with
      | some f => [.movCommandHalt x.seq f.c (BitVec.ofNat 52 f.va)]
      | none => [.movCommandStart x.seq, .copyArrival x.seq, .fstFlagIncrement x.seq, .movCommandRetire x.seq]

/-- Drains come to their next row, or halt. -/
def drainEvents (s : State) : List Instr := if (drainFault s).isSome then [.drainFaultHalt] else [.drainRow]

/-- The loaders and the array (06 R173). -/
def mtxEvents (s : State) : List Instr :=
  let load : List Instr := match loadTry s with
    | some (_, .error f) => if f.shut then [.nestLoaderFill] else [.nestLoaderFault]
    | some (_, .ok _) => [.nestLoaderFill]
    | none => []
  load ++ [.mtxCommandStart, .tileStep]

/-- Events of the focused core that may be ready. -/
def coreEvents (s : State) : List Instr :=
  let c := s.core
  if c.job = 0 ∨ c.stopped then []
  else
    [.resultWriteback, .trapEntry, .memoryAccessPerform .ctl, .memoryAccessPerform .mov] ++ streamEvents s ++ cmdEvents s
      ++ mtxEvents s ++ drainEvents s ++ (List.range 8).map (fun n => .ringRecordWrite (BitVec.ofNat 3 n))
      ++ [.markerReachHead .acs, .markerReachHead .vec, .markerReachHead .mov, .markerReachHead .mtx, .markerReachHead .drn,
        .trigRelease]
      ++ (c.barv.toList.map fun b => .barvArrive c.job c.rank b.g b.step)

/-- Events of the ranks. -/
def rankEvents (s : State) : List Instr :=
  s.ranks.flatMap fun k =>
    [.taskDispatch k.job k.rank, .preTimeout k.job k.rank, .contextSaveDone k.job k.rank, .rankQuiesced k.job k.rank,
      .migTimeout k.job k.rank, .forwardReply k.job k.rank, .successorStart k.job k.rank]

/-- The next line to flip of each migration away. -/
def migEvents (s : State) : List Instr :=
  s.chip.migs.flatMap fun m =>
    match s.rank? m.job m.rank with
    | none => []
    | some k =>
      if m.inward || !m.active then []
      else ((rankLines s k.asid).find? fun l => !m.flipped.contains l).toList.map fun l => .migrationLineFlip m.job m.rank l

/-- A collective's next events. -/
def colEvents (s : State) (j : Nat) (c : Col) : List Instr :=
  if !c.started then [.collectiveStart j c.g c.n]
  else c.members.flatMap fun r => match colArgs s j c r with
    | none => []
    | some a => (List.range (colItems c a.op)).flatMap fun b =>
      if itemOver c r b then []
      else match tryItem j c r b s with
        | .wait => []
        | .halt m f => [.collectiveMemberFault j c.g c.n m f.c (BitVec.ofNat 52 f.va)]
        | _ => [.collectiveItemDeliver j c.g c.n r b]

/-- Events of the jobs. -/
def jobEvents (s : State) : List Instr :=
  s.jobs.flatMap fun x =>
    (x.groups.map fun g => .phaseComplete x.num g.g)
      ++ [.checkpointCommit x.num, .rollback x.num, .programRetire x.num, .apertureActivate x.num, .apertureSlotStart x.num]
      ++ ((List.range x.apt.plan.maps.length).flatMap fun i => [.apertureWindowClose x.num i, .apertureWindowOpen x.num i])
      ++ x.cols.flatMap (colEvents s x.num)

/-- Events of the chip's controllers. -/
def chipEvents (s : State) : List Instr :=
  let c := s.chip
  [.coreStop, .faultBatchClose, .portSlotAdvance, .portRotationBoundary, .quantumBoundary, .guardIntervalEnd, .leaseRound,
    .leaseForce, .noticeExpire, .tierMoveStart, .tierMoveLineFlip, .tierMoveDone, .powerTransitionDone, .operationDone]
    ++ (c.opCmd.bind opNumber).toList
    ++ (c.mapped.flatMap fun m => [.launchEntryTake m.q, .queueUnmapComplete m.q])
    ++ (c.egress.flatMap fun l => [.laneRepairStart l.k, .laneRetire l.k, .errcntWindowEnd l.k])
    ++ (c.ingress.map fun l => .errcntWindowEnd l.k)
    ++ (c.ueRows.map fun u => .dieMapoutTrigger u.1 u.2.1)
    ++ ((List.range 8).filterMap fun i => (c.mapBusy[i]?.getD none).map fun d => .dieMapoutDone i d)

/-! ## Taking them in turn -/

/-- Everything that may be ready: the core it is at, and the event. -/
def allEvents (s : State) : List (Nat × Instr) :=
  let here (l : List Instr) : List (Nat × Instr) := l.map fun i => (s.core.phys, i)
  (s.allCores.flatMap fun c => (coreEvents (s.focus c.phys)).map fun i => (c.phys, i))
    ++ here (rankEvents s) ++ here (migEvents s) ++ here (jobEvents s) ++ here (chipEvents s)

/-- An event is ready when it changes something (log entry 12). -/
def moves (i : Instr) (s : State) : Bool :=
  match exec i s with
  | .next t => t != s
  | _ => true

/-- The next event that is ready, beginning at a place in the list that moves on by one each time. -/
def engineWork (s : State) : Option (Instr × State) :=
  let l := allEvents s
  let n := s.turn % max 1 l.length
  ((l.drop n ++ l.take n).find? fun e => moves e.2 (s.focus e.1)).map fun e =>
    (e.2, { s.focus e.1 with turn := s.turn + 1 })

/-- A drain memory word that is no micro-op: its cause halts the head drain (06 R187, R194). -/
def drainBadWord (s : State) : State :=
  match decodeDrn (s.core.drnMem[s.core.drnPc]?.getD 0) with
  | .ok _ => s
  | .error c => (haltDrain ⟨c, 0, none⟩ s).modCore fun c => { c with drnRun := false }

/-- See State.withFetchWord. -/
def placeWord (s : State) (nbits w : Nat) : State :=
  match decodeTableWord nbits w with
  | none => s
  | some i =>
    let w0 : W32 := BitVec.ofNat 32 w
    let w1 : W32 := BitVec.ofNat 32 (w >>> 32)
    let s := { s with agenda := [], engineTurn := false }
    match (encode i).1 with
    | .none => { s with agenda := [i] }
    | .drn => s.modCore fun c => { c with drnRun := true, drnPc := 0, drnMem := c.drnMem.setIfInBounds 0 w0 }
    | .seq q =>
      let k := s.myRank
      let wide := isWide q w0
      let h : W32 := BitVec.ofNat 32 (b2n s.core.x + 16 * seqTag q + (if wide then 2048 else 0))
      let line : BitVec 47 := 0
      let l : ILine :=
        { asid := k.asid, gen := k.gen, line := line, words := [h, w0, if wide then w1 else 0, 0, 0, 0, 0, 0] }
      let quiet (c : Core) : Core :=
        { c with ctl := { c.ctl with run := false }, acs := { c.acs with run := false },
                 vec := { c.vec with run := false }, mov := { c.mov with run := false } }
      let s := s.mapCores quiet
      s.modCore fun c =>
        { c with icache := l :: c.icache, drnRun := false, pend := [], stopReq := none }.modSeq q fun x =>
          { x with run := true, line := line, lane := 1, entered := false, ready := 0 }

end Sys2Proof.Machine
end

