-- ==== Sys2Proof/Machine/Pick.lean ====
section
/-!
DEFINITION. What moves next (log entries 1, 5, 12): an input or event that waits, an engine's turn, a drain micro-op, else
the sequencer whose next issue time comes first.
-/
namespace Sys2Proof.Machine

/-- What a step does: run an instruction at a state, take a cause, only move time, or stop. -/
inductive Pick
  | run (i : Instr) (s : State)
  | done (s : State)
  | stop (f : Fault)

/-- A running sequencer that may issue: not stopped at a pre-emption point (10 R313), and in an exposed region CTL
alone while the user completion handler runs (08 R258). -/
def mayIssue (c : Core) (q : Seqr) : Bool :=
  let x := c.seq q
  x.run && !(c.stopReq.isSome && x.point) && !(c.x && c.uh && q != .ctl)
    && !c.standsStill

/-- Candidates: core, sequencer, next issue time. -/
def candidates (s : State) : List (Nat × Seqr × Nat) :=
  s.allCores.flatMap fun c =>
    ([Seqr.ctl, .acs, .vec, .mov].filter (mayIssue c)).map fun q => (c.phys, q, (c.seq q).ready)

/-- The earliest; the first of equals. -/
def earliest : List (Nat × Seqr × Nat) → Option (Nat × Seqr × Nat)
  | [] => none
  | x :: xs => match earliest xs with
    | none => some x
    | some y => if x.2.2 ≤ y.2.2 then some x else some y

/-- Time moves on to n. -/
def tickTo (n : Nat) (s : State) : State := s.modChip fun c => { c with ticks := max c.ticks n }

/-- A result in flight is due at the focused core. -/
def resultDue (s : State) : Bool := s.core.pend.any (s.core.ripe s.now)

/-- A core never holds more than 32 issued, unfinished instructions (15 R408). -/
def coreFull (s : State) : Bool := 32 ≤ s.core.accq.length + s.core.pend.length
/-- A vector instruction would write a register that an older unfinished one reads (15 R408). -/
def destHeld (q : Seqr) (i : Instr) (s : State) : Bool := q == .vec && s.core.pend.any fun p => p.ent.readsDst (vecUse i)
/-- The next instruction then waits, every sequencer with it, and in an exposed region MTX and DRN, while those in flight complete. -/
def holdIssue (s : State) : State :=
  let mv (x : SeqSt) : SeqSt := { x with ready := max x.ready s.now + 1 }
  s.modCore fun c =>
    { c with ctl := mv c.ctl, acs := mv c.acs, vec := mv c.vec, mov := mv c.mov
             frozen := if c.x then max c.frozen (s.now + 1) else c.frozen }

/-- Does the sequencer's next instruction of this cycle raise a cause that traps the core (15 R405). -/
def faultsNow (s : State) (q : Seqr) : Bool :=
  let s := s.modSeq q (nextOwn s q Config.icacheLines)
  let trapped (t : State) : Bool := !t.core.trap.all (·.done)
  mayIssue s.core q && decide ((s.core.seq q).ready ≤ s.now) && s.core.trap.all (·.done) && match nextAt q s with
    | .cause .. => true
    | .run i t => match exec i t with
      | .next u => trapped u
      | _ => false

/-- An instruction that faults in the same cycle as that of a sequencer before it in order: an entry of the replay queue (15 R405). -/
def markFaulter (s : State) (q : Seqr) : State :=
  let s := s.modSeq q (nextOwn s q Config.icacheLines)
  s.modCore fun c => c.modSeq q fun x => { x with cap := { x.cap with ops := snapOf c q, flt := true } }

/-- The sequencer q of the focused core issues; where several fault in the cycle, the first in order (15 R405). -/
def pickSeq (q : Seqr) (s : State) : Pick :=
  if resultDue s then .run .resultWriteback s
  else if q == .ctl && handlerDue s && (nextLane s).isSome then .run .userHandlerEntry { s with engineTurn := true }
  else if coreFull s then .done { holdIssue s with engineTurn := true }
  else
    let fs := if faultsNow s q then allSeqs.filter (faultsNow s) else []
    let q := fs.headD q
    let s := fs.tail.foldl markFaulter s
    match nextAt q s with
    | .run i t => if destHeld q i t then .done { holdIssue t with engineTurn := true } else .run i { t with engineTurn := true }
    | .cause c t => .done { takeTrap q ⟨c, 0, none⟩ 0 t with engineTurn := true }

/-- The drain memory word at the micro-op position (06 R187). -/
def pickDrain (s : State) : Pick :=
  match decodeDrn (s.core.drnMem[s.core.drnPc]?.getD 0) with
  | .ok i => .run i s
  | .error _ => .done (drainBadWord s)

def pick (s : State) : Pick :=
  match s.agenda with
  | i :: rest => .run i { s with agenda := rest }
  | [] =>
    if s.chip.pwr = .off then .stop .stuck
    else if s.core.drnRun then pickDrain s
    else
      match (if s.engineTurn then showSpill s else none), (if s.engineTurn then engineWork s else none) with
      | some t, _ => .done { t with engineTurn := false }
      | none, some (i, t) => .run i { t with engineTurn := false }
      | none, none =>
        match earliest (candidates s) with
        | some (p, q, n) => pickSeq q (tickTo n (s.focus p))
        | none => .done { tickTo (s.now + 1) s with engineTurn := true }

end Sys2Proof.Machine
end

