-- ==== Sys2Proof/Machine/Step.lean ====
section
/-!
DEFINITION. One step: what moves next runs. And the placing of an instruction where the next step takes it.
-/
namespace Sys2Proof.Machine

/-- One step of the machine. -/
def step (s : State) : Host.Outcome State Fault Refusal :=
  match pick s with
  | .run i t => exec i t
  | .done t => .next t
  | .stop f => .fault f

/-- The instruction whose bits are w stands where the next step fetches it: in drain memory for a micro-op, else in
lanes 1 and 2 of a cached line of its sequencer, with the header that tags them; every other sequencer and input
waits (log entry 9). -/
def State.withFetchWord (s : State) (nbits w : Nat) : State := placeWord s nbits w

end Sys2Proof.Machine
end

