-- ==== Sys2Proof/Safety.lean ====
section
/-!
DEFINITION. What counts as a safe run: no step of it stops, and what every state of it keeps. And the words that claims
use: that an instruction completes, that a destination is free, what a result leaves.
-/
namespace Sys2Proof.Machine

/-- A run of n steps from s that meets no fault and no refusal, every state of which satisfies P. -/
def SafeRun (P : State → Prop) : Nat → State → Prop
  | 0, s => P s
  | n + 1, s => P s ∧ ∃ t, step s = .next t ∧ SafeRun P n t

/-- The instruction completes at s, in a next state of which P holds. -/
def Runs (i : Instr) (s : State) (P : State → Prop) : Prop := ∃ t, exec i s = .next t ∧ P t

/-- The destination is free: nothing in flight owes it, or the result is only pushed (02 R49, R58). -/
def DstFree (s : State) (q : Seqr) (nw : Bool) (d : BitVec 6) : Prop :=
  (!nw && owes s q (regIx s.core q d.toNat)) = false

/-- Every byte of memory reads as before. -/
def SameMemory (s t : State) : Prop := ∀ a, t.byte a = s.byte a

/-- What an instruction of one sequencer may touch: its registers, latches and results in flight, and its place in the
code. -/
def ownParts (q : Seqr) (c c' : Core) : Core :=
  match q with
  | .ctl => { c with s := c'.s, shadow := c'.shadow, sysS := c'.sysS, latC := c'.latC, sysLat := c'.sysLat, pend := c'.pend,
                     ctl := c'.ctl }
  | .acs => { c with a := c'.a, latA := c'.latA, pend := c'.pend, acs := c'.acs }
  | .mov => { c with d := c'.d, latM := c'.latM, pend := c'.pend, mov := c'.mov }
  | .vec => { c with v := c'.v, m := c'.m, lq := c'.lq, sq := c'.sq, latV := c'.latV, pend := c'.pend, vec := c'.vec }

/-- Everything else of the machine is as it was: every other register, flag, special register, accumulator, exception
register, core, rank, job, the chip, and memory. -/
def OnlyOwn (q : Seqr) (s t : State) : Prop := t = { s with core := ownParts q s.core t.core }

/-- The sequencer goes on after the n lanes of the instruction, `cost` cycles later (02 R37). -/
def GoesOn (q : Seqr) (n cost : Nat) (s t : State) : Prop :=
  t.core.seq q =
    { s.core.seq q with lane := min 8 ((s.core.seq q).lane + n), ready := s.now + cost, point := false, stall := false, cap := {}, last := s.now,
                        count := (s.core.seq q).count + 1 }

/-- The registers, latches and results in flight of a sequencer are as before. -/
def NoResult (q : Seqr) (s t : State) : Prop :=
  (∀ j, t.core.getReg q j = s.core.getReg q j) ∧ t.core.lat q = s.core.lat q ∧ t.core.pend = s.core.pend

/-- CTL's register s0, in either bank: it discards writes (02 R46). -/
def discards (q : Seqr) (i : Nat) : Bool := q == .ctl && (i == 0 || i == 64)

/-- A result x of latency `lat` for register d (02 R46, R47, R49, R58): b0 takes it and the old b3 goes; unless nw is set,
the register takes it, at once where the hardware interlocks and at the end of its latency in an exposed region; a write
to s0 is discarded; every other register is as before. -/
def GetsResult (q : Seqr) (lat : Nat) (nw : Bool) (d : BitVec 6) (x : Word) (s t : State) : Prop :=
  let i := regIx s.core q d.toNat
  let late := s.core.x = true ∧ 1 < lat
  t.core.lat q = (⟨x, if s.core.x then s.now + lat else 0, 0⟩ :: s.core.lat q).take 4
  ∧ (∀ j, t.core.getReg q j = if j = i ∧ nw = false ∧ ¬ late ∧ discards q j = false then x else s.core.getReg q j)
  ∧ t.core.pend =
      if late then s.core.pend ++ [⟨if nw then .none else dstOf q i x, s.now + lat, (entryHere q s).1⟩]
      else if nw = false ∧ s.core.x = true then s.core.pend.filter fun p => !p.yields q i (s.now + lat)
      else s.core.pend

/-- The whole effect of an instruction of n lanes that computes a register's value. -/
def Computes (q : Seqr) (lat n : Nat) (nw : Bool) (d : BitVec 6) (x : Word) (s t : State) : Prop :=
  GetsResult q lat nw d x s t ∧ GoesOn q n 1 s t ∧ OnlyOwn q s t ∧ SameMemory s t

/-- The instruction completes so. -/
def Gives (q : Seqr) (i : Instr) (s : State) (lat n : Nat) (nw : Bool) (d : BitVec 6) (x : Word) : Prop :=
  Runs i s (Computes q lat n nw d x s)

/-- A transfer of control to a lane of a line (02 R38, R41): loop entries whose lines do not hold the target go, from the
innermost outward, except while CTL runs the user completion handler. -/
def JumpsTo (q : Seqr) (line : BitVec 47) (lane : Nat) (s t : State) : Prop :=
  let x := s.core.seq q
  t.core.seq q =
    { x with line := line, lane := lane, entered := false, skip := none, ready := s.now + 2, point := decide (line ≤ x.line)
             stall := false, cap := {}, last := s.now, count := x.count + 1
             loops := if q = .ctl ∧ s.core.uh = true then x.loops
                      else x.loops.dropWhile fun e => !(decide (e.first ≤ line) && decide (line ≤ e.last)) }

/-- Nothing but the sequencer's place has changed. -/
def OnlyPlace (q : Seqr) (s t : State) : Prop := NoResult q s t ∧ OnlyOwn q s t ∧ SameMemory s t

/-- The instruction waits at s: it has no effect and is issued again (02 R49, R58). -/
def Stalls (q : Seqr) (i : Instr) (s : State) : Prop := exec i s = .next (stalled q s)

/-- The instruction waits so, while what it waits for goes on (02 R58). -/
def Waits (q : Seqr) (i : Instr) (on : Awaited) (s : State) : Prop := exec i s = .next (waiting q on s)

/-- The instruction raises cause c at s, with no faulting address (15 R402). -/
def Raises (q : Seqr) (i : Instr) (s : State) (c : Cause) : Prop := exec i s = .next (takeTrap q ⟨c, 0, none⟩ 0 s)

/-- An access of n bytes at addr performs as it issues: no access of CTL or MOV waits, none of CTL from before a FORK holds it back,
the model's choice allows it (log entry 6), its way is open and no queued transaction leaves before it, the checks before translation pass, and it lies at the one place p, unpoisoned and with its key,
with u the state after translation. -/
structure Performs (q : Seqr) (s : State) (addr n : Nat) (k : Kind) (u : State) (p : Piece) : Prop where
  first : s.core.accq = []
  atIssue : s.delay = false ∨ s.core.x = true
  ungated : gated s q = false
  way : ∀ op, mayGo s (s.req (accClient q)) op addr n = true
  valid : accCheck s addr n = none
  place : access s (s.req (accClient q)) addr n k = .ok (u, [p])
  whole : p.len = n
  clean : poisonAt u false p = none
  keyed : noKey u p.key = false

/-- Memory after n bytes of x, lowest first, are stored at key. -/
def Stored (key n x : Nat) (s t : State) : Prop :=
  ∀ a, t.byte a = if key ≤ a ∧ a < key + n then BitVec.ofNat 8 (x / 256 ^ (a - key)) else s.byte a

/-- Everything that a store does not touch: it touches its bytes, the write log, the DIRTY bits, the poison of lines it covers
and the watch entries, the replies to forwards, and its sequencer's own parts (07 R198; 08 R246; 13 R373; 15 R406, R416, R419). -/
def OnlyStore (q : Seqr) (s t : State) : Prop :=
  let bare (c : Core) : Core := { c with watch := Vector.replicate 32 none, fwds := [] }
  t.core = { ownParts q s.core t.core with watch := t.core.watch, fwds := t.core.fwds }
  ∧ t.cores.map bare = s.cores.map bare
  ∧ t.ranks.map (fun k => { k with spill := [], fwds := [], saved := k.saved.map bare })
      = s.ranks.map (fun k => { k with spill := [], fwds := [], saved := k.saved.map bare })
  ∧ t.jobs.map (fun j => { j with log := [], logFull := false, poisoned := [] })
      = s.jobs.map (fun j => { j with log := [], logFull := false, poisoned := [] })
  ∧ t.chip = { s.chip with frames := t.chip.frames, outbox := t.chip.outbox }
  ∧ t.agenda = s.agenda ∧ t.engineTurn = s.engineTurn ∧ t.turn = s.turn ∧ t.delay = s.delay ∧ t.freeCtr = s.freeCtr

/-- Which sequencers the set of FORK names (08 R240). -/
def forkNames (n : BitVec 3) : Seqr → Bool
  | .acs => n.getLsbD 0
  | .vec => n.getLsbD 1
  | .mov => n.getLsbD 2
  | .ctl => false

/-- Where ACS, VEC and MOV are idle, every pushed store entry is written and CTL's and MOV's accesses have performed (08 R241;
01 R21). -/
def AtRest (s : State) : Prop :=
  s.core.acs.run = false ∧ s.core.vec.run = false ∧ s.core.mov.run = false ∧ (∀ q ∈ s.core.sq.toList, q = []) ∧ s.core.accq = []

/-- A command with these slots may be accepted whatever it touches: the command file has room, every command that has not
retired is one it is ordered behind, and no page is pinned to its limit (07 R208, R212, R213; 13 R378). -/
def MayAccept (q : Seqr) (s : State) (k : Toks) : Prop :=
  s.core.cmds.length < 64 ∧ (∀ x ∈ s.core.cmds, x.seq ∈ ancestors s.core.cmds 64 (boundPreds s.core q k))
  ∧ ∀ asid page, pinFull s asid page = false

/-- Sequencer q has had a command accepted (07 R208 to R210; 09 R264, R265): it stands last, numbered, with its ring and its
predecessors captured; the next number follows, 1 after the last; its slot and TOK_LAST hold the number. -/
def Accepted (q : Seqr) (n : Nat) (k : Toks) (op : CmdOp) (st : CmdSt) (s t : State) : Prop :=
  (∃ x : Cmd, t.core.cmds = s.core.cmds ++ [x] ∧ x.seq = s.core.seqCtr ∧ x.op = op ∧ x.st = st ∧ x.ring = s.core.curRing
    ∧ x.preds = boundPreds s.core q k)
  ∧ t.core.seqCtr = (if s.core.seqCtr = BitVec.allOnes 32 then 1 else s.core.seqCtr + 1)
  ∧ t.core.tokLast = s.core.seqCtr
  ∧ (∀ i, t.core.tok[i]? = if i = k.k.toNat ∧ k.k ≠ 0 then some s.core.seqCtr else s.core.tok[i]?)
  ∧ t.core.openB = (if q = .mov then s.core.openB ++ [s.core.seqCtr] else s.core.openB)
  ∧ GoesOn q n 1 s t ∧ SameMemory s t ∧ NoResult q s t
  ∧ t.core = { ownParts q s.core t.core with
      cmds := t.core.cmds, seqCtr := t.core.seqCtr, tokLast := t.core.tokLast, tok := t.core.tok, openB := t.core.openB,
      slots := t.core.slots, mtxQ := t.core.mtxQ, detM := t.core.detM }

/-- The vector operands can be read at s: xs are their values, and u the state once queue heads are taken (02 R51; 05 R129). -/
def VReads (s : State) (srcs : List VOp) (xs : List VWord) (u : State) : Prop :=
  (∀ o ∈ srcs, vsrcCause s o = none) ∧ vreads srcs s = some (xs, u)

/-- A vector result reaches its destination (02 R47, R49, R51; 05 R142): VEC's b0 takes it and the old b3 goes; unless nw is set,
the register or the store queue takes it, a register of an exposed region the elements written alone, at the end of the latency; no other register, mask,
queue, flag or byte of memory changes. -/
def VPuts (ty : ETy) (lat occ : Nat) (vd : VOp) (nw : Bool) (res : VWord) (en : MWord) (u t : State) : Prop :=
  GoesOn .vec 2 occ u t ∧ OnlyOwn .vec u t ∧ SameMemory u t
  ∧ t.core.latV = (⟨res, if u.core.x then u.now + lat else 0, 0⟩ :: u.core.latV).take 4
  ∧ (∀ j < 192, t.core.v[j]? =
      if vd = .v (BitVec.ofNat 8 j) ∧ nw = false ∧ u.core.x = false then some res else u.core.v[j]?)
  ∧ (∀ j < 4, t.core.sq[j]? =
      if vd = .sq (BitVec.ofNat 2 j) ∧ nw = false then
        u.core.sq[j]?.map (· ++ [{ data := res, ty := .n8, epe := 0, en := en }]) else u.core.sq[j]?)
  ∧ t.core.pend = (if u.core.x then
      u.core.pend ++ [⟨match vd, nw with
        | .v n, false => .v n.toNat res (laneMask ty en)
        | _, _ => .none, u.now + lat, (entryHere .vec u).1⟩] else u.core.pend)
  ∧ t.core.m = u.core.m ∧ t.core.lq = u.core.lq

/-- The instruction writes, to each element e of type ty where `on e` holds, the low bits of f's code, and leaves every other
element of its destination as it was: zero bytes in a store queue's entry (05 R141, R142). -/
def VWrites (i : Instr) (s : State) (lat occ : Nat) (srcs : List VOp) (vd : VOp) (nw : Bool) (ty : ETy) (on : Nat → Bool)
    (en : MWord) (f : List VWord → Nat → Nat) : Prop :=
  ∀ xs u, VReads s srcs xs u → sqFull s nw vd = false →
    Runs i s fun t => ∃ res, VPuts ty lat occ vd nw res en u t
      ∧ ∀ e < elems ty, elemOf ty res e = if on e then f xs e % 2 ^ tyBits ty else elemOf ty (vold s vd) e

/-- The same for an instruction that may take k cycles more, for which an exposed region freezes (04 R119; 02 R58). -/
def VAppliesSlowly (i : Instr) (s : State) (lat occ k : Nat) (srcs : List VOp) (vd : VOp) (nw : Bool) (ty : ETy) (m : BitVec 4)
    (F : List Nat → Nat) : Prop :=
  ∀ xs u, VReads s srcs xs u → sqFull s nw vd = false →
    Runs i s fun t => ∃ w res, t = slower k w ∧ VPuts ty lat occ vd nw res (maskOf s m) u w
      ∧ ∀ e < elems ty, elemOf ty res e = if active s m e then F (xs.map fun x => elemOf ty x e) % 2 ^ tyBits ty
          else elemOf ty (vold s vd) e

/-- VecApply (05 R141): element e of the result is F of the elements e of the sources, where the mask is 1. -/
def VApplies (i : Instr) (s : State) (lat occ : Nat) (srcs : List VOp) (vd : VOp) (nw : Bool) (ty : ETy) (m : BitVec 4)
    (F : List Nat → Nat) : Prop :=
  VWrites i s lat occ srcs vd nw ty (active s m) (maskOf s m) fun xs e => F (xs.map fun x => elemOf ty x e)

/-- A mask register takes r, at once, or its bits `on` at the end of the latency; nothing else but VEC's place changes (05 R143). -/
def MPuts (occ lat : Nat) (md : BitVec 4) (r on : MWord) (u t : State) : Prop :=
  t = { u with core := { u.core with vec := t.core.vec, m := t.core.m, pend := t.core.pend } } ∧ GoesOn .vec 2 occ u t
  ∧ (∀ j < 16, t.core.m[j]? = if j = md.toNat ∧ u.core.x = false then some r else u.core.m[j]?)
  ∧ t.core.pend = (if u.core.x then u.core.pend ++ [⟨.m md.toNat r on, u.now + lat, (entryHere .vec u).1⟩] else u.core.pend)

end Sys2Proof.Machine
end

