-- ==== Sys2Proof/Certificates/Slice0/Obligations.lean ====
section
/-!
DEFINITION. The statements for the provers, from the spec's numbered rules.
-/
open Sys2Proof Sys2Proof.Machine

/-! ## Integer results of CTL, ACS and MOV (08 R230, R231; 05 R133; 09 R262) -/

/-- ADD, SUB, AND, OR, XOR, SHF, CMP, SEL, MIN and MAX write the value R230 gives, take the latency R227 gives, push it into
CTL's b0, and change nothing else.
MUL, CLZ and POPC give the low or high half of the product and the counts R230 names.
ADDI, LOGI, SHFI, CMPI, LDI and LDIH extend their immediates as R230 says.
Each of them completes, exec answering a next state, whenever its sources can be read and nothing in flight owes its destination. -/
def Obligations.CtlIntegerResults : Prop :=
  (∀ (s : State) (nw : Bool) (d : BitVec 6) (ra rb : Src) (a b : Word), d.toNat < 48 →
     readSrc s .ctl ra = .val a → readSrc s .ctl rb = .val b → DstFree s .ctl nw d →
     let o : S3 := ⟨nw, d, ra, rb⟩
     let gives (i : Instr) (x : Word) : Prop := ∃ t, exec i s = .next t ∧ Computes .ctl 1 1 nw d x s t
     gives (.add o) (a + b) ∧ gives (.sub o) (a - b)
     ∧ gives (.and o) (a &&& b) ∧ gives (.or o) (a ||| b) ∧ gives (.xor o) (a ^^^ b)
     ∧ gives (.shf .l o) (a <<< b.toNat) ∧ gives (.shf .rl o) (a >>> b.toNat) ∧ gives (.shf .ra o) (a.sshiftRight b.toNat)
     ∧ gives (.cmp .eq o) (if a = b then 1 else 0) ∧ gives (.cmp .ne o) (if a = b then 0 else 1)
     ∧ gives (.cmp .lt o) (if a.slt b then 1 else 0) ∧ gives (.cmp .ltu o) (if a.ult b then 1 else 0)
     ∧ gives (.cmp .ge o) (if a.slt b then 0 else 1) ∧ gives (.cmp .geu o) (if a.ult b then 0 else 1)
     ∧ gives (.min false o) (if b.slt a then b else a) ∧ gives (.min true o) (if b.ult a then b else a)
     ∧ gives (.max false o) (if a.slt b then b else a) ∧ gives (.max true o) (if a.ult b then b else a)
     ∧ (∀ x, readSrc s .ctl (.r d) = .val x → gives (.sel o) (if x = 0 then b else a)))
  ∧ (∀ (s : State) (nw : Bool) (d : BitVec 6) (ra rb : Src) (a b : Word), d.toNat < 48 →
     readSrc s .ctl ra = .val a → readSrc s .ctl rb = .val b → DstFree s .ctl nw d →
     let o : S3 := ⟨nw, d, ra, rb⟩
     let gives (i : Instr) (lat : Nat) (x : Word) : Prop := ∃ t, exec i s = .next t ∧ Computes .ctl lat 1 nw d x s t
     gives (.mul .lo o) 3 (a * b)
     ∧ gives (.mul .hi o) 3 ((a.signExtend 128 * b.signExtend 128).extractLsb' 64 64)
     ∧ gives (.mul .hiu o) 3 ((a.setWidth 128 * b.setWidth 128).extractLsb' 64 64)
     ∧ gives (.clz ⟨nw, d, ra⟩) 1 a.clz
     ∧ gives (.popc ⟨nw, d, ra⟩) 1 (BitVec.ofNat 64 ((List.range 64).countP fun i => a.getLsbD i)))
  ∧ (∀ (s : State) (nw : Bool) (d : BitVec 6) (ra : Src) (a : Word) (i11 : BitVec 11) (i9 : BitVec 9) (i8 : BitVec 8)
     (i6 : BitVec 6) (i32 : W32), d.toNat < 48 → readSrc s .ctl ra = .val a → DstFree s .ctl nw d →
     let gives (i : Instr) (x : Word) : Prop := ∃ t, exec i s = .next t ∧ Computes .ctl 1 1 nw d x s t
     let wide (i : Instr) (x : Word) : Prop := ∃ t, exec i s = .next t ∧ Computes .ctl 1 2 nw d x s t
     gives (.addi ⟨nw, d, ra, i11⟩) (a + i11.signExtend 64)
     ∧ gives (.logi .and ⟨nw, d, ra, i9⟩) (a &&& i9.setWidth 64)
     ∧ gives (.logi .or ⟨nw, d, ra, i9⟩) (a ||| i9.setWidth 64)
     ∧ gives (.logi .xor ⟨nw, d, ra, i9⟩) (a ^^^ i9.setWidth 64)
     ∧ gives (.shfi .l ⟨nw, d, ra, i6⟩) (a <<< i6.toNat)
     ∧ gives (.shfi .rl ⟨nw, d, ra, i6⟩) (a >>> i6.toNat)
     ∧ gives (.shfi .ra ⟨nw, d, ra, i6⟩) (a.sshiftRight i6.toNat)
     ∧ gives (.cmpi .eq ⟨nw, d, ra, i8⟩) (if a = i8.signExtend 64 then 1 else 0)
     ∧ gives (.cmpi .ne ⟨nw, d, ra, i8⟩) (if a = i8.signExtend 64 then 0 else 1)
     ∧ gives (.cmpi .lt ⟨nw, d, ra, i8⟩) (if a.slt (i8.signExtend 64) then 1 else 0)
     ∧ gives (.cmpi .ltu ⟨nw, d, ra, i8⟩) (if a.ult (i8.signExtend 64) then 1 else 0)
     ∧ gives (.cmpi .ge ⟨nw, d, ra, i8⟩) (if a.slt (i8.signExtend 64) then 0 else 1)
     ∧ gives (.cmpi .geu ⟨nw, d, ra, i8⟩) (if a.ult (i8.signExtend 64) then 0 else 1)
     ∧ wide (.ldi ⟨nw, d, i32⟩) (i32.signExtend 64)
     ∧ (∀ x, readSrc s .ctl (.r d) = .val x → wide (.ldih ⟨nw, d, i32⟩) (i32 ++ x.setWidth 32)))

/-- DIV (08 R231): the quotient truncates toward zero, the remainder takes the sign of the dividend, −2^63 ÷ −1 wraps, and a
zero divisor gives all ones and sets DIVZ, which no other divisor changes and an MTSR of MODE_STAT clears by a 1. -/
def Obligations.DivideIntResults : Prop :=
  (∀ (s : State) (f : DivSel) (o : S3) (a b : Word), o.d.toNat < 48 →
     readSrc s .ctl o.a = .val a → readSrc s .ctl o.b = .val b → DstFree s .ctl o.nw o.d →
     Runs (.div f o) s fun t =>
       t.core.divz = (s.core.divz || b == 0)
       ∧ Computes .ctl 20 1 o.nw o.d
           (if b = 0 then BitVec.allOnes 64
            else match f with
              | .q => a.sdiv b
              | .qu => a / b
              | .m => a.srem b
              | .mu => a % b) s
           { t with core := { t.core with divz := s.core.divz } })
  ∧ (∀ (s : State) (a : Src) (x : Word), readSrc s .ctl a = .val x →
     Runs (.mtsr 0x05 a) s fun t => t.core.divz = (s.core.divz && !x.getLsbD 3))

/-- AADD, ASUB, AMUL, AADDI, ASHFI and ALDI give what CTL's instructions give, on the a registers (05 R133).
MOV's scalar instructions give what CTL's give, on the d registers (09 R262). Each completes, exec answering a next state, whenever its
sources can be read and nothing in flight owes its destination. -/
def Obligations.AcsAndMovIntegerResults : Prop :=
  (∀ (s : State) (nw : Bool) (d : BitVec 6) (ra rb : Src) (a b : Word) (i11 : BitVec 11) (i6 : BitVec 6) (i32 : W32),
     d.toNat < 32 → readSrc s .acs ra = .val a → readSrc s .acs rb = .val b → DstFree s .acs nw d →
     let o : S3 := ⟨nw, d, ra, rb⟩
     let gives (i : Instr) (lat n : Nat) (x : Word) : Prop := ∃ t, exec i s = .next t ∧ Computes .acs lat n nw d x s t
     gives (.aadd o) 1 1 (a + b) ∧ gives (.asub o) 1 1 (a - b) ∧ gives (.amul o) 3 1 (a * b)
     ∧ gives (.aaddi ⟨nw, d, ra, i11⟩) 1 1 (a + i11.signExtend 64)
     ∧ gives (.ashfi false ⟨nw, d, ra, i6⟩) 1 1 (a <<< i6.toNat)
     ∧ gives (.ashfi true ⟨nw, d, ra, i6⟩) 1 1 (a >>> i6.toNat)
     ∧ gives (.aldi ⟨nw, d, i32⟩) 1 2 (i32.signExtend 64))
  ∧ (∀ (s : State) (nw : Bool) (d : BitVec 6) (ra rb : Src) (a b : Word) (i11 : BitVec 11) (i9 : BitVec 9) (i6 : BitVec 6)
     (i32 : W32), d.toNat < 32 → readSrc s .mov ra = .val a → readSrc s .mov rb = .val b → DstFree s .mov nw d →
     let o : S3 := ⟨nw, d, ra, rb⟩
     let gives (i : Instr) (lat n : Nat) (x : Word) : Prop := ∃ t, exec i s = .next t ∧ Computes .mov lat n nw d x s t
     gives (.dadd o) 1 1 (a + b) ∧ gives (.dsub o) 1 1 (a - b) ∧ gives (.dmul o) 3 1 (a * b)
     ∧ gives (.daddi ⟨nw, d, ra, i11⟩) 1 1 (a + i11.signExtend 64)
     ∧ gives (.dshfi .l ⟨nw, d, ra, i6⟩) 1 1 (a <<< i6.toNat)
     ∧ gives (.dshfi .rl ⟨nw, d, ra, i6⟩) 1 1 (a >>> i6.toNat)
     ∧ gives (.dshfi .ra ⟨nw, d, ra, i6⟩) 1 1 (a.sshiftRight i6.toNat)
     ∧ gives (.dlogi .and ⟨nw, d, ra, i9⟩) 1 1 (a &&& i9.setWidth 64)
     ∧ gives (.dlogi .or ⟨nw, d, ra, i9⟩) 1 1 (a ||| i9.setWidth 64)
     ∧ gives (.dlogi .xor ⟨nw, d, ra, i9⟩) 1 1 (a ^^^ i9.setWidth 64)
     ∧ gives (.dldi ⟨nw, d, i32⟩) 1 2 (i32.signExtend 64)
     ∧ gives (.dcmp .eq o) 1 1 (if a = b then 1 else 0) ∧ gives (.dcmp .ne o) 1 1 (if a = b then 0 else 1)
     ∧ gives (.dcmp .lt o) 1 1 (if a.slt b then 1 else 0) ∧ gives (.dcmp .ltu o) 1 1 (if a.ult b then 1 else 0)
     ∧ gives (.dcmp .ge o) 1 1 (if a.slt b then 0 else 1) ∧ gives (.dcmp .geu o) 1 1 (if a.ult b then 0 else 1))

/-! ## Transfers and loops (02 R38 to R44; 08 R232, R233) -/

/-- A conditional branch of CTL, ACS or MOV that reads its source goes to the line its offset names when its condition holds,
and on past itself when it does not; JMP, DJMP and VJMP go there always; NOP, ANOP, DNOP and VNOP only go on. Each of them
completes, exec answering a next state, in every state, a conditional branch whenever its source can be read. -/
def Obligations.BranchesAndJumps : Prop :=
  ∀ (s : State),
    let line (q : Seqr) : BitVec 47 := (s.core.seq q).line
    let jumps (q : Seqr) (i : Instr) (l : BitVec 47) : Prop := ∃ t, exec i s = .next t ∧ JumpsTo q l 1 s t ∧ OnlyPlace q s t
    let past (q : Seqr) (i : Instr) (n : Nat) : Prop := ∃ t, exec i s = .next t ∧ GoesOn q n 1 s t ∧ OnlyPlace q s t
    (∀ (q : Seqr) (o : SBr) (a : Word), readSrc s q o.a = .val a →
      ∀ i, ((q, i) ∈ [(.ctl, .br o), (.acs, .abr o), (.mov, .dbr o)]) →
        let holds : Bool := match o.cond with
          | .eqz => a == 0
          | .nez => a != 0
          | .ltz => a.msb
          | .gez => !a.msb
        if holds then jumps q i (line q + o.off.signExtend 47) else past q i 1)
    ∧ (∀ off : BitVec 15, jumps .ctl (.jmp off) (line .ctl + off.signExtend 47)
        ∧ jumps .mov (.djmp off) (line .mov + off.signExtend 47))
    ∧ (∀ off : BitVec 16, jumps .vec (.vjmp off) (line .vec + off.signExtend 47))
    ∧ past .ctl .nop 1 ∧ past .acs .anop 1 ∧ past .mov .dnop 1 ∧ past .vec .vnop 2

/-- JAL links the lane after its own, in the next line when it ends in lane 7, and jumps; a link to s0 is discarded. JR goes to
the lane its register names, lane 1 for a header's address, and raises PC_ALIGN for an address that is none (02 R39). -/
def Obligations.LinkAndRegisterJump : Prop :=
  ∀ (s : State),
    (∀ (d : BitVec 6) (off : BitVec 15), d.toNat < 48 → DstFree s .ctl false d →
      Runs (.jal d off) s fun t =>
        JumpsTo .ctl (s.core.ctl.line + off.signExtend 47) 1 s t
        ∧ GetsResult .ctl 2 false d (BitVec.ofNat 64 ((s.core.ctl.line.toNat * 32 + 4 * (s.core.ctl.lane + 1)) % 2 ^ 52)) s t
        ∧ OnlyOwn .ctl s t ∧ SameMemory s t)
    ∧ (∀ (a : Src) (x : Word), readSrc s .ctl a = .val x → x.toNat % 4 = 0 → x.toNat < 2 ^ 52 →
      Runs (.jr a) s fun t =>
        JumpsTo .ctl (BitVec.ofNat 47 (x.toNat / 32)) (if x.toNat / 4 % 8 = 0 then 1 else x.toNat / 4 % 8) s t
        ∧ OnlyPlace .ctl s t)
    ∧ (∀ (a : Src) (x : Word), readSrc s .ctl a = .val x → (x.toNat % 4 ≠ 0 ∨ 2 ^ 52 ≤ x.toNat) →
      exec (.jr a) s = .next (takeTrap .ctl ⟨.pcAlign, 0, none⟩ 0 s))

/-- LOOP, LOOPI, ALOOP, VLOOP and DLOOP push an entry of their count, first line and end line; a count of 0 goes on past the body
once its line is done; a seventh entry raises LOOP_DEPTH; BRKL pops the innermost entry and goes on past its body, and raises
LOOP_EMPTY where there is none (02 R40, R41, R43; 08 R233). That the rest of the line of a zero count loop still runs is the model's
reading (log entry 16). -/
def Obligations.LoopEntries : Prop :=
  ∀ (s : State), s.core.uh = false →
    let x (q : Seqr) : SeqSt := s.core.seq q
    let enters (q : Seqr) (n : Nat) (i : Instr) (count : W32) (e : Nat) : Prop :=
      if count = 0 then
        Runs i s fun t => OnlyPlace q s t ∧ t.core.seq q =
          { x q with skip := some ((x q).line + BitVec.ofNat 47 (e + 1)), lane := min 8 ((x q).lane + n), ready := s.now + 1,
                     point := false, stall := false, cap := {}, last := s.now, count := (x q).count + 1 }
      else if 6 ≤ (x q).loops.length then exec i s = .next (takeTrap q ⟨.loopDepth, 0, none⟩ 0 s)
      else
        Runs i s fun t => OnlyPlace q s t ∧ t.core.seq q =
          { x q with loops := ⟨count, (x q).line + 1, (x q).line + BitVec.ofNat 47 e⟩ :: (x q).loops
                     lane := min 8 ((x q).lane + n), ready := s.now + 1, point := false
                     stall := false, cap := {}, last := s.now, count := (x q).count + 1 }
    (∀ (c : BitVec 16) (e : BitVec 8), enters .ctl 1 (.loopi c e) (c.setWidth 32) e.toNat
      ∧ enters .vec 2 (.vloop c e) (c.setWidth 32) e.toNat)
    ∧ (∀ (c : BitVec 15) (e : BitVec 8), enters .acs 1 (.aloop c e) (c.setWidth 32) e.toNat
      ∧ enters .mov 1 (.dloop c e) (c.setWidth 32) e.toNat)
    ∧ (∀ (a : Src) (v : Word) (e : BitVec 15), readSrc s .ctl a = .val v → enters .ctl 1 (.loop a e) (v.setWidth 32) e.toNat)
    ∧ (∀ (a : Src) (v : Word) (e : BitVec 8), readSrc s .acs a = .val v → enters .acs 1 (.aloopReg a e) (v.setWidth 32) e.toNat)
    ∧ (∀ (a : Src) (v : Word) (e : BitVec 8), readSrc s .mov a = .val v → enters .mov 1 (.dloopReg a e) (v.setWidth 32) e.toNat)
    ∧ (∀ e es, s.core.ctl.loops = e :: es →
      Runs .brkl s fun t => OnlyPlace .ctl s t ∧ t.core.ctl =
        { s.core.ctl with line := e.last + 1, lane := 1, entered := false, skip := none, loops := es, ready := s.now + 2,
                             point := false, stall := false, cap := {}, last := s.now, count := s.core.ctl.count + 1 })
    ∧ (s.core.ctl.loops = [] → exec .brkl s = .next (takeTrap .ctl ⟨.loopEmpty, 0, none⟩ 0 s))

/-! ## Accesses of CTL and MOV (08 R234 to R239; 09 R263, R268, R275) -/

/-- LD and DLD put the bytes at base plus offset times size, extended to 64 bits, into their register; the latency is R25's
for a scratchpad address. That the access performs at issue is a hypothesis (log entry 6). -/
def Obligations.LoadsGiveMemory : Prop :=
  ∀ (s u : State) (o : SLd) (base : Word) (p : Piece) (q : Seqr) (i : Instr),
    ((q = .ctl ∧ i = .ld o ∧ o.ok 48 false) ∨ (q = .mov ∧ i = .dld o ∧ o.ok 32 true)) →
    readSrc s q o.a = .val base → DstFree s q o.nw o.d →
    let n := sizeBytes o.size
    let addr := (base + o.off.signExtend 64 * BitVec.ofNat 64 n).toNat
    Performs q s addr n .read u p →
    let v : BitVec (8 * n) := BitVec.ofNat (8 * n) (leVal (u.bytes p.key p.len))
    Runs i s fun t =>
      Computes q (accLatency s addr 0) 1 o.nw o.d (if o.sx then v.signExtend 64 else v.setWidth 64) u t

/-- ST and DST store the low bytes of their data source, and nothing else of memory, of any register or of any flag changes. -/
def Obligations.StoresPutBytes : Prop :=
  ∀ (s u : State) (o : SSt) (base x : Word) (p : Piece) (q : Seqr) (i : Instr),
    ((q = .ctl ∧ i = .st o ∧ o.ok 48 false) ∨ (q = .mov ∧ i = .dst o ∧ o.ok 32 true)) →
    readSrc s q o.a = .val base → readSrc s q o.d = .val x →
    let n := sizeBytes o.size
    let addr := (base + o.off.signExtend 64 * BitVec.ofNat 64 n).toNat
    Performs q s addr n .write u p →
    Runs i s fun t => Stored p.key n x.toNat u t ∧ GoesOn q 1 1 u t ∧ NoResult q u t ∧ OnlyStore q u t

/-- An access whose address is not a multiple of its size raises MEM_ALIGN with that address, and one at or above 2^52 raises
VA_HOLE (08 R235). -/
def Obligations.MisalignedAccessTraps : Prop :=
  ∀ (s : State) (q : Seqr) (i : Instr) (base x : Word) (size : Size) (off : BitVec 8),
    (∃ nw d a sx, readSrc s q a = .val base ∧ DstFree s q nw d
      ∧ ((q = .ctl ∧ i = .ld ⟨nw, d, a, sx, size, off⟩) ∨ (q = .mov ∧ i = .dld ⟨nw, d, a, sx, size, off⟩)))
    ∨ (∃ d a, readSrc s q a = .val base ∧ readSrc s q d = .val x
      ∧ ((q = .ctl ∧ i = .st ⟨d, a, size, off⟩) ∨ (q = .mov ∧ i = .dst ⟨d, a, size, off⟩))) →
    s.core.accq = [] → (s.delay = false ∨ s.core.x = true) →
    let n := sizeBytes size
    let addr := (base + off.signExtend 64 * BitVec.ofNat 64 n).toNat
    (∀ op, mayGo s (s.req (accClient q)) op addr n = true) →
    (2 ^ 52 ≤ addr → exec i s = .next (takeTrap q ⟨.vaHole, addr % 2 ^ 52, none⟩ 0 s))
    ∧ (addr < 2 ^ 52 → (∃ r, regionOf s.myJob.width s.myJob.v addr n = .ok r) → addr % n ≠ 0 →
        exec i s = .next (takeTrap q ⟨.memAlign, addr, none⟩ 0 s))

/-- Under DET, ATOM and CAS raise DET_VIOLATION, with nw as without, and have no other effect (08 R239). Otherwise they read the
doubleword, return it, and write the operation's value as one action (08 R236, R237). That the access performs at issue is a hypothesis
(log entry 6). -/
def Obligations.AtomicsReturnTheOldWord : Prop :=
  (∀ (s : State) (o : S3) (addr x : Word), readSrc s .ctl o.a = .val addr → readSrc s .ctl o.b = .val x → s.myJob.det = true →
    (∀ op, Raises .ctl (.atom op o) s .detViolation)
    ∧ (∀ c new, readSrc s .ctl c = .val new → Raises .ctl (.cas o c) s .detViolation))
  ∧ (∀ (s u : State) (o : S3) (addr x : Word) (p : Piece), o.ok 48 →
    readSrc s .ctl o.a = .val addr → readSrc s .ctl o.b = .val x → DstFree s .ctl o.nw o.d →
    Performs .ctl s addr.toNat 8 .write u p → s.myJob.det = false →
    let old : Word := BitVec.ofNat 64 (leVal (u.bytes p.key 8))
    let does (n : Nat) (i : Instr) (new : Word) : Prop :=
      Runs i s fun t => Stored p.key 8 new.toNat u t ∧ GetsResult .ctl (accLatency s addr.toNat 2) o.nw o.d old u t
        ∧ GoesOn .ctl n 1 u t ∧ OnlyStore .ctl u t
    let gives (i : Instr) (new : Word) : Prop := does 1 i new
    gives (.atom .add o) (old + x) ∧ gives (.atom .and o) (old &&& x) ∧ gives (.atom .or o) (old ||| x)
    ∧ gives (.atom .xor o) (old ^^^ x) ∧ gives (.atom .swap o) x
    ∧ gives (.atom .min o) (if x.slt old then x else old) ∧ gives (.atom .max o) (if old.slt x then x else old)
    ∧ gives (.atom .umin o) (if x.ult old then x else old) ∧ gives (.atom .umax o) (if old.ult x then x else old)
    ∧ (∀ c new, readSrc s .ctl c = .val new → does 2 (.cas o c) (if old = x then new else old)))

/-- ATOM.det and CAS.det write no register: a request that passes the checks of R235 and then those of R112, in that order, stands last
in the job's list with its key, its interval and its target word, and CTL goes on; the first check that fails raises its cause and leaves
no request (04 R112, R113, R115; 08 R238). A target on another chip is told of it (log entry 33); the order among R112's checks is
the rule's table. -/
def Obligations.DeterministicRequestsWait : Prop :=
  ∀ (s : State) (r a b c : Src) (res addr x y : Word),
    readSrc s .ctl r = .val res → readSrc s .ctl a = .val addr → readSrc s .ctl b = .val x → readSrc s .ctl c = .val y →
    let co := s.core
    let mine (d : Det) : Bool := d.rank == co.rank && d.core == co.coreId.toNat
    mayGo s (s.req 0) (.read 8) addr.toNat 8 = true →
    let traps (i : Instr) (f : Flt) : Prop := exec i s = .next (takeTrap .ctl f 0 s)
    let asks (i : Instr) (n : Nat) (op : Option AtomSel) (operand expected : Word) : Prop :=
      (∀ f, accCheck s addr.toNat 8 = some f → traps i f)
      ∧ (accCheck s addr.toNat 8 = none →
          (∀ f, detWord s .ctl addr.toNat = .error f → traps i f)
          ∧ (∀ w, detWord s .ctl addr.toNat = .ok w →
              (∀ f, detPoison s .ctl addr.toNat = some f → traps i f)
              ∧ (detPoison s .ctl addr.toNat = none →
                  if ∀ gr, s.myJob.group? co.atomGroup.toNat = some gr → co.rank ∉ gr.memb then traps i ⟨.detGroup, 0, none⟩
                  else if 2 ^ 52 ≤ res.toNat then traps i ⟨.vaHole, res.toNat % 2 ^ 52, none⟩
                  else match regionOf s.myJob.width s.myJob.v res.toNat 8 with
                    | .error .vaHole => traps i ⟨.vaHole, res.toNat, none⟩
                    | .error .spadHole => traps i ⟨.spadHole, res.toNat, none⟩
                    | .ok (.spad _) =>
                      if res.toNat % 8 ≠ 0 then traps i ⟨.memAlign, res.toNat, none⟩
                      else if 256 ≤ (s.myJob.dets.filter mine).length then traps i ⟨.detLimit, 0, none⟩
                      else if s.myJob.det = true ∧ (∃ d ∈ s.myJob.dets, d.trank = w.1 ∧ d.tva = w.2 ∧ d.g ≠ co.atomGroup.toNat) then
                        traps i ⟨.detViolation, addr.toNat, none⟩
                      else ∀ gr, s.myJob.group? co.atomGroup.toNat = some gr →
                        let p := if (gr.arrived.any (·.1 == co.rank)) = true then gr.phase + 1 else gr.phase
                        let ask : List Nat := [5, co.coreId.toNat, co.taskId, co.atomOrder.toNat, 0, co.detC, co.atomGroup.toNat, p,
                          (op.map AtomSel.code).getD 9, operand.toNat, expected.toNat, res.toNat]
                        let u := if (s.rank? co.job w.1).isNone = true then sendFlit s { s.req 0 with ask := ask } w.1
                            (fabLo + w.1 * 2 ^ 33 + (w.2 - (placeOf s co.job w.1).exportBase.toNat)) 8 true
                          else wakeCold co.job w.1 s
                        Runs i s fun t =>
                        let d : Det :=
                          { rank := co.rank, core := co.coreId.toNat, task := co.taskId, order := co.atomOrder.toNat, mov := false,
                            idx := co.detC, g := co.atomGroup.toNat, phase := p
                            trank := w.1, tva := w.2, fva := addr.toNat, op := op, x := operand, exp := expected, res := res.toNat, seq := 0 }
                        t.jobs = u.jobs.map (fun j => if j.num = co.job then { j with dets := j.dets ++ [d] } else j)
                        ∧ t.core.detC = co.detC + 1 ∧ GoesOn .ctl n 1 u t ∧ NoResult .ctl u t
                        ∧ (((s.rank? co.job w.1).any fun k => !k.cold) = true → u = s)
                        ∧ (∀ c, farChip s co.job w.1 = some c → ∃ m ∈ t.chip.outbox, m.kind = .fabric ∧ m.args.head? = some c)
                        ∧ t = { u with core := { co with ctl := t.core.ctl, detC := t.core.detC }, jobs := t.jobs }
                    | _ => traps i ⟨.detResult, res.toNat, none⟩)))
    (∀ op : AtomSel, asks (.atomDet op r a b) 1 (some op) x 0) ∧ asks (.casDet r a b c) 2 none y x

/-- CRING takes a valid descriptor into its ring and makes the ring current; CRING.select only makes it current; EXPCT adds to
the pending count of an arrival word and ARRV takes from it, counting a phase when it reaches zero;
an address in the fabric window raises MOV_LOCAL (09 R268, R275). -/
def Obligations.RingsAndArrivalWords : Prop :=
  ∀ (s : State),
    (∀ n : BitVec 3, Runs (.cringSelect n) s fun t =>
      t = { s with core := { s.core with mov := t.core.mov, curRing := n.toNat } } ∧ GoesOn .mov 1 1 s t)
    ∧ (∀ (n : BitVec 3) (a : Src) (addr : Word) (u : State) (p : Piece), readSrc s .mov a = .val addr →
        Performs .mov s addr.toNat 32 .read u p →
        let d : BitVec 256 := BitVec.ofNat 256 (leVal (u.bytes p.key p.len))
        (ringDescOk s.myJob.width s.myJob.v d = true →
          Runs (.cring n a) s fun t =>
            t = { u with core := { u.core with mov := t.core.mov, curRing := n.toNat,
                                               rings := u.core.rings.setIfInBounds n.toNat (some d) } })
        ∧ (ringDescOk s.myJob.width s.myJob.v d = false →
          exec (.cring n a) s = .next (takeTrap .mov ⟨.ringDesc, addr.toNat, none⟩ 0 s)))
    ∧ (∀ (a b : Src) (addr n : Word), readSrc s .mov a = .val addr → readSrc s .mov b = .val n → inFab addr.toNat = true →
        exec (.expct a b) s = .next (takeTrap .mov ⟨.movLocal, addr.toNat, none⟩ 0 s)
        ∧ exec (.arrv a b) s = .next (takeTrap .mov ⟨.movLocal, addr.toNat, none⟩ 0 s))
    ∧ (∀ (a b : Src) (addr n : Word) (u : State) (p : Piece), readSrc s .mov a = .val addr → readSrc s .mov b = .val n →
        inFab addr.toNat = false → Performs .mov s addr.toNat 8 .write u p →
        let w := leVal (u.bytes p.key 8)
        let pend := w % 2 ^ 32
        let k := n.toNat % 2 ^ 32
        (if 2 ^ 32 ≤ pend + k then exec (.expct a b) s = .next (takeTrap .mov ⟨.arrvOverflow, addr.toNat, none⟩ 0 s)
         else Runs (.expct a b) s fun t => Stored p.key 8 (w + k) u t ∧ NoResult .mov u t ∧ OnlyStore .mov u t)
        ∧ (if pend < k then exec (.arrv a b) s = .next (takeTrap .mov ⟨.arrvUnderflow, addr.toNat, none⟩ 0 s)
           else Runs (.arrv a b) s fun t =>
             Stored p.key 8 ((if 0 < k ∧ pend = k then w / 2 ^ 32 + 1 else w / 2 ^ 32) % 2 ^ 32 * 2 ^ 32 + (pend - k)) u t
             ∧ NoResult .mov u t ∧ OnlyStore .mov u t))

/-! ## CTL: starting, gathering and ending work (07 R215, R216; 08 R240 to R252) -/

/-- FORK starts every named sequencer, each at lane 1 of the target line with an empty loop stack and empty latches, and empties
CTL's latches; with one of them not idle it raises FORK_BUSY (08 R240). -/
def Obligations.ForkStartsSequencers : Prop :=
  ∀ (s : State) (n : BitVec 3) (off : BitVec 15), n ≠ 0 → s.core.uh = false →
    ((∀ q, forkNames n q = true → (s.core.seq q).run = false) →
      Runs (.fork n off) s fun t =>
        (∀ q, forkNames n q = true → t.core.seq q =
          { run := true, line := s.core.ctl.line + off.signExtend 47, lane := 1, entered := false, loops := [], skip := none,
            ready := s.now + 2, gate := s.core.accId, point := false, count := (s.core.seq q).count })
        ∧ (∀ q, q ≠ .ctl → forkNames n q = false → t.core.seq q = s.core.seq q)
        ∧ (∀ q, q ≠ .vec → t.core.lat q = if q = .ctl ∨ forkNames n q = true then [] else s.core.lat q)
        ∧ t.core.latV = (if forkNames n .vec = true then [] else s.core.latV)
        ∧ GoesOn .ctl 1 1 s t ∧ SameMemory s t
        ∧ t = { s with core := { s.core with ctl := t.core.ctl, acs := t.core.acs, vec := t.core.vec, mov := t.core.mov,
                                             latC := t.core.latC, sysLat := t.core.sysLat, latA := t.core.latA,
                                             latV := t.core.latV, latM := t.core.latM } })
    ∧ ((∃ q, forkNames n q = true ∧ (s.core.seq q).run = true) → Raises .ctl (.fork n off) s .forkBusy)

/-- RDV goes on, with the latches of the sequencers that meet empty, once ACS, VEC and MOV are idle and what they and CTL
pushed and issued has performed, and waits before; JOIN waits while a marker of the core is pending; MARK places a marker on each
engine its set names, and waits while one of them has eight (07 R215, R216; 08 R241).
SUSP, with its checks passed and the core at rest, puts a watch entry with its address, threshold, continuation, stage and
s1 to s8 into the lowest free place, ready where the word has already reached the threshold; then the task ends: no sequencer
runs, latches and queues are empty, streams idle, no marker pending, no stage. SUSP.end ends the task without an entry. While the
core is not at rest both wait (01 R21; 05 R131; 08 R242 to R246).
BARV of a member that has not arrived, with CTL's accesses performed, arrives at the open phase, tells the group's other chips,
and gives the number of the phase after the one in progress; a rank that has arrived raises BARV_AHEAD, one that is no member
GRP_MEMBER, and with an access of CTL in flight it waits (08 R248). TRIG marks the release point; CHKPT names the open phase of g0
(08 R247, R252). What other chips are told is a message (log entry 1). -/
def Obligations.TasksMeetAndEnd : Prop :=
  (∀ (s : State), s.core.uh = false →
     (∀ id, (AtRest s → Runs (.rdv id) s fun t =>
         t = { s with core := { s.core with ctl := t.core.ctl, latC := [], latA := [], latM := [], latV := [] }
                      chip := { s.chip with trace := s.chip.trace ++ [⟨s.core.job, s.core.phys, id.toNat, s.now⟩] } }
         ∧ GoesOn .ctl 1 1 s t)
       ∧ (¬ AtRest s → Waits .ctl (.rdv id) { seqs := [.acs, .vec, .mov], eng := s.core.mov.run } s))
     ∧ (s.core.marks = [] → Runs .join s fun t => GoesOn .ctl 1 1 s t ∧ OnlyPlace .ctl s t)
     ∧ (s.core.marks ≠ [] → ∃ on, Waits .ctl .join on s)
     ∧ (∀ e : BitVec 5, (∀ g ∈ markEngines e, (s.core.marks.filter (·.eng == g)).length < 8) →
         Runs (.mark e) s fun t =>
           t = { s with core := { s.core with ctl := t.core.ctl, marks := s.core.marks ++ (markEngines e).map (markerOf s) } }
           ∧ GoesOn .ctl 1 1 s t)
     ∧ (∀ e : BitVec 5, (∃ g ∈ markEngines e, 8 ≤ (s.core.marks.filter (·.eng == g)).length) → ∃ on, Waits .ctl (.mark e) on s))
  ∧ (∀ (s : State), s.core.uh = false →
     (∀ p ∈ s.core.strm.toList, p.st = .halted → p.store = false) →
     let ended (t : State) : Prop :=
       t.core.ctl.run = false ∧ t.core.ctl.loops = [] ∧ t.core.stage = none ∧ t.core.marks = [] ∧ t.core.suspending = false
       ∧ t.core.latC = [] ∧ t.core.latA = [] ∧ t.core.latM = [] ∧ t.core.latV = []
       ∧ (∀ p ∈ t.core.strm.toList, p.st = .idle) ∧ (∀ q ∈ t.core.lq.toList, q = []) ∧ (∀ q ∈ t.core.sq.toList, q = [])
       ∧ t.core.s = s.core.s ∧ t.core.a = s.core.a ∧ t.core.d = s.core.d ∧ t.core.v = s.core.v ∧ t.core.m = s.core.m
     (AtRest s →
       (Runs .suspEnd s fun t => ended t ∧ t.core.watch = s.core.watch ∧ SameMemory s t)
       ∧ ∀ (a b : Src) (addr thresh : Word) (off : W32) (i : Nat), readSrc s .ctl a = .val addr →
           readSrc s .ctl b = .val thresh → suspCheck s addr.toNat = none →
           i < 32 → s.core.watch[i]? = some none → (∀ k < i, s.core.watch[k]? ≠ some none) →
           Runs (.susp a b off) s fun t => ended t ∧ SameMemory s t
             ∧ ∃ e : WEnt, t.core.watch[i]? = some (some e)
                 ∧ e.waddr = addr.toNat ∧ e.thresh = thresh ∧ e.stage = s.core.stage.getD 0
                 ∧ e.cont = s.core.ctl.line + off.signExtend 47
                 ∧ e.save = (List.range 8).map (fun k => s.core.getS (k + 1))
                 ∧ let placed : State := s.modCore fun c =>
                     { c with watch := c.watch.setIfInBounds i (some (suspEntry s addr.toNat thresh off)) }
                   (e.rdy = true ↔ ∃ v, watchVal placed s.core.job s.core.rank addr.toNat = some v ∧ thresh.toNat ≤ v))
     ∧ (¬ AtRest s →
         let ended := s.core.acs.run = false ∧ s.core.vec.run = false ∧ s.core.mov.run = false
         let waits : State := (if ended then cancelLoads s else s).modCore fun c => { c with suspending := true }
         let on : Awaited := { seqs := [.acs, .vec, .mov], eng := s.core.mov.run }
         exec .suspEnd s = .next (waiting .ctl on waits)
         ∧ ∀ (a b : Src) (addr thresh : Word) (off : W32), readSrc s .ctl a = .val addr → readSrc s .ctl b = .val thresh →
             suspCheck s addr.toNat = none → exec (.susp a b off) s = .next (waiting .ctl on waits)))
  ∧ (∀ (s : State) (nw : Bool) (d : BitVec 6) (step : Bool) (g : BitVec 8), d.toNat < 48 → s.core.uh = false →
     DstFree s .ctl nw d →
     (∀ jb gr, s.job? s.core.job = some jb → jb.group? g.toNat = some gr →
       if s.core.rank ∉ gr.memb then Raises .ctl (.barv nw d step g) s .grpMember
       else if (s.core.accq.any (·.q == .ctl)) = true then
         exec (.barv nw d step g) s = .next (stalled .ctl (s.modCore fun c =>
           { c with barv := some ⟨g.toNat, step, regIx c .ctl d.toNat, nw⟩ }))
       else if (gr.arrived.any (·.1 == s.core.rank)) = true then
         exec (.barv nw d step g) s = .next (takeTrap .ctl ⟨.barvAhead, 0, none⟩ 0 (s.modCore fun c => { c with barv := none }))
       else Runs (.barv nw d step g) s fun t =>
         GetsResult .ctl 2 nw d (BitVec.ofNat 64 (gr.phase + 1)) s t ∧ GoesOn .ctl 1 1 s t ∧ SameMemory s t
         ∧ t.jobs = s.jobs.map (fun x => if x.num = s.core.job then
             { x with groups := x.groups.map fun y =>
                 if y.g = g.toNat then { y with arrived := y.arrived ++ [(s.core.rank, step)] } else y } else x)
         ∧ t.chip = { s.chip with outbox := s.chip.outbox ++ [⟨.arrival, [s.core.job, s.core.rank, g.toNat, b2n step, gr.phase]⟩] })
     ∧ (∀ jb, s.job? s.core.job = some jb → jb.group? g.toNat = none → Raises .ctl (.barv nw d step g) s .grpMember)
     ∧ (Runs .trig s fun t =>
         t = { s with core := { s.core with ctl := t.core.ctl, trigged := true
                                            trigId := if s.core.trigged then s.core.trigId else s.core.accId } } ∧ GoesOn .ctl 1 1 s t)
     ∧ (∀ jb gr, s.job? s.core.job = some jb → jb.group? 0 = some gr → Runs .chkpt s fun t =>
         let p := if (gr.arrived.any (·.1 == s.core.rank)) = true then gr.phase + 1 else gr.phase
         t.jobs = s.jobs.map (fun x => if x.num = s.core.job then
           { x with chkpt := if x.chkpt.contains p then x.chkpt else p :: x.chkpt } else x)
         ∧ GoesOn .ctl 1 1 s t ∧ OnlyPlace .ctl { s with jobs := t.jobs } t))

/-! ## CTL: the matrix engine's set-up and commands (06 R169 to R185) -/

/-- MXCFG puts a value that fits into its field of the shadow nest and nowhere else, raises MX_FIELD for one that does not, and
its clear form gives the shadow nest its reset value; MXCLM claims a free slot, raises MX_SLOT for a claimed one and waits for a
nest's; MXREL of a claimed slot frees it once no accepted command names it; TIDW puts a valid descriptor into its entry.
MXGO and MXMMA that pass their checks, with no claimed or owned slot in the nest's range, room in MTX's queue and nothing
to wait for, are accepted and stand last in MTX's queue (06 R175, R182, R183). The order of two causes is the model's (log entry 31). -/
def Obligations.MatrixSetUpAndCommands : Prop :=
  (∀ (s : State), s.core.uh = false →
     (∀ (l : BitVec 3) (f : BitVec 5) (a : Src) (x : Word) (lo w : Nat) (k : FieldKind), readSrc s .ctl a = .val x →
       mxField l.toNat f.toNat = some (lo, w, k) →
       if mxFits lo w k x then
         Runs (.mxcfg l f a) s fun t =>
           t = { s with core := { s.core with ctl := t.core.ctl, nestSh := t.core.nestSh } } ∧ GoesOn .ctl 1 1 s t
           ∧ fld t.core.nestSh lo w = x.toNat % 2 ^ w
           ∧ ∀ i, ¬ (lo ≤ i ∧ i < lo + w) → bitOf t.core.nestSh i = bitOf s.core.nestSh i
       else Raises .ctl (.mxcfg l f a) s .mxField)
     ∧ (Runs (.mxcfg 6 22 (.r 0)) s fun t =>
         t = { s with core := { s.core with ctl := t.core.ctl, nestSh := nestReset } } ∧ GoesOn .ctl 1 1 s t)
     ∧ (∀ n : BitVec 5,
         ((slotAt s n.toNat).st = .free → Runs (.mxclm n) s fun t =>
           t = { s with core := { s.core with ctl := t.core.ctl, slots := t.core.slots } } ∧ GoesOn .ctl 1 1 s t
           ∧ ∀ i < 32, slotAt t i = if i = n.toNat then { slotAt s i with st := .claimed, rel := false } else slotAt s i)
         ∧ ((slotAt s n.toNat).st = .claimed → Raises .ctl (.mxclm n) s .mxSlot)
         ∧ ((slotAt s n.toNat).st = .nest → Waits .ctl (.mxclm n) { eng := true } s)
         ∧ ((slotAt s n.toNat).st = .claimed → (slotAt s n.toNat).rel = false → Runs (.mxrel n) s fun t =>
           GoesOn .ctl 1 1 s t ∧ SameMemory s t
           ∧ slotAt t n.toNat = (if s.core.cmds.any (·.namesSlot n.toNat) then { slotAt s n.toNat with rel := true }
               else { slotAt s n.toNat with st := .free, rel := false }))
         ∧ ((slotAt s n.toNat).st ≠ .claimed ∨ (slotAt s n.toNat).rel = true → Raises .ctl (.mxrel n) s .mxSlot))
     ∧ (∀ (n : BitVec 8) (a : Src) (addr : Word) (u : State) (p : Piece), n ≠ 255 → readSrc s .ctl a = .val addr →
         entryUsed s n.toNat = false → Performs .ctl s addr.toNat 64 .read u p →
         let d : Desc := BitVec.ofNat 512 (leVal (u.bytes p.key p.len))
         (d.check = none → Runs (.tidw n a) s fun t => OnlyPlace .ctl { u with ranks := t.ranks } t
           ∧ t.ranks = u.ranks.map (fun k => if k.job = u.core.job ∧ k.rank = u.core.rank then
               { k with ti := k.ti.setIfInBounds n.toNat d } else k))
         ∧ ∀ c, d.check = some c → exec (.tidw n a) s = .next (takeTrap .ctl ⟨c, addr.toNat, none⟩ 0 s)))
  ∧ (∀ (s : State), s.core.uh = false → mtxFull s = false →
     (∀ k : Toks, MayAccept .ctl s k → mxgoCheck s s.core.nestSh = none →
       (∀ i < 32, inRange s.core.nestSh i = true → (slotAt s i).st = .free) →
       Runs (.mxgo k) s fun t =>
         Accepted .ctl 2 k (.mxgo s.core.nestSh (s.myRank.tensor (fld s.core.nestSh 768 8))
           (s.myRank.tensor (fld s.core.nestSh 776 8))) .waiting s t
         ∧ t.core.mtxQ = s.core.mtxQ ++ [s.core.seqCtr]
         ∧ ∀ i < 32, slotAt t i = if inRange s.core.nestSh i then { slotAt s i with st := .nest, rel := false } else slotAt s i)
     ∧ (∀ o : Mma, MayAccept .ctl s o.t → mmaCheck s o = none →
       nestTri s.core.nestSh = 0 ∨ (nestTri s.core.nestSh ≠ 3 ∧ o.den = true) →
       Runs (.mxmma o) s fun t =>
         let a := slotAt s o.osA.toNat
         let b := slotAt s o.osB.toNat
         Accepted .ctl 2 o.t (.mxmma s.core.nestSh o a.klen a.cb b.cb a.scale b.scale) .waiting s t ∧ t.core.mtxQ = s.core.mtxQ ++ [s.core.seqCtr]))

/-! ## CTL: system registers, traps and returns (08 R253 to R260; 15 R402 to R414) -/

/-- MFSR gives, at a privilege that may read it, the value of each system register (R254; 10 R305; 12 R348; 15 R406), and raises
PRIV for a register that only a system program may read. Bits no rule names read as zero (log entry 26). -/
def Obligations.SystemRegisterReads : Prop :=
  ∀ (s : State) (nw : Bool) (d : BitVec 6), d.toNat < 48 → DstFree s .ctl nw d →
    let c := s.core
    let k := s.myRank
    let j := s.myJob
    let only : List (BitVec 11) := [0x10, 0x11, 0x12, 0x14, 0x18, 0x19, 0x1A, 0x1C, 0x20, 0x21]
    (c.priv = false → ∀ r ∈ only, Raises .ctl (.mfsr nw d r) s .priv)
    ∧ ∀ p ∈ ([(0x00, c.coreId.setWidth 64), (0x01, BitVec.ofNat 64 c.rank), (0x02, BitVec.ofNat 64 j.width),
        (0x03, BitVec.ofNat 64 c.job), (0x04, j.stepNo.setWidth 64), (0x05, modeStat s), (0x06, BitVec.ofNat 64 s.chip.ticks),
        (0x07, c.tokLast.setWidth 64), (0x08, c.atomGroup.setWidth 64), (0x09, c.atomOrder.setWidth 64),
        (0x0A, (c.uiv ++ (0 : BitVec 5)).setWidth 64), (0x0B, (c.uepc ++ (0 : BitVec 2)).setWidth 64), (0x0C, j.seed),
        (0x0D, drnWord0 s), (0x0E, mxStat s), (0x0F, c.mxKcap.setWidth 64),
        (0x13, (k.gen ++ k.asid).setWidth 64), (0x15, k.cbNext.setWidth 64), (0x16, k.expNext.setWidth 64),
        (0x17, k.phaseBase.setWidth 64), (0x1B, k.stageBase.setWidth 64), (0x22, k.fwdRing.setWidth 64)]
        : List (BitVec 11 × Word)),
      Gives .ctl (.mfsr nw d p.1) s 2 1 nw d p.2

/-- MTSR writes the registers a user program may write: UIE and a clearing of DIVZ through MODE_STAT, ATOM_GROUP, ATOM_ORDER, UIV
and UEPC; a bit set in a field that must be zero raises RSV_FIELD; a register that the privilege may not write raises PRIV; and
neither changes the register (08 R253 to R255). Bits no rule names must be written zero (log entry 26). -/
def Obligations.SystemRegisterWrites : Prop :=
  ∀ (s : State) (a : Src) (x : Word), readSrc s .ctl a = .val x →
    let sets (r : BitVec 11) (f : Core → Core) : Prop :=
      Runs (.mtsr r a) s fun t => t = { s with core := f { s.core with ctl := t.core.ctl } } ∧ GoesOn .ctl 1 1 s t
    sets 0x05 (fun c => { c with uie := x.getLsbD 4, divz := c.divz && !x.getLsbD 3 })
    ∧ (if x.toNat < 2 ^ 8 then sets 0x08 (fun c => { c with atomGroup := x.setWidth 8 })
       else Raises .ctl (.mtsr 0x08 a) s .rsvField)
    ∧ (if x.toNat < 2 ^ 16 then sets 0x09 (fun c => { c with atomOrder := x.setWidth 16 })
       else Raises .ctl (.mtsr 0x09 a) s .rsvField)
    ∧ (if x.toNat % 32 = 0 ∧ x.toNat < 2 ^ 52 then sets 0x0A (fun c => { c with uiv := x.extractLsb' 5 47 })
       else Raises .ctl (.mtsr 0x0A a) s .rsvField)
    ∧ (if x.toNat % 4 = 0 ∧ x.toNat < 2 ^ 52 then sets 0x0B (fun c => { c with uepc := x.extractLsb' 2 50 })
       else Raises .ctl (.mtsr 0x0B a) s .rsvField)
    ∧ (∀ r ∈ ([0x00, 0x01, 0x02, 0x03, 0x04, 0x06, 0x07, 0x0E, 0x10, 0x13, 0x18, 0x19, 0x1D, 0x1E, 0x1F, 0x23] : List (BitVec 11)),
        Raises .ctl (.mtsr r a) s .priv)
    ∧ (s.core.priv = false →
        ∀ r ∈ ([0x0C, 0x0D, 0x0F, 0x11, 0x12, 0x14, 0x17, 0x1A, 0x1B, 0x1C, 0x20, 0x21] : List (BitVec 11)),
          Raises .ctl (.mtsr r a) s .priv)
    ∧ (s.core.priv = true → sets 0x20 (fun c => { c with preWait := x.setWidth 32 })
        ∧ sets 0x21 (fun c => { c with migWait := x.setWidth 32 })
        ∧ sets 0x0F (fun c => { c with mxKcap := if x.setWidth 32 = (0 : W32) then 1 else x.setWidth 32 }))

/-- TRAP under an action of park (its launch value) takes the trap: every sequencer stops where it stands, the frame records
TRAP_USER, the immediate, the PC of its lane, the time, the loop stacks, what CTL and MOV had issued and what was to be issued again, and
the rank is to be pre-empted; TRAP itself counts as done (08 R256; 15 R404, R407 to R412). The frame is stated as structured data (log entry 7). -/
def Obligations.TrapTakesTheTrap : Prop :=
  ∀ (s : State) (imm : BitVec 11) (jb : Job), s.job? s.core.job = some jb → jb.rolling = false →
    actOf (actByte s s.core.job .trapUser) = .park →
    Runs (.trap imm) s fun t =>
      (∃ tr : Trap, t.core.trap = some tr ∧ tr.cause = some .trapUser ∧ tr.agent = .ctl ∧ tr.aux = imm.toNat
        ∧ tr.pc.toNat = (s.core.ctl.line.toNat * 32 + 4 * s.core.ctl.lane) % 2 ^ 52 ∧ tr.ticks = s.now
        ∧ tr.act = .park ∧ tr.pre = false ∧ tr.done = false ∧ tr.uh = s.core.uh
        ∧ tr.replay = byNum (s.core.accq ++ againEntries (s.modSeq .ctl fun y => { y with cap := {} }))
        ∧ tr.ctl = atEntry .ctl (s.modSeq .ctl fun y => { y with lane := min 8 (y.lane + (entryHere .ctl s).2), cap := {} })
        ∧ tr.acs = atEntry .acs s ∧ tr.vec = atEntry .vec s ∧ tr.mov = atEntry .mov s)
      ∧ (∀ q, (t.core.seq q).run = false) ∧ t.core.accq = []
      ∧ (∀ k ∈ t.ranks, k.job = s.core.job ∧ k.rank = s.core.rank → k.parked = true ∧ k.noDispatch = true)
      ∧ t.agenda = s.agenda ++ [.preemptRequest s.core.job s.core.rank]

/-- RFT at system privilege, with a frame that holds trapped state, gives back each sequencer's place and loop stack, the replay
queue in its order, the streams that the frame names as halted, with what is issued again at its lane with its captured operands, the user completion handler's state and user
privilege, and after an exposed pre-emption the cycles that remained; at user privilege it raises PRIV, and without trapped
state RFT_STATE (08 R257; 15 R414). What is restored comes from the structured frame (log entries 7, 17). -/
def Obligations.ReturnsRestore : Prop :=
  ∀ (s : State),
    (s.core.priv = false → Raises .ctl .rft s .priv)
    ∧ (s.core.priv = true → (∀ tr, s.core.trap = some tr → tr.done = true) → Raises .ctl .rft s .rftState)
    ∧ (s.core.priv = true → ∀ tr, s.core.trap = some tr → tr.done = false →
        Runs .rft s fun t =>
          let timed : Bool := tr.pre && s.core.x
          let place (q : Seqr) (x : SeqSt) : SeqSt :=
            let at' : Nat := if timed then s.now + x.ready else s.now
            match tr.replay.find? (fun a => a.q == q && a.op == .again) with
            | some a => { x with line := a.line, lane := a.lane, cap := { ops := a.snap, preds := a.preds }, ready := at', last := s.now }
            | none => { x with ready := at', last := s.now }
          t.core.priv = false ∧ t.core.uh = tr.uh
          ∧ t.core.accq = (tr.replay.filter fun a => a.op != .again && a.op != .flight).map (fun a => { a with flt := false })
          ∧ t.core.ctl = place .ctl tr.ctl ∧ t.core.acs = place .acs tr.acs
          ∧ t.core.vec = place .vec tr.vec ∧ t.core.mov = place .mov tr.mov
          ∧ t.core.pend = s.core.pend.map (fun p => if timed then { p with due := p.due + s.now } else p)
          ∧ (∀ q, (t.core.lat q).map (·.val) = ((if q = .ctl then s.core.latC else s.core.lat q)).map (·.val))
          ∧ t.core.latV.map (·.val) = s.core.latV.map (·.val)
          ∧ t.core.strm = s.core.strm.mapIdx (fun i p =>
              if p.st = .halted ∧ i ∈ tr.hStrm then { p with st := .running, cause := none } else p)
          ∧ t.core.s = s.core.s ∧ t.core.a = s.core.a ∧ t.core.d = s.core.d ∧ t.core.v = s.core.v ∧ t.core.m = s.core.m)

/-- RFT.u switches back to the main bank, brings back CTL's latches as the entry set them aside, clears UH and goes on at UEPC, at
lane 1 for a header's address, 2 cycles later; outside the handler it raises UH_STATE and has no other effect (08 R260). -/
def Obligations.TheHandlerReturns : Prop :=
  ∀ (s : State),
    (s.core.uh = false → Raises .ctl .rftU s .uhState)
    ∧ (s.core.uh = true → Runs .rftU s fun t =>
        let pc := s.core.uepc.toNat * 4
        let line : BitVec 47 := BitVec.ofNat 47 (pc / 32)
        t.core.uh = false ∧ t.core.latC = s.core.latSet ∧ t.core.latSet = [] ∧ t.core.uhSkip = none
        ∧ t.core.ctl = { s.core.ctl with
            line := line, entered := false, point := false, stall := false, cap := {}, last := s.now, count := s.core.ctl.count + 1
            skip := (match s.core.uhSkip with | some (l, l2) => if l = line then some l2 else none | none => none)
            lane := if pc / 4 % 8 = 0 then 1 else pc / 4 % 8, ready := s.now + 2 }
        ∧ (s.core.x = false → t = { s with core := { s.core with
            ctl := t.core.ctl, uh := t.core.uh, latC := t.core.latC, latSet := t.core.latSet, uhSkip := t.core.uhSkip } })
        ∧ (s.core.x = true →
            (∀ q, q ≠ .ctl →
              t.core.seq q = { s.core.seq q with ready := max (s.core.seq q).ready s.core.uhAt + (s.now + 2 - s.core.uhAt) })
            ∧ (∀ p ∈ t.core.pend, p.ent.q = .ctl → p ∈ s.core.pend)
            ∧ t = { s with core := { s.core with
                ctl := t.core.ctl, acs := t.core.acs, vec := t.core.vec, mov := t.core.mov, pend := t.core.pend, uh := t.core.uh,
                latC := t.core.latC, latA := t.core.latA, latM := t.core.latM, latV := t.core.latV, latSet := t.core.latSet,
                uhSkip := t.core.uhSkip } }))

/-- While CTL runs the user completion handler, every instruction R259 names raises UH_ILLEGAL, and has no other effect.
CTL takes the user completion handler between instructions when UIE is 1, UH is 0 and a ring is pending: the lowest one, whose
bit is cleared and whose number goes into shadow s40; UEPC takes the next instruction's place; the latches are set aside; and CTL
goes on at UIV (08 R258, R259). -/
def Obligations.TheUserHandler : Prop :=
  (∀ (s : State) (a b : Src) (c : BitVec 16) (e : BitVec 8) (e5 : BitVec 5) (n3 : BitVec 3) (off : BitVec 15) (w : W32)
     (nw step : Bool) (d : BitVec 6) (n8 : BitVec 8) (id : BitVec 4) (k : Toks) (o : Mma), s.core.uh = true →
     ∀ i ∈ [.loop a off, .loopi c e, .brkl, .fork n3 off, .rdv id, .susp a b w, .suspEnd, .trig, .barv nw d step n8, .mark e5,
         .join, .chkpt, .mxcfg n3 e5 a, .mxgo k, .mxclm e5, .mxrel e5, .mxmma o, .tidw n8 a],
       Raises .ctl i s .uhIllegal)
  ∧ (∀ (s : State) (n lane : Nat), handlerDue s = true → nextLane s = some lane → n < 8 → s.core.uipend.getLsbD n = true →
     (∀ k < n, s.core.uipend.getLsbD k = false) →
     Runs .userHandlerEntry s fun t =>
       t.core.uh = true ∧ t.core.shadow[0] = BitVec.ofNat 64 n
       ∧ (∀ k, t.core.uipend.getLsbD k = (decide (k ≠ n) && s.core.uipend.getLsbD k))
       ∧ t.core.uepc = BitVec.ofNat 50 (s.core.ctl.line.toNat * 8 + lane)
       ∧ t.core.latSet = s.core.latC ∧ t.core.latC = []
       ∧ t.core.ctl.line = s.core.uiv ∧ t.core.ctl.lane = 1 ∧ t.core.ctl.ready = s.now + 4
       ∧ t.core.s = s.core.s ∧ (∀ k, 0 < k → t.core.shadow[k]? = s.core.shadow[k]?)
       ∧ SameMemory s t ∧ t = { s with core := t.core })

/-! ## ACS: records and streams (05 R135 to R140) -/

/-- SPW puts a value that fits into its field of an idle record and nowhere else, raises SP_FIELD for one that does not, clears
the record when asked to, and raises SP_BUSY for a record that is not idle; SIDX sets the index mode and source of an idle record
(05 R135, R137). -/
def Obligations.StreamRecordsAreWritten : Prop :=
  ∀ (s : State) (p : BitVec 4),
    let r := strmAt s p.toNat
    let puts (i : Instr) (img : BitVec 512 → Prop) : Prop :=
      Runs i s fun t => (∃ v, img v ∧ t = { s with core := { s.core with
          acs := t.core.acs, strm := s.core.strm.setIfInBounds p.toNat { r with image := v } } }) ∧ GoesOn .acs 1 1 s t
    (r.st ≠ .idle → (∀ f a x, readSrc s .acs a = .val x → Raises .acs (.spw p f a) s .spBusy)
      ∧ ∀ src, Raises .acs (.sidx p src) s .spBusy)
    ∧ (r.st = .idle →
        (∀ (f : BitVec 5) (a : Src) (x : Word) (lo w : Nat) (sx : Bool), readSrc s .acs a = .val x → f ≠ 19 → f ≠ 20 →
          spwField f.toNat = some (lo, w, sx) →
          if spwFits w sx x then
            puts (.spw p f a) fun v => fld v lo w = x.toNat % 2 ^ w
              ∧ ∀ i, ¬ (lo ≤ i ∧ i < lo + w) → bitOf v i = bitOf r.image i
          else Raises .acs (.spw p f a) s .spField)
        ∧ (∀ (a : Src) (x : Word), readSrc s .acs a = .val x →
          if x = 0 then puts (.spw p 19 a) (· = 0) else Raises .acs (.spw p 19 a) s .spField)
        ∧ (∀ src : IdxSrc, puts (.sidx p src) fun v =>
            (∀ i, ¬ (270 ≤ i ∧ i < 276) → bitOf v i = bitOf r.image i)
            ∧ (match src with
              | .none => fld v 270 2 = 0 ∧ fld v 272 4 = fld r.image 272 4
              | .lq n => fld v 270 2 = 1 ∧ fld v 272 4 = n.toNat
              | .p n => fld v 270 2 = 2 ∧ fld v 272 4 = n.toNat)))

/-- SLOAD and SSTORE, with no other stream on the queue and their checks passed, start the record's stream at the head of its
walk; with another stream on the queue they wait; a check that fails raises its cause. AMARK counts, ASUSP ends ACS's work, AQRES
resumes a halted stream and does nothing to another (05 R136, R138 to R140). -/
def Obligations.StreamsStartAndEnd : Prop :=
  ∀ (s : State),
    (∀ (store : Bool) (q p : Nat) (i : Instr), p < 16 →
      ((store = false ∧ ∃ b : BitVec 3, q = b.toNat ∧ i = .sload b (BitVec.ofNat 4 p))
        ∨ (store = true ∧ ∃ b : BitVec 2, q = b.toNat ∧ i = .sstore b (BitVec.ofNat 4 p))) →
      (queueServed s store q p = true → Waits .acs i { seqs := [.vec] } s)
      ∧ (queueServed s store q p = false → ∀ c, startCheck s store q p = some c → Raises .acs i s c)
      ∧ (queueServed s store q p = false → startCheck s store q p = none → Runs i s fun t =>
          let x := strmAt t p
          x.st = .running ∧ x.store = store ∧ x.que = q ∧ x.j0 = 0 ∧ x.j1 = 0 ∧ x.j2 = 0 ∧ x.j3 = 0 ∧ x.x = 0
          ∧ x.image = (strmAt s p).image ∧ x.serial = s.core.serial ∧ t.core.serial = s.core.serial + 1
          ∧ (∀ j < 16, j ≠ p → ¬ ((strmAt s p).imode = 2 ∧ j = (strmAt s p).isrc) → strmAt t j = strmAt s j)
          ∧ GoesOn .acs 1 1 s t
          ∧ t = { s with core := { s.core with acs := t.core.acs, strm := t.core.strm, serial := t.core.serial } }))
    ∧ (Runs .amark s fun t => t.core.epoch = s.core.epoch + 1 ∧ GoesOn .acs 1 1 s t
        ∧ t = { s with core := { s.core with acs := t.core.acs, epoch := t.core.epoch, marks := t.core.marks } })
    ∧ (Runs .asusp s fun t => t.core.acs.run = false ∧ t.core.acs.lane = min 8 (s.core.acs.lane + 1)
        ∧ t = { s with core := { s.core with acs := t.core.acs, marks := t.core.marks } })
    ∧ (∀ p : BitVec 4, Runs (.aqres p) s fun t => GoesOn .acs 1 1 s t
        ∧ t = { s with core := { s.core with acs := t.core.acs, strm := t.core.strm } }
        ∧ ∀ j < 16, strmAt t j = if j = p.toNat ∧ (strmAt s j).st = .halted then
            { strmAt s j with st := .running, cause := none } else strmAt s j)

/-! ## VEC (05 R141 to R166; 04 R105 to R107, R117, R120) -/

/-- The floating instructions of R144 round the exact sum, product, quotient, root or reciprocal once, in their mode and with
their saturation, element by element under the mask; VLDX scales by a power of two (05 R141, R144, R149).
VEXP, VEXP2, VLN, VLOG2, VTANH, VSIGM, VERF, VSIN and VCOS round the function's exact value once, element by element under the
mask, and may take up to 96 cycles more, as VDIV, VSQRT, VRCP and VRSQ may (05 R145; 04 R117, R119; log entry 53). A function value the refinement leaves undecided is free (log entry 10). -/
def Obligations.VectorArithmeticRoundsOnce : Prop :=
  (∀ (s : State) (ty : ETy) (vd va vb vc : VOp) (m : BitVec 4) (nw sat : Bool) (rnd : Rnd) (k : BitVec 8),
     isFloat ty = true → vd.dstOk = true → va.srcOk = true → vb.srcOk = true → vc.srcOk = true →
     let o2 : VBr := ⟨ty, vd, va, vb, m, nw, rnd, sat⟩
     let o3 : VTr := ⟨ty, vd, va, vb, vc, m, nw, rnd, sat⟩
     let o1 : VUr := ⟨ty, vd, va, m, nw, rnd, sat⟩
     let md := vmode rnd
     let v (l : List Nat) (i : Nat) : XVal := decodeF ty (l[i]?.getD 0)
     let two (i : Instr) (lat occ : Nat) (f : XVal → XVal → XVal) : Prop :=
       VApplies i s lat occ [va, vb] vd nw ty m fun l => roundTo ty md sat (f (v l 0) (v l 1))
     let three (i : Instr) (f : XVal → XVal → XVal → XVal) : Prop :=
       VApplies i s 10 4 [va, vb, vc] vd nw ty m fun l => roundTo ty md sat (f (v l 0) (v l 1) (v l 2))
     let slow (i : Instr) (srcs : List VOp) (f : List Nat → XVal) : Prop :=
       ∃ k ≤ 96, VAppliesSlowly i s 14 8 k srcs vd nw ty m fun l => roundTo ty md sat (f l)
     let one (i : Instr) (lat occ : Nat) (f : XVal → XVal) : Prop :=
       VApplies i s lat occ [va] vd nw ty m fun l => roundTo ty md sat (f (v l 0))
     two (.vadd o2) 8 4 (XVal.addM md) ∧ two (.vsub o2) 8 4 (fun a b => XVal.addM md a b.neg) ∧ two (.vmul o2) 8 4 XVal.mul
     ∧ three (.vfma o3) (fun a b c => XVal.addM md (a.mul b) c) ∧ three (.vfms o3) (fun a b c => XVal.addM md (a.mul b) c.neg)
     ∧ three (.vfnma o3) (fun a b c => XVal.addM md c (a.mul b).neg)
     ∧ slow (.vdiv o2) [va, vb] (fun l => XVal.div (v l 0) (v l 1)) ∧ slow (.vsqrt o1) [va] (fun l => XVal.sqrt (v l 0))
     ∧ slow (.vrcp o1) [va] (fun l => XVal.div (.fin false 1 0) (v l 0)) ∧ slow (.vrsq o1) [va] (fun l => XVal.rsqrt (v l 0))
     ∧ one (.vldx ⟨o1, k⟩) 8 4 (XVal.scale k.toInt))
  ∧ (∀ (s : State) (o : VUr), o.ok isFloat = true →
     ∀ p ∈ ([(.vexp o, .exp), (.vexp2 o, .exp2), (.vln o, .ln), (.vlog2 o, .log2), (.vtanh o, .tanh), (.vsigm o, .sigm),
         (.verf o, .erf), (.vsin o, .sin), (.vcos o, .cos)] : List (Instr × Fn)),
       ∃ k ≤ 96, VAppliesSlowly p.1 s 14 8 k [o.va] o.vd o.nw o.ty o.m fun l =>
         fnRound p.2 o.ty (vmode o.rnd) o.sat (decodeF o.ty (l[0]?.getD 0)) (l[0]?.getD 0))

/-- Integer arithmetic wraps or clamps, logic and shifts act on the codes, MAX and MIN choose a code, ABS and NEG change a sign,
VMOV and VBCST copy, VRNG draws (05 R144, R156 to R158, R164; 03 R77, R79; 04 R120). -/
def Obligations.VectorCodesElementwise : Prop :=
  ∀ (s : State) (ty : ETy) (vd va vb : VOp) (m : BitVec 4) (nw sat : Bool) (imm : W32) (ti seed : BitVec 8),
    vd.dstOk = true → va.srcOk = true → vb.srcOk = true →
    let c (l : List Nat) (i : Nat) : Nat := l[i]?.getD 0
    let o : VB := ⟨ty, vd, va, vb, m, nw⟩
    let os : VBs := ⟨ty, vd, va, vb, m, nw, sat⟩
    let two (i : Instr) (lat : Nat) (f : Nat → Nat → Nat) : Prop :=
      VApplies i s lat 4 [va, vb] vd nw ty m fun l => f (c l 0) (c l 1)
    let int (i : Instr) (lat : Nat) (f : Int → Int → Int) : Prop :=
      two i lat fun a b => narrowI ty sat (f (intOf ty a) (intOf ty b))
    (isInt ty = true →
      int (.viadd os) 6 (· + ·) ∧ int (.visub os) 6 (· - ·) ∧ int (.vimul os) 8 (· * ·)
      ∧ two (.vimin o) 6 (fun a b => if intOf ty b < intOf ty a then b else a)
      ∧ two (.vimax o) 6 (fun a b => if intOf ty a < intOf ty b then b else if intOf ty b < intOf ty a then a else b)
      ∧ two (.vand o) 6 (fun a b => a &&& b) ∧ two (.vor o) 6 (fun a b => a ||| b) ∧ two (.vxor o) 6 (fun a b => a ^^^ b)
      ∧ two (.vshf ⟨.l, o⟩) 6 (fun a n => a * 2 ^ n) ∧ two (.vshf ⟨.rl, o⟩) 6 (fun a n => a / 2 ^ n)
      ∧ two (.vshf ⟨.ra, o⟩) 6 (fun a n => (sgn (tyBits ty) a / 2 ^ min n (tyBits ty) % 2 ^ tyBits ty).toNat))
    ∧ (isFloat ty = true →
      two (.vmax o) 8 (maxF ty true) ∧ two (.vmin o) 8 (maxF ty false)
      ∧ VApplies (.vabs ⟨ty, vd, va, m, nw⟩) s 8 4 [va] vd nw ty m (fun l => signTo ty (fun _ => false) (c l 0))
      ∧ VApplies (.vneg ⟨ty, vd, va, m, nw⟩) s 8 4 [va] vd nw ty m (fun l => signTo ty (fun b => !b) (c l 0)))
    ∧ VApplies (.vmov ⟨ty, vd, va, m, nw⟩) s 6 4 [va] vd nw ty m (fun l => c l 0)
    ∧ VApplies (.vbcst ⟨ty, vd, imm, m⟩) s 6 4 [] vd false ty m
        (fun _ => if ty = .i64 then (imm.signExtend 64).toNat else imm.toNat % 2 ^ tyBits ty)
    ∧ VApplies (.vrng ⟨vd, va, ti, seed, m, nw⟩) s 12 4 [va] vd nw .n32 m
        (fun l => jcgDraw s.myJob.seed.toNat s.core.rank seed.toNat s.myJob.stepNo.toNat ti.toNat (c l 0))

/-- What the instructions that select, convert, expand, permute and pack write to each element (05 R146 to R148, R154, R155, R158
to R163).
VDOT accumulates the aligned sum of its group's products into each f32 output, VRED writes one element and leaves every
other, VSCAN writes each active element's prefix (05 R150, R151; 04 R105 to R107). The sign of a zero prefix follows log entry 34. -/
def Obligations.VectorSelectionsAndSums : Prop :=
  (∀ (s : State),
     (∀ o : VB, o.ok anyTy = true → VWrites (.vsel o) s 6 4 [o.va, o.vb] o.vd o.nw o.ty (fun _ => true) (BitVec.allOnes 8192)
         fun xs e => elemOf o.ty (src xs (if active s o.m e then 0 else 1)) e)
     ∧ (∀ o : VBcstElemOps, (Instr.vbcstElem o).wf = true →
         VWrites (.vbcstElem o) s 6 4 [o.va] o.vd false o.ty (active s o.m) (maskOf s o.m)
           fun xs _ => elemOf o.ty (src xs 0) o.e.toNat)
     ∧ (∀ o : ViotaOps, o.vd.dstOk = true → VWrites (.viota o) s 6 4 [] o.vd false .i32 (active s o.m) (maskOf s o.m)
         fun _ e => o.start.toNat + e)
     ∧ (∀ o : VPermOps, (Instr.vperm o).wf = true →
         let n := min (elems o.o.ty) 1024
         let lo := o.part.toNat * n
         let on (e : Nat) : Bool := lo ≤ e && e < lo + n && active s o.o.m e
         VWrites (.vperm o) s 12 8 [o.o.va, o.o.vb] o.o.vd o.o.nw o.o.ty on (maskBits (elems o.o.ty) on) fun xs e =>
           let k := elemOf .n32 (src xs 1) (e - lo)
           if k < elems o.o.ty then elemOf o.o.ty (src xs 0) k else 0)
     ∧ (∀ o : VSlideOps, (Instr.vslide o).wf = true →
         VWrites (.vslide o) s 6 4 [o.o.va, o.o.vb] o.o.vd o.o.nw o.o.ty (active s o.o.m) (maskOf s o.o.m) fun xs e =>
           let n : Int := elems o.o.ty
           let k : Int := (e : Int) + o.imm.toInt
           if k < 0 then elemOf o.o.ty (src xs 1) (k + n).toNat
           else if k < n then elemOf o.o.ty (src xs 0) k.toNat else elemOf o.o.ty (src xs 1) (k - n).toNat)
     ∧ (∀ o : VXpndOps, (Instr.vxpnd o).wf = true →
         let n := elems o.ty
         let on (e : Nat) : Bool := active s o.m (e / 4 * 4)
         VWrites (.vxpnd o) s 8 4 [o.va] o.vd o.nw o.ty on (maskBits n on) fun xs e =>
           let j := o.half.toNat * (n / 2) + 2 * (e / 4)
           if fld (maskOf s o.ma) (2 * j + 2) 2 = e % 4 then elemOf o.ty (src xs 0) (j + 1)
           else if fld (maskOf s o.ma) (2 * j) 2 = e % 4 then elemOf o.ty (src xs 0) j else 0)
     ∧ (∀ o : MpopOps, o.vd.dstOk = true → VWrites (.mpop o) s 8 1 [] o.vd o.nw .i32 (· == 0) 1 fun _ _ =>
         (List.range 8192).countP fun e => bitOf (maskOf s o.ma &&& maskOf s o.m) e)
     ∧ (∀ o : VCvtOps, (Instr.vcvt o).wf = true →
         let n := min (elems o.d) (elems o.s)
         let lo := if tyBits o.d < tyBits o.s then o.part.toNat * n else 0
         let from' (e : Nat) : Nat := if tyBits o.d < tyBits o.s then e - lo
           else if tyBits o.s < tyBits o.d then o.part.toNat * n + e else e
         let on (e : Nat) : Bool := (lo ≤ e && e < lo + n) && active s o.m e
         VWrites (.vcvt o) s 8 4 [o.va] o.vd o.nw o.d on (maskBits (elems o.d) on) fun xs e =>
           convert o.d o.s (vmode o.rnd) o.sat (elemOf o.s (src xs 0) (from' e)))
     ∧ (∀ o : VCbOps, (Instr.vcbx o).wf = true →
         VWrites (.vcbx o) s 8 4 [o.va] o.vd o.nw .bf16 (active s o.m) (maskOf s o.m) fun xs e =>
           cbEntry s.myRank.cbs o.cb.toNat (elemOf .cb4 (src xs 0) (o.part.toNat * 2048 + e)))
     ∧ (∀ o : VCbOps, (Instr.vcbq o).wf = true →
         let t : ETy := if o.wide then .f32 else .bf16
         let n := elems t
         let lo := o.part.toNat * n
         let on (e : Nat) : Bool := lo ≤ e && e < lo + n && active s o.m e
         VWrites (.vcbq o) s 12 8 [o.va] o.vd o.nw .cb4 on (maskBits 8192 on) fun xs e =>
           cbNearest (cbEntry s.myRank.cbs o.cb.toNat) (decodeF t (elemOf t (src xs 0) (e - lo)))))
  ∧ (∀ (s : State),
     (∀ o : VDotOps, (Instr.vdot o).wf = true →
       let g := sumGroup o.t o.u
       let on (e : Nat) : Bool := e < 256 && active s o.m e
       let val (t : ETy) (cb : BitVec 4) (c : Nat) : XVal := decodeCb (cbEntry s.myRank.cbs cb.toNat) t c
       VWrites (.vdot o) s 12 4 [o.va, o.vb, o.vc] o.vd o.nw .f32 on (maskBits 1024 on) fun xs e =>
         accumulate (vmode o.rnd) (elemOf .f32 (src xs 2) e) (alignedSum g.2 ((List.range g.1).map fun j =>
           XVal.mul (val o.t o.cbA (elemOf o.t (src xs 0) (g.1 * e + j))) (val o.u o.cbB (elemOf o.u (src xs 1) (g.1 * e + j))))))
     ∧ (∀ o : VRedOps, (Instr.vred o).wf = true →
       let t := o.u.ty
       VWrites (.vred o) s 16 4 [o.u.va] o.u.vd o.u.nw t (· == 0) 1 fun xs _ =>
         let l := ((List.range (elems t)).filter (active s o.u.m)).map (elemOf t (src xs 0))
         match o.op, isFloat t with
         | .sum, true => roundTo t (vmode o.u.rnd) o.u.sat (alignedSum 100 (l.map (decodeF t)))
         | .sum, false => narrowI t o.u.sat ((l.map (intOf t)).sum)
         | op, _ => redOp op t (vmode o.u.rnd) o.u.sat l)
     ∧ (∀ o : VUr, (Instr.vscan o).wf = true →
       VWrites (.vscan o) s 20 4 [o.va] o.vd o.nw o.ty (active s o.m) (maskOf s o.m) fun xs e =>
         (((scanOp o.ty (vmode o.rnd) o.sat
           ((List.range (elems o.ty)).map fun i => (active s o.m i, elemOf o.ty (src xs 0) i)))[e]?.join).getD 0)))

/-- Compares and classes write one bit for each active element below N(t), and MLOG combines masks under a mask, each other bit
staying as it is; VCMPRS writes into half h of its destination the two codes of each group of four that rank first by magnitude, in
ascending order of index, and those indices into half h of the mask register, and leaves the rest of both (05 R152, R154, R155, R162). -/
def Obligations.VectorMasks : Prop :=
  ∀ (s : State),
    let bits (i : Instr) (ty : ETy) (md m : BitVec 4) (srcs : List VOp) (f : List VWord → Nat → Bool) : Prop :=
      ∀ xs u, VReads s srcs xs u → Runs i s fun t => ∃ r on, MPuts 4 6 md r on u t
        ∧ ∀ e < 8192, bitOf on e = (decide (e < elems ty) && active s m e)
            ∧ bitOf r e = if bitOf on e = true then f xs e else bitOf (s.core.m[md.toNat]?.getD 0) e
    (∀ o : VCmpOps, (Instr.vcmp o).wf = true → bits (.vcmp o) o.ty o.md o.m [o.va, o.vb] fun xs e =>
        let a := elemOf o.ty (src xs 0) e
        let b := elemOf o.ty (src xs 1) e
        if isFloat o.ty then condF o.cond (decodeF o.ty a) (decodeF o.ty b) else condI o.cond (intOf o.ty a) (intOf o.ty b))
    ∧ (∀ o : VClsOps, (Instr.vcls o).wf = true → bits (.vcls o) o.ty o.md o.m [o.va] fun xs e =>
        bitOf o.classes (classOf o.ty (elemOf o.ty (src xs 0) e)))
    ∧ (∀ o : MlogOps, (Instr.mlog o).wf = true → Runs (.mlog o) s fun t => ∃ r, MPuts 1 2 o.md r (maskOf s o.m) s t
        ∧ ∀ e < 8192, bitOf r e =
          if active s o.m e then
            (match o.op with
              | .and => active s o.ma e && active s o.mb e
              | .or => active s o.ma e || active s o.mb e
              | .xor => active s o.ma e != active s o.mb e
              | .andn => active s o.ma e && !active s o.mb e)
          else bitOf (s.core.m[o.md.toNat]?.getD 0) e)
    ∧ (∀ o : VCmprsOps, (Instr.vcmprs o).wf = true → ∀ xs u, VReads s [o.va] xs u → sqFull s false o.vd = false →
        let n := elems o.ty
        let lo := o.half.toNat * (n / 2)
        let code (k : Nat) : Nat := elemOf o.ty (src xs 0) k
        let kept (g : Nat) : Nat × Nat := keep2 o.ty [code (4 * g), code (4 * g + 1), code (4 * g + 2), code (4 * g + 3)]
        Runs (.vcmprs o) s fun t => ∃ res md on onm,
          VPuts o.ty 10 4 o.vd false res (BitVec.allOnes 8192) u
            { t with core := { t.core with m := u.core.m, pend := u.core.pend ++ (if u.core.x = false then [] else [⟨match o.vd with
                | .v d => .v d.toNat res (laneMask o.ty (BitVec.allOnes 8192))
                | _ => .none, u.now + 10, (entryHere .vec u).1⟩]) } }
          ∧ (∀ j < 16, t.core.m[j]? = if j = o.md.toNat ∧ u.core.x = false then some md else u.core.m[j]?)
          ∧ t.core.pend = u.core.pend ++ (if u.core.x = false then [] else
              [⟨match o.vd with
                | .v d => .v d.toNat res (laneMask o.ty on)
                | _ => .none, u.now + 10, (entryHere .vec u).1⟩, ⟨.m o.md.toNat md onm, u.now + 10, (entryHere .vec u).1⟩])
          ∧ (∀ e < n, bitOf on e = decide (lo ≤ e ∧ e < lo + n / 2)
              ∧ elemOf o.ty res e = if bitOf on e = true then
                  (if (e - lo) % 2 = 0 then code (4 * ((e - lo) / 2) + (kept ((e - lo) / 2)).1)
                   else code (4 * ((e - lo) / 2) + (kept ((e - lo) / 2)).2))
                else elemOf o.ty (vold s o.vd) e)
          ∧ (∀ g < n / 4, fld md (2 * lo + 4 * g) 2 = (kept g).1 ∧ fld md (2 * lo + 4 * g + 2) 2 = (kept g).2)
          ∧ ∀ b < 8192, bitOf onm b = decide (2 * lo ≤ b ∧ b < 2 * lo + n)
              ∧ (bitOf onm b = false → bitOf md b = bitOf (s.core.m[o.md.toNat]?.getD 0) b))

/-- VATOM adds to, or takes the smaller or larger of, each active element and the scratchpad word its offset names, every address
checked before any element performs; the first element that fails raises its cause with nothing done. VBRM branches on an empty or a
nonempty mask; VSUSP ends VEC's work (05 R165, R166). That the first failing element in ascending order is reported, and that its
misalignment comes before a hole, is the model's (log entries 31, 53). -/
def Obligations.VectorAtomicsAndControl : Prop :=
  ∀ (s : State),
    (∀ (o : VAtomOps) (xs : List VWord) (u : State), VReads s [o.va, o.vb] xs u →
      let els := (List.range 1024).filter (active s o.m)
      let off (e : Nat) : Nat := elemOf .n32 (src xs 0) e
      let val (e : Nat) : Nat := elemOf .i32 (src xs 1) e
      let key (e : Nat) : Nat := spadKey s.core.job s.core.rank (off e)
      let fine (e : Nat) : Prop := off e % 4 = 0 ∧ ∃ k, regionOf s.myJob.width s.myJob.v (spadLo + off e) 4 = .ok (.spad k)
      let op (v x : Nat) : Nat := match o.op with
        | .add => (v + x) % 2 ^ 32
        | .min => if sgn 32 v ≤ sgn 32 x then v else x
        | .max => if sgn 32 v ≤ sgn 32 x then x else v
      (∀ e ∈ els, (∀ e' ∈ els, e' < e → fine e') →
        (off e % 4 ≠ 0 → exec (.vatom o) s = .next (takeTrap .vec ⟨.memAlign, spadLo + off e, none⟩ 0 s))
        ∧ (∀ c, off e % 4 = 0 → regionOf s.myJob.width s.myJob.v (spadLo + off e) 4 = .error c →
            exec (.vatom o) s = .next (takeTrap .vec ⟨c, spadLo + off e, none⟩ 0 s)))
      ∧ ((∀ e ∈ els, fine e) → gated s .vec = false →
          (∀ e ∈ els, s.poison.contains (key e / 64) = false ∧ noKey s (key e) = false) →
          Runs (.vatom o) s fun t =>
            GoesOn .vec 2 (4 * max 1 (bankLoad (els.map off))) u t ∧ NoResult .vec u t ∧ OnlyStore .vec u t
            ∧ (∀ e ∈ els, leVal (t.bytes (key e) 4)
                = ((els.filter fun e' => off e' == off e).map val).foldl op (leVal (s.bytes (key e) 4)))
            ∧ ∀ a, (∀ e ∈ els, ¬ (key e ≤ a ∧ a < key e + 4)) → t.byte a = s.byte a))
    ∧ (∀ (nn : Bool) (m : BitVec 4) (off : BitVec 16),
        if (maskOf s m == 0) == nn then
          Runs (.vbrm nn m off) s fun t => JumpsTo .vec (s.core.vec.line + off.signExtend 47) 1 s t ∧ OnlyPlace .vec s t
        else Runs (.vbrm nn m off) s fun t => GoesOn .vec 2 1 s t ∧ OnlyPlace .vec s t)
    ∧ (Runs .vsusp s fun t => t.core.vec = { s.core.vec with run := false, lane := min 8 (s.core.vec.lane + 2),
                                                             ready := s.now + 1, point := false, stall := false, cap := {}, last := s.now,
                                                             count := s.core.vec.count + 1 }
        ∧ OnlyPlace .vec s t)

/-! ## MOV: commands, batches, queries (09 R264, R265, R273, R274, R278 to R289) -/

/-- A command of MOV whose operands are read, with a ring bound, its checks passed, and nothing to wait for or to overlap, is
accepted, with its operands captured; COPYO tags its slot, FCOL counts on its group and holds the members of its issue, FATM.det files its request. What a command overlaps
is judged by the model's footprints (log entries 18, 32, 33). -/
def Obligations.MovCommandsAccepted : Prop :=
  ∀ (s : State), (∃ d, s.core.rings[s.core.curRing]? = some (some d)) → (∀ x ∈ s.core.cmds, x.seq ≠ s.core.seqCtr) →
    let rd {w : Nat} (n : BitVec w) (x : Word) : Prop := readSrc s .mov (.r (n.setWidth 6)) = .val x
    let arr (a : Option (BitVec 4)) (v : Option Nat) : Prop :=
      match a, v with
      | none, none => True
      | some r, some x => localWord s x = none ∧ ∃ w, rd r w ∧ w.toNat = x
      | _, _ => False
    let done (i : Instr) (n : Nat) (k : Toks) (op : CmdOp) : Prop :=
      MayAccept .mov s k → Runs i s fun t => Accepted .mov n k op .waiting s t
    let ti (n : BitVec 8) : Desc := s.myRank.tensor n.toNat
    (∀ (o : CopyOps) (cd cs : Word) (av : Option Nat), rd o.dcD cd → rd o.dcS cs → arr o.arrive av →
      (ti o.tiS).vld = true → (ti o.tiD).vld = true → (ti o.tiS).ty = (ti o.tiD).ty → (ti o.tiS).tileR = (ti o.tiD).tileR →
      (ti o.tiS).tileC = (ti o.tiD).tileC → tilesShare (ti o.tiD) cd (ti o.tiS) cs = false →
      done (.copy o) 2 o.t (.copy (ti o.tiD) (ti o.tiS) cd cs av))
    ∧ (∀ (o : CopysOps) (cd src : Word) (av : Option Nat), rd o.dcD cd → rd o.src src → arr o.arrive av →
      (ti o.tiD).vld = true → (ti o.tiD).tileC ≤ 64 → src.toNat % 8 = 0 →
      rangeCheck s src.toNat 8 .read = none →
      tileMeets (ti o.tiD) cd src.toNat (src.toNat + imageBytes s (ti o.tiD) src.toNat - 1 : Nat) = false →
      done (.copys o) 2 o.t (.copys (ti o.tiD) cd src.toNat av))
    ∧ (∀ (o : CopyoOps) (cs : Word) (av : Option Nat) (d : Desc), rd o.dcS cs → arr o.arrive av →
      tensorArg s o.tiS.toNat = .ok d → slotTy d.ty = true → d.tileR ≤ 64 → d.tileC * tyBits d.ty ≤ 2048 →
      (slotAt s o.os.toNat).st = .claimed → (slotAt s o.os.toNat).rel = false →
      MayAccept .mov s o.t → Runs (.copyo o) s fun t => Accepted .mov 2 o.t (.copyo o.os.toNat d cs av) .waiting s t
        ∧ ∀ i < 32, slotAt t i = if i = o.os.toNat then
            { slotAt s i with ty := d.ty, cb := d.cb, scale := d.scale, klen := d.tileC } else slotAt s i)
    ∧ (∀ (o : XferOps) (dst src len flag : Word), rd o.dst dst → rd o.src src → rd o.len len → rd o.flag flag →
      (xferCheck s true dst.toNat src.toNat len.toNat flag.toNat = none →
        done (.fst o) 2 o.t (.fst dst.toNat src.toNat len.toNat flag.toNat))
      ∧ (xferCheck s false dst.toNat src.toNat len.toNat flag.toNat = none →
        done (.fld o) 2 o.t (.fld dst.toNat src.toNat len.toNat flag.toNat)))
    ∧ (∀ (o : FatmOps) (addr val res : Word), rd o.addr addr → rd o.val val → rd o.res res →
      fatmCheck s o addr.toNat res.toNat = none →
      (o.det = false → done (.fatm o) 2 o.t (.fatm o.op false addr.toNat val res.toNat))
      ∧ (o.det = true → (∃ u, fatmRequest o addr val res s = .ok u) →
        MayAccept .mov s o.t → Runs (.fatm o) s fun t =>
          Accepted .mov 2 o.t (.fatm o.op true addr.toNat val res.toNat) .waiting s t ∧ t.core.detM = s.core.detM + 1))
    ∧ (∀ o : FcolOps, fcolCheck s o = none → MayAccept .mov s o.t →
      Runs (.fcol o) s fun t =>
        let memb : List Nat := match s.myJob.group? o.g.toNat with
          | some gr => gr.openMemb s.core.rank
          | none => []
        Accepted .mov 2 o.t (.fcol o.op o.red o.g.toNat (fcolCount s.myRank o.g.toNat) (ti o.tiD) (ti o.tiS) memb) .waiting s t
        ∧ ∀ k ∈ t.ranks, k.job = s.core.job → k.rank = s.core.rank → ∃ k0 ∈ s.ranks,
            k0.job = k.job ∧ k0.rank = k.rank ∧ ∀ g,
              fcolCount k g = if g = o.g.toNat then fcolCount k0 g + 1 else fcolCount k0 g)
    ∧ (∀ (p c m : Src) (peer n least : Word), readSrc s .mov p = .val peer → readSrc s .mov c = .val n →
      readSrc s .mov m = .val least →
      (peer.toNat < s.myJob.v → peer.toNat ≠ s.core.rank → least ≠ 0 → least.toNat ≤ n.toNat → n.toNat ≤ 2047 →
        done (.bwls p c m) 1 noToks (.bwls peer.toNat n.toNat least.toNat))
      ∧ (peer.toNat < s.myJob.v → done (.bwrl p c) 1 noToks (.bwrl peer.toNat n.toNat))
      ∧ (s.myJob.v ≤ peer.toNat → Raises .mov (.bwls p c m) s .fabRank ∧ Raises .mov (.bwrl p c) s .fabRank))
    ∧ (∀ (a : Src) (x : Word) (g : BitVec 8), readSrc s .mov a = .val x →
      (s.core.rank = 0 → x.toNat % 64 = 0 →
        done (.bwsl a) 1 noToks (.bwsl x.toNat) ∧ done (.grped g a) 1 noToks (.grped g.toNat x.toNat))
      ∧ (s.core.rank ≠ 0 → Raises .mov (.bwsl a) s .jobCtl ∧ Raises .mov (.grped g a) s .jobCtl)
      ∧ (s.core.rank = 0 → x.toNat % 64 ≠ 0 → exec (.bwsl a) s = .next (takeTrap .mov ⟨.memAlign, x.toNat % 2 ^ 52, none⟩ 0 s)))

/-- BATCH closes the open batch; SUSPB closes it and goes to its target once no more than n batches are outstanding; DSUSP
closes it and ends MOV's program; closing an empty batch creates nothing (09 R273, R274, R289).
RNKQ gives the rank, the number of ranks, RANK_WIDTH, how many groups hold the rank, STEP_NO, a group's generation and
member count, the rank's place in it, and its completed phases (09 R288). -/
def Obligations.BatchesAndRankQueries : Prop :=
  (∀ (s : State),
     let all : List (List W32) := if s.core.openB = [] then s.core.batches else s.core.batches ++ [s.core.openB]
     let closed (t : State) : Prop :=
       t = { s with core := { s.core with mov := t.core.mov, openB := [], batches := all } }
     (Runs .batch s fun t => closed t ∧ GoesOn .mov 1 1 s t)
     ∧ (Runs .dsusp s fun t => closed t ∧ t.core.mov =
         { s.core.mov with run := false, lane := min 8 (s.core.mov.lane + 1), ready := s.now + 1, point := false, stall := false, cap := {}, last := s.now,
                           count := s.core.mov.count + 1 })
     ∧ ∀ (n : BitVec 6) (off : BitVec 15),
         (all.length ≤ n.toNat → Runs (.suspb n off) s fun t =>
           closed t ∧ JumpsTo .mov (s.core.mov.line + off.signExtend 47) 1 s t)
         ∧ (n.toNat < all.length →
           ∃ on, exec (.suspb n off) s = .next (waiting .mov on { s with core := { s.core with openB := [], batches := all } })))
  ∧ (∀ (s : State) (nw : Bool) (d : BitVec 6) (g : BitVec 8), d.toNat < 32 → DstFree s .mov nw d →
     let gives (f : RnkSel) (g : BitVec 8) (x : Word) : Prop := Gives .mov (.rnkq nw d f g) s 4 1 nw d x
     gives .rank 0 (BitVec.ofNat 64 s.core.rank) ∧ gives .nranks 0 (BitVec.ofNat 64 s.myJob.v)
     ∧ gives .width 0 (BitVec.ofNat 64 s.myJob.width)
     ∧ gives .ngroups 0 (BitVec.ofNat 64 (s.myJob.groups.countP fun x => x.memb.contains s.core.rank))
     ∧ gives .step 0 (s.myJob.stepNo.setWidth 64)
     ∧ ∀ gr, s.myJob.group? g.toNat = some gr →
         gives .gmemb g (BitVec.ofNat 64 (gr.gen * 2 ^ 32 + gr.memb.length)) ∧ gives .gphase g (BitVec.ofNat 64 gr.phase)
         ∧ (∀ i, gr.memb[i]? = some s.core.rank → (∀ k < i, gr.memb[k]? ≠ some s.core.rank) → gives .gpos g (BitVec.ofNat 64 i))
         ∧ (s.core.rank ∉ gr.memb → gives .gpos g (BitVec.allOnes 64)))

/-! ## DRN (06 R188 to R192) -/

/-- The micro-ops that compute a temporary from temporaries (06 R189; 04 R117): each rounds once to f32 in its mode, or chooses or
compares as R189 says; it writes td and nothing else, but that LEXP, LRCP and LTANH may delay their element by up to 96 cycles (04 R119).
The micro-ops that use the element's place and the binding: draws, row statistics, side operands and index loads; a binding
tensor that is ti255 or invalid halts the head drain (04 R120; 06 R189 to R191).
LST and LSTS collect the element's stores, each through the tensor's rounding and only inside it, raise ENC_RSV for a rounding or
saturation of cb4 codes, LSTS at the last element
of a row; LEND performs them in order and the drain goes on to the next element (06 R188, R191, R192). -/
def Obligations.MicroOpResults : Prop :=
  (∀ (s : State) (td ta tb tc : BitVec 3) (r : Rnd),
     let code (i : BitVec 3) : Nat := (s.core.t[i.toNat]?.getD 0).toNat
     let v (i : BitVec 3) : XVal := decodeF .f32 (code i)
     let md := rndMode .rne r
     let sets (i : Instr) (x : Nat) : Prop :=
       exec i s = .next { s with core := { s.core with drnPc := s.core.drnPc + 1,
                                                       t := s.core.t.setIfInBounds td.toNat (BitVec.ofNat 32 x) } }
     let slow (i : Instr) (x : Nat) : Prop := ∃ k ≤ 96,
       exec i s = .next { s with core := { s.core with drnPc := s.core.drnPc + 1, drnSlow := s.core.drnSlow + k
                                                       t := s.core.t.setIfInBounds td.toNat (BitVec.ofNat 32 x) } }
     let rounds (i : Instr) (x : XVal) : Prop := sets i (roundTo .f32 md false x)
     rounds (.ladd td ta tb r) (XVal.addM md (v ta) (v tb)) ∧ rounds (.lmul td ta tb r) ((v ta).mul (v tb))
     ∧ rounds (.lfma td ta tb tc r) (XVal.addM md ((v ta).mul (v tb)) (v tc))
     ∧ slow (.lrcp td ta r) (roundTo .f32 md false (XVal.div (.fin false 1 0) (v ta)))
     ∧ slow (.lexp td ta r) (fnRound .exp .f32 md false (v ta) (code ta))
     ∧ slow (.ltanh td ta r) (fnRound .tanh .f32 md false (v ta) (code ta))
     ∧ sets (.lmax td ta tb) (maxF .f32 true (code ta) (code tb)) ∧ sets (.lmin td ta tb) (maxF .f32 false (code ta) (code tb))
     ∧ sets (.lsel td ta tb tc) (if code tc % 2 ^ 31 = 0 then code tb else code ta)
     ∧ (∀ c, sets (.lcmp c td ta tb) (if condF c (v ta) (v tb) then 0x3F800000 else 0))
     ∧ (∀ ty sat, sets (.lcvt td ta ty r sat) (roundTo .f32 .rne false (decodeF ty (roundTo ty md sat (v ta))))))
  ∧ (∀ (s : State) (td ta tb : BitVec 3) (k : BitVec 8) (r : Rnd),
     let code (i : BitVec 3) : Nat := (s.core.t[i.toNat]?.getD 0).toNat
     let on (u : State) (i : Instr) (f : Core → Core) : Prop :=
       exec i s = .next { u with core := f { u.core with drnPc := u.core.drnPc + 1 } }
     let sets (u : State) (i : Instr) (x : Nat) : Prop :=
       on u i fun c => { c with t := c.t.setIfInBounds td.toNat (BitVec.ofNat 32 x) }
     let halts (i : Instr) (c : Cause) : Prop :=
       exec i s = .next ((haltDrain ⟨c, 0, none⟩ s).modCore fun k => { k with drnRun := false })
     let m := drainM s
     let n := drainN s
     let flat (d : Desc) : Nat := ((m * (d.dim 0 : Int) + n) % 2 ^ 32).toNat
     let draw (d : Desc) : Nat := jcgDraw s.myJob.seed.toNat s.core.rank k.toNat s.myJob.stepNo.toNat (bindNum s 0) (flat d)
     (bindNum s 0 ≠ 255 → (bindDesc s 0).vld = true →
       sets s (.lrng td k) (roundTo .f32 .rne false (drawVal (draw (bindDesc s 0))))
       ∧ sets s (.ldrp td ta tb k r)
           (if dropKeep (draw (bindDesc s 0)) (fld (curDrain s).nest 1344 25) then
             roundTo .f32 (rndMode .rne r) false ((decodeF .f32 (code ta)).mul (decodeF .f32 (code tb))) else 0))
     ∧ (bindNum s 0 = 255 → halts (.lrng td k) .tiReserved ∧ halts (.ldrp td ta tb k r) .tiReserved)
     ∧ (bindNum s 0 ≠ 255 → (bindDesc s 0).vld = false → halts (.lrng td k) .tiInvalid ∧ halts (.ldrp td ta tb k r) .tiInvalid)
     ∧ on s (.lrmx ta) (fun c => { c with rmax := BitVec.ofNat 32 (maxF .f32 true c.rmax.toNat (code ta)) })
     ∧ on s (.lrsm ta) (fun c => { c with terms := c.terms ++ [s.core.t[ta.toNat]?.getD 0] })
     ∧ sets s (.lidx td .row) (roundTo .f32 .rne false (XVal.ofInt m))
     ∧ sets s (.lidx td .col) (roundTo .f32 .rne false (XVal.ofInt n))
     ∧ sets s (.lidx td .diag) (roundTo .f32 .rne false (XVal.ofInt (n - m)))
     ∧ sets s (.lidx td .flat) (roundTo .f32 .rne false (XVal.ofInt (flat (bindDesc s 0))))
     ∧ (∀ k : BitVec 2, sets s (.lsid td .const 0 k)
         (roundTo .f32 .rne false (decodeF .f32 (fld (curDrain s).nest (1408 + 32 * k.toNat) 32))))
     ∧ (∀ (ds : BitVec 1) (p : SidSel × Int × Int), p ∈ [(.row, m, 0), (.col, n, 0), (.elem, n, m)] →
         let i := 1 + ds.toNat
         let d := bindDesc s i
         (bindNum s i ≠ 255 → d.vld = true → ∀ u c, readTensor s (drnReq s) d p.2.1 p.2.2 0 0 = .ok (u, c) →
           sets u (.lsid td p.1 ds 0) (roundTo .f32 .rne false (d.value (bindCbs s) c)))
         ∧ (bindNum s i = 255 → halts (.lsid td p.1 ds 0) .tiReserved)
         ∧ (bindNum s i ≠ 255 → d.vld = false → halts (.lsid td p.1 ds 0) .tiInvalid)))
  ∧ (∀ (s : State) (ta k : BitVec 3) (r : Rnd) (sat : Bool),
     let code : Nat := (s.core.t[ta.toNat]?.getD 0).toNat
     let next (l : List DStore) : Host.Outcome State Fault Refusal :=
       .next { s with core := { s.core with drnPc := s.core.drnPc + 1, drnStores := s.core.drnStores ++ l } }
     let one (out : Bool) (d : Desc) (i0 i1 i2 : Int) (x : Nat) : List DStore :=
       if d.inside i0 i1 i2 0 then
         let a := elemAddr d.ty d.base (d.offset i0 i1 i2 0)
         [⟨out, a.1, a.2, d.code (bindCbs s) r sat (decodeF .f32 x)⟩]
       else []
     let row (src : StsSel) : Nat := match src with
       | .max => s.core.rmax.toNat
       | .sum => roundTo .f32 .rne false (alignedSum 100 (s.core.terms.map fun w => decodeF .f32 w.toNat))
       | .val => code
     let halts (i : Instr) (c : Cause) : Prop :=
       exec i s = .next ((haltDrain ⟨c, 0, none⟩ s).modCore fun k => { k with drnRun := false })
     let clean (d : Desc) : Prop := d.ty = .cb4 → r = .dflt ∧ sat = false
     (bindNum s 0 ≠ 255 → (bindDesc s 0).vld = true → clean (bindDesc s 0) →
       exec (.lst ta r sat) s = next (one true (bindDesc s 0) (drainN s) (drainM s) 0 code))
     ∧ (∀ src, s.core.drnElem % 64 ≠ 63 → exec (.lsts src ta k r sat) s = next [])
     ∧ (bindNum s 0 ≠ 255 → (bindDesc s 0).vld = true → ¬ clean (bindDesc s 0) → halts (.lst ta r sat) .encRsv)
     ∧ (∀ src, s.core.drnElem % 64 = 63 → bindNum s 3 ≠ 255 → (bindDesc s 3).vld = true → ¬ clean (bindDesc s 3) →
       halts (.lsts src ta k r sat) .encRsv)
     ∧ (∀ src, s.core.drnElem % 64 = 63 → bindNum s 3 ≠ 255 → (bindDesc s 3).vld = true → clean (bindDesc s 3) →
       exec (.lsts src ta k r sat) s =
         next (one false (bindDesc s 3) (k.toNat : Int) (drainM s) ((curDrain s).n0.fdiv 64) (row src)))
     ∧ (∀ (u : State) (d : Drain) (ds : List Drain), putStores s.core.drnStores s = .ok u → u.core.drnRun = true →
         u.core.drains = d :: ds →
       Runs .lend s fun t =>
         t = { u with core := { u.core with drnPc := u.core.drnPc + 1, drnStores := [], drnRun := false, drains := t.core.drains,
                                            held := t.core.held, drnReady := t.core.drnReady } }
         ∧ (d.e + 1 < 4096 → t.core.held = u.core.held ∧ ∃ c0 c1, t.core.drains =
             { d with e := d.e + 1, rmax := u.core.rmax, terms := u.core.terms, cur0 := c0, cur1 := c1 } :: ds)
         ∧ (4096 ≤ d.e + 1 → (∀ i < 16, t.core.held.getLsbD i = (decide (i ≠ d.acc) && u.core.held.getLsbD i))
             ∧ t.core.drains.map (fun x => { x with cur0 := 0, cur1 := 0 }) = ds.map (fun x => { x with cur0 := 0, cur1 := 0 }))))

/-! ## Steps inside a core (01 R21 to R25; 02 R37, R40, R49, R56; 07 R198, R203, R204, R222; 13 R365, R370; 15 R405 to R408) -/

/-- LINE_ADVANCE, with no lane of the sequencer left in its line: where the innermost entries that end here are used up they go, and
the next line follows; where one still counts, it counts down and its first line follows; a line held back for an empty loop goes
past its body; in the user completion handler nothing counts (02 R37, R40; 08 R259). MODE_CROSSING waits for the core to rest, then turns the
mode over, 8 cycles later, with latches, queues and results in flight empty (02 R56). INSTRUCTION_CACHE_MISS caches the line that
memory holds (01 R23). RESULT_WRITEBACK writes each result that is due, in
order of completion and those of one cycle in program order, of a vector or mask register the bits written (02 R49). Fetches are log entry
8's. -/
def Obligations.LinesAreWalked : Prop :=
  ∀ (s : State),
    (∀ (q : Seqr) (ws : List W32), (s.core.seq q).run = true → cachedLine s (s.core.seq q).line = some ws →
      let x := s.core.seq q
      (∀ i, x.lane ≤ i → i ≤ 7 → tagBad (ws[0]?.getD 0) i = false ∧ tagOf (ws[0]?.getD 0) i ≠ seqTag q) →
      let place (line : BitVec 47) (l : List LoopEnt) : SeqSt :=
        { x with line := line, lane := 1, entered := false, skip := none, loops := l }
      let goes (y : SeqSt) : Prop := exec (.lineAdvance q) s = .next { s with core := s.core.setSeq q { y with last := s.now } }
      (∀ t, x.skip = some t → goes (place t x.loops))
      ∧ (x.skip = none → q = .ctl → s.core.uh = true → goes (place (x.line + 1) x.loops))
      ∧ (x.skip = none → ¬ (q = .ctl ∧ s.core.uh = true) → ∀ used rest, x.loops = used ++ rest →
          (∀ e ∈ used, e.last = x.line ∧ e.count.toNat ≤ 1) →
          ((∀ e es, rest = e :: es → e.last ≠ x.line) → goes (place (x.line + 1) rest))
          ∧ (∀ e es, rest = e :: es → e.last = x.line → 1 < e.count.toNat →
              goes { place e.first ({ e with count := e.count - 1 } :: es) with point := true })))
    ∧ (s.core.ctl.run = true →
        (AtRest s → s.core.cmds = [] → Runs .modeCrossing s fun t =>
          t.core.x = !s.core.x ∧ t.core.ctl = { s.core.ctl with ready := s.now + 8 } ∧ t.core.pend = []
          ∧ t.core.latC = [] ∧ t.core.latA = [] ∧ t.core.latV = [] ∧ t.core.latM = []
          ∧ (∀ p ∈ t.core.strm.toList, p.st = .idle) ∧ (∀ l ∈ t.core.lq.toList, l = []) ∧ SameMemory s t)
        ∧ (let idleNow : Prop := s.core.acs.run = false ∧ s.core.vec.run = false ∧ s.core.mov.run = false ∧ ∀ l ∈ s.core.sq.toList, l = []
           (¬ idleNow → exec .modeCrossing s = .next (nextCycle .ctl s))
           ∧ (idleNow → s.core.cmds ≠ [] ∨ s.core.accq ≠ [] → exec .modeCrossing s = .next (nextCycle .ctl (cancelStreams s)))))
    ∧ (∀ (q : Seqr) (u : State) (ws : List W32), (s.core.seq q).run = true → cachedLine s (s.core.seq q).line = none →
        wayOpen s (s.req 1) ((s.core.seq q).line.toNat * 32) 32 = true → fetchLine (s.core.seq q).line s = .ok (u, ws) →
        let w : State := { u with core := { u.core with icache :=
          ⟨u.myRank.asid, u.myRank.gen, (s.core.seq q).line, ws⟩ :: u.core.icache.take (Config.icacheLines - 1) } }
        exec (.instructionCacheMiss q) s = .next (if u.core.x then freeze w else w))
    ∧ (Runs .resultWriteback s fun t =>
        let due := byDue (s.core.pend.filter (s.core.ripe s.now))
        let all {α : Type} (f : Dst → Option α) : List α := due.filterMap fun p => f p.dst
        let last (old : Word) (f : Dst → Option Word) : Word := (all f).getLast?.getD old
        let fill {w : Nat} (old : BitVec w) (l : List (BitVec w × BitVec w)) : BitVec w :=
          l.foldl (fun o (p : BitVec w × BitVec w) => (o &&& ~~~p.2) ||| (p.1 &&& p.2)) old
        t.core.pend = s.core.pend.filter (fun p => !s.core.ripe s.now p)
        ∧ (∀ n, n < 56 ∨ (64 ≤ n ∧ n < 112) → t.core.getS n =
            (if n = 0 ∨ n = 64 then (0 : Word) else last (s.core.getS n) fun | .s k x => if k = n then some x else none | _ => none))
        ∧ (∀ n < 32, t.core.getReg .acs n = last (s.core.getReg .acs n) fun | .a k x => if k = n then some x else none | _ => none)
        ∧ (∀ n < 32, t.core.getReg .mov n = last (s.core.getReg .mov n) fun | .d k x => if k = n then some x else none | _ => none)
        ∧ (∀ n < 192, t.core.v[n]?.getD 0 = fill (s.core.v[n]?.getD 0)
            (all fun | .v k x on => if k = n then some (x, on) else none | _ => none))
        ∧ (∀ n < 16, t.core.m[n]?.getD 0 = fill (s.core.m[n]?.getD 0)
            (all fun | .m k x on => if k = n then some (x, on) else none | _ => none))
        ∧ (∀ n < 16, strmAt t n = if (strmAt s n).st = .idle then
            { strmAt s n with image := ((all fun | .p k x => if k = n then some x else none | _ => none).getLast?).getD (strmAt s n).image }
            else strmAt s n)
        ∧ t = { s with core := { s.core with pend := t.core.pend, s := t.core.s, shadow := t.core.shadow, sysS := t.core.sysS,
                                             a := t.core.a, d := t.core.d, v := t.core.v, m := t.core.m, strm := t.core.strm } })

/-- The oldest access of a sequencer that nothing holds back performs: it leaves the accesses in flight, and a value it returns
reaches the register and the latch that wait for it; one that faults is marked and traps at TRAP_ENTRY, its cause, address and PC
in the frame, with what has not performed, and what was to be issued again, to be replayed (07 R198, R203, R204, R222; 13 R365; 15 R405 to R408, R412). When an access
performs is log entry 6's. -/
def Obligations.AccessesPerform : Prop :=
  ∀ (s : State) (q : Seqr) (a : Acc), (q = .ctl ∨ q = .mov) → s.core.accq.find? (fun b => b.q == q) = some a →
    let may (u : State) : Bool := mayGo u (u.req (accClient q)) (a.op.fab a.size) a.addr a.size
    let sent (u : State) : State := unqueue u (u.req (accClient q)) (a.op.fab a.size) a.addr a.size
    (a.flt = false → gated s q = false → may s = true →
      let performs (i : Instr) (op : Except Flt (State × Option Word)) (u0 : State) : Prop :=
        (∀ u, op = .ok (u, none) → exec i s = .next { u with core := { u.core with accq := u.core.accq.filter fun b => b.id != a.id } })
        ∧ (∀ u x d nw, op = .ok (u, some x) → a.op.dest = some (d, nw) → d < (if q = .ctl then 56 else 32) →
            Runs i s fun t => t.core.accq = u.core.accq.filter (fun b => b.id != a.id)
              ∧ t.core.lat q = (u.core.lat q).map (fun l => if l.owed = a.id then ⟨x, 0, 0⟩ else l)
              ∧ (∀ j, t.core.getReg q j = if j = d ∧ nw = false ∧ discards q j = false then x else u.core.getReg q j)
              ∧ SameMemory u t)
        ∧ (∀ f, op = .error f → exec i s = .next { u0 with core := { u0.core with
            accq := u0.core.accq.map fun b => if b.id = a.id then { b with flt := true } else b } })
      performs (.memoryAccessPerform q) (performOp (sent s) (s.req (accClient q)) a.op a.addr a.size) s
      ∧ (inSpad a.addr = true →
          performs (.scratchpadAccessComplete q) (performOp (sent s) (s.req (accClient q)) a.op a.addr a.size) s)
      ∧ (∀ u : State, u = s.modCore (fun c => { c with tlb := c.tlb.filter fun e => e.asid != s.myRank.asid || e.gen == s.myRank.gen }) →
          may u = true → performs (.genStaleRetry q) (performOp (sent u) (u.req (accClient q)) a.op a.addr a.size) u))
    ∧ (accCheck s a.addr a.size = none →
        (∀ u p, locate s (s.req (accClient q)) a.addr a.size a.op.kind = .ok (u, p) → exec (.translationWalk q) s = .next u)
        ∧ (∀ f, locate s (s.req (accClient q)) a.addr a.size a.op.kind = .error f →
            exec (.translationWalk q) s = .next { s with core := { s.core with
              accq := s.core.accq.map fun b => if b.id = a.id then { b with flt := true } else b } }))
    ∧ (a.flt = true → (q = .ctl ∨ ∀ b, s.core.accq.find? (fun b => b.q == .ctl) = some b → b.flt = false) →
        (∀ f, performOp s (s.req (accClient a.q)) a.op a.addr a.size = .error f →
          actOf (actByte s s.core.job f.c) = .park ∨ actOf (actByte s s.core.job f.c) = .replay →
          Runs .trapEntry s fun t => ∃ tr : Trap, t.core.trap = some tr ∧ tr.cause = some f.c ∧ tr.agent = seqAgent q
            ∧ tr.fva = f.va ∧ tr.tag = seqTag q ∧ tr.pc.toNat = (a.line.toNat * 32 + 4 * a.lane) % 2 ^ 52 ∧ tr.pre = false ∧ tr.done = false
            ∧ tr.replay = byNum ((if replayable f.c then s.core.accq else s.core.accq.filter fun b => b.id != a.id) ++ againEntries s)
            ∧ tr.words = (if replayable f.c then none else some a)
            ∧ tr.ctl = atEntry .ctl s ∧ tr.acs = atEntry .acs s ∧ tr.vec = atEntry .vec s ∧ tr.mov = atEntry .mov s
            ∧ (∀ q, (t.core.seq q).run = false) ∧ t.core.accq = [])
        ∧ (∀ r, performOp s (s.req (accClient a.q)) a.op a.addr a.size = .ok r →
            exec .trapEntry s = .next { s with core := { s.core with
              accq := s.core.accq.map fun b => if b.id = a.id then { b with flt := false } else b } }))

/-! ## Streams, tasks, markers, barriers (05 R126 to R130; 07 R215; 08 R247 to R250; 10 R306; 13 R370; 15 R406) -/

/-- A load stream with room in its queue and nothing to wait for delivers an entry that holds the next EPE elements of its walk
in order, and goes on after them, or ends with its walk; a store stream writes what its head entry enables, in order, and the entry
leaves the queue; a stream that meets a fault halts with it (05 R126 to R130). The index values an entry needs are taken first, and no pin
of its pages is a 256th (13 R378); a line of poison may then be fetched again (03 R92). -/
def Obligations.StreamsMoveEntries : Prop :=
  ∀ (s : State) (p : BitVec 4),
    let x := strmAt s p.toNat
    let n := x.lin
    let need (m : Nat) : Nat := needIdx x (n + m)
    let goesTo (m : Nat) (t : State) : Prop :=
      if x.total ≤ n + m then (strmAt t p.toNat).st = .idle
      else (strmAt t p.toNat).st = .running ∧ (strmAt t p.toNat).lin = n + m
    (x.st = .running → gated s .acs = false → n < x.total → 0 < x.epe →
      (x.store = false → (s.core.lq[x.que]?.getD []).length < 8 → x.que < 8 → amarkHolds s x = false →
        let m := min x.epe (x.total - n)
        ∀ s1, gather p.toNat (need m) (need m) s = .ok s1 → hintFull p.toNat s1 (strmAt s1 p.toNat) n m = false →
        ∀ u cs, strmReadN (strmAt s1 p.toNat) m n s1 = .ok (u, cs) →
          Runs (.streamLoadEntryDeliver p) s fun t =>
            (∃ e : QEnt, t.core.lq[x.que]? = some (u.core.lq[x.que]?.getD [] ++ [e]) ∧ e.ty = x.ty ∧ e.epe = x.epe
              ∧ ∀ k c, cs[k]? = some c → (k + 1) * tyBits x.ty ≤ 32768 → elemOf x.ty e.data k = c % 2 ^ tyBits x.ty)
            ∧ SameMemory u t ∧ goesTo m t)
      ∧ (x.store = true → (x.imode = 2 → amarkHolds s x = false) →
          let m := min (x.epe - n % x.epe) (x.total - n)
          ∀ e es, s.core.sq[x.que]? = some (e :: es) →
          ∀ s1, gather p.toNat (need m) (need m) s = .ok s1 → hintFull p.toNat s1 (strmAt s1 p.toNat) n m = false →
          ∀ u, strmWriteN (strmAt s1 p.toNat) e m n (n % x.epe) s1 = (u, n + m, none) →
            Runs (.streamStoreEntryWrite p) s fun t => t.core.sq[x.que]? = some es ∧ SameMemory u t ∧ goesTo m t))
    ∧ (∀ f u, strmFault p.toNat s = some (f, u) → f.va < 2 ^ 52 →
        (actOf (actByte s s.core.job f.c) = .park ∨ actOf (actByte s s.core.job f.c) = .replay) →
        u.jobs = s.jobs → u.core.job = s.core.job →
        Runs (.streamFaultHalt p f.c (BitVec.ofNat 52 f.va)) s fun t => ∃ h : State,
          ((strmAt h p.toNat).st = .halted ∧ (strmAt h p.toNat).cause = some f.c ∧ (strmAt h p.toNat).fva = f.va)
          ∧ (if f.c = .memPoison then ∃ known again, t = poisonRepair h known f.va again else t = h))

/-- TASK_DISPATCH of the chosen continuation to the focused core: it leaves its table, and the core begins a task at its line, 24
cycles later, with its stage and s1 to s8; ACS, VEC and MOV are idle, latches, queues and rings empty, slots FREE but for
those that an earlier command names, UIE, UH and DIVZ clear; under DET every
other register is 0 (01 R20; 04 R116; 08 R254; 10 R306).
A marker that has come to the head of its engine's queue leaves; a marked release is sent once CTL's accesses have performed;
a barrier that waited arrives and its register takes the phase's number; another chip's arrival is counted; a reply to a
forward record is taken as the action; a closed batch of page faults goes into the ring, one record a run of pages, as far
as it has room (07 R215; 08 R247,
R248; 13 R370; 15 R406). Events that are not enabled change nothing, and the reply to a page cause waits for RESOLVE (log entries 4, 12,
30). -/
def Obligations.TasksAndArrivals : Prop :=
  (∀ (s : State) (job rank : Nat) (k : Rank) (x : Ready), s.rank? job rank = some k →
     dispatchOf s job rank = some (s.core, x) → s.core.job = job → s.core.rank = rank →
     Runs (.taskDispatch job rank) s fun t =>
       t.core.ctl.run = true ∧ t.core.ctl.line = x.e.cont ∧ t.core.ctl.lane = 1 ∧ t.core.ctl.loops = []
       ∧ t.core.ctl.ready = s.now + 24 ∧ t.core.acs.run = false ∧ t.core.vec.run = false ∧ t.core.mov.run = false
       ∧ t.core.stage = some x.e.stage ∧ t.core.taskId = s.core.taskId + 1
       ∧ (∀ i < 8, t.core.getS (i + 1) = x.e.save[i]?.getD 0)
       ∧ (s.myJob.det = true → (∀ i, 9 ≤ i → i < 56 → t.core.getS i = 0) ∧ (∀ i < 32, t.core.a[i]? = some 0 ∧ t.core.d[i]? = some 0)
           ∧ ∀ i < 192, t.core.v[i]? = some 0)
       ∧ t.core.m[0]? = some (BitVec.allOnes 8192)
       ∧ t.core.latC = [] ∧ t.core.latA = [] ∧ t.core.latV = [] ∧ t.core.latM = []
       ∧ (∀ r ∈ t.core.rings.toList, r = none) ∧ (∀ l ∈ t.core.lq.toList, l = []) ∧ (∀ l ∈ t.core.sq.toList, l = [])
       ∧ t.core.uie = false ∧ t.core.uh = false ∧ t.core.divz = false ∧ t.core.atomGroup = 0
       ∧ t.core.atomOrder = s.core.coreId.setWidth 16
       ∧ (∀ i < 32, (slotAt t i).st = (if s.core.cmds.any (·.namesSlot i) then .nest else .free))
       ∧ (∀ i < 32, x.ix = 32 * s.core.coreId.toNat + i → t.core.watch[i]? = some none))
  ∧ (∀ (s : State),
     (∀ e m, s.core.marks.find? (fun m => m.eng == e) = some m →
       exec (.markerReachHead e) s = .next (if markerDone s m then { s with core := { s.core with marks := s.core.marks.erase m } } else s))
     ∧ (s.core.trigged = true → s.core.trigSent = false → (∀ a ∈ s.core.unperformed, a.q = .ctl → s.core.trigId ≤ a.id) →
         exec .trigRelease s = .next { s with core := { s.core with trigSent := true } })
     ∧ (∀ job rank g step jb gr, s.job? job = some jb → jb.group? g = some gr → (gr.arrived.any (·.1 == rank)) = false →
         let arrived (st : Bool) (u : State) : State :=
           { u with jobs := u.jobs.map fun x => if x.num = job then
               { x with groups := x.groups.map fun y => if y.g = g then { y with arrived := y.arrived ++ [(rank, st)], lastAt := s.now } else y } else x
                    chip := { u.chip with outbox := u.chip.outbox ++ [⟨.arrival, [job, rank, g, b2n st, gr.phase]⟩] } }
         (s.rank? job rank = none → exec (.barvArrive job rank g step) s = .next (arrived step s))
         ∧ (∀ k b, s.rank? job rank = some k → barvCore s job rank g = some s.core → s.core.barv = some b → b.d < 48 →
             b.d ≠ 0 → b.nw = false → s.core.x = false → regIx s.core .ctl b.d = b.d →
             Runs (.barvArrive job rank g step) s fun t =>
               t.core.getS b.d = BitVec.ofNat 64 (gr.phase + 1) ∧ t.core.barv = none
               ∧ t.core.ctl.lane = min 8 (s.core.ctl.lane + 1) ∧ t.jobs = (arrived b.step s).jobs))
     ∧ (∀ job rank c f, (s.coresOf job rank).find? (fun c => c.fwds.any fun f => f.answer s.now != 0) = some c →
         c.fwds.find? (fun f => f.answer s.now != 0) = some f →
         exec (.forwardReply job rank) s = .next (s.atCore c.phys fun u =>
           replyAction (f.answer s.now) f (u.modCore fun c => { c with fwds := c.fwds.filter (· != f) })))
     ∧ (∀ job rank k f, (∀ c ∈ s.coresOf job rank, ∀ f ∈ c.fwds, f.answer s.now = 0) → s.rank? job rank = some k →
         k.fwds.find? (fun f => f.answer s.now != 0) = some f → replayable f.cause = true → f.answer s.now = 1 →
         exec (.forwardReply job rank) s = .next (s.modRank job rank fun k => { k with fwds := k.fwds.filter (· != f) }))
     ∧ (∀ t0, s.chip.faultsAt = some t0 → s.chip.faults ≠ [] → (t0 + 2400 ≤ s.now ∨ 64 ≤ s.chip.faults.length) →
         let recs := s.chip.frWait ++ (faultRuns (sortFaults (s.chip.faults.take 64))).map PRun.words
         let n := min recs.length (faultRoom s.chip)
         Runs .faultBatchClose s fun t =>
           t.chip.faults = s.chip.faults.drop 64 ∧ t.chip.frHead = s.chip.frHead + BitVec.ofNat 32 n ∧ t.chip.frWait = recs.drop n
           ∧ (n ≠ 0 → t.chip.outbox.getLast? = some ⟨.event, [evFault, n]⟩)
           ∧ t.chip.faultsAt = (s.chip.faults.drop 64).head?.map (·.ticks) ∧ SameMemory (putFaults s (recs.take n)) t))

/-! ## Engine commands, collectives, the matrix engine (06 R168 to R194; 07 R210, R211; 09 R267 to R285, R443) -/

/-- A command that may start runs through its elements; with all of them performed it posts its arrival or flag, or has done; what
has done waits for its record, OK with its bytes; a record goes to its ring when there is room, and raises the interrupt its ring asks
for; a command whose record is written retires; one that meets a fault of its own rank halts before the element (07 R210, R211;
09 R267 to R273, R283); a command that resumes has its pins again first (13 R378). Events that are not enabled change nothing (log
entry 12). -/
def Obligations.MovCommandsRun : Prop :=
  ∀ (s : State) (seq : W32) (x : Cmd), cmdOf s seq = some x → x.fault = 0 → x.skip = 0 →
    let recorded (u t : State) : Prop :=
      t.core.recs = u.core.recs ++ [⟨x.ring, x.desc, seq, 0, x.op.code, 0, x.op.okBytes, 0, true, x.task⟩]
      ∧ (∃ y, cmdOf t seq = some y ∧ y.st = .record ∧ y.status = 0) ∧ SameMemory u t
    let data : Bool := match x.op with
      | .copy .. | .copys .. | .copyo .. | .fst .. | .fld .. => true
      | _ => false
    (cmdDue s x = false → (x.st = .halted → x.cause ≠ none) → exec (.movCommandStart seq) s = .next s)
    ∧ (x.st = .halted → x.cause = none → exec (.movCommandStart seq) s = .next (takePins x s))
    ∧ (cmdDue s x = true → exec (.movCommandStart seq) s = .next (runCmd x s)
        ∧ (data = true → ∀ v y u, readImageMasks x s = .ok (v, y) →
            runElems y.elem (x.op.total - x.pos) ⟨v, x.pos, 0, [], none⟩ = ⟨u, x.op.total, 0, [], none⟩ → cmdOf u seq = some x →
            Runs (.movCommandStart seq) s fun t =>
              if x.op.flagAddr.isSome then (∃ y, cmdOf t seq = some y ∧ y.st = .flag ∧ y.pos = x.op.total) ∧ SameMemory u t
              else recorded u t)
        ∧ (∀ op a v r, x.op = .fatm op true a v r → Runs (.movCommandStart seq) s fun t =>
            (∃ y, cmdOf t seq = some y ∧ y.st = .flag) ∧ SameMemory s t))
    ∧ (x.st = .flag →
        (∀ a u v, x.op.flagAddr = some a → (∀ d s l f, x.op ≠ .fst d s l f ∧ x.op ≠ .fld d s l f) →
          rmw s (movReq s) a (fun v => arriveSub v x.op.okBytes) = .ok (u, v) → cmdOf u seq = some x →
          Runs (.copyArrival seq) s (recorded u))
        ∧ (∀ d o l f u v, x.op = .fst d o l f ∨ x.op = .fld d o l f →
          rmw s { movReq s with ask := [2, 0, 1] } f (fun v => .ok ((v + 1) % 2 ^ 64)) = .ok (u, v) →
          cmdOf u seq = some x → Runs (.fstFlagIncrement seq) s (recorded u)))
    ∧ (∀ f, haltCause s x = some f → actOf (actByte s s.core.job f.c) = .park ∨ actOf (actByte s s.core.job f.c) = .replay →
        ∀ c a, Runs (.movCommandHalt seq c a) s fun t =>
          ∃ y, cmdOf t seq = some y ∧ y.st = .halted ∧ y.halted0 = x.st ∧ y.cause = some f.c ∧ y.fva = f.va)
    ∧ (x.st = .record → (∀ r ∈ s.core.recs, r.retires = true → r.seq ≠ seq) →
        Runs (.movCommandRetire seq) s fun t =>
          t.core.cmds = s.core.cmds.erase x
          ∧ ((∀ b ∈ s.core.batches, seq ∉ b) → t.core.openB = s.core.openB.erase seq)
          ∧ t.core.batches = (modFirst (·.contains seq) (·.erase seq) s.core.batches).filter (fun b => !b.isEmpty) ∧ SameMemory s t)
    ∧ (∀ (n : BitVec 3) r u slot, s.core.recs.find? (fun r => r.ring == n.toNat) = some r → r.seq = seq → x.st ≠ .halted →
        ringPut s (movReq s) r.desc
          [r.seq.toNat + 2 ^ 32 * r.status + 2 ^ 40 * r.opcode + 2 ^ 48 * r.fault, r.bytes, r.addr, s.now] = .ok (some (u, slot)) →
        let live : Bool := u.core.stage.isSome && !u.core.suspending && r.task == u.core.taskId
        exec (.ringRecordWrite n) s = .next { u with core := { u.core with
          recs := u.core.recs.erase r
          uipend := if bitOf r.desc 56 && live then u.core.uipend ||| BitVec.ofNat 8 (2 ^ r.ring) else u.core.uipend } })
    ∧ (∀ (n : BitVec 3) r, s.core.recs.find? (fun r => r.ring == n.toNat) = some r → r.seq = seq →
        ringPut s (movReq s) r.desc
          [r.seq.toNat + 2 ^ 32 * r.status + 2 ^ 40 * r.opcode + 2 ^ 48 * r.fault, r.bytes, r.addr, s.now] = .ok none →
        exec (.ringRecordWrite n) s = .next s)

/-- A collective starts once every member's command has, or ends with FCOL_MISMATCH for all where they disagree; an item whose
contributors can be read is delivered, one that misses a contributor, or meets its poison, fails and is recorded; a member whose memory
faults halts (09 R284, R285, R443). An item is all or nothing, and other chips' contributions are free (log entries 20, 29). -/
def Obligations.CollectivesDeliver : Prop :=
  ∀ (s : State) (job g n : Nat) (c : Col), findCol s job g n = some c →
    let args := c.joined.filterMap fun m => (colArgs s job c m.1).map fun a => (m.1, a)
    let clash : Bool := args.any fun a => colUnfit c a || args.any fun b => colClash c a b
    (colReady s job c = true → clash = false → exec (.collectiveStart job g n) s = .next
      { s with jobs := s.jobs.map fun x => if x.num = job then
          { x with cols := x.cols.map fun y => if y.g = g ∧ y.n = n then { y with started := true } else y } else x })
    ∧ (colReady s job c = true → clash = true → Runs (.collectiveStart job g n) s fun t =>
        t = dropCol (c.joined.foldl (fun s m =>
          s.atMember job m.1 m.2.1 (finishCmd m.2.2 2 (causeCode .fcolMismatch) 0 0)) s) job g n)
    ∧ (colReady s job c = false → exec (.collectiveStart job g n) s = .next s)
    ∧ (∀ rank block u, tryItem job c rank block s = .done u → Runs (.collectiveItemDeliver job g n rank block) s fun t =>
        t = settleCol job g n (modCol u job g n fun c => { c with done := c.done ++ [(rank, block)] }))
    ∧ (∀ rank block m va u, tryItem job c rank block s = .failed m .rankLost va u →
        Runs (.collectiveItemDeliver job g n rank block) s fun t =>
          t = settleCol job g n (modCol (noteAddr job c rank va (failRecord job c rank block m .rankLost u)) job g n
            fun c => { c with failed := c.failed ++ [(rank, block, m)] }))
    ∧ (∀ rank block m va u, tryItem job c rank block s = .failed m .memPoison va u →
        let v := modCol (noteAddr job c rank va (failRecord job c rank block m .memPoison u)) job g n fun c => { c with failed := c.failed ++ [(rank, block, m)] }
        ∀ i y a, memberCmd v job c m = some (i, y) → colArgs v job c m = some a →
          Runs (.collectiveItemDeliver job g n rank block) s fun t =>
            t = settleCol job g n (v.atMember job m i fun s => poisonItem s va a.src.repl))
    ∧ (∀ rank i x f u,
        (c.members.flatMap fun r => match colArgs s job c r with
            | none => []
            | some a => (List.range (colItems c a.op)).map fun b => (r, b)).findSome? (fun p =>
          match tryItem job c p.1 p.2 s with
            | .halt m f => if m = rank then some f else none
            | _ => none) = some f →
        memberCmd s job c rank = some (i, x) → engineFault s 2 (((s.rank? job rank).map (·.asid)).getD 0) f.va f.c = some u →
        ∀ w va, exec (.collectiveMemberFault job g n rank w va) s =
          .next (u.atMember job rank i fun s => applyAction (haltCmd x.seq f s) f.c .mov f.va))

/-- A matrix command starts when nothing precedes it; a nest's loaders fill the next two slots of its range; a step adds the exact
products of its operands to its tile, rounded once, and the next step or reduction follows; an MXMMA takes its one step under the tags
captured at its issue; a tile that its triangle leaves out is filled; the last step ends the nest; a fault of a loader halts it; a
command with no drain left retires; a drain runs whole rows and halts at an element that faults, its frame under TAG 0x5 (02 R55; 06
R168, R171, R173, R177 to R179, R182, R183, R188, R194). Events that are not enabled change nothing (log entries 12, 36, 45). -/
def Obligations.MatrixEngineSteps : Prop :=
  ∀ (s : State),
    (∀ x, mtxReady s = some x → Runs .mtxCommandStart s fun t =>
      (∀ n ta tb, x.op = .mxgo n ta tb →
        t.core.nest = some ⟨x.seq, n, 0, 0, false, none, 0, none, 0⟩ ∧ t.core.mtxQ = s.core.mtxQ.erase x.seq)
      ∧ (∀ n o kl ca cb sa sb, x.op = .mxmma n o kl ca cb sa sb → t.core.nest = s.core.nest ∧ t.core.mtxQ = s.core.mtxQ)
      ∧ (∃ y, cmdOf t x.seq = some y ∧ y.st = .running) ∧ t.core.slots = s.core.slots ∧ SameMemory s t
      ∧ ∀ i < 16, s.core.accTask[i]? = some x.task → t.core.acc[i]? = s.core.acc[i]?)
    ∧ (mtxReady s = none → exec .mtxCommandStart s = .next s)
    ∧ (∀ x n o kl ca cb sa sb, mmaReady s = some x → x.op = .mxmma n o kl ca cb sa sb →
      nestTri n = 0 → Runs .tileStep s fun t =>
        (∀ i < 16, t.core.acc[i]? = if i = o.acc.toNat then
            some (tileStep x.cbs (if o.zero then 0 else tileAt s i)
              { slotAt s o.osA.toNat with ty := o.tyA.ety, cb := ca, scale := sa }
              { slotAt s o.osB.toNat with ty := o.tyB.ety, cb := cb, scale := sb } kl (rndMode .rne o.rnd)) else s.core.acc[i]?)
        ∧ t.core.mtxQ = s.core.mtxQ.erase x.seq ∧ SameMemory s t
        ∧ (o.den = false → t.core.drains = s.core.drains ∧ bitOf t.core.held o.acc.toNat = false)
        ∧ (o.den = true → bitOf t.core.held o.acc.toNat = true
            ∧ ∃ d, t.core.drains.getLast? = some d ∧ d.seq = x.seq ∧ d.acc = o.acc.toNat ∧ d.entry = o.entry.toNat ∧ d.e = 0))
    ∧ (∀ x u, s.core.nest = some x → needsLoad x = true → loadStep x s = .ok u →
        exec .nestLoaderFill s = .next u ∧ u.core.nest = some { x with
            loaded := some (nestOsBase x.nest + x.rot, nestOsBase x.nest + x.rot + 1), rot := (x.rot + 2) % max 2 (nestOsN x.nest) })
    ∧ (∀ x f, s.core.nest = some x → needsLoad x = true → loadStep x s = .error f → f.shut = false → f.c ≠ .memPoison →
        actOf (actByte s s.core.job f.c) = .park ∨ actOf (actByte s s.core.job f.c) = .replay →
        Runs .nestLoaderFault s fun t => t.core.nest = some { x with cause := some f.c, fva := f.va } ∧ t.core.acc = s.core.acc)
    ∧ (∀ x, mmaReady s = none → stepReady s = some x →
        let i := nestAccBase x.nest + x.red % max 1 (nestAccN x.nest)
        let cbs := ((cmdOf s x.seq).map (·.cbs)).getD 0
        let only (new : BitVec 131072) (t : State) : Prop := ∀ k < 16, t.core.acc[k]? = if k = i then some new else s.core.acc[k]?
        (∀ a b, x.loaded = some (a, b) →
          let new := tileStep cbs (if x.step = 0 ∧ nestZero x.nest = true then 0 else tileAt s i) (slotAt s a) (slotAt s b)
            (nestKstep x.nest) (modeOfCode (nestRnd x.nest))
          (x.step + 1 < nestSteps x.nest → Runs .tileStep s fun t =>
            only new t ∧ t.core.nest = some { x with step := x.step + 1, started := true, loaded := none } ∧ SameMemory s t)
          ∧ (nestSteps x.nest ≤ x.step + 1 → nestTri x.nest = 0 → nestDen x.nest = false →
            Runs .tileStep s fun t => only new t ∧ SameMemory s t ∧ t.core.nest =
              if x.red + 1 < nestReds x.nest then some { x with red := x.red + 1, step := 0, started := false, loaded := none }
              else none))
        ∧ (x.loaded = none → nestDen x.nest = false → i < 16 → Runs .tileStep s fun t =>
            only (triFill x.nest (nestM0 x.nest x.red) (nestN0 x.nest x.red) (fillTile (nestFill x.nest))) t ∧ SameMemory s t))
    ∧ (∀ seq x, cmdOf s seq = some x → x.op.isMtx = true → x.st = .flag → (∀ d ∈ s.core.drains, d.seq ≠ seq) →
        Runs (.mtxCommandRetire seq) s fun t => t.core.cmds = s.core.cmds.erase x ∧ SameMemory s t)
    ∧ (∀ d ds, s.core.drains = d :: ds → d.halt = none → s.core.drnRun = false → s.core.drnReady ≤ s.now →
        (engineHeld s = false → ∀ u, d.e = 4095 → runElem d s = .ok u → u.core.drains.drop 1 = ds →
          Runs .drainRow s fun t =>
            t.core.drains.map (·.seq) = ds.map (·.seq) ∧ bitOf t.core.held d.acc = false ∧ SameMemory u t)
        ∧ (engineHeld s = false → ∀ u : Nat → State, u 0 = s →
            (∀ k < 64 - d.e % 64, ∃ y, (u k).core.drains.head? = some y ∧ runElem y (u k) = .ok (u (k + 1))) →
            let t := closeDrain (showCursors (u (64 - d.e % 64)))
            (∀ y f, t.core.drains.head? = some y → runElem y t ≠ .error f) → exec .drainRow s = .next t)
        ∧ (∀ f, runElem d s = .error f → f.shut = false → f.c ≠ .memPoison →
            actOf (actByte s s.core.job f.c) = .park ∨ actOf (actByte s s.core.job f.c) = .replay →
            Runs .drainFaultHalt s fun t => (∃ y, t.core.drains = y :: ds ∧ y.halt = some f.c ∧ y.fva = f.va ∧ y.e = d.e)
              ∧ (s.core.trap = none → ∃ tr, t.core.trap = some tr ∧ tr.cause = some f.c ∧ tr.fva = f.va ∧ tr.tag = 5)))

/-! ## Pre-emption, queues, programs (10 R291 to R301, R310 to R317; 15 R404) -/

/-- PREEMPT_REQUEST asks every core of a rank to stop and holds its dispatch; a core that stands at a point halts its sequencers, its
frame's content PRE set and, in an exposed region, the cycles that remain; with MTX and MOV at rest too it has stopped; PRE_TIMEOUT goes
to the action table and its time counts anew; once every core of the rank has stopped, what they hold is kept and the cores are free (10
R313 to R315; 15 R407). That PRE_TIMEOUT counts anew, and how ranks resume, is the model's (log entries 28, 44). -/
def Obligations.RanksArePreempted : Prop :=
  ∀ (s : State) (job rank : Nat), job ≠ 0 →
    (∀ k, s.rank? job rank = some k → k.cold = false →
      let ask (c : Core) : Core :=
        if c.job = job ∧ c.rank = rank ∧ c.stopReq = none then { c with stopReq := some s.now } else c
      exec (.preemptRequest job rank) s = .next
        { s with core := ask s.core, cores := s.cores.map ask
                 ranks := s.ranks.map fun x =>
                   if x.job = job ∧ x.rank = rank then { x with parked := true, noDispatch := true } else x })
    ∧ (mayHalt s.core = true → (∀ q, (s.core.seq q).cap.ops = []) → Runs .coreStop s fun t =>
        (∀ q, (t.core.seq q).run = false) ∧ t.core.stopped = s.core.stopped ∧ t.core.accq = []
        ∧ let u := quitQueues s.core.phys s
          let w : State := if s.core.x then u.modCore (keepCycles (stopTime u)) else settle u
          ∃ tr : Trap, t.core.trap = some tr ∧ tr.cause = none ∧ tr.pre = true ∧ tr.done = false ∧ tr.uh = s.core.uh
          ∧ tr.pc.toNat = (s.core.ctl.line.toNat * 32 + 4 * s.core.ctl.lane) % 2 ^ 52 ∧ tr.aux = rdvAux w
          ∧ tr.replay = byNum (s.core.accq ++ (if s.core.x then
              w.core.pend.map fun p => { p.ent with op := .flight, flt := false, rem := p.due } else []))
          ∧ tr.ctl = atEntry .ctl w ∧ tr.acs = atEntry .acs w ∧ tr.vec = atEntry .vec w ∧ tr.mov = atEntry .mov w)
    ∧ (mayStop s.core = true → Runs .coreStop s fun t => t.core.stopped = true
        ∧ t.core.trap = s.core.trap.map (recordHalted s.core))
    ∧ ((∀ c ∈ s.allCores, canStop c = false) → exec .coreStop s = .next s)
    ∧ (∀ c, lateStop s job rank = some c →
        let again (k : Core) : Core :=
          if k.job = job ∧ k.rank = rank ∧ k.stopped = false ∧ k.stopReq.isSome = true then { k with stopReq := some s.now } else k
        exec (.preTimeout job rank) s = .next
          (({ s with core := again s.core, cores := s.cores.map again } : State).atCore c.phys fun s => applyAction s .preTimeout .rs 0))
    ∧ (rankStopped s job rank = true → Runs (.contextSaveDone job rank) s fun t =>
        t.coresOf job rank = []
        ∧ (∀ k ∈ t.ranks, k.job = job → k.rank = rank → k.saved = (s.coresOf job rank).map fun c => { c with saved := true })
        ∧ ⟨.event, [evSaved, job, rank]⟩ ∈ t.chip.outbox)

/-- A doorbell that its tenant may ring makes the queue's NOTIFY its value, and the queue, when it was not, runnable; any other is
counted in REJ, and turned away when it is not on the interface's stream; in recovery, and at another offset, it is nothing. At a quantum boundary a waiting queue takes the lowest free slot; one whose unmap waited leaves its slot once its
entry has its status, and is runnable again where it has entries to serve (10 R291 to R294; 14 R391, R395).
A launch entry that is refused has its status record REFUSED with its cause, and is served; a SUCC waits as the job's
successor; a JOB starts under the lowest free number. A successor's rank starts once its predecessor's has finished; a program whose
ranks have finished and whose commands have retired is RETIRED; the end of a job gives its cores, ranks and frames back (10 R295 to
R301; 15 R404). A JOB entry uses its staged placement image up, refused or not. The lowest job number and slot are the model's choice (log entry 27; and 12). -/
def Obligations.QueuesAndPrograms : Prop :=
  (∀ (s : State) (tdi off width q : Nat) (n : W32) (ide : Ide),
     let value : Word := BitVec.ofNat 64 (n.toNat + 2 ^ 32 * q)
     let counted : State := { s with chip := { s.chip with
       tdi := s.chip.tdi.mapIdx fun i x => if i = tdi then { x with rej := min (x.rej + 1) (2 ^ 24 - 1) } else x } }
     let rejects (width : Nat) (value : Word) : Prop := exec (.doorbell tdi off width value ide) s = .next counted
     (s.chip.recovery = true ∨ (ideOk s tdi ide = true ∧ off ≠ 0) → ∀ v, exec (.doorbell tdi off width v ide) s = .next s)
     ∧ (s.chip.recovery = false → tdi < 16 → ideOk s tdi ide = false → ∀ v, exec (.doorbell tdi off width v ide) s = .next
         { counted with chip := { counted.chip with outbox := s.chip.outbox ++ [⟨.response, [1]⟩] } })
     ∧ (s.chip.recovery = false → tdi < 16 → ideOk s tdi ide = true → (tdiAt s tdi).st = .locked → off = 0 → ∀ v, rejects width v)
     ∧ (s.chip.recovery = false → tdi < 16 → ideOk s tdi ide = true → (tdiAt s tdi).st ≠ .locked → off = 0 → q < 4096 →
         (qTenant s q ≠ tdi → rejects 8 value) ∧ (width ≠ 8 → rejects width value)
         ∧ (∀ v : Word, 2 ^ 44 ≤ v.toNat → rejects width v)
         ∧ (qTenant s q = tdi → exec (.doorbell tdi 0 8 value ide) s = .next (ringQueue (wakeUp s) q n.toNat)))
     ∧ (∀ since, s.chip.quantum ≤ s.now → s.chip.mapped = [] → s.chip.runnable = [⟨q, since⟩] → mayMap s q = true →
         Runs .quantumBoundary s fun t =>
           t.chip.quantum = (s.now / 60000 + 1) * 60000 ∧ t.chip.runnable = [] ∧ ∃ b, t.chip.mapped = [⟨q, 0, s.now, b, false⟩])
     ∧ (s.now < s.chip.quantum → exec .quantumBoundary s = .next s)
     ∧ ((∃ m ∈ s.chip.mapped, m.q = q ∧ m.unmapping = true) → queueBusy s q = false → Runs (.queueUnmapComplete q) s fun t =>
         t.chip.mapped = s.chip.mapped.filter (·.q != q)
         ∧ (qNotify s q ≠ qServed s q → qErr s q = false → ⟨q, s.now⟩ ∈ t.chip.runnable))
     ∧ (exec .portSlotAdvance s = .next { s with chip := { s.chip with portSlot := s.chip.ticks / 40 % 64 } })
     ∧ (∀ p, s.chip.portsNext = some p → s.chip.portsAt ≤ s.now →
         exec .portRotationBoundary s = .next { s with chip := { s.chip with ports := p, portsNext := none } }))
  ∧ (∀ (s : State) (q : Nat),
     let e := entryWords s (fld (qdWord s q 0) 0 52 + 64 * (qServed s q % 2 ^ fld (qdWord s q 0) 52 4))
     let used : State := { s with chip := { s.chip with staged := s.chip.staged.filter (·.1 != qTenant s q) } }
     (takeReady s q = true →
       (∀ c, launchRefusal s q e = some c → exec (.launchEntryTake q) s = .next (serveNext
         (writePhys (if e.op = 1 then used else s) e.done
           (wordBytes [3 + 2 ^ 8 * (if e.op = 2 then e.job else 0) + 2 ^ 32 * causeCode c, s.now])) q))
       ∧ (launchRefusal s q e = none → e.op = 2 → exec (.launchEntryTake q) s = .next
           { s with jobs := s.jobs.map fun x => if x.num = e.job then { x with succ := some ⟨q, e.image, e.early, e.done, []⟩ } else x })
       ∧ (∀ i, launchRefusal s q e = none → e.op = 1 → readImage s e.image = some i → exec (.launchEntryTake q) s = .next (serveNext
           (launchJob used i (newJob s) (qTenant s q) e.lim e.done ((s.chip.staged.lookup (qTenant s q)).getD [])) q)))
     ∧ (takeReady s q = false → exec (.launchEntryTake q) s = .next s)
     ∧ (∀ job rank x u i, succReady s job rank = true → s.job? job = some x → x.succ = some u → readImage s u.image = some i →
         let v : Succ := { u with started := u.started ++ [rank] }
         exec (.successorStart job rank) s = .next (succStarted job v
           ((startProgram job rank (loadImage i job rank s)).modJob job fun x =>
             { x with succ := some v, oldCmds := x.oldCmds ++ rankCmds s job rank })))
     ∧ (∀ job x, s.job? job = some x → x.oldDone = none → programOver s x = true →
         exec (.programRetire job) s = .next (writePhys
           { s with jobs := s.jobs.map fun y => if y.num = job then { y with status := .retired, oldCmds := [] } else y }
           (x.doneAt + 16) (wordBytes [2 + 2 ^ 8 * job + 2 ^ 32 * 0, s.now])))
     ∧ (∀ job x d, s.job? job = some x → x.oldDone = some d → oldLeft s x = [] →
         exec (.programRetire job) s = .next (writePhys
           { s with jobs := s.jobs.map fun y => if y.num = job then { y with oldDone := none, oldCmds := [] } else y }
           (d + 16) (wordBytes [2 + 2 ^ 8 * job + 2 ^ 32 * 0, s.now])))
     ∧ (∀ job x, job ≠ 0 → s.job? job = some x → x.status ≠ .free → Runs (.jobEnd job) s fun t =>
         (∀ c ∈ t.core :: t.cores, c.job ≠ job) ∧ (∀ k ∈ t.ranks, k.job ≠ job) ∧ (∀ f ∈ t.chip.frames, f.job ≠ job)
         ∧ (∀ y ∈ t.jobs, y.num = job → y.status = .free ∧ y.groups = [] ∧ y.dets = [])))

/-! ## Ranks in motion (08 R248 to R250; 12 R342 to R361; 15 R417 to R422) -/

/-- PHASE_COMPLETE of a group whose members have all arrived, in an earlier cycle, the lowest first, counts the phase, clears its arrivals and writes its
phase words; at g0 with every arrival BARV.step it begins a step boundary, with some BARV_MIX is reported. A rank that has quiesced is
captured, one that is late loses its move or puts the close off; a commit makes the capture the job's checkpoint; rollback gives the
checkpoint's groups, requests and STEP_NO back, which counts the boundary that closed it (04 R115; 08 R249, R250; 12 R346 to R348; 15
R417 to R422). Rollback is one step (log entries 12, 24, 37, 38). -/
def Obligations.PhasesAndBoundaries : Prop :=
  ∀ (s : State) (job : Nat) (x : Job), s.job? job = some x →
    (∀ g gr, x.group? g = some gr → phaseReady s job gr = true → (g ≠ 0 ∨ x.bound = none) → gr.lastAt < s.now → detsStarted s job g gr.phase = true →
      (∀ y ∈ x.groups, y.g < g → phaseReady s job y = false ∨ (y.g = 0 ∧ x.bound.isSome = true)) →
      let told : State := gr.memb.foldl (putPhase job g (gr.phase + 1)) (phaseOver job gr s)
      (g ≠ 0 → exec (.phaseComplete job g) s = .next told)
      ∧ (g = 0 → gr.arrived.all (·.2) = true → exec (.phaseComplete job g) s = .next (startBoundary job (phaseOver job gr s)))
      ∧ (g = 0 → gr.arrived.all (·.2) = false → exec (.phaseComplete job g) s = .next
          (if gr.arrived.any (·.2) then (localRanks told job).foldl (fun s r => reportItem s job r .barvMix 0) told else told))
      ∧ (x.dets = [] → ∀ gr', ((phaseOver job gr s).job? job).bind (·.group? g) = some gr' →
          gr'.phase = gr.phase + 1 ∧ gr'.arrived = [] ∧ gr'.edits = []))
    ∧ (∀ g gr, x.group? g = some gr → phaseReady s job gr = false → exec (.phaseComplete job g) s = .next s)
    ∧ (∀ rank, boundWaits s job rank = true → rankQuiet s job rank = true → exec (.rankQuiesced job rank) s = .next (advance 8 job
        (modBound (((rankCores s job rank).foldl captureCore s).modRank job rank fun k => { k with quiet := true, capAt := s.now }) job
          fun b => { b with waiting := b.waiting.filter (· != rank) })))
    ∧ (∀ rank b, migLate s job rank = true → x.bound = some b →
        (b.part ≠ 8 → exec (.migTimeout job rank) s = .next (advance 8 job (reportItem
          (modBound (resumeDispatch job rank (dropPlaceReq job rank s)) job fun b => { b with waiting := b.waiting.filter (· != rank) })
          job rank .migTimeout 0)))
        ∧ (b.part = 8 → Runs (.migTimeout job rank) s fun t => ∀ y, t.job? job = some y →
            y.chkptDue = true ∧ y.ckptNo = x.ckptNo ∧ y.ckpt = x.ckpt ∧ y.bound = none ∧ y.stepNo = x.stepNo + 1))
    ∧ (∀ b, x.bound = some b → b.part = 8 → b.ckpt = true → b.waiting = [] → Runs (.checkpointCommit job) s fun t =>
        ∀ y, t.job? job = some y → y.ckptNo = x.ckptNo + 1 ∧ y.bounds = 0 ∧ y.chkptDue = false ∧ y.bound = none
          ∧ y.stepNo = x.stepNo + 1 ∧ ∃ c, y.ckpt = some c ∧ c.num = x.ckptNo + 1 ∧ c.groups = x.groups ∧ c.dets = x.dets)
    ∧ (∀ k c, x.ckpt = some k → x.rolling = true → x.status ≠ .killed → x.status ≠ .free → x.rollEnd = some c →
        exec (.rollback job) s = .next (killJob
          ((undoLog job x.log (stopAll job s)).modJob job fun x => { x with rolling := false, rollEnd := none }) job c))
    ∧ (∀ k, x.ckpt = some k → x.rolling = true → x.status ≠ .killed → x.status ≠ .free → x.rollEnd = none →
        Runs (.rollback job) s fun t => t = rollBack job k s ∧ ⟨.event, [evRolledBack, job, k.num]⟩ ∈ t.chip.outbox
          ∧ (x.reqs = [] → (∀ b, x.bound = some b → b.reqs = []) → (∀ r, (placeOf s job r).state ≠ .withdrawn) → ∀ y, t.job? job = some y →
              y.groups = k.groups ∧ y.dets = k.dets ∧ y.rolling = false ∧ (k.num = 0 → y.log = [])
                ∧ y.stepNo = k.stepNo + (if k.num = 0 then 0 else 1)))

/-- A migration flips one line at a time, in the port's entries of its tenant; an entry from another chip becomes this chip's, and sends
its marker to the old home; a rank that comes is awaited, or refused without room, and is seated once it is active; a marker counts down
PENDACK, the last one ends forwarding; a lost chip ends what waits for it; a transaction from another chip is acknowledged once on its
link, one beyond a gap asked for again, and performs in its turn on the exported line and is answered, once; a rank's old home passes it
on (10 R311; 11 R320, R324, R330, R338; 12 R342, R344, R350 to R352, R360; 13 R366). What the other chip sends is an input, and how a
transaction names those before it is the model's (log entries 1, 12, 20, 38, 52). -/
def Obligations.RanksMoveBetweenChips : Prop :=
  ∀ (s : State) (job rank : Nat),
    (∀ m k line, migOf s job rank false = some m → s.rank? job rank = some k → m.active = true → line ∉ m.flipped →
      line ∈ rankLines s k.asid → portHeld s 2 job = true →
      exec (.migrationLineFlip job rank line) s = .next (advance 8 job (settleMig job rank (flipLine job rank line s))))
    ∧ (∀ (e : PlaceEntry), (s.job? job).isSome = true → s.rank? job rank = none →
        let old := placeOf s job rank
        let put := setPlace s job rank fun _ => e
        let moved := old.chip ≠ e.chip ∨ old.state ≠ e.state ∨ old.ocol ≠ e.ocol ∨ old.orow ≠ e.orow
        let there := if moved then noteMoved job put else put
        (e.chip ≠ s.chip.id → exec (.placementEntryUpdate job rank e) s = .next
          (if old.state = .withdrawn then (if e.state = .active then returnFar job rank there else there)
           else if old.chip = e.chip ∨ old.chip = s.chip.id then there else sendMarker old.chip job rank s.chip.id there))
        ∧ (e.chip = s.chip.id → e.state = .moving → migOf s job rank true = none →
          exec (.placementEntryUpdate job rank e) s = .next
            (if roomToCome s job e then (setPlace s job rank fun _ => { e with pendack := 0 }).modChip fun c =>
                { c with migs := c.migs ++ [
                    { job := job, rank := rank, inward := true, chip := old.chip, ocol := e.ocol, orow := e.orow, flipped := []
                      markers := [], held := [], active := true, cold := e.pendack == 2, recalled := e.pendack == 3 }] }
              else (s.post .event [causeCode .placeRoom, job, rank]).post .placement
                ([old.chip, job, rank] ++ placeWords { e with state := .absent })))
        ∧ (∀ m, e.chip = s.chip.id → e.state = .active ∨ e.state = .cold → migOf s job rank true = some m → m.active = true →
          exec (.placementEntryUpdate job rank e) s = .next (advance 8 job (sendMarker m.chip job rank s.chip.id
            (noteMoved job (arriveRank job rank e m
              (modMig put job rank true fun x => { x with active := false, pages := [] })))))))
    ∧ (∀ (e : PlaceEntry) m, (s.job? job).isSome = true → (s.rank? job rank).isSome = true → migOf s job rank false = some m →
        m.active = true → e.state = .absent → e.chip = m.chip → exec (.placementEntryUpdate job rank e) s = .next
          (advance 8 job (refusePlace job rank .placeRoom (abandonMove m s))))
    ∧ (∀ m src, migOf s job rank false = some m → m.active = false → src ∉ m.markers → (∀ y ∈ s.chip.rxHeld, rxKey s y ≠ src) →
        0 < (placeOf s job rank).pendack → rank < ((s.job? job).map (·.place.length)).getD 0 →
        let i := nextTx s m.chip
        (1 < (placeOf s job rank).pendack → Runs (.generationMarkerReceive job rank src) s fun t =>
          (placeOf t job rank).pendack = (placeOf s job rank).pendack - 1
          ∧ ⟨.marker, [m.chip, job, rank, src, i]⟩ ∈ t.chip.outbox
          ∧ ∀ m', migOf t job rank false = some m' → m'.markers = m.markers ++ [src])
        ∧ ((placeOf s job rank).pendack = 1 → Runs (.generationMarkerReceive job rank src) s fun t => migOf t job rank false = none
          ∧ ⟨.marker, [m.chip, job, rank, src, i]⟩ ∈ t.chip.outbox
          ∧ placeOf t job rank = { placeOf s job rank with pendack := 0, state := if m.cold then .cold else .active }))
    ∧ (∀ chip, chip ≠ s.chip.id → chip ∉ s.chip.lost → exec (.chipLost chip) s = .next
        (let t := loseLeases chip { s with chip := { s.chip with lost := chip :: s.chip.lost } }
         t.jobs.foldl (loseIn chip) t))
    ∧ (∀ (tx : FabTx) (l : Lane), (s.job? tx.job).isSome = true → tx.src ∉ s.chip.lost →
        let c := rxKey s tx
        s.chip.ingress.find? (fun l => l.k == tx.lane && l.peer == c) = some l →
        let n := l.last c
        let flit (a m : Nat) : Msg := ⟨.flit, [c, tx.lane, a, m]⟩
        let answers (a m : Nat) (u : State) : Prop := exec (.fabricTransactionReceive tx) s = .next (u.post .flit [c, tx.lane, a, m])
        (tx.link ≤ n → answers 2 n s) ∧ (n + 1 < tx.link → answers 1 n s)
        ∧ (tx.link = n + 1 →
          let came : State := { s with chip := { s.chip with ingress := s.chip.ingress.map fun l =>
            if l.k = tx.lane then { l with links := (c, n + 1) :: l.links.filter (·.1 != c) } else l } }
          (doneTx s c tx.seq = true → answers 2 (n + 1) came)
          ∧ ((∀ y ∈ s.chip.rxHeld, rxKey s y ≠ c) → doneTx s c tx.seq = false →
            (doneTx s c tx.after = false →
              answers 2 (n + 1) { came with chip := { came.chip with rxHeld := s.chip.rxHeld ++ [tx] } })
            ∧ (doneTx s c tx.after = true →
              let u := noteDone c tx.seq { came with chip := { came.chip with rxHeld := s.chip.rxHeld.filter fun y => !(y == tx) } }
              (heldTx u tx = true → answers 2 (n + 1) (modMig u tx.job tx.rank true fun m => { m with held := m.held ++ [tx] }))
              ∧ (heldTx u tx = false → (match tx.op with | .det _ | .copy .. | .place .. => False | _ => True) →
                (∀ m, passTo u tx = some m →
                  let va := (placeOf u tx.job tx.rank).exportBase.toNat + tx.off.toNat
                  answers 2 (n + 1) (performTx tx ⟨farKey tx.job tx.rank va, fabSize tx.op, 0, va, va⟩ (passOn m.chip tx u)).1)
                ∧ (passTo u tx = none → tx.off.toNat + fabSize tx.op ≤ 2 ^ 33 →
                  let served := serveExport u (u.unitReq tx.job 0 false) tx.rank tx.off.toNat (fabSize tx.op)
                    (fabLo + tx.rank * 2 ^ 33 + tx.off.toNat) (match tx.op with | .read _ => Kind.read | _ => Kind.write)
                  (∀ f, served = .error f → answers 2 (n + 1) ((noteFault u 9 f).post .response [tx.src, tx.seq, causeCode f.c, f.va]))
                  ∧ (∀ w p, served = .ok (w, p) → poisonAt w false p = none → poisonAt w true p = none →
                    (∀ k, tx.op = .read k → Runs (.fabricTransactionReceive tx) s fun t => SameMemory w t
                      ∧ t.chip.outbox = w.chip.outbox ++
                        [⟨.response, [tx.src, tx.seq] ++ 0 :: (w.bytes p.key k).map (·.toNat)⟩, flit 2 (n + 1)])
                    ∧ (p.len = 8 → noKey w p.key = false →
                      let done (x : Nat) (l : List Nat) : Prop := Runs (.fabricTransactionReceive tx) s fun t =>
                        Stored p.key 8 x w t ∧ ∃ l', t.chip.outbox = l' ++ [⟨.response, [tx.src, tx.seq] ++ l⟩, flit 2 (n + 1)]
                      let old := leVal (w.bytes p.key 8)
                      (∀ b, tx.op = .write b → b.length = 8 → done (leVal b) [0])
                      ∧ (∀ op v, tx.op = .atomic op v → done (atomOp op 64 old v.toNat) [0, old])
                      ∧ (∀ v new, tx.op = .cas v new → done (if old = v.toNat then new.toNat else old) [0, old])))))))))

/-! ## The Prism: Apertures, leases, repair (11 R319 to R340; 10 R299) -/

/-- A schedule takes effect at its activation time, at slot 0 with no window open, its lasers alone being APERTURE; it stays active while
it has slots. The next slot begins when the one in progress has run its length, the last followed by slot 0. A window opens at its
offset after its slot's start, once, and closes at its end, or with WLEN 0 at the slot's, all by the pod slot clock (11 R331 to R335). Events that are not due
change nothing (log entries 12, 22). -/
def Obligations.AperturesTurn : Prop :=
  ∀ (s : State) (job : Nat) (x : Job), s.job? job = some x →
    let a := x.apt
    let now (i : Instr) (P : Aperture → Prop) : Prop := Runs i s fun t => SameMemory s t ∧ t.core = s.core ∧ t.cores = s.cores
      ∧ ∀ y, t.job? job = some y → P y.apt
    let pod := s.chip.ticks + s.chip.podOff
    let stop (m : AptMap) : Nat := a.slotAt + 12 * (if m.wlen = 0 then a.plan.lens[a.slot]?.getD 1000 else m.woff + m.wlen)
    (∀ p, a.next = some p → a.at' ≤ pod →
      now (.apertureActivate job) (fun b => b = { a with plan := p, next := none, act := !p.lens.isEmpty, slot := 0, slotAt := a.at', openW := [] })
      ∧ Runs (.apertureActivate job) s fun t =>
          (∀ l ∈ t.chip.egress, l.st = .aperture → l.job = job → ∃ m ∈ p.maps, l.k ∈ m.lanes)
          ∧ ∀ l ∈ s.chip.egress, l.st = .pending → l.job = job → l.holder = 16384 → (∃ m ∈ p.maps, l.k ∈ m.lanes) →
              ∃ l' ∈ t.chip.egress, l'.k = l.k ∧ l'.st = .aperture)
    ∧ (∀ p, a.next = some p → pod < a.at' → exec (.apertureActivate job) s = .next s)
    ∧ (∀ n, a.act = true → a.plan.lens[a.slot]? = some n → a.slotAt + 12 * n ≤ pod → now (.apertureSlotStart job) fun b =>
        b = { a with slot := if a.slot + 1 = a.plan.lens.length then 0 else a.slot + 1, slotAt := a.slotAt + 12 * n, openW := [] })
    ∧ (∀ n, a.plan.lens[a.slot]? = some n → pod < a.slotAt + 12 * n → exec (.apertureSlotStart job) s = .next s)
    ∧ (∀ i m, a.plan.maps[i]? = some m →
        (a.act = true → m.slot = a.slot → i ∉ a.openW → a.slotAt + 12 * m.woff ≤ pod → pod < stop m →
          now (.apertureWindowOpen job i) fun b => b = { a with openW := a.openW ++ [i] })
        ∧ (pod < a.slotAt + 12 * m.woff ∨ i ∈ a.openW → exec (.apertureWindowOpen job i) s = .next s)
        ∧ (i ∈ a.openW → stop m ≤ pod →
          now (.apertureWindowClose job i) fun b => b = { a with openW := a.openW.filter (· != i) })
        ∧ (pod < stop m → exec (.apertureWindowClose job i) s = .next s))

/-- An attempt for the one queued request fails at once below dMin, reserves the lowest dark lasers and offers their fibres, grants what
is held already where no more is to be had, refuses toward a lost chip. The other chip answers each fibre with its lowest free wavelength,
and its ingress lanes follow what their sender says of them. Pairs enough for the target order the lane changes, where no other laser of
the fibre has the wavelength; short of it further lasers are offered, and with none left dMin pairs are ordered and fewer released on both
chips; 1.0 µs later the lanes are LEASED or BASELINE and the request is granted. A request that has waited is forced; a notice that has run
darkens its lanes. Chips whose placements differ end the job (10 R299; 11 R318, R319, R321, R322, R325 to R329). What counts for an attempt,
how a replacement counts, and how an offer and its answer look, is the model's reading (log entries 12, 19, 43). -/
def Obligations.LeasesAreAgreed : Prop :=
  ∀ (s : State) (q : LeaseReq) (c : Nat), farChip s q.job q.peer = some c →
    let held := heldBy s q.job q.rank q.peer
    let most := if q.repair then held + 1 else q.count
    let least := if q.repair then held + 1 else q.min
    let room := min most (quotaRoom s q.job + held)
    let back (k : Nat) : Msg := ⟨.leaseOffer, [c, q.job, q.rank, 4, 0, k]⟩
    (s.chip.leaseQ = [q] → (∀ p ∈ peerChips s, askBaseline s p = s) →
      let ks := (darkLanes s).take (room - held)
      let blocked (b : Nat) : Prop := exec .leaseRound s = .next { s with chip := { s.chip with leaseQ := [{ q with block := b }] } }
      let granted : Prop := exec .leaseRound s = .next (grantReq q
        { s with chip := { s.chip with outbox := s.chip.outbox ++ [⟨.leaseOffer, [c, q.job, q.rank, 4, 0]⟩] } })
      (c ∈ s.chip.lost → exec .leaseRound s = .next (refuseReq q 3 s))
      ∧ (c ∉ s.chip.lost → jobBusy s q.job = true → exec .leaseRound s = .next s)
      ∧ (c ∉ s.chip.lost → jobBusy s q.job = false →
          (room < least → blocked 1)
          ∧ (least ≤ room → room ≤ held → granted)
          ∧ (least ≤ room → held < room → held + ks.length < least → blocked 2)
          ∧ (least ≤ held → held < room → ks = [] → granted)
          ∧ (least ≤ room → held < room → least ≤ held + ks.length → ks ≠ [] → exec .leaseRound s = .next
              { s with chip := { s.chip with
                  leaseQ := [{ q with block := 3, tried := [], got := [] }]
                  egress := ks.foldl (fun l k => lightIn
                    { k := k, peer := c, wave := 0, st := .pending, holder := q.rank, job := q.job, peerRank := q.peer } l) s.chip.egress
                  outbox := s.chip.outbox ++ [⟨.leaseOffer, [c, q.job, q.rank, 0] ++ ks.map (· / 8)⟩] } })))
    ∧ (c ∉ s.chip.lost → let hears (m : PrismMsg) : Instr := .leaseOfferReceive c q.job q.rank m 0
        let other := s.chip.askers.filter (· != (c, q.job, q.rank))
        let asks := if 16384 ≤ q.rank ∨ q.job = 0 then s.chip.askers else (c, q.job, q.rank) :: other
        (∀ f, f < 256 →
          (∀ w, freeWave s f = some w → exec (hears (.offer [f])) s = .next { s with chip := { s.chip with
            ingress := lightIn { k := 8 * f + w, peer := c, wave := w, st := .pending, holder := q.rank, job := q.job } s.chip.ingress
            outbox := s.chip.outbox ++ [⟨.leaseReply, [c, q.job, q.rank, 8 * f + w]⟩]
            askers := asks } })
          ∧ (freeWave s f = none → exec (hears (.offer [f])) s = .next { s with chip := { s.chip with
            outbox := s.chip.outbox ++ [⟨.leaseReply, [c, q.job, q.rank]⟩]
            askers := asks } }))
        ∧ (∀ st ks, laneState st ≠ .dark → exec (hears (.lanes st ks)) s = .next { s with chip := { s.chip with
            ingress := s.chip.ingress.map fun l =>
              if l.peer = c ∧ l.k ∈ ks ∧ l.st ≠ .retired then { l with st := laneState st, job := q.job, holder := q.rank } else l
            askers := other } })
        ∧ (∀ n, exec (hears (.revoke n)) s = .next (revokeFrom (fun l => l.peer == c) q.job q.rank 2 n s))
        ∧ (∀ n, exec (hears (.force n)) s = .next (forceIngress c q.job q.rank n s))
        ∧ (∀ bs, exec (hears (.aperture bs)) s =
            .next (s.modJob q.job fun x => { x with apt := { x.apt with accepted := some bs, fresh := true } }))
        ∧ (∀ n bs, n ≠ 0 → exec (.leaseOfferReceive c q.job q.rank (.aperture bs) n) s = .next (installPlan q.job n bs s)))
    ∧ (∀ p : Nat × Nat, q.job ≠ 0 → q.rank < 16384 → q.peer ≠ 16384 → guarded s q.job q.rank q.peer = false → s.chip.leaseQ = [q] →
        q.got = [] → (∃ l ∈ s.chip.egress, l.k = p.1 ∧ l.st = .pending ∧ l.job = q.job ∧ l.holder = q.rank ∧ l.peerRank = q.peer) →
        let away := (s.chip.egress.filter fun l => l.pendingFor q.job q.rank q.peer && l.k != p.1).map (·.k)
        let more := ((darkLanes (releasePending q.job q.rank q.peer [p.1] s)).filter fun k => !(q.tried ++ away).contains k).take
          (room - held - 1)
        let mine (l : Lane) : Prop := l.st = .pending ∧ l.job = q.job ∧ l.holder = q.rank ∧ l.peerRank = q.peer
        let answered (P : State → Prop) : Prop := Runs (.leaseCommit q.job q.rank q.peer [p]) s fun t => SameMemory s t ∧ P t
        let stops (b : Nat) : Prop := answered fun t => t.chip.guards = s.chip.guards
          ∧ t.chip.leaseQ = [{ q with block := b, tried := [], got := [] }] ∧ (∀ l ∈ t.chip.egress, ¬ mine l)
          ∧ t.chip.outbox = s.chip.outbox ++ [back p.2]
        (clearWave (litWaves s ++ aptWaves s fun _ _ _ => true) p = true →
          (least ≤ room → held < room → room = held + 1 ∨ (more = [] ∧ least ≤ held + 1) → answered fun t =>
            t.chip.guards = s.chip.guards ++ [⟨[p.1], q.job, q.rank, q.peer, s.now + 1200, some { q with tried := [], got := [] }⟩]
            ∧ (∀ l ∈ t.chip.egress, l.k = p.1 → l.st = .pending → l.wave = p.2 % 8) ∧ (∀ l ∈ t.chip.egress, mine l → l.k = p.1)
            ∧ t.chip.leaseQ = [{ q with tried := [], got := [] }])
          ∧ (least ≤ room → held + 1 < room → more ≠ [] → answered fun t =>
            t.chip.guards = s.chip.guards ∧ t.chip.leaseQ = [{ q with tried := q.tried ++ away, got := [p] }]
            ∧ t.chip.outbox = s.chip.outbox ++ [⟨.leaseOffer, [c, q.job, q.rank, 0] ++ more.map (· / 8)⟩])
          ∧ (least ≤ room → held + 1 < room → more = [] → held + 1 < least → stops 3)
          ∧ (room < least → stops 1)))
    ∧ (∀ g, guardOver s = some g → s.chip.resend = [] → (∀ x ∈ s.jobs, x.bound = none) →
        let st : LaneSt := if g.job = 0 then .baseline else .leased
        let on (l : Lane) : Bool := g.lanes.contains l.k && l.st == .pending
        let u : State := { s with chip := { s.chip with
          guards := s.chip.guards.erase g
          egress := s.chip.egress.map fun l => if on l then { l with st := st, at' := s.now } else l
          outbox := s.chip.outbox ++ (s.chip.egress.filter on).map fun l =>
            ⟨.leaseOffer, [l.peer, l.job, l.holder, 4, if g.job = 0 then 1 else 2, l.k / 8 * 8 + l.wave]⟩ } }
        let v := if g.job = 0 then sendPids g.peer u else u
        exec .guardIntervalEnd s = .next (match g.req.bind fun r => s.chip.leaseQ.find? (r.same ·) with
          | some r => grantReq r v
          | none => v))
    ∧ (guardOver s = none → exec .guardIntervalEnd s = .next s)
    ∧ (overdue s = none → exec .leaseForce s = .next s)
    ∧ (overdue s = some q → s.chip.leaseQ = [q] →
        (q.forced = true ∨ inProgress s q = true → exec .leaseForce s = .next (giveUp q s))
        ∧ (q.block = 3 ∨ attempt s q = s → exec .leaseForce s = .next (forceReq q s))
        ∧ (q.forced = false → inProgress s q = false → q.block = 3 → exec .leaseForce s = .next { s with chip := { s.chip with
            leaseQ := [{ q with forced := true, at' := max q.at' (s.now - 240000) }]
            outbox := s.chip.outbox ++ [⟨.leaseOffer, [c, q.job, q.rank, 2, min most (max least (fairShare s q.job)) - held]⟩] } }))
    ∧ (∀ n, noticeOver s = some n → (∀ x ∈ s.jobs, x.apt.next = none) →
        let out (l : Lane) : Bool := n.lanes.contains l.k && l.st == .notice
        let u : State := { darkenLanes out s with chip := { (darkenLanes out s).chip with notices := s.chip.notices.erase n } }
        let v := match ((s.chip.egress.find? out).map (·.peer)).bind fun d => (laneSet u n.job n.rank d).head?.map fun k => (d, k) with
          | none => u
          | some (d, k) => relight k d u
        exec .noticeExpire s = .next (if n.reason = 0 then v
          else tellHolder n.job n.rank n.peer 5 (n.peer + 2 ^ 16 * heldBy v n.job n.rank n.peer + 2 ^ 32 * n.reason) v))
    ∧ (∀ x pid, s.job? q.job = some x →
        (x.pid = pid → exec (.pidExchange q.job c pid) s = .next s)
        ∧ (x.pid ≠ pid → x.status = .running → x.rolling = false → Runs (.pidExchange q.job c pid) s fun t =>
            (∀ y, t.job? q.job = some y → y.status = .killed) ∧ (∀ k ∈ t.core :: t.cores, q.job ≠ 0 → k.job ≠ q.job)
            ∧ t.chip.outbox.getLast? = some ⟨.event, [causeCode .launchPlace, q.job]⟩))

/-- A receiver's error is counted and asks for replay from the flit its link brought last; the sender counts it, drops what is acknowledged
and replays the rest on the same lane. Sixteen errors begin a repair, whose flits go out again on another lane of the set, or the baseline
lane, or wait for a lane; when all are acknowledged the lane is RETIRED, the peer hears of it, and its holder is given another. 1 ms after
its first error a lane's count is zero (11 R338 to R340). Events that are not enabled change nothing (log entry 12). -/
def Obligations.LanesRetryAndRepair : Prop :=
  ∀ (s : State) (k : Nat),
    let more (l : Lane) : Lane := { l with err := min 255 (l.err + 1), errAt := if l.err = 0 then s.now else l.errAt }
    let told (l : Lane) (st : Nat) : Msg := ⟨.leaseOffer, [l.peer, l.job, l.holder, 4, st, l.k / 8 * 8 + l.wave]⟩
    (∀ l, s.chip.ingress.find? (·.k == k) = some l → exec (.flitCrcError k) s = .next { s with chip := { s.chip with
      ingress := s.chip.ingress.map fun x => if x.k = k then more x else x
      outbox := s.chip.outbox ++ [⟨.flit, [l.peer, k, 1, l.last l.peer]⟩] } })
    ∧ (∀ l src seq, laneAt s k = some l →
        let got := (l.unacked.filter fun f => f.peer == src && decide (f.link ≤ seq)).map (·.tx)
        let left (u : List Flit) : List Flit := u.filter fun f => !(f.peer == src && got.contains f.tx)
        (exec (.flitAckReceive ⟨src, k⟩ seq) s = .next { s with chip := { s.chip with
          egress := s.chip.egress.map fun x => { x with unacked := left x.unacked }
          resend := (s.chip.resend.map fun r =>
            if r.1 = src then (r.1, r.2.filter fun n => !got.contains n) else r).filter fun r => !r.2.isEmpty } })
        ∧ Runs (.replayRequestReceive ⟨src, k⟩ seq) s fun t => SameMemory s t ∧ t.core = s.core
            ∧ t.chip.outbox = s.chip.outbox ++
              [⟨.flit, [src, k, 0] ++ (l.unacked.filter fun f => f.peer == src && decide (seq < f.link)).map (·.tx)⟩]
            ∧ ∃ l', laneAt t k = some l' ∧ l' = { more l with unacked := left l.unacked })
    ∧ (∀ src seq, laneAt s k = none →
        exec (.flitAckReceive ⟨src, k⟩ seq) s = .next s ∧ exec (.replayRequestReceive ⟨src, k⟩ seq) s = .next s)
    ∧ (∀ l, laneAt s k = some l → inUse l = true → 16 ≤ l.err →
        let u : State := { s with chip := { s.chip with
          egress := s.chip.egress.map fun x => if x.k = k then { x with st := .repair, was := l.st } else x
          outbox := s.chip.outbox ++ [told l 5] } }
        exec (.laneRepairStart k) s = .next ((ascNats (l.unacked.map (·.peer))).foldl (issueAgain l) u)
        ∧ (l.unacked ≠ [] → (∀ f ∈ l.unacked, f.peer = l.peer) → Runs (.laneRepairStart k) s fun t =>
          SameMemory s t ∧ (∃ l', laneAt t k = some l' ∧ l'.st = .repair ∧ l'.was = l.st)
          ∧ let txs := l.unacked.map (·.tx)
            let set := laneSet u l.job (if l.st = .aperture then 16384 else l.holder) l.peer
              ++ (u.chip.egress.filter fun x => x.st == .baseline && x.peer == l.peer).map (·.k)
            (set = [] → t.chip.outbox = s.chip.outbox ++ [told l 5] ∧ t.chip.resend = keepFlits l.peer txs s.chip.resend)
            ∧ ∀ n, set.head? = some n → n ≠ k →
                t.chip.outbox = s.chip.outbox ++ [told l 5, ⟨.flit, [l.peer, n, 0] ++ txs⟩]
                ∧ ∀ m, laneAt s n = some m → ∃ m', laneAt t n = some m' ∧ m'.unacked.map (·.tx) = m.unacked.map (·.tx) ++ txs))
    ∧ (∀ l, laneAt s k = some l → l.err < 16 → exec (.laneRepairStart k) s = .next s)
    ∧ (∀ l, laneAt s k = some l → l.st = .repair → l.unacked = [] →
        let u : State := { s with chip := { s.chip with
          egress := s.chip.egress.map fun x => if x.k = k then { x with st := .retired, holder := 0, job := 0, peerRank := 0 } else x
          outbox := s.chip.outbox ++ [told l 6] } }
        (l.was ≠ .baseline → l.was ≠ .leased → exec (.laneRetire k) s = .next u)
        ∧ (l.was = .baseline → exec (.laneRetire k) s = .next (askBaseline u l.peer))
        ∧ (l.was = .leased → leaseOf s l.job l.holder l.peerRank = none → exec (.laneRetire k) s = .next u)
        ∧ (∀ x, l.was = .leased → leaseOf s l.job l.holder l.peerRank = some x →
          let q : LeaseReq :=
            { job := x.job, rank := x.rank, peer := x.peer, count := 1, min := 1, at' := l.at', core := x.core, seq := x.seq,
              ring := x.ring, desc := x.desc, repair := true, task := x.task }
          exec (.laneRetire k) s = .next (attempt { u with chip := { u.chip with leaseQ := q :: s.chip.leaseQ } } q)))
    ∧ (∀ l, laneAt s k = some l → l.unacked ≠ [] → exec (.laneRetire k) s = .next s)
    ∧ (let fresh (l : Lane) : List Lane :=
         if l.k = k ∧ l.err ≠ 0 ∧ l.errAt + 1200000 ≤ s.now then (if l.st = .dark then [] else [{ l with err := 0 }]) else [l]
       exec (.errcntWindowEnd k) s = .next { s with chip := { s.chip with
         egress := s.chip.egress.flatMap fresh, ingress := s.chip.ingress.flatMap fresh } })

/-! ## Tiers, errors, dies mapped out (13 R373 to R381; 15 R404, R416, R424) -/

/-- A request that waits alone: one whose page is gone is the Tier Manager's fault and dropped, one for a page that is pinned or kept by
SPIN is dropped; a change of scheme stays in place; a demotion goes to the backing frame, else to a free run that the quota allows; a
promotion to a free HBM4E run that the quota allows; with none, the request takes the page's lock and sets M, and then waits, or a victim
goes first; one for HBM4E waits in Limited Service (15 R426). A move sets M; its lines flip in ascending address, each copied unless the destination is current, and at its end the leaf
names the destination, M is clear, no translation of the page is cached, and the source frames are given back (13 R371, R373 to R380; 15
R404). That the lowest free run is taken is the model's choice (log entries 12, 23, 39). -/
def Obligations.PagesMoveBetweenTiers : Prop :=
  ∀ (s : State) (m : Move),
    (m.tier = 0 → s.chip.svc = 1 → s.chip.moves = [m] → (∀ x ∈ s.jobs, x.hbmu ≤ x.hbmq) → exec .tierMoveStart s = .next s)
    ∧ (m.busy = false → m.evac = false → s.chip.moves = [m] → (∀ x ∈ s.jobs, x.hbmu ≤ x.hbmq) → (m.tier = 0 → s.chip.svc ≠ 1) →
      let gone (u : State) : State := { u with chip := { u.chip with moves := [] } }
      (pageAt s m.asid m.va = none →
        (moveFault s m = none → exec .tierMoveStart s = .next (gone s))
        ∧ (∀ c, moveFault s m = some c → exec .tierMoveStart s = .next (match engineFault s 3 m.asid m.va c with
            | some u => gone u
            | none => s)))
      ∧ (∀ p, pageAt s m.asid m.va = some p →
          let job := (s.job? (spaceJob s m.asid)).getD { num := spaceJob s m.asid }
          let n := p.size / 2 ^ 16
          let stay := pinnedRange s p.pa p.size || bitOf p.leaf.e 13
          let setsM (on : Bool) (u : State) : State := setEntry u p.leaf.ea (setFld (entryAt u p.leaf.ea) 12 1 (if on then 1 else 0))
          let starts (tier dst : Nat) (u : State) : Prop :=
            let v := setsM true u
            exec .tierMoveStart s = .next { v with chip := { v.chip with moves :=
              [{ m with va := p.va, size := p.size, tier := tier, src := p.pa, dst := dst, next := 0, busy := true }] } }
          let locks : Prop :=
            let v := setsM true s
            exec .tierMoveStart s = .next { v with chip := { v.chip with moves :=
              [{ m with va := p.va, size := p.size, src := p.pa, locked := true }] } }
          (fld p.leaf.e 5 2 = m.tier → starts m.tier p.pa s)
          ∧ (fld p.leaf.e 5 2 ≠ 1 → m.tier = 1 →
              (stay = true → exec .tierMoveStart s = .next (gone (if m.locked then setsM false s else s)))
              ∧ (∀ b, stay = false → backingOf s p.pa p.size = some b → starts 1 b s)
              ∧ (stay = false → backingOf s p.pa p.size = none →
                  (∀ a, job.lpu + n ≤ job.lpq → findRun s 1 p.size = some a → starts 1 a (giveFrames (spaceJob s m.asid) a n s))
                  ∧ (job.lpq < job.lpu + n ∨ findRun s 1 p.size = none →
                      (m.locked = false → locks) ∧ (m.locked = true → exec .tierMoveStart s = .next s))))
          ∧ (fld p.leaf.e 5 2 ≠ m.tier → m.tier = 0 →
              (∀ a, job.hbmu + n ≤ job.hbmq → findRun s 0 p.size = some a →
                starts 0 a (giveFrames (spaceJob s m.asid) a n s))
              ∧ (job.hbmu + n ≤ job.hbmq → findRun s 0 p.size = none →
                  (m.locked = false → locks) ∧ (m.locked = true → exec .tierMoveStart s = .next s))
              ∧ (job.hbmq < job.hbmu + n → (m.locked = false → locks)
                  ∧ (m.locked = true → exec .tierMoveStart s = .next ((demoteVictim s (spaceJob s m.asid)).getD s))))))
    ∧ (flipping s = some m → Runs .tierMoveLineFlip s fun t =>
        let a := m.src + m.next
        let b := m.dst + m.next
        t.chip.moves = s.chip.moves.map (fun x => if x = m then { x with next := x.next + 64 } else x) ∧ t.core = s.core
        ∧ (m.src = m.dst ∨ cleanChunk s m = true → SameMemory s t)
        ∧ (m.src ≠ m.dst → cleanChunk s m = false →
            (∀ k, t.byte k = if b ≤ k ∧ k < b + 64 then s.byte (a + (k - b)) else s.byte k)
            ∧ (s.poison.Nodup → (b / 64 ∈ t.poison ↔ a / 64 ∈ s.poison))))
    ∧ (flipping s = none → exec .tierMoveLineFlip s = .next s)
    ∧ (flipped s = some m → Runs .tierMoveDone s fun t =>
        t.chip.moves = s.chip.moves.erase m
        ∧ (∀ c ∈ t.core :: t.cores, ∀ x ∈ c.tlb, ¬ (x.asid = m.asid ∧ m.va ≤ x.va ∧ x.va < m.va + m.size))
        ∧ (∀ p, m.src = m.dst → pageAt s m.asid m.va = some p → t.word (tierHome s p.leaf.ea) =
            setFld (setFld (setFld (setFld (entryAt s p.leaf.ea) 12 1 0) 5 2 m.tier) 7 3 m.comp) 16 36 (m.dst / 2 ^ 16))
        ∧ (tierOf m.dst = 1 → m.src ≠ m.dst → ∀ f ∈ t.chip.frames, ¬ (m.src ≤ f.pa ∧ f.pa < m.src + m.size))
        ∧ (tierOf m.src = 1 → tierOf m.dst = 0 → m.src ≠ m.dst → t.chip.frames.map (·.pa) = s.chip.frames.map (·.pa)))
    ∧ (flipped s = none → exec .tierMoveDone s = .next s)
    ∧ (∀ job pa f, frameOf s pa = some f →
        (f.alloc = true → f.job = job → Runs (.frameFree job pa) s fun t =>
          ∀ x ∈ t.chip.frames, x.pa ≠ f.pa ∧ f.back ≠ some x.pa)
        ∧ (f.alloc = false ∨ f.job ≠ job → exec (.frameFree job pa) s = .next s))

/-- An uncorrectable read poisons its line; a correctable SRAM error is counted; an uncorrectable one poisons a scratchpad line, or
loses what it strikes and stops its core with the cause SRAM_UE, or is reported to the ranks of a job. Four failed rows within a second map a die out: its pages
are to move; with none left OUT is set and DIES falls by one; once no region selects the die BUSY ends and the host hears of it (13
R381; 15 R416, R423, R424). The agent recorded and what is lost are the model's (log entries 12, 42, 57). -/
def Obligations.ErrorsAndMappedOutDies : Prop :=
  ∀ (s : State) (pa : Nat),
    (physOk pa = false → exec (.memoryUncorrectableError pa) s = .next s)
    ∧ (physOk pa = true → Runs (.memoryUncorrectableError pa) s fun t =>
        SameMemory s t ∧ t.core = s.core ∧ (∀ l, l ∈ t.poison ↔ l = tierHome s pa / 64 ∨ l ∈ s.poison)
        ∧ (tierOf pa = 1 → t.chip = s.chip)
        ∧ ∀ o, tierOf pa = 0 → hbmLoc s pa = some o → (o % 8, o / 2 ^ 25 % 16, o / 2 ^ 13 % 2 ^ 16, s.now) ∈ t.chip.ueRows)
    ∧ exec .sramCorrectableError s = .next { s with chip := { s.chip with correctable := s.chip.correctable + 1 } }
    ∧ (s.core.job ≠ 0 →
        (∀ off, Runs (.sramUncorrectableError (.spad off)) s fun t => SameMemory s t ∧ t.core = s.core ∧
          ∀ l, l ∈ t.poison ↔ l = spadKey s.core.job s.core.rank off.toNat / 64 ∨ l ∈ s.poison)
        ∧ (∀ jb, s.job? s.core.job = some jb → jb.rolling = false → actOf (actByte s s.core.job .sramUe) = .park →
            (∀ q, (s.core.seq q).cap.ops = []) → (∀ tr, s.core.trap = some tr → tr.done = true) →
            ∀ x, Runs (.sramUncorrectableError (.coreArray x)) s fun t =>
              (∃ tr : Trap, t.core.trap = some tr ∧ tr.cause = some .sramUe ∧ tr.agent = .rs ∧ tr.act = .park ∧ tr.ticks = s.now
                ∧ tr.done = false ∧ tr.replay = byNum s.core.accq)
              ∧ (∀ n < 32, x = .addr n → s.core.pend = [] → t.core.a[n]? = some (Config.freeWord s.freeCtr))
              ∧ (∀ q, (t.core.seq q).run = false) ∧ t.core.accq = []
              ∧ ∀ k ∈ t.ranks, k.job = s.core.job ∧ k.rank = s.core.rank → k.parked = true))
    ∧ (s.core.job = 0 → ∀ off, exec (.sramUncorrectableError (.spad off)) s = .next s)
    ∧ (∀ j r, localRanks s j = [r] → exec (.sramUncorrectableError (.chipArray j)) s = .next (reportItem s j r .sramUe 0))
    ∧ (∀ st d, st < 8 →
        (busyDie s st = none → dieOut s st d = false → dieBad s st d = true → Runs (.dieMapoutTrigger st d) s fun t =>
          t.chip.mapBusy = s.chip.mapBusy.mapIdx (fun i b => if i = st then some d else b) ∧ SameMemory s t
          ∧ ∀ x ∈ s.jobs, ∀ p ∈ jobPages s x.num, (∃ f ∈ s.chip.frames, dieFrame s st d f = true ∧ p.2.pa ≤ f.pa ∧ f.pa < p.2.pa + p.2.size) →
              ∃ m ∈ t.chip.moves, m.asid = p.1 ∧ m.va = p.2.va ∧ m.evac = true ∧ m.busy = false)
        ∧ (dieBad s st d = false → exec (.dieMapoutTrigger st d) s = .next s)
        ∧ (busyDie s st = some d → dieOut s st d = false → (∀ f ∈ s.chip.frames, dieFrame s st d f = false) →
            exec (.dieMapoutDone st d) s = .next { s with chip := { s.chip with
              outD := s.chip.outD.mapIdx fun i x => if i = st then x ||| BitVec.ofNat 16 (2 ^ d) else x
              dies := s.chip.dies.mapIdx fun i n => if i = st then n - 1 else n } })
        ∧ (busyDie s st = some d → dieOut s st d = true → (∀ r ∈ s.chip.regions.toList, regMeets r st d = false) →
            exec (.dieMapoutDone st d) s = .next { s with chip := { s.chip with
              mapBusy := s.chip.mapBusy.mapIdx fun i b => if i = st then none else b
              outbox := s.chip.outbox ++ [⟨.event, [causeCode .dieMapout, st, d]⟩] } })
        ∧ (busyDie s st ≠ some d → exec (.dieMapoutDone st d) s = .next s))

/-! ## Bring-up, power, the limit (14 R385, R398, R399; 15 R425 to R427; 16 R434 to R436) -/

/-- A reset verifies the stored image: recovery on failure, which the host hears of; the security state, MIN_SVN, keys and their
indices stay. In recovery a new image may be loaded. LPDDR-6 training gives limited service; HBM4E training records stacks that fail
with DIES 0; calibration pre-empts every rank, and once they are saved gives full service. Loss of power keeps nothing that needs it,
and writes no record; at power-on interfaces that were locked or running are in ERROR, reason 4 (14 R385, R386, R399; 15 R425 to R427).
What reset leaves beside the stored items, and how the pod slot clock then stands, is log entries 2, 41 and 22 (and 12). -/
def Obligations.BringUpGivesService : Prop :=
  ∀ (s : State),
    let kept (t : State) : Prop := t.chip.secState = s.chip.secState ∧ t.chip.minSvn = s.chip.minSvn ∧ t.chip.idKey = s.chip.idKey
      ∧ t.chip.attKey = s.chip.attKey ∧ t.chip.idIdx = s.chip.idIdx ∧ t.chip.attIdx = s.chip.attIdx
      ∧ t.chip.ownerKey = s.chip.ownerKey ∧ t.chip.id = s.chip.id
    let verdict (fw : Option FwImage) (t : State) : Prop :=
      t.chip.recovery = !((fw.map fun i => i.sigOk && decide (s.chip.minSvn.toNat ≤ i.svn.toNat)).getD false)
      ∧ t.chip.outbox = s.chip.outbox ++ (if t.chip.recovery then [⟨.event, [evService, 0]⟩] else [])
    (Runs .deviceReset s fun t => kept t ∧ t.chip.fw = s.chip.fw ∧ verdict s.chip.fw t ∧ t.core = State.reset.core ∧ t.cores = State.reset.cores
        ∧ t.ranks = [] ∧ t.jobs = [] ∧ t.mem = [] ∧ t.chip.svc = 0 ∧ t.chip.tdi = State.reset.chip.tdi)
    ∧ (∀ img, s.chip.recovery = true → Runs (.firmwareImageLoad img) s fun t => kept t ∧ t.chip.fw = some img ∧ verdict (some img) t)
    ∧ (∀ img, s.chip.recovery = false → exec (.firmwareImageLoad img) s = .next s)
    ∧ (s.chip.fw ≠ none → s.chip.recovery = false → s.chip.svc = 0 → exec .lpddrTrainingDone s = .next
        { s with chip := { s.chip with svc := 1, outbox := s.chip.outbox ++ [⟨.event, [evService, 1]⟩] } })
    ∧ (s.chip.recovery = true → exec .lpddrTrainingDone s = .next s)
    ∧ (∀ failed, s.chip.hbmUp = true → exec (.hbmTrainingDone failed) s = .next s)
    ∧ (∀ failed, s.chip.svc = 1 → s.chip.hbmUp = false → Runs (.hbmTrainingDone failed) s fun t => t.chip.hbmUp = true
        ∧ (∀ i < 8, t.chip.stacksUp.getLsbD i = !failed.contains i)
        ∧ t.chip.dies = s.chip.dies.mapIdx fun i n => if failed.contains i then 0 else n)
    ∧ (s.chip.svc = 1 → s.chip.hbmUp = true →
        (ranksSaved s = false → exec .opticalCalibrationDone s = .next (stopRanks s))
        ∧ (s.ranks = [] → exec .opticalCalibrationDone s = .next { s with freeCtr := s.freeCtr + 1, chip := { s.chip with
            svc := 2, optics := true, podOff := Config.freeRemote s.freeCtr, outbox := s.chip.outbox ++ [⟨.event, [evService, 2]⟩] } }))
    ∧ (Runs .powerLoss s fun t => kept t ∧ t.chip.pwr = .off ∧ t.chip.outbox = s.chip.outbox ∧ t.ranks = [] ∧ t.jobs = [] ∧ t.mem = []
        ∧ t.chip.loupe = .off ∧ t.chip.sysKey = none
        ∧ t.chip.tdi = s.chip.tdi.map fun x => { x with ide := none, key := none })
    ∧ (s.chip.pwr = .off → Runs .powerOn s fun t => kept t ∧ verdict s.chip.fw t ∧ t.chip.pwr = .full
        ∧ t.chip.tdi = s.chip.tdi.map fun x =>
            if x.st = .locked ∨ x.st = .run then { x with st := .error, reason := 4, key := none, ide := none }
            else if x.st = .error then x else { x with key := some 0 })
    ∧ (s.chip.pwr ≠ .off → exec .powerOn s = .next s)

/-- A TARGET of full or reduced clock begins the change at the next rotation boundary; idle and retain pre-empt every rank first, and
retain is refused in Loupe halt; off kills every job first; during a transition the last TARGET waits. A transition ends at its boundary,
or with every rank saved. A wake returns to the state before, from a transition under way once that has ended; a device in recovery takes no TARGET (14 R385, R398; 16
R435). How pre-empted ranks resume is the model's (log entries
12, 42, 44). -/
def Obligations.PowerFollowsItsTarget : Prop :=
  ∀ (s : State),
    let boundary := (s.now / 2560 + 1) * 2560
    let runsOn := s.chip.pwrTo = none ∧ (s.chip.pwr = .full ∨ s.chip.pwr = .reduced)
    let goes (i : Instr) (p : PwrSt) (n : Nat) : Prop := exec i s = .next { s with chip := { s.chip with
      target := n, pwrTo := some p, pwrAt := boundary } }
    let sleeps (i : Instr) (p : PwrSt) (n : Nat) : Prop := Runs i s fun t =>
      t.chip.target = n ∧ t.chip.pwrTo = some p ∧ t.chip.pwr = s.chip.pwr ∧ t.chip.pwrPrev = (if s.chip.pwr = .reduced then 1 else 0)
      ∧ ∀ k, s.ranks = [k] → k.cold = false → s.core.job = k.job → s.core.rank = k.rank → s.core.coreId.toNat < 128 →
          s.core.stopReq = none → t.core.stopReq = some s.now
    let writes : List (Instr × Nat) :=
      [(.pwrTargetFull, 0), (.pwrTargetReduced, 1), (.pwrTargetIdle, 2), (.pwrTargetRetain, 3), (.pwrTargetOff, 4)]
    (s.chip.recovery = true → ∀ x ∈ writes, exec x.1 s = .next s)
    ∧ (s.chip.recovery = false → runsOn →
      (s.chip.pwr = .reduced → s.chip.throt = false → goes .pwrTargetFull .full 0)
      ∧ (s.chip.pwr = .full ∨ s.chip.throt = true → exec .pwrTargetFull s = .next { s with chip := { s.chip with target := 0 } })
      ∧ (s.chip.pwr = .full → goes .pwrTargetReduced .reduced 1)
      ∧ sleeps .pwrTargetIdle .idle 2
      ∧ (s.chip.loupe ≠ .halt → sleeps .pwrTargetRetain .retain 3)
      ∧ (s.chip.loupe = .halt → exec .pwrTargetRetain s = .next { s with chip := { s.chip with refused := true } })
      ∧ (Runs .pwrTargetOff s fun t => t.chip.target = 4 ∧ t.chip.pwrTo = some .off
          ∧ ∀ x, s.jobs = [x] → x.status = .running → x.rolling = false → ∀ y ∈ t.jobs, y.status = .killed))
    ∧ (∀ p, s.chip.recovery = false → s.chip.pwrTo = some p → s.chip.pwr = .full ∨ s.chip.pwr = .reduced → ∀ x ∈ writes,
        exec x.1 s = .next { s with chip := { s.chip with targetNext := some x.2 } })
    ∧ (s.ranks = [] → s.chip.targetNext = none → s.chip.loupe ≠ .halt →
        let done (p : PwrSt) (n : Nat) : Prop := exec .powerTransitionDone s = .next { s with chip := { s.chip with
          pwr := p, pwrTo := none, overAt := if p = .reduced then s.chip.overAt.map fun _ => s.now else s.chip.overAt
          outbox := s.chip.outbox ++ [⟨.event, [evPower, n]⟩] } }
        (s.chip.pwrTo = some .full → s.chip.pwrAt ≤ s.now → done .full 0)
        ∧ (s.chip.pwrTo = some .reduced → s.chip.pwrAt ≤ s.now → done .reduced 1)
        ∧ (s.chip.pwrTo = some .idle → done .idle 2) ∧ (s.chip.pwrTo = some .retain → done .retain 3))
    ∧ (s.chip.pwrTo = some .off → Runs .powerTransitionDone s fun t => t.chip.pwr = .off
        ∧ t.chip.outbox = s.chip.outbox ++ [⟨.event, [evPower, 4]⟩])
    ∧ (∀ p, s.chip.pwrTo = some p → p ≠ .off → p ≠ .full → p ≠ .reduced → ranksSaved s = false →
        exec .powerTransitionDone s = .next s)
    ∧ (s.chip.pwr = .idle ∨ s.chip.pwr = .retain → s.chip.pwrTo = none → exec .powerWake s = .next { s with chip := { s.chip with
        target := s.chip.pwrPrev, pwrTo := some (if s.chip.pwrPrev = 1 ∨ s.chip.throt = true then .reduced else .full) } })
    ∧ (s.chip.pwrTo = some .idle ∨ s.chip.pwrTo = some .retain → exec .powerWake s = .next { s with chip := { s.chip with
        targetNext := some s.chip.pwrPrev } })
    ∧ (s.chip.pwr = .full → s.chip.pwrTo = none → exec .powerWake s = .next s)

/-- A draw above the limit with THR forces reduced clock and sets THROT; each further millisecond above it raises GATE, up to 15, where
LMISS is set and the host hears of it; ten milliseconds at or below 90 % lower GATE, and at GATE 0 with TARGET full return to full. 105 °C
forces reduced clock whatever THR holds; 115 °C enters off and posts an event (16 R436). Events that are not due change nothing (log
entries 12, 22). -/
def Obligations.TheLimitThrottles : Prop :=
  ∀ (s : State) (x : Nat),
    let c := s.chip
    (c.thr = true → c.limit < x → c.throt = false → c.pwr = .full → c.pwrTo = none → Runs (.throttleEnter x) s fun t =>
        t.chip.throt = true ∧ t.chip.pwrTo = some .reduced ∧ t.chip.pwrAt = (s.now / 2560 + 1) * 2560 ∧ t.chip.draw = x
        ∧ t.chip.overAt = some s.now ∧ t.core = s.core ∧ SameMemory s t)
    ∧ (c.limit < x → c.thr = true → c.throt = true → c.pwr = .reduced → ∀ n, c.overAt = some n → n + 1200000 ≤ s.now →
        (c.gate < 15 → Runs (.gateRaise x) s fun t => t.chip.gate = c.gate + 1 ∧ t.chip.overAt = some s.now ∧ t.chip.outbox = c.outbox)
        ∧ (c.gate = 15 → c.lmiss = false → Runs (.gateRaise x) s fun t => t.chip.gate = 15 ∧ t.chip.lmiss = true
            ∧ t.chip.outbox = c.outbox ++ [⟨.event, [evPower, 5]⟩]))
    ∧ (c.limit < x → ∀ n, c.overAt = some n → s.now < n + 1200000 → Runs (.gateRaise x) s fun t => t.chip.gate = c.gate)
    ∧ (10 * x ≤ 9 * c.limit → ∀ n, c.underAt = some n → n + 12000000 ≤ s.now →
        (0 < c.gate → Runs (.gateLower x) s fun t => t.chip.gate = c.gate - 1 ∧ t.chip.underAt = some s.now)
        ∧ (c.gate = 0 → c.throt = true → c.target = 0 → c.tj < 105 → c.pwr = .reduced → c.pwrTo = none →
            Runs (.throttleExit x) s fun t => t.chip.throt = false ∧ t.chip.pwrTo = some .full))
    ∧ (9 * c.limit < 10 * x → Runs (.gateLower x) s fun t => t.chip.gate = c.gate ∧ t.chip.underAt = none)
    ∧ (105 ≤ x → c.pwr = .full → c.pwrTo = none → Runs (.thermalReduce x) s fun t =>
        t.chip.throt = true ∧ t.chip.pwrTo = some .reduced ∧ t.chip.tj = x)
    ∧ (x < 105 → exec (.thermalReduce x) s = .next { s with chip := { c with tj := x } })
    ∧ (115 ≤ x → c.pwr ≠ .off → s.jobs = [] → Runs (.thermalOff x) s fun t => t.chip.pwr = .off ∧ t.chip.tj = x
        ∧ t.chip.outbox = c.outbox ++ [⟨.event, [evPower, 4, x]⟩])
    ∧ (x < 115 → exec (.thermalOff x) s = .next { s with chip := { c with tj := x } })

/-! ## Security, host accesses, the Loupe (14 R386 to R397; 16 R429) -/

/-- Security states go forward only, to production with the Loupe off; keys are generated in manufacturing; MEASUREMENTS commits its index
before it answers, and a spent key answers with an error; LOCK gives a fresh key and is refused in manufacturing, in Loupe halt, from another
state, or while a queue of the partition is mapped; START and STOP make the transitions of R392; the report names the interface's pages,
firmware, states, the hash of its frozen registers, quotas and identity; IDE_KM keys the stream, whose failure sends a held interface to
ERROR, as a change of the binding does; a device in recovery answers none of these (14 R385 to R395, R399). Replies are response codes; keys,
signatures and hashes free values (log entries 12, 14, 41). -/
def Obligations.InterfacesFollowTheirTable : Prop :=
  ∀ (s : State) (n : Nat),
    let answers (i : Instr) (k : Nat) : Prop := exec i s = .next { s with chip := { s.chip with
      outbox := s.chip.outbox ++ [⟨.response, [n, k]⟩] } }
    let said (t : State) : Prop := t.chip.outbox = s.chip.outbox ++ [⟨.response, [n, 0]⟩]
    (∀ d, exec (.securityStateTransition d) s = .next (if (s.chip.secState = .manufacturing ∧ d ≠ .manufacturing
          ∨ s.chip.secState = .development ∧ d = .production) ∧ (d = .production → s.chip.loupe = .off) then { s with chip := { s.chip with secState := d } } else s))
    ∧ (exec .identityKeyGeneration s = .next (if s.chip.secState = .manufacturing then
        { s with chip := { s.chip with idKey := true, attKey := true, idIdx := 0, attIdx := 0 } } else s))
    ∧ (s.chip.recovery = true → ∀ i key, i ∈ [Instr.measurements, .lockInterfaceRequest n, .startInterfaceRequest n, .stopInterfaceRequest n,
        .getDeviceInterfaceReport n, .ideKm n key] → exec i s = .next s)
    ∧ (s.chip.recovery = false → s.chip.attKey = true →
        let hash (t : Nat) : Nat := if (tdiAt s t).st = .unlocked then 0 else Config.sha384 (reportWords s t)
        (s.chip.attIdx < 2 ^ 20 → Runs .measurements s fun t => t.chip.attIdx = s.chip.attIdx + 1 ∧ SameMemory s t ∧ ∃ sig,
          t.chip.outbox = s.chip.outbox ++ [⟨.report, [(s.chip.fw.map (·.hash)).getD 0, (s.chip.fw.map (·.svn.toNat)).getD 0,
            s.chip.minSvn.toNat, secCode s.chip.secState, loupeCode s.chip.loupe] ++ (List.range 16).map hash
            ++ [s.chip.attIdx, sig]⟩])
        ∧ (2 ^ 20 ≤ s.chip.attIdx → exec .measurements s = .next { s with chip := { s.chip with
            outbox := s.chip.outbox ++ [⟨.response, [1]⟩, ⟨.event, [causeCode .attestExhausted]⟩] } }))
    ∧ (s.chip.recovery = false → n < 16 →
        ((tdiAt s n).st ≠ .unlocked ∨ s.chip.secState = .manufacturing ∨ s.chip.loupe = .halt → answers (.lockInterfaceRequest n) 1)
        ∧ ((tdiAt s n).st = .unlocked → s.chip.secState ≠ .manufacturing → s.chip.loupe ≠ .halt →
            ((∃ m ∈ s.chip.mapped, qTenant s m.q = n) → answers (.lockInterfaceRequest n) 1)
            ∧ ((∀ m ∈ s.chip.mapped, qTenant s m.q ≠ n) → Runs (.lockInterfaceRequest n) s fun t =>
                (tdiAt t n).st = .locked ∧ (tdiAt t n).key.isSome = true ∧ (tdiAt t n).loupe = loupeCode s.chip.loupe
                ∧ (tdiAt t n).hash = Config.sha384 (frozenWords s n)
                ∧ (∀ k, k ≠ n → tdiAt t k = tdiAt s k) ∧ said t ∧ t.core = s.core ∧ t.jobs = s.jobs))
        ∧ ((tdiAt s n).st = .locked → Runs (.startInterfaceRequest n) s fun t =>
            tdiAt t n = { tdiAt s n with st := .run } ∧ (∀ k, k ≠ n → tdiAt t k = tdiAt s k) ∧ said t ∧ SameMemory s t)
        ∧ ((tdiAt s n).st ≠ .locked → answers (.startInterfaceRequest n) 1)
        ∧ ((tdiAt s n).st ≠ .unlocked → Runs (.stopInterfaceRequest n) s fun t =>
            (tdiAt t n).st = .unlocked ∧ (tdiAt t n).ide = none ∧ (tdiHeld s n = true → (tdiAt t n).key = none)
            ∧ (∀ k, k ≠ n → tdiAt t k = tdiAt s k) ∧ said t)
        ∧ ((tdiAt s n).st = .unlocked → answers (.stopInterfaceRequest n) 1 ∧ answers (.getDeviceInterfaceReport n) 2)
        ∧ ((tdiAt s n).st ≠ .unlocked → exec (.getDeviceInterfaceReport n) s = .next { s with chip := { s.chip with
            outbox := s.chip.outbox ++ [⟨.report, [n, Config.tdispInfo n 0, 4096 * (2 * n), 1, Config.tdispInfo n 1, 4096 * (2 * n + 1), 1, Config.tdispInfo n 2]
              ++ [(s.chip.fw.map (·.hash)).getD 0, (s.chip.fw.map (·.svn.toNat)).getD 0, s.chip.minSvn.toNat]
              ++ [secCode s.chip.secState, (tdiAt s n).loupe, (tdiAt s n).hash]
              ++ (s.jobs.filter fun x => jobPart s x.num == n).flatMap
                  (fun x => [x.num, x.hbmq, x.lpq, x.coreq, x.laneq])
              ++ [Config.idCertHash, s.chip.id]⟩] } })
        ∧ (∀ key, tdiHeld s n = false → Runs (.ideKm n key) s fun t => tdiAt t n = { tdiAt s n with ide := some key }
            ∧ (∀ k, k ≠ n → tdiAt t k = tdiAt s k) ∧ SameMemory s t)
        ∧ (∀ key, tdiHeld s n = true → Runs (.ideKm n key) s fun t => (tdiAt t n).st = .error ∧ (tdiAt t n).reason = 1
            ∧ (tdiAt t n).key = none ∧ (tdiAt t n).ide = none))
    ∧ (n < 16 → (tdiHeld s n = false → exec (.ideIntegrityFailure n) s = .next s)
        ∧ (tdiHeld s n = true → Runs (.ideIntegrityFailure n) s fun t =>
            (tdiAt t n).st = .error ∧ (tdiAt t n).reason = 3 ∧ (tdiAt t n).key = none ∧ (tdiAt t n).ide = none
            ∧ ∀ x, s.jobs = [x] → x.tenant = n → x.status = .running → x.rolling = false → ∀ y ∈ t.jobs, y.status = .killed))

/-- A host access reaches WIN_BASE plus its offset: absent bytes read as ones and take no write; the memory of a held interface answers
only its own IDE stream, and any other access is counted in REJ; NOTIFY and SERVED of a queue descriptor are read-only, and a 1 written at
ERR clears it. The Loupe enters observe or halt in production only with an
authorization for the device, the state and the last nonce under the owner's key, good for one entry; halt is refused in retain, sends
held interfaces to ERROR and pre-empts every rank; a device in recovery answers none of these (14 R385, R391, R393, R397, R399; 16 R429). Replies are response codes (log entries 14, 41);
a write to a frozen register is log entry 40's. -/
def Obligations.TheHostAndTheLoupe : Prop :=
  ∀ (s : State),
    (s.chip.recovery = true → ∀ off n bytes ide a h, ∀ i ∈ [Instr.hostBar4Read off n ide, .hostBar4Write off bytes ide, .loupeObserveEnter a,
        .loupeHaltEnter a, .debugNonceIssue, .ownerKeyProvision h], exec i s = .next s)
    ∧ (∀ off n ide, s.chip.recovery = false → 0 < n → off + n ≤ 2 ^ 36 →
      let pa := s.chip.winBase.toNat + off
      (shutOut s pa n ide = [] → (∀ i < n, physOk (pa + i) = true → tierHome s (pa + i) / 64 ∉ s.poison) →
        exec (.hostBar4Read off n ide) s = .next { s with chip := { s.chip with outbox := s.chip.outbox ++ [⟨.response, 0 ::
          (List.range n).map fun i => if physOk (pa + i) then (s.byte (tierHome s (pa + i))).toNat else 255⟩] } })
      ∧ (∀ t, t < 16 → shutOut s pa n ide = [t] → Runs (.hostBar4Read off n ide) s fun u =>
          (tdiAt u t).rej = min ((tdiAt s t).rej + 1) (2 ^ 24 - 1) ∧ SameMemory s u
          ∧ u.chip.outbox = s.chip.outbox ++ [⟨.response, [1]⟩])
      ∧ (∀ bytes : List Byte, bytes.length = n →
          (∀ t, t < 16 → shutOut s pa n ide = [t] → Runs (.hostBar4Write off bytes ide) s fun u =>
            (tdiAt u t).rej = min ((tdiAt s t).rej + 1) (2 ^ 24 - 1) ∧ SameMemory s u
            ∧ u.chip.outbox = s.chip.outbox ++ [⟨.response, [1]⟩])
          ∧ (shutOut s pa n ide = [] → frozenBy s pa n = [] → pa % 64 + n ≤ 64 → touched s.chip.qdBase.toNat 64 4096 pa n = [] →
              roWords s pa n = [] →
              (physOk pa = false → Runs (.hostBar4Write off bytes ide) s (SameMemory s))
              ∧ (physOk pa = true → poisonAt s true ⟨tierHome s pa, n, 0, 0, pa⟩ = none → noKey s (tierHome s pa) = false →
                  Runs (.hostBar4Write off bytes ide) s fun u =>
                    ∀ k, u.byte k = if tierHome s pa ≤ k ∧ k < tierHome s pa + n then bytes[k - tierHome s pa]?.getD 0 else s.byte k))
          ∧ (∀ q i b, q < 4096 → 8 ≤ i → i < 24 → pa = qdAt s q + i → bytes = [b] → shutOut s pa n ide = [] → frozenBy s pa n = [] →
              bitOf (qdWord s q 0) 56 = true → Runs (.hostBar4Write off bytes ide) s fun u =>
                qNotify u q = qNotify s q ∧ qServed u q = qServed s q
                ∧ qErr u q = (qErr s q && !(decide (i = 17) && b.getLsbD 0)))
          ∧ (∀ t, t < 16 → shutOut s pa n ide = [] → frozenBy s pa n = [t] → tdiHeld s t = true →
              Runs (.hostBar4Write off bytes ide) s fun u => (tdiAt u t).st = .error ∧ (tdiAt u t).reason = 1)))
    ∧ (∀ a, s.chip.recovery = false → let mayEnter (toHalt : Bool) : Prop := s.chip.secState ≠ .production ∨
              (a.sigOk = true ∧ a.toHalt = toHalt ∧ a.device = s.chip.id ∧ s.chip.nonce = some a.nonce ∧ s.chip.ownerKey = some a.keyHash)
        let refuses (i : Instr) : Prop := exec i s = .next { s with chip := { s.chip with
          outbox := s.chip.outbox ++ [⟨.response, [1]⟩] } }
        (¬ mayEnter false → refuses (.loupeObserveEnter a))
        ∧ (mayEnter false → s.chip.loupe ≠ .halt → exec (.loupeObserveEnter a) s = .next { s with chip := { s.chip with
            loupe := .observe, nonce := if s.chip.secState = .production then none else s.chip.nonce } })
        ∧ (¬ mayEnter true ∨ s.chip.pwr = .retain ∨ s.chip.pwrTo = some .retain → refuses (.loupeHaltEnter a))
        ∧ (mayEnter true → s.chip.pwr ≠ .retain → s.chip.pwrTo ≠ some .retain → Runs (.loupeHaltEnter a) s fun t =>
            t.chip.loupe = .halt ∧ (s.chip.secState = .production → t.chip.nonce = none)
            ∧ ∀ k < 16, tdiHeld s k = true → (tdiAt t k).st = .error ∧ (tdiAt t k).reason = 2))
    ∧ (s.chip.loupe ≠ .halt → exec .loupeOff s = .next { s with chip := { s.chip with loupe := .off } })
    ∧ (s.chip.recovery = false → Runs .debugNonceIssue s fun t => ∃ n, t.chip.nonce = some n ∧ SameMemory s t
        ∧ t.chip.outbox = s.chip.outbox ++ [⟨.response, [0, n]⟩])
    ∧ (∀ h, s.chip.recovery = false → exec (.ownerKeyProvision h) s = .next { s with chip := { s.chip with ownerKey := some h } })

/-! ## Operations of system software and management registers (10 R299, R312; 12 R343, R344; 13 R369 to R383; 14 R385; 15 R403, R404,
R417, R424; 16 R430 to R434) -/

/-- The operation that runs has its effect on its two arguments and ends with CAUSE 0, or changes nothing and ends with the cause its
rule names: FRAME_ALLOC gives the lowest free run within the quota, PAGE_MOVE queues a request, RESOLVE lets halted agents retry,
AS_ADVANCE sets GEN to (GEN + 1) mod 4096, QUOTA_SET writes the quota record, MAP_LOAD a region, ACT_SET an entry, RESUME_RANK replays
or kills, PLACE accepts a request, SVN_COMMIT raises MIN_SVN, PORT_SET and PLACE_STAGE take tables and an image, CKPT_SET an interval,
MAPOUT starts a map-out. A nonzero unused bit, or a record in memory of a held interface, is RSV_FIELD (14 R384; 16 R432, R433, and the
rules it names). That FRAME_ALLOC gives the lowest
free run is the model's choice, and some causes are (log entries 12, 14, 23, 39, 40). -/
def Obligations.OperationsOfSystemSoftware : Prop :=
  ∀ (s : State),
    let a := s.chip.opArg0
    let b := s.chip.opArg1
    let j := a.toNat % 2 ^ 16
    let ended (t : State) : Prop := t.chip.opCmd = none ∧ t.chip.opCause = 0 ∧ t.chip.opBusy = true
    let does (i : Instr) (u : State) : Prop := exec i s = .next { u with chip := { u.chip with opCmd := none, opCause := 0 } }
    let refuses (i : Instr) (c : Cause) : Prop := exec i s = .next { s with chip := { s.chip with
      opCmd := none, opCause := causeCode c } }
    (opOn s 1 = true →
      let tier := a.toNat / 2 ^ 16 % 2
      let n := 2 ^ (a.toNat / 2 ^ 17 % 32)
      let x := (s.job? j).getD { num := j }
      let full := if tier = 0 then x.hbmq < x.hbmu + n else x.lpq < x.lpu + n
      (2 ^ 22 ≤ a.toNat ∨ b ≠ 0 ∨ 2 ^ 16 < n → refuses .frameAlloc .rsvField)
      ∧ (a.toNat < 2 ^ 22 → b = 0 → n ≤ 2 ^ 16 → (full → refuses .frameAlloc .allocQuota)
          ∧ ∀ pa, ¬ full → findRun s tier (n * 2 ^ 16) = some pa → Runs .frameAlloc s fun t =>
              ended t ∧ t.chip.opRes = BitVec.ofNat 64 pa
              ∧ ∀ i < n, ∃ f ∈ t.chip.frames, f.pa = pa + i * 2 ^ 16 ∧ f.job = j ∧ f.alloc = true ∧ f.back = none ∧ f.pins = 0))
    ∧ (opOn s 2 = true →
        let tier := a.toNat / 2 ^ 16 % 4
        let comp := a.toNat / 2 ^ 18 % 8
        (2 ^ 21 ≤ a.toNat ∨ 2 ^ 52 ≤ b.toNat ∨ 1 < tier ∨ 3 < comp → refuses .pageMove .rsvField)
        ∧ ∀ p, a.toNat < 2 ^ 21 → b.toNat < 2 ^ 52 → tier ≤ 1 → comp ≤ 3 →
            pageAt s (BitVec.ofNat 16 j) b.toNat = some p → (∀ m ∈ s.chip.moves, ¬ (m.asid.toNat = j ∧ m.va = p.va)) →
            (fld p.leaf.e 5 2, fld p.leaf.e 7 3) ≠ (tier, comp) →
            does .pageMove { s with chip := { s.chip with
              opWait := some (j, p.va)
              moves := s.chip.moves ++ [{ asid := BitVec.ofNat 16 j, va := p.va, size := p.size, tier := tier, comp := comp }] } })
    ∧ (opOn s 3 = true → (2 ^ 32 ≤ a.toNat ∨ 2 ^ 52 ≤ b.toNat → refuses .resolve .rsvField)
        ∧ (a.toNat < 2 ^ 32 → b.toNat < 2 ^ 52 → does .resolve (resolveRange (BitVec.ofNat 16 j) (b.toNat / 2 ^ 16 * 2 ^ 16)
            (b.toNat / 2 ^ 16 * 2 ^ 16 + a.toNat / 2 ^ 16 * 2 ^ 16) s)))
    ∧ (opOn s 4 = true → (2 ^ 16 ≤ a.toNat ∨ b ≠ 0 → refuses .asAdvance .rsvField)
        ∧ (a.toNat < 2 ^ 16 → b = 0 →
            let at' := tierHome s (s.chip.asBase.toNat + 32 * j + 8)
            let g := (s.word at').toNat % 2 ^ 12
            Runs .asAdvance s fun t => ended t ∧ (t.word at').toNat = (s.word at').toNat - g + (g + 1) % 2 ^ 12
              ∧ (∀ c ∈ t.core :: t.cores, (∀ e ∈ c.tlb, e.asid.toNat ≠ j) ∧ ∀ l ∈ c.icache, l.asid.toNat ≠ j)
              ∧ t.ranks.map (fun k => { k with saved := [] }) =
                s.ranks.map fun k => { k with saved := [], gen := if k.asid.toNat = j then BitVec.ofNat 12 (g + 1) else k.gen }))
    ∧ (opOn s 5 = true →
        let w (i : Nat) : Nat := (s.word (b.toNat + 8 * i)).toNat
        let core := w 2 % 2 ^ 8
        let lane := w 2 / 2 ^ 16 % 2 ^ 12
        let reserved := 2 ^ 40 ≤ w 2 ∨ w 4 ≠ 0 ∨ w 5 ≠ 0 ∨ w 6 ≠ 0 ∨ w 7 ≠ 0
        (2 ^ 16 ≤ a.toNat ∨ 2 ^ 52 ≤ b.toNat ∨ hidden s b.toNat 64 = true ∨ reserved ∨ 128 < core ∨ 2047 < lane → refuses .quotaSet .rsvField)
        ∧ (a.toNat < 2 ^ 16 → b.toNat < 2 ^ 52 → hidden s b.toNat 64 = false → ¬ reserved → core ≤ 128 → lane ≤ 2047 →
            (quotaOver s j (w 0 % 2 ^ 32) (w 1 % 2 ^ 32) = true → refuses .quotaSet .quotaOver)
            ∧ (quotaOver s j (w 0 % 2 ^ 32) (w 1 % 2 ^ 32) = false →
                let runs := ∃ x, s.job? j = some x ∧ (x.status = .running ∨ x.status = .retired)
                Runs .quotaSet s fun t => ended t ∧ ∃ y, t.job? j = some y ∧ y.hbmq = w 0 % 2 ^ 32 ∧ y.lpq = w 1 % 2 ^ 32
                  ∧ y.coreq = core ∧ y.repl = w 3 % 2 ^ 52 ∧ y.rnum = w 3 / 2 ^ 52
                  ∧ (¬ runs → y.laneq = lane ∧ y.laneqNext = none) ∧ (runs → y.laneqNext = some lane)
                  ∧ ∀ x, s.job? j = some x → y.hbmu = x.hbmu ∧ y.lpu = x.lpu ∧ (runs → y.laneq = x.laneq))))
    ∧ (opOn s 6 = true → (8 ≤ a.toNat ∨ 2 ^ 52 ≤ b.toNat ∨ hidden s b.toNat 288 = true → refuses .mapLoad .rsvField))
    ∧ (opOn s 6 = true → a.toNat < 8 → b.toNat < 2 ^ 52 → hidden s b.toNat 288 = false →
        let r : BitVec 2304 := BitVec.ofNat 2304 (leVal (s.bytes b.toNat 288))
        (∀ c, mapRefusal s a.toNat r = some c → refuses .mapLoad c)
        ∧ (mapRefusal s a.toNat r = none → does .mapLoad { s with chip := { s.chip with
            regions := s.chip.regions.setIfInBounds a.toNat r } }))
    ∧ (opOn s 7 = true →
        let c := a.toNat / 2 ^ 16 % 2 ^ 16
        let e := a.toNat / 2 ^ 32
        (2 ^ 40 ≤ a.toNat ∨ b ≠ 0 → refuses .actSet .rsvField)
        ∧ (a.toNat < 2 ^ 40 → b = 0 → 1 ≤ c / 256 → c / 256 ≤ 4 → c % 256 ≤ 63 →
            (32 ≤ e ∨ (e % 4 = 1 ∧ replayCode c = false) → refuses .actSet .rsvField)
            ∧ (e < 32 → (e % 4 = 1 → replayCode c = true) → Runs .actSet s fun t => ended t ∧
                ∀ y, t.job? j = some y → y.act.lookup (64 * (c / 256 - 1) + c % 256) = some (BitVec.ofNat 8 e))))
    ∧ (opOn s 8 = true →
        let r := a.toNat / 2 ^ 16 % 2 ^ 14
        let m := a.toNat / 2 ^ 30
        (m ≠ 1 ∧ m ≠ 2 ∨ b ≠ 0 ∨ s.rank? j r = none → refuses .resumeRank .rsvField)
        ∧ (∀ k, b = 0 → s.rank? j r = some k →
            (m = 2 → Runs .resumeRank s fun t => ended t ∧ 
                ∀ x, s.job? j = some x → ∀ y, t.job? j = some y → if x.rolling then y.rollEnd.isSome = true else y.status = .killed)
            ∧ (m = 1 → (∀ u, resumeRankAt j r s = some u → does .resumeRank u)
                ∧ (resumeRankAt j r s = none → refuses .resumeRank .placeRoom))))
    ∧ (opOn s 9 = true → (a ≠ 0 ∨ 2 ^ 52 ≤ b.toNat ∨ hidden s b.toNat 24 = true → refuses .place .rsvField))
    ∧ (opOn s 9 = true → a = 0 → b.toNat < 2 ^ 52 → hidden s b.toNat 24 = false →
        let w (i : Nat) : Nat := (s.word (b.toNat + 8 * i)).toNat
        let q : PlaceReq := ⟨w 0 % 8, w 0 / 2 ^ 16 % 2 ^ 14, w 0 / 2 ^ 32 % 2 ^ 10, w 0 / 2 ^ 42 % 16, w 0 / 2 ^ 46 % 8, w 2 % 2 ^ 52⟩
        let n := w 1 % 2 ^ 16
        (s.job? n = none → refuses .place .placeArg)
        ∧ ∀ x, s.job? n = some x →
          let st := (placeOf s n q.rank).state
          let reserved := w 0 / 2 ^ 3 % 2 ^ 13 ≠ 0 ∨ w 0 / 2 ^ 30 % 4 ≠ 0 ∨ 2 ^ 49 ≤ w 0 ∨ 2 ^ 16 ≤ w 1 ∨ 2 ^ 52 ≤ w 2
          let fits := (q.kind = 1 ∧ st = .active ∧ q.rimg = 0) ∨ (q.kind = 2 ∧ st = .active ∧ q.rimg = 0)
            ∨ (q.kind = 3 ∧ st = .cold ∧ q.rimg = 0) ∨ (q.kind = 4 ∧ st = .withdrawn ∧ q.rimg ≠ 0)
          (reserved ∨ x.v ≤ q.rank ∨ (q.kind ≠ 2 ∧ originOk x.width q.ocol q.orow = false) ∨ ¬ fits → refuses .place .placeArg)
          ∧ (¬ reserved → q.rank < x.v → (q.kind = 2 ∨ originOk x.width q.ocol q.orow = true) → fits →
              let home := if q.kind = 4 then q.chip else (placeOf s n q.rank).chip
              let has (l : List PlaceReq) : State := { s with jobs := s.jobs.map fun y =>
                if y.num = n then { y with reqs := y.reqs.filter (·.rank != q.rank) ++ l } else y }
              (home = s.chip.id → does .place (has [q]))
              ∧ (home ≠ s.chip.id → does .place
                  (sendOn home ((laneSet (has []) 0 0 home).head?) [n, q.rank, 0, 24, 8, w 0, w 1, w 2] (has [])))))
    ∧ (opOn s 10 = true → (a ≠ 0 ∨ b ≠ 0 → refuses .svnCommit .rsvField) ∧ ∀ i, a = 0 → b = 0 → s.chip.fw = some i →
        does .svnCommit { s with chip := { s.chip with minSvn := if s.chip.minSvn.toNat < i.svn.toNat then i.svn else s.chip.minSvn } })
    ∧ (opOn s 11 = true → (a ≠ 0 ∨ 2 ^ 52 ≤ b.toNat ∨ hidden s b.toNat 192 = true → refuses .portSet .rsvField))
    ∧ (opOn s 11 = true → a = 0 → b.toNat < 2 ^ 52 → hidden s b.toNat 192 = false →
        let table (i : Nat) : List (BitVec 5) := (s.bytes (b.toNat + 64 * i) 64).map fun x => x.setWidth 5
        let free (i : Nat) : Nat := ((table i).filter fun x => !x.getLsbD 4).length
        (free 0 < 8 ∨ free 1 < 8 ∨ free 2 < 8 → refuses .portSet .portTable)
        ∧ (8 ≤ free 0 → 8 ≤ free 1 → 8 ≤ free 2 → Runs .portSet s fun t => ended t ∧ t.chip.ports = s.chip.ports
            ∧ t.chip.opPorts = true ∧ t.chip.portsAt = (s.now / 2560 + 1) * 2560
            ∧ ∃ v, t.chip.portsNext = some v ∧ ∀ i < 3, v[i]? = some (table i)))
    ∧ (opOn s 12 = true → b = 0 → a.toNat < 2 ^ 32 →
        (a.toNat < 2 ^ 16 → refuses .ckptSet .rsvField)
        ∧ (2 ^ 16 ≤ a.toNat → does .ckptSet { s with jobs := s.jobs.map fun x =>
            if x.num = j then { x with ckptEvery := a.toNat / 2 ^ 16 } else x }))
    ∧ (opOn s 13 = true → b = 0 → a.toNat < 2 ^ 8 → a.toNat / 8 % 2 = 0 →
        let st := a.toNat % 8
        let d := a.toNat / 16
        ((busyDie s st).isSome = true ∨ dieOut s st d = true → refuses .mapout .mapBusy)
        ∧ (busyDie s st = none → dieOut s st d = false → does .mapout (startMapout st d s)))
    ∧ (opOn s 14 = true →
        let n := 64 + 64 * ((s.word b.toNat).toNat % 2 ^ 15)
        (16 ≤ a.toNat ∨ 2 ^ 52 ≤ b.toNat ∨ hidden s b.toNat n = true → refuses .placeStage .rsvField)
        ∧ (a.toNat < 16 → b.toNat < 2 ^ 52 → hidden s b.toNat n = false → does .placeStage { s with chip := { s.chip with
            staged := (a.toNat, s.bytes b.toNat n)
              :: s.chip.staged.filter (·.1 != a.toNat) } }))
    ∧ (s.chip.opBusy = true → s.chip.opCmd = none → s.chip.opWait = none → s.chip.opPorts = false ∨ s.chip.portsNext = none →
        exec .operationDone s = .next { s with chip := { s.chip with opBusy := false, opDone := true, opPorts := false } })
    ∧ (s.chip.opPorts = true → s.chip.portsNext ≠ none → exec .operationDone s = .next s)
    ∧ (s.chip.opCmd ≠ none → exec .operationDone s = .next s)

/-- A write of a management register takes the bits its row of the table gives; read-only registers and offsets without a register
discard it; OP_CMD starts an operation, which sends a held interface whose record it is to write to ERROR, or sets OVR while one runs; W1C bits are cleared by ones; a value PWR_CTL or PWR_LIMIT does not
take is RSV_FIELD and leaves it unchanged (14 R393, R395, R396; 16 R431 to R434). Reading back is log entry 40's. -/
def Obligations.ManagementRegisterWrites : Prop :=
  ∀ (s : State) (x : Word), s.chip.recovery = false → s.chip.pwr ≠ .off →
    let sets (off : Nat) (f : Chip → Chip) : Prop := exec (.mgmtRegWrite off x) s = .next { s with chip := f s.chip }
    let bad (off : Nat) : Prop := sets off fun c => { c with outbox := c.outbox ++ [⟨.event, [causeCode .rsvField, off]⟩] }
    (x.toNat < 16 → x.toNat % 8 ≤ 4 →
        exec (.mgmtRegWrite 0x08 x) s = .next (writeTarget (x.toNat % 8) { s with chip := { s.chip with thr := x.getLsbD 3 } }))
    ∧ (16 ≤ x.toNat ∨ 4 < x.toNat % 8 → bad 0x08)
    ∧ sets 0x10 (fun c => { c with refused := c.refused && !x.getLsbD 5 })
    ∧ (600 ≤ x.toNat → x.toNat ≤ 2400 → sets 0x18 fun c => { c with limit := x.toNat })
    ∧ (x.toNat < 600 ∨ 2400 < x.toNat → bad 0x18)
    ∧ sets 0x20 (fun c => { c with mgmtLock := x.getLsbD 0 })
    ∧ sets 0x28 (fun c => { c with winBase := x &&& 0x000FFFF000000000 })
    ∧ sets 0x40 (fun c => { c with qdBase := x &&& 0x000FFFFFFFFFFFC0 })
    ∧ sets 0x48 (fun c => { c with asBase := x &&& 0x000FFFFFFFFFFFFF })
    ∧ sets 0x50 (fun c => { c with frBase := x &&& 0x00FFFFFFFFFFFFE0 })
    ∧ sets 0x58 (fun c => { c with frTail := x.extractLsb' 32 32 })
    ∧ sets 0x60 (fun c => { c with fbBase := x &&& 0x000FFFFFFFFFE000 })
    ∧ sets 0x68 (fun c => { c with rptSel := x.setWidth 16 })
    ∧ (s.chip.opBusy = true → sets 0x100 fun c => { c with opOvr := true })
    ∧ (s.chip.opBusy = false →
        let busy : State := { s with chip := { s.chip with opBusy := true, opDone := false, opCause := 0 } }
        (1 ≤ x.toNat → x.toNat ≤ 14 → x.toNat ≠ 4 → x.toNat ≠ 5 →
          sets 0x100 fun c => { c with opBusy := true, opDone := false, opCause := 0, opCmd := some x.toNat })
        ∧ (x.toNat = 4 ∨ x.toNat = 5 →
          (∀ t, opTenant x.toNat s.chip.opArg0 busy = some t → tdiHeld s t = false →
            sets 0x100 fun c => { c with opBusy := true, opDone := false, opCause := 0, opCmd := some x.toNat })
          ∧ ∀ t w, opTenant x.toNat s.chip.opArg0 busy = some t → t < 16 → tdiHeld s t = true →
            (if x.toNat = 4 then doAsAdvance s.chip.opArg0 s.chip.opArg1 busy else doQuotaSet s.chip.opArg0 s.chip.opArg1 busy) = .ok w →
            Runs (.mgmtRegWrite 0x100 x) s fun u => u.chip.opBusy = true ∧ u.chip.opCmd = some x.toNat
              ∧ (tdiAt u t).st = .error ∧ (tdiAt u t).reason = 1)
        ∧ (x.toNat = 0 ∨ 14 < x.toNat → sets 0x100 fun c =>
            { c with opBusy := true, opDone := false, opCause := causeCode .rsvField, opCmd := none }))
    ∧ sets 0x108 (fun c => { c with opArg0 := x }) ∧ sets 0x110 (fun c => { c with opArg1 := x })
    ∧ sets 0x120 (fun c => { c with opDone := c.opDone && !x.getLsbD 1, opOvr := c.opOvr && !x.getLsbD 2 })
    ∧ (∀ t < 16, Runs (.mgmtRegWrite (0x1000 + 8 * t) x) s fun u =>
        (tdiAt u t).rej = (tdiAt s t).rej &&& (2 ^ 24 - 1 - x.toNat / 2 ^ 8 % 2 ^ 24) ∧ (tdiAt u t).st = (tdiAt s t).st
        ∧ (∀ k, k ≠ t → tdiAt u k = tdiAt s k) ∧ SameMemory s u)
    ∧ (∀ off ∈ ([0x00, 0x30, 0x38, 0x118, 0x2000, 0x10000, 0x20000, 0x100000] : List Nat), sets off fun c => c)

/-! ## Encoding, reset, the step (02 R32 to R61; 06 R172, R176; 08 R254, R255; 10 R312; 15 R423; 16 R431, R434) -/

/-- Words written out from the spec's encodings decode to the instructions they stand for: one or more of every family. -/
def Obligations.DecodeWords : Prop :=
  let ctl (w w1 : W32) (i : Instr) : Prop := decode .ctl w w1 = .ok i
  let acs (w w1 : W32) (i : Instr) : Prop := decode .acs w w1 = .ok i
  let vec (w w1 : W32) (i : Instr) : Prop := decode .vec w w1 = .ok i
  let mov (w w1 : W32) (i : Instr) : Prop := decode .mov w w1 = .ok i
  let drn (w : W32) (i : Instr) : Prop := decodeDrn w = .ok i
  -- 02: ADDI s1,s0,3 and the worked vector pair
  ctl 0x02020003 0 (.addi ⟨false, 1, .r 0, 3⟩)
  ∧ ctl 0x26100100 0 (.barv false 8 true 0)
  ∧ ctl 0x2D0A0023 0 (.mfsr false 5 0x23)
  ∧ ctl 0x1C0A1300 0 (.ld ⟨false, 5, .r 2, false, .d, 0⟩)
  ∧ ctl 0x010E28C0 0 (.add ⟨false, 7, .r 5, .r 6⟩)
  ∧ ctl 0x13040000 0x40000000 (.ldi ⟨false, 2, 0x40000000⟩)
  ∧ vec 0x01003020 0x02000000 (.vadd ⟨.f32, .v 3, .v 2, .v 2, 0, false, .dflt, false⟩)
  ∧ acs 0x06020000 0x00000040 (.aldi ⟨false, 1, 64⟩)
  ∧ mov 0x02040820 0 (.daddi ⟨false, 2, .r 1, 32⟩)
  ∧ mov 0x0B000302 0 (.dloop 3 2)
  ∧ drn 0x12040000 (.lmul 2 0 1 .dflt)
  ∧ drn 0xA0000000 .lend
  -- reserved and unassigned encodings are refused by name
  ∧ decode .ctl 0x00000000 0 = .error .encOp ∧ decode .mov 0x1F000001 0 = .error .encRsv

/-- DECODE AND ENCODE AGREE for CTL, ACS, MOV and the drain micro-ops: decoding the words of a well-formed instruction gives it back,
with every operand at every value the encoding admits (02 R42 to R46, R50, R53 to R55, R59 to R63). -/
def Obligations.ScalarWordsRoundTrip : Prop :=
  ∀ (i : Instr) (o : Owner) (ws : List W32), i.wf = true → encode i = (o, ws) → o ≠ .seq .vec → o ≠ .none → decodeOwned o ws = some i

/-- DECODE AND ENCODE AGREE for VEC (02 R50 to R52, R55, R61; 05 R133 to R167). -/
def Obligations.VectorWordsRoundTrip : Prop :=
  ∀ (i : Instr) (ws : List W32), i.wf = true → encode i = (.seq .vec, ws) → decodeOwned (.seq .vec) ws = some i

/-- Every step keeps memory's canonical form: addresses strictly rising, no entry zero (log entry 3; the form is the model's). -/
def Obligations.MemoryStaysCanonical : Prop :=
  ∀ (s t : State), Memory.wf s.mem → step s = .next t → Memory.wf t.mem

/-- What reset leaves: no job, no rank, memory with nothing listed, in its canonical form; 128 cores, none running, with the state their
rules give (token sequence 1, MX_KCAP 4,096, PRE_WAIT 2^20, MIG_WAIT 2^22, an idle unit, empty latches and queues); TICKS 0; no
region in force, 16 good dies a stack, every port entry's VLD 0; power full, THR 1, PWR_LIMIT 2,400; interfaces CONFIG_UNLOCKED; Loupe
off. That an unlisted byte reads as zero is the model's choice (log entry 3). -/
def Obligations.ResetLeaves : Prop :=
  let s := State.reset
  let c := s.chip
  s.jobs = [] ∧ s.ranks = [] ∧ s.mem = [] ∧ Memory.wf s.mem ∧ s.poison = [] ∧ (s.core :: s.cores).map (·.phys) = List.range 128
  ∧ (∀ x ∈ s.core :: s.cores, (∀ q, (x.seq q).run = false ∧ (x.seq q).loops = [] ∧ x.lat q = []) ∧ x.priv = false ∧ x.divz = false
      ∧ x.uie = false ∧ x.uh = false ∧ x.seqCtr = 1 ∧ x.tokLast = 0 ∧ x.mxKcap = 4096 ∧ x.preWait = 2 ^ 20 ∧ x.migWait = 2 ^ 22
      ∧ x.cmds = [] ∧ x.mtxQ = [] ∧ x.pend = [] ∧ x.x = false ∧ x.trap = none
      ∧ (∀ w ∈ x.watch.toList, w = none) ∧ (∀ k ∈ x.tok.toList, k = 0) ∧ (∀ l ∈ x.lq.toList, l = []) ∧ ∀ l ∈ x.sq.toList, l = [])
  ∧ c.ticks = 0 ∧ (∀ r ∈ c.regions.toList, r = 0) ∧ c.dies.toList = List.replicate 8 16 ∧ (∀ o ∈ c.outD.toList, o = 0)
  ∧ (∀ p ∈ c.ports.toList, p.length = 64 ∧ ∀ e ∈ p, e.getLsbD 4 = false)
  ∧ c.frames = [] ∧ c.egress = [] ∧ c.ingress = [] ∧ c.mapped = [] ∧ c.staged = []
  ∧ c.pwr = .full ∧ c.target = 0 ∧ c.thr = true ∧ c.throt = false ∧ c.gate = 0 ∧ c.limit = 2400 ∧ c.mgmtLock = false
  ∧ c.opBusy = false ∧ c.opDone = false ∧ c.opOvr = false ∧ (∀ t ∈ c.tdi.toList, t.st = .unlocked ∧ t.rej = 0) ∧ c.loupe = .off

/-- A STEP RUNS THE DECODED INSTRUCTION. With no input waiting, the device on, and no engine's turn: the earliest sequencer that may
issue takes its turn at its time n; where its line is cached and entered and its lane i bears its tag, the word there, with the next for
a two-lane instruction, decodes to i, and the step is exec of i at that state, with the engines' turn next. A word of drain memory, an
input that waits, and an engine's event run likewise; a core with 32 instructions in flight issues none, nor does VEC one whose destination
an unfinished instruction reads; a pending user completion handler is entered at CTL's turn; with nothing to run, time moves on by one.
That no other sequencer faults in the cycle is a hypothesis (02 R32 to R37; 06 R187; 08 R258; 15 R405, R408; log entries 5, 48). -/
def Obligations.StepRunsTheDecodedInstruction : Prop :=
  ∀ (s : State),
    (∀ i rest, s.agenda = i :: rest → step s = exec i { s with agenda := rest })
    ∧ (s.agenda = [] → s.chip.pwr = .off → step s = .fault .stuck)
    ∧ (s.agenda = [] → s.chip.pwr ≠ .off →
      (∀ i, s.core.drnRun = true → decodeDrn (s.core.drnMem[s.core.drnPc]?.getD 0) = .ok i → step s = exec i s)
      ∧ (∀ t, s.core.drnRun = false → s.engineTurn = true → showSpill s = some t → step s = .next { t with engineTurn := false })
      ∧ (∀ i t, s.core.drnRun = false → s.engineTurn = true → showSpill s = none → engineWork s = some (i, t) →
          step s = exec i { t with engineTurn := false })
      ∧ (s.core.drnRun = false → s.engineTurn = false ∨ (showSpill s = none ∧ engineWork s = none) →
          (earliest (candidates s) = none → step s = .next
            { s with chip := { s.chip with ticks := s.chip.ticks + 1 }, engineTurn := true })
          ∧ ∀ p q n, earliest (candidates s) = some (p, q, n) →
            let u := s.focus p
            let v : State := { u with chip := { u.chip with ticks := max u.chip.ticks n } }
            let handler : Bool := q == .ctl && handlerDue v && (nextLane v).isSome
            (resultDue v = true → step s = exec .resultWriteback v)
            ∧ (resultDue v = false → handler = true → step s = exec .userHandlerEntry { v with engineTurn := true })
            ∧ (resultDue v = false → handler = false → 32 ≤ v.core.accq.length + v.core.pend.length →
                step s = .next { holdIssue v with engineTurn := true })
            ∧ (resultDue v = false → handler = false → v.core.accq.length + v.core.pend.length < 32 →
              (∀ r, r ≠ q → faultsNow v r = false) →
              (cachedLine v (v.core.seq q).line = none → step s = exec (.instructionCacheMiss q) { v with engineTurn := true })
              ∧ ∀ ws i, cachedLine v (v.core.seq q).line = some ws →
                let x := v.core.seq q
                let h := ws[0]?.getD 0
                let w := ws[x.lane]?.getD 0
                x.entered = true → x.lane ≤ 7 → tagBad h x.lane = false → tagOf h x.lane = seqTag q →
                (q = .ctl → hdrX h = v.core.x ∨ (v.core.uh = true ∧ v.core.fresh = false)) →
                ((isWide q w = true ∧ x.lane < 7 ∧ tagOf h (x.lane + 1) = 8 ∧ decode q w (ws[x.lane + 1]?.getD 0) = .ok i)
                  ∨ (isWide q w = false ∧ (x.lane = 7 ∨ tagOf h (x.lane + 1) ≠ 8) ∧ decode q w 0 = .ok i)) →
                let u : State := { v with core := { v.core with fresh := if q = .ctl then false else v.core.fresh } }
                step s = if destHeld q i u then .next { holdIssue u with engineTurn := true } else exec i { u with engineTurn := true })))
end

