-- ==== Sys2Proof/Laws/Memory.lean ====
section
/-!
SUPPORT. What the memory operations do: bytes and their little-endian values, reads after writes, and the canonical form
that every memory operation keeps.
-/
namespace Sys2Proof.Machine

/-! ## Bytes and values -/

theorem leBytes_length (n x : Nat) : (leBytes n x).length = n := by
  induction n generalizing x with
  | zero => rfl
  | succ n ih => simp [leBytes, ih]

theorem leVal_lt (bs : List Byte) : leVal bs < 256 ^ bs.length := by
  induction bs with
  | nil => simp [leVal]
  | cons b bs ih =>
    have := b.isLt
    simp only [leVal, List.length_cons, Nat.pow_succ]
    omega

/-- The n bytes of x, read back, give x modulo 256^n. -/
theorem leVal_leBytes (n x : Nat) : leVal (leBytes n x) = x % 256 ^ n := by
  induction n generalizing x with
  | zero => simp [leBytes, leVal, Nat.mod_one]
  | succ n ih =>
    have e : x % 256 ^ (n + 1) = x % 256 + 256 * (x / 256 % 256 ^ n) := by
      rw [Nat.pow_add_one', Nat.mod_mul]
    rw [leBytes, leVal, ih, BitVec.toNat_ofNat, e]

/-! ## Reads of cells -/

theorem lookup_of_filter (p : Nat → Bool) (x : Nat) (m : List Host.Cell) :
    (m.filter fun c => p c.1).lookup x = if p x then m.lookup x else none := by
  induction m with
  | nil => simp
  | cons c cs ih =>
    obtain ⟨k, v⟩ := c
    by_cases hx : x = k
    · subst hx
      cases hp : p x
      · rw [List.filter_cons_of_neg (by simp [hp]), ih]
        simp [hp]
      · simp [List.filter, hp]
    · have hb : (x == k) = false := by simpa using hx
      cases hp : p k <;> simp [List.filter, hp, List.lookup_cons, hb, ih]

theorem lookup_append' (x : Nat) (l r : List Host.Cell) : (l ++ r).lookup x = (l.lookup x).or (r.lookup x) := by
  induction l with
  | nil => simp
  | cons c cs ih =>
    obtain ⟨k, v⟩ := c
    simp only [List.cons_append, List.lookup_cons]
    cases x == k <;> simp [ih]

theorem cells_zero (a : Nat) (b : Byte) (bs : List Byte) (h : b = 0) :
    Memory.cells a (b :: bs) = Memory.cells (a + 1) bs := if_pos h

theorem cells_cons (a : Nat) (b : Byte) (bs : List Byte) (h : b ≠ 0) :
    Memory.cells a (b :: bs) = (a, b) :: Memory.cells (a + 1) bs := if_neg h

/-- The cells of bytes from a hold, at x, the byte there, and nothing outside. -/
theorem cells_lookup (a x : Nat) (bs : List Byte) :
    (((Memory.cells a bs).lookup x).getD 0 : Byte) = if a ≤ x then bs[x - a]?.getD 0 else 0 := by
  induction bs generalizing a with
  | nil => simp [Memory.cells]
  | cons b bs ih =>
    by_cases hx : x = a
    · subst hx
      by_cases hb : b = 0
      · rw [cells_zero _ _ _ hb, ih, if_neg (by omega)]
        simp [hb]
      · rw [cells_cons _ _ _ hb]
        simp
    · have hne : (x == a) = false := by simpa using hx
      have key : (((Memory.cells a (b :: bs)).lookup x).getD 0 : Byte) = ((Memory.cells (a + 1) bs).lookup x).getD 0 := by
        by_cases hb : b = 0
        · rw [cells_zero _ _ _ hb]
        · rw [cells_cons _ _ _ hb, List.lookup_cons, hne]
      rw [key, ih]
      by_cases h : a ≤ x
      · rw [if_pos h, if_pos (by omega), show x - a = (x - (a + 1)) + 1 by omega, List.getElem?_cons_succ]
      · rw [if_neg h, if_neg (by omega)]

theorem cells_lookup_out (a x : Nat) (bs : List Byte) (h : x < a ∨ a + bs.length ≤ x) :
    (Memory.cells a bs).lookup x = none := by
  induction bs generalizing a with
  | nil => simp [Memory.cells]
  | cons b bs ih =>
    simp only [List.length_cons] at h
    have hne : (x == a) = false := by
      simp only [beq_eq_false_iff_ne]
      omega
    have := ih (a + 1) (by omega)
    by_cases hb : b = 0
    · rw [cells_zero _ _ _ hb, this]
    · rw [cells_cons _ _ _ hb, List.lookup_cons, hne, this]

/-- A byte after a write: the byte stored inside the range, the one before outside it. -/
theorem Memory.get_put (m : List Host.Cell) (a x : Nat) (bs : List Byte) :
    Memory.get (Memory.put m a bs) x = if a ≤ x ∧ x < a + bs.length then bs[x - a]?.getD 0 else Memory.get m x := by
  simp only [Memory.get, Memory.put, lookup_append', lookup_of_filter (fun k => decide (k < a)),
    lookup_of_filter (fun k => decide (a + bs.length ≤ k))]
  by_cases h1 : x < a
  · have h2 : ¬ a + bs.length ≤ x := by omega
    have h3 : ¬ (a ≤ x ∧ x < a + bs.length) := by omega
    simp [h1, h2, h3, cells_lookup_out a x bs (.inl h1)]
  · by_cases h2 : a + bs.length ≤ x
    · have h3 : ¬ (a ≤ x ∧ x < a + bs.length) := by omega
      simp [h1, h2, h3, cells_lookup_out a x bs (.inr h2)]
    · have h3 : a ≤ x ∧ x < a + bs.length := by omega
      have := cells_lookup a x bs
      simp [h1, h2, h3] at this ⊢
      simpa using this

/-! ## The canonical form -/

theorem cells_bounds (a : Nat) (bs : List Byte) :
    ∀ c ∈ Memory.cells a bs, a ≤ c.1 ∧ c.1 < a + bs.length ∧ c.2 ≠ 0 := by
  induction bs generalizing a with
  | nil => simp [Memory.cells]
  | cons b bs ih =>
    intro c hc
    simp only [Memory.cells] at hc
    split at hc
    · have := ih (a + 1) c hc
      simp only [List.length_cons]
      exact ⟨by omega, by omega, this.2.2⟩
    · rcases List.mem_cons.1 hc with rfl | hc
      · simp only [List.length_cons]
        exact ⟨by omega, by omega, by assumption⟩
      · have := ih (a + 1) c hc
        simp only [List.length_cons]
        exact ⟨by omega, by omega, this.2.2⟩

theorem cells_wf (a : Nat) (bs : List Byte) : Memory.wf (Memory.cells a bs) := by
  induction bs generalizing a with
  | nil => simp [Memory.wf, Memory.cells]
  | cons b bs ih =>
    have h := ih (a + 1)
    have hb := cells_bounds (a + 1) bs
    simp only [Memory.cells]
    split
    · exact h
    · refine ⟨List.pairwise_cons.2 ⟨fun c hc => ?_, h.1⟩, fun c hc => ?_⟩
      · have := hb c hc
        show a < c.1
        omega
      · rcases List.mem_cons.1 hc with rfl | hc
        · assumption
        · exact h.2 c hc

theorem wf_filter {m : List Host.Cell} (p : Host.Cell → Bool) (h : Memory.wf m) : Memory.wf (m.filter p) :=
  ⟨h.1.sublist List.filter_sublist, fun c hc => h.2 c (List.mem_filter.1 hc).1⟩

theorem wf_append {l r : List Host.Cell} (hl : Memory.wf l) (hr : Memory.wf r) (h : ∀ a ∈ l, ∀ b ∈ r, a.1 < b.1) :
    Memory.wf (l ++ r) :=
  ⟨List.pairwise_append.2 ⟨hl.1, hr.1, h⟩, fun c hc => (List.mem_append.1 hc).elim (hl.2 c) (hr.2 c)⟩

/-- A write keeps the canonical form. -/
theorem Memory.put_wf {m : List Host.Cell} (a : Nat) (bs : List Byte) (h : Memory.wf m) : Memory.wf (Memory.put m a bs) := by
  have hc := cells_bounds a bs
  refine wf_append (wf_append (wf_filter _ h) (cells_wf a bs) ?_) (wf_filter _ h) ?_
  · intro x hx y hy
    have := hc y hy
    have hx' := (List.mem_filter.1 hx).2
    simp only [decide_eq_true_eq] at hx'
    omega
  · intro x hx y hy
    have hy' := (List.mem_filter.1 hy).2
    simp only [decide_eq_true_eq] at hy'
    rcases List.mem_append.1 hx with hx | hx
    · have hx' := (List.mem_filter.1 hx).2
      simp only [decide_eq_true_eq] at hx'
      omega
    · have := hc x hx
      omega

theorem reset_wf : Memory.wf State.reset.mem := by simp [Memory.wf, State.reset]

end Sys2Proof.Machine
end

