-- ==== Sys2Proof/Laws/State.lean ====
section
/-!
SUPPORT. What each update of State leaves in each field, and how updates compose; reads of memory after updates.
-/
namespace Sys2Proof.Machine

variable (s : State)

/-! ## modCore -/

@[simp] theorem State.modCore_core (f : Core → Core) : (s.modCore f).core = f s.core := rfl
@[simp] theorem State.modCore_cores (f : Core → Core) : (s.modCore f).cores = s.cores := rfl
@[simp] theorem State.modCore_ranks (f : Core → Core) : (s.modCore f).ranks = s.ranks := rfl
@[simp] theorem State.modCore_jobs (f : Core → Core) : (s.modCore f).jobs = s.jobs := rfl
@[simp] theorem State.modCore_chip (f : Core → Core) : (s.modCore f).chip = s.chip := rfl
@[simp] theorem State.modCore_mem (f : Core → Core) : (s.modCore f).mem = s.mem := rfl
@[simp] theorem State.modCore_poison (f : Core → Core) : (s.modCore f).poison = s.poison := rfl
@[simp] theorem State.modCore_agenda (f : Core → Core) : (s.modCore f).agenda = s.agenda := rfl
@[simp] theorem State.modCore_engineTurn (f : Core → Core) : (s.modCore f).engineTurn = s.engineTurn := rfl
@[simp] theorem State.modCore_turn (f : Core → Core) : (s.modCore f).turn = s.turn := rfl
@[simp] theorem State.modCore_delay (f : Core → Core) : (s.modCore f).delay = s.delay := rfl
@[simp] theorem State.modCore_freeCtr (f : Core → Core) : (s.modCore f).freeCtr = s.freeCtr := rfl

/-! ## modChip -/

@[simp] theorem State.modChip_core (f : Chip → Chip) : (s.modChip f).core = s.core := rfl
@[simp] theorem State.modChip_cores (f : Chip → Chip) : (s.modChip f).cores = s.cores := rfl
@[simp] theorem State.modChip_ranks (f : Chip → Chip) : (s.modChip f).ranks = s.ranks := rfl
@[simp] theorem State.modChip_jobs (f : Chip → Chip) : (s.modChip f).jobs = s.jobs := rfl
@[simp] theorem State.modChip_chip (f : Chip → Chip) : (s.modChip f).chip = f s.chip := rfl
@[simp] theorem State.modChip_mem (f : Chip → Chip) : (s.modChip f).mem = s.mem := rfl
@[simp] theorem State.modChip_poison (f : Chip → Chip) : (s.modChip f).poison = s.poison := rfl
@[simp] theorem State.modChip_agenda (f : Chip → Chip) : (s.modChip f).agenda = s.agenda := rfl
@[simp] theorem State.modChip_engineTurn (f : Chip → Chip) : (s.modChip f).engineTurn = s.engineTurn := rfl
@[simp] theorem State.modChip_turn (f : Chip → Chip) : (s.modChip f).turn = s.turn := rfl
@[simp] theorem State.modChip_delay (f : Chip → Chip) : (s.modChip f).delay = s.delay := rfl
@[simp] theorem State.modChip_freeCtr (f : Chip → Chip) : (s.modChip f).freeCtr = s.freeCtr := rfl

/-! ## modSeq -/

@[simp] theorem State.modSeq_core (q : Seqr) (f : SeqSt → SeqSt) : (s.modSeq q f).core = s.core.modSeq q f := rfl
@[simp] theorem State.modSeq_cores (q : Seqr) (f : SeqSt → SeqSt) : (s.modSeq q f).cores = s.cores := rfl
@[simp] theorem State.modSeq_ranks (q : Seqr) (f : SeqSt → SeqSt) : (s.modSeq q f).ranks = s.ranks := rfl
@[simp] theorem State.modSeq_jobs (q : Seqr) (f : SeqSt → SeqSt) : (s.modSeq q f).jobs = s.jobs := rfl
@[simp] theorem State.modSeq_chip (q : Seqr) (f : SeqSt → SeqSt) : (s.modSeq q f).chip = s.chip := rfl
@[simp] theorem State.modSeq_mem (q : Seqr) (f : SeqSt → SeqSt) : (s.modSeq q f).mem = s.mem := rfl
@[simp] theorem State.modSeq_poison (q : Seqr) (f : SeqSt → SeqSt) : (s.modSeq q f).poison = s.poison := rfl
@[simp] theorem State.modSeq_agenda (q : Seqr) (f : SeqSt → SeqSt) : (s.modSeq q f).agenda = s.agenda := rfl
@[simp] theorem State.modSeq_engineTurn (q : Seqr) (f : SeqSt → SeqSt) : (s.modSeq q f).engineTurn = s.engineTurn := rfl
@[simp] theorem State.modSeq_turn (q : Seqr) (f : SeqSt → SeqSt) : (s.modSeq q f).turn = s.turn := rfl
@[simp] theorem State.modSeq_delay (q : Seqr) (f : SeqSt → SeqSt) : (s.modSeq q f).delay = s.delay := rfl
@[simp] theorem State.modSeq_freeCtr (q : Seqr) (f : SeqSt → SeqSt) : (s.modSeq q f).freeCtr = s.freeCtr := rfl

/-! ## modJob -/

@[simp] theorem State.modJob_core (j : Nat) (f : Job → Job) : (s.modJob j f).core = s.core := rfl
@[simp] theorem State.modJob_cores (j : Nat) (f : Job → Job) : (s.modJob j f).cores = s.cores := rfl
@[simp] theorem State.modJob_ranks (j : Nat) (f : Job → Job) : (s.modJob j f).ranks = s.ranks := rfl
@[simp] theorem State.modJob_jobs (j : Nat) (f : Job → Job) : (s.modJob j f).jobs = s.jobs.map fun x => if x.num = j then f x else x := rfl
@[simp] theorem State.modJob_chip (j : Nat) (f : Job → Job) : (s.modJob j f).chip = s.chip := rfl
@[simp] theorem State.modJob_mem (j : Nat) (f : Job → Job) : (s.modJob j f).mem = s.mem := rfl
@[simp] theorem State.modJob_poison (j : Nat) (f : Job → Job) : (s.modJob j f).poison = s.poison := rfl
@[simp] theorem State.modJob_agenda (j : Nat) (f : Job → Job) : (s.modJob j f).agenda = s.agenda := rfl
@[simp] theorem State.modJob_engineTurn (j : Nat) (f : Job → Job) : (s.modJob j f).engineTurn = s.engineTurn := rfl
@[simp] theorem State.modJob_turn (j : Nat) (f : Job → Job) : (s.modJob j f).turn = s.turn := rfl
@[simp] theorem State.modJob_delay (j : Nat) (f : Job → Job) : (s.modJob j f).delay = s.delay := rfl
@[simp] theorem State.modJob_freeCtr (j : Nat) (f : Job → Job) : (s.modJob j f).freeCtr = s.freeCtr := rfl

/-! ## modRank -/

@[simp] theorem State.modRank_core (j r : Nat) (f : Rank → Rank) : (s.modRank j r f).core = s.core := rfl
@[simp] theorem State.modRank_cores (j r : Nat) (f : Rank → Rank) : (s.modRank j r f).cores = s.cores := rfl
@[simp] theorem State.modRank_ranks (j r : Nat) (f : Rank → Rank) : (s.modRank j r f).ranks = s.ranks.map fun x => if x.job = j ∧ x.rank = r then f x else x := rfl
@[simp] theorem State.modRank_jobs (j r : Nat) (f : Rank → Rank) : (s.modRank j r f).jobs = s.jobs := rfl
@[simp] theorem State.modRank_chip (j r : Nat) (f : Rank → Rank) : (s.modRank j r f).chip = s.chip := rfl
@[simp] theorem State.modRank_mem (j r : Nat) (f : Rank → Rank) : (s.modRank j r f).mem = s.mem := rfl
@[simp] theorem State.modRank_poison (j r : Nat) (f : Rank → Rank) : (s.modRank j r f).poison = s.poison := rfl
@[simp] theorem State.modRank_agenda (j r : Nat) (f : Rank → Rank) : (s.modRank j r f).agenda = s.agenda := rfl
@[simp] theorem State.modRank_engineTurn (j r : Nat) (f : Rank → Rank) : (s.modRank j r f).engineTurn = s.engineTurn := rfl
@[simp] theorem State.modRank_turn (j r : Nat) (f : Rank → Rank) : (s.modRank j r f).turn = s.turn := rfl
@[simp] theorem State.modRank_delay (j r : Nat) (f : Rank → Rank) : (s.modRank j r f).delay = s.delay := rfl
@[simp] theorem State.modRank_freeCtr (j r : Nat) (f : Rank → Rank) : (s.modRank j r f).freeCtr = s.freeCtr := rfl

/-! ## mapCores -/

@[simp] theorem State.mapCores_core (f : Core → Core) : (s.mapCores f).core = f s.core := rfl
@[simp] theorem State.mapCores_cores (f : Core → Core) : (s.mapCores f).cores = s.cores.map f := rfl
@[simp] theorem State.mapCores_ranks (f : Core → Core) : (s.mapCores f).ranks = s.ranks := rfl
@[simp] theorem State.mapCores_jobs (f : Core → Core) : (s.mapCores f).jobs = s.jobs := rfl
@[simp] theorem State.mapCores_chip (f : Core → Core) : (s.mapCores f).chip = s.chip := rfl
@[simp] theorem State.mapCores_mem (f : Core → Core) : (s.mapCores f).mem = s.mem := rfl
@[simp] theorem State.mapCores_poison (f : Core → Core) : (s.mapCores f).poison = s.poison := rfl
@[simp] theorem State.mapCores_agenda (f : Core → Core) : (s.mapCores f).agenda = s.agenda := rfl
@[simp] theorem State.mapCores_engineTurn (f : Core → Core) : (s.mapCores f).engineTurn = s.engineTurn := rfl
@[simp] theorem State.mapCores_turn (f : Core → Core) : (s.mapCores f).turn = s.turn := rfl
@[simp] theorem State.mapCores_delay (f : Core → Core) : (s.mapCores f).delay = s.delay := rfl
@[simp] theorem State.mapCores_freeCtr (f : Core → Core) : (s.mapCores f).freeCtr = s.freeCtr := rfl

/-! ## post -/

@[simp] theorem State.post_core (k : MsgKind) (args : List Nat) : (s.post k args).core = s.core := rfl
@[simp] theorem State.post_cores (k : MsgKind) (args : List Nat) : (s.post k args).cores = s.cores := rfl
@[simp] theorem State.post_ranks (k : MsgKind) (args : List Nat) : (s.post k args).ranks = s.ranks := rfl
@[simp] theorem State.post_jobs (k : MsgKind) (args : List Nat) : (s.post k args).jobs = s.jobs := rfl
@[simp] theorem State.post_chip (k : MsgKind) (args : List Nat) : (s.post k args).chip = { s.chip with outbox := s.chip.outbox ++ [⟨k, args⟩] } := rfl
@[simp] theorem State.post_mem (k : MsgKind) (args : List Nat) : (s.post k args).mem = s.mem := rfl
@[simp] theorem State.post_poison (k : MsgKind) (args : List Nat) : (s.post k args).poison = s.poison := rfl
@[simp] theorem State.post_agenda (k : MsgKind) (args : List Nat) : (s.post k args).agenda = s.agenda := rfl
@[simp] theorem State.post_engineTurn (k : MsgKind) (args : List Nat) : (s.post k args).engineTurn = s.engineTurn := rfl
@[simp] theorem State.post_turn (k : MsgKind) (args : List Nat) : (s.post k args).turn = s.turn := rfl
@[simp] theorem State.post_delay (k : MsgKind) (args : List Nat) : (s.post k args).delay = s.delay := rfl
@[simp] theorem State.post_freeCtr (k : MsgKind) (args : List Nat) : (s.post k args).freeCtr = s.freeCtr := rfl

/-! ## poke -/

@[simp] theorem State.poke_core (k : Nat) (bs : List Byte) : (s.poke k bs).core = s.core := rfl
@[simp] theorem State.poke_cores (k : Nat) (bs : List Byte) : (s.poke k bs).cores = s.cores := rfl
@[simp] theorem State.poke_ranks (k : Nat) (bs : List Byte) : (s.poke k bs).ranks = s.ranks := rfl
@[simp] theorem State.poke_jobs (k : Nat) (bs : List Byte) : (s.poke k bs).jobs = s.jobs := rfl
@[simp] theorem State.poke_chip (k : Nat) (bs : List Byte) : (s.poke k bs).chip = s.chip := rfl
@[simp] theorem State.poke_mem (k : Nat) (bs : List Byte) : (s.poke k bs).mem = Memory.put s.mem k bs := rfl
@[simp] theorem State.poke_poison (k : Nat) (bs : List Byte) : (s.poke k bs).poison = s.poison := rfl
@[simp] theorem State.poke_agenda (k : Nat) (bs : List Byte) : (s.poke k bs).agenda = s.agenda := rfl
@[simp] theorem State.poke_engineTurn (k : Nat) (bs : List Byte) : (s.poke k bs).engineTurn = s.engineTurn := rfl
@[simp] theorem State.poke_turn (k : Nat) (bs : List Byte) : (s.poke k bs).turn = s.turn := rfl
@[simp] theorem State.poke_delay (k : Nat) (bs : List Byte) : (s.poke k bs).delay = s.delay := rfl
@[simp] theorem State.poke_freeCtr (k : Nat) (bs : List Byte) : (s.poke k bs).freeCtr = s.freeCtr := rfl

/-! ## pokeWord -/

@[simp] theorem State.pokeWord_core (k : Nat) (x : Word) : (s.pokeWord k x).core = s.core := rfl
@[simp] theorem State.pokeWord_cores (k : Nat) (x : Word) : (s.pokeWord k x).cores = s.cores := rfl
@[simp] theorem State.pokeWord_ranks (k : Nat) (x : Word) : (s.pokeWord k x).ranks = s.ranks := rfl
@[simp] theorem State.pokeWord_jobs (k : Nat) (x : Word) : (s.pokeWord k x).jobs = s.jobs := rfl
@[simp] theorem State.pokeWord_chip (k : Nat) (x : Word) : (s.pokeWord k x).chip = s.chip := rfl
@[simp] theorem State.pokeWord_mem (k : Nat) (x : Word) : (s.pokeWord k x).mem = Memory.put s.mem k (leBytes 8 x.toNat) := rfl
@[simp] theorem State.pokeWord_poison (k : Nat) (x : Word) : (s.pokeWord k x).poison = s.poison := rfl
@[simp] theorem State.pokeWord_agenda (k : Nat) (x : Word) : (s.pokeWord k x).agenda = s.agenda := rfl
@[simp] theorem State.pokeWord_engineTurn (k : Nat) (x : Word) : (s.pokeWord k x).engineTurn = s.engineTurn := rfl
@[simp] theorem State.pokeWord_turn (k : Nat) (x : Word) : (s.pokeWord k x).turn = s.turn := rfl
@[simp] theorem State.pokeWord_delay (k : Nat) (x : Word) : (s.pokeWord k x).delay = s.delay := rfl
@[simp] theorem State.pokeWord_freeCtr (k : Nat) (x : Word) : (s.pokeWord k x).freeCtr = s.freeCtr := rfl

/-! ## A sequencer's record in a core -/

@[simp] theorem Core.seq_setSeq (c : Core) (q : Seqr) (x : SeqSt) : (c.setSeq q x).seq q = x := by cases q <;> rfl
theorem Core.seq_setSeq_ne (c : Core) {q p : Seqr} (x : SeqSt) (h : p ≠ q) : (c.setSeq q x).seq p = c.seq p := by
  cases q <;> cases p <;> first | rfl | exact absurd rfl h
@[simp] theorem Core.setSeq_phys (c : Core) (q : Seqr) (x : SeqSt) : (c.setSeq q x).phys = c.phys := by cases q <;> rfl
@[simp] theorem Core.setSeq_job (c : Core) (q : Seqr) (x : SeqSt) : (c.setSeq q x).job = c.job := by cases q <;> rfl
@[simp] theorem Core.setSeq_rank (c : Core) (q : Seqr) (x : SeqSt) : (c.setSeq q x).rank = c.rank := by cases q <;> rfl
@[simp] theorem Core.setSeq_coreId (c : Core) (q : Seqr) (x : SeqSt) : (c.setSeq q x).coreId = c.coreId := by cases q <;> rfl
@[simp] theorem Core.setSeq_s (c : Core) (q : Seqr) (x : SeqSt) : (c.setSeq q x).s = c.s := by cases q <;> rfl
@[simp] theorem Core.setSeq_shadow (c : Core) (q : Seqr) (x : SeqSt) : (c.setSeq q x).shadow = c.shadow := by cases q <;> rfl
@[simp] theorem Core.setSeq_latC (c : Core) (q : Seqr) (x : SeqSt) : (c.setSeq q x).latC = c.latC := by cases q <;> rfl
@[simp] theorem Core.setSeq_latSet (c : Core) (q : Seqr) (x : SeqSt) : (c.setSeq q x).latSet = c.latSet := by cases q <;> rfl
@[simp] theorem Core.setSeq_sysS (c : Core) (q : Seqr) (x : SeqSt) : (c.setSeq q x).sysS = c.sysS := by cases q <;> rfl
@[simp] theorem Core.setSeq_sysLat (c : Core) (q : Seqr) (x : SeqSt) : (c.setSeq q x).sysLat = c.sysLat := by cases q <;> rfl
@[simp] theorem Core.setSeq_barv (c : Core) (q : Seqr) (x : SeqSt) : (c.setSeq q x).barv = c.barv := by cases q <;> rfl
@[simp] theorem Core.setSeq_trigged (c : Core) (q : Seqr) (x : SeqSt) : (c.setSeq q x).trigged = c.trigged := by cases q <;> rfl
@[simp] theorem Core.setSeq_trigSent (c : Core) (q : Seqr) (x : SeqSt) : (c.setSeq q x).trigSent = c.trigSent := by cases q <;> rfl
@[simp] theorem Core.setSeq_marks (c : Core) (q : Seqr) (x : SeqSt) : (c.setSeq q x).marks = c.marks := by cases q <;> rfl
@[simp] theorem Core.setSeq_detC (c : Core) (q : Seqr) (x : SeqSt) : (c.setSeq q x).detC = c.detC := by cases q <;> rfl
@[simp] theorem Core.setSeq_a (c : Core) (q : Seqr) (x : SeqSt) : (c.setSeq q x).a = c.a := by cases q <;> rfl
@[simp] theorem Core.setSeq_latA (c : Core) (q : Seqr) (x : SeqSt) : (c.setSeq q x).latA = c.latA := by cases q <;> rfl
@[simp] theorem Core.setSeq_strm (c : Core) (q : Seqr) (x : SeqSt) : (c.setSeq q x).strm = c.strm := by cases q <;> rfl
@[simp] theorem Core.setSeq_lq (c : Core) (q : Seqr) (x : SeqSt) : (c.setSeq q x).lq = c.lq := by cases q <;> rfl
@[simp] theorem Core.setSeq_sq (c : Core) (q : Seqr) (x : SeqSt) : (c.setSeq q x).sq = c.sq := by cases q <;> rfl
@[simp] theorem Core.setSeq_epoch (c : Core) (q : Seqr) (x : SeqSt) : (c.setSeq q x).epoch = c.epoch := by cases q <;> rfl
@[simp] theorem Core.setSeq_serial (c : Core) (q : Seqr) (x : SeqSt) : (c.setSeq q x).serial = c.serial := by cases q <;> rfl
@[simp] theorem Core.setSeq_v (c : Core) (q : Seqr) (x : SeqSt) : (c.setSeq q x).v = c.v := by cases q <;> rfl
@[simp] theorem Core.setSeq_m (c : Core) (q : Seqr) (x : SeqSt) : (c.setSeq q x).m = c.m := by cases q <;> rfl
@[simp] theorem Core.setSeq_latV (c : Core) (q : Seqr) (x : SeqSt) : (c.setSeq q x).latV = c.latV := by cases q <;> rfl
@[simp] theorem Core.setSeq_d (c : Core) (q : Seqr) (x : SeqSt) : (c.setSeq q x).d = c.d := by cases q <;> rfl
@[simp] theorem Core.setSeq_latM (c : Core) (q : Seqr) (x : SeqSt) : (c.setSeq q x).latM = c.latM := by cases q <;> rfl
@[simp] theorem Core.setSeq_rings (c : Core) (q : Seqr) (x : SeqSt) : (c.setSeq q x).rings = c.rings := by cases q <;> rfl
@[simp] theorem Core.setSeq_curRing (c : Core) (q : Seqr) (x : SeqSt) : (c.setSeq q x).curRing = c.curRing := by cases q <;> rfl
@[simp] theorem Core.setSeq_openB (c : Core) (q : Seqr) (x : SeqSt) : (c.setSeq q x).openB = c.openB := by cases q <;> rfl
@[simp] theorem Core.setSeq_batches (c : Core) (q : Seqr) (x : SeqSt) : (c.setSeq q x).batches = c.batches := by cases q <;> rfl
@[simp] theorem Core.setSeq_detM (c : Core) (q : Seqr) (x : SeqSt) : (c.setSeq q x).detM = c.detM := by cases q <;> rfl
@[simp] theorem Core.setSeq_accq (c : Core) (q : Seqr) (x : SeqSt) : (c.setSeq q x).accq = c.accq := by cases q <;> rfl
@[simp] theorem Core.setSeq_accId (c : Core) (q : Seqr) (x : SeqSt) : (c.setSeq q x).accId = c.accId := by cases q <;> rfl
@[simp] theorem Core.setSeq_x (c : Core) (q : Seqr) (x : SeqSt) : (c.setSeq q x).x = c.x := by cases q <;> rfl
@[simp] theorem Core.setSeq_pend (c : Core) (q : Seqr) (x : SeqSt) : (c.setSeq q x).pend = c.pend := by cases q <;> rfl
@[simp] theorem Core.setSeq_icache (c : Core) (q : Seqr) (x : SeqSt) : (c.setSeq q x).icache = c.icache := by cases q <;> rfl
@[simp] theorem Core.setSeq_tlb (c : Core) (q : Seqr) (x : SeqSt) : (c.setSeq q x).tlb = c.tlb := by cases q <;> rfl
@[simp] theorem Core.setSeq_tok (c : Core) (q : Seqr) (x : SeqSt) : (c.setSeq q x).tok = c.tok := by cases q <;> rfl
@[simp] theorem Core.setSeq_seqCtr (c : Core) (q : Seqr) (x : SeqSt) : (c.setSeq q x).seqCtr = c.seqCtr := by cases q <;> rfl
@[simp] theorem Core.setSeq_tokLast (c : Core) (q : Seqr) (x : SeqSt) : (c.setSeq q x).tokLast = c.tokLast := by cases q <;> rfl
@[simp] theorem Core.setSeq_cmds (c : Core) (q : Seqr) (x : SeqSt) : (c.setSeq q x).cmds = c.cmds := by cases q <;> rfl
@[simp] theorem Core.setSeq_recs (c : Core) (q : Seqr) (x : SeqSt) : (c.setSeq q x).recs = c.recs := by cases q <;> rfl
@[simp] theorem Core.setSeq_slots (c : Core) (q : Seqr) (x : SeqSt) : (c.setSeq q x).slots = c.slots := by cases q <;> rfl
@[simp] theorem Core.setSeq_acc (c : Core) (q : Seqr) (x : SeqSt) : (c.setSeq q x).acc = c.acc := by cases q <;> rfl
@[simp] theorem Core.setSeq_held (c : Core) (q : Seqr) (x : SeqSt) : (c.setSeq q x).held = c.held := by cases q <;> rfl
@[simp] theorem Core.setSeq_accTask (c : Core) (q : Seqr) (x : SeqSt) : (c.setSeq q x).accTask = c.accTask := by cases q <;> rfl
@[simp] theorem Core.setSeq_nestSh (c : Core) (q : Seqr) (x : SeqSt) : (c.setSeq q x).nestSh = c.nestSh := by cases q <;> rfl
@[simp] theorem Core.setSeq_nest (c : Core) (q : Seqr) (x : SeqSt) : (c.setSeq q x).nest = c.nest := by cases q <;> rfl
@[simp] theorem Core.setSeq_mtxQ (c : Core) (q : Seqr) (x : SeqSt) : (c.setSeq q x).mtxQ = c.mtxQ := by cases q <;> rfl
@[simp] theorem Core.setSeq_drains (c : Core) (q : Seqr) (x : SeqSt) : (c.setSeq q x).drains = c.drains := by cases q <;> rfl
@[simp] theorem Core.setSeq_t (c : Core) (q : Seqr) (x : SeqSt) : (c.setSeq q x).t = c.t := by cases q <;> rfl
@[simp] theorem Core.setSeq_rmax (c : Core) (q : Seqr) (x : SeqSt) : (c.setSeq q x).rmax = c.rmax := by cases q <;> rfl
@[simp] theorem Core.setSeq_terms (c : Core) (q : Seqr) (x : SeqSt) : (c.setSeq q x).terms = c.terms := by cases q <;> rfl
@[simp] theorem Core.setSeq_drnPc (c : Core) (q : Seqr) (x : SeqSt) : (c.setSeq q x).drnPc = c.drnPc := by cases q <;> rfl
@[simp] theorem Core.setSeq_drnElem (c : Core) (q : Seqr) (x : SeqSt) : (c.setSeq q x).drnElem = c.drnElem := by cases q <;> rfl
@[simp] theorem Core.setSeq_drnStores (c : Core) (q : Seqr) (x : SeqSt) : (c.setSeq q x).drnStores = c.drnStores := by cases q <;> rfl
@[simp] theorem Core.setSeq_drnRun (c : Core) (q : Seqr) (x : SeqSt) : (c.setSeq q x).drnRun = c.drnRun := by cases q <;> rfl
@[simp] theorem Core.setSeq_drnMem (c : Core) (q : Seqr) (x : SeqSt) : (c.setSeq q x).drnMem = c.drnMem := by cases q <;> rfl
@[simp] theorem Core.setSeq_mxKcap (c : Core) (q : Seqr) (x : SeqSt) : (c.setSeq q x).mxKcap = c.mxKcap := by cases q <;> rfl
@[simp] theorem Core.setSeq_watch (c : Core) (q : Seqr) (x : SeqSt) : (c.setSeq q x).watch = c.watch := by cases q <;> rfl
@[simp] theorem Core.setSeq_stage (c : Core) (q : Seqr) (x : SeqSt) : (c.setSeq q x).stage = c.stage := by cases q <;> rfl
@[simp] theorem Core.setSeq_taskId (c : Core) (q : Seqr) (x : SeqSt) : (c.setSeq q x).taskId = c.taskId := by cases q <;> rfl
@[simp] theorem Core.setSeq_priv (c : Core) (q : Seqr) (x : SeqSt) : (c.setSeq q x).priv = c.priv := by cases q <;> rfl
@[simp] theorem Core.setSeq_divz (c : Core) (q : Seqr) (x : SeqSt) : (c.setSeq q x).divz = c.divz := by cases q <;> rfl
@[simp] theorem Core.setSeq_uie (c : Core) (q : Seqr) (x : SeqSt) : (c.setSeq q x).uie = c.uie := by cases q <;> rfl
@[simp] theorem Core.setSeq_uh (c : Core) (q : Seqr) (x : SeqSt) : (c.setSeq q x).uh = c.uh := by cases q <;> rfl
@[simp] theorem Core.setSeq_uipend (c : Core) (q : Seqr) (x : SeqSt) : (c.setSeq q x).uipend = c.uipend := by cases q <;> rfl
@[simp] theorem Core.setSeq_suspending (c : Core) (q : Seqr) (x : SeqSt) : (c.setSeq q x).suspending = c.suspending := by cases q <;> rfl
@[simp] theorem Core.setSeq_atomGroup (c : Core) (q : Seqr) (x : SeqSt) : (c.setSeq q x).atomGroup = c.atomGroup := by cases q <;> rfl
@[simp] theorem Core.setSeq_atomOrder (c : Core) (q : Seqr) (x : SeqSt) : (c.setSeq q x).atomOrder = c.atomOrder := by cases q <;> rfl
@[simp] theorem Core.setSeq_uiv (c : Core) (q : Seqr) (x : SeqSt) : (c.setSeq q x).uiv = c.uiv := by cases q <;> rfl
@[simp] theorem Core.setSeq_uepc (c : Core) (q : Seqr) (x : SeqSt) : (c.setSeq q x).uepc = c.uepc := by cases q <;> rfl
@[simp] theorem Core.setSeq_trap (c : Core) (q : Seqr) (x : SeqSt) : (c.setSeq q x).trap = c.trap := by cases q <;> rfl
@[simp] theorem Core.setSeq_fwds (c : Core) (q : Seqr) (x : SeqSt) : (c.setSeq q x).fwds = c.fwds := by cases q <;> rfl
@[simp] theorem Core.setSeq_trapFrame (c : Core) (q : Seqr) (x : SeqSt) : (c.setSeq q x).trapFrame = c.trapFrame := by cases q <;> rfl
@[simp] theorem Core.setSeq_accSave (c : Core) (q : Seqr) (x : SeqSt) : (c.setSeq q x).accSave = c.accSave := by cases q <;> rfl
@[simp] theorem Core.setSeq_ctxSave (c : Core) (q : Seqr) (x : SeqSt) : (c.setSeq q x).ctxSave = c.ctxSave := by cases q <;> rfl
@[simp] theorem Core.setSeq_preWait (c : Core) (q : Seqr) (x : SeqSt) : (c.setSeq q x).preWait = c.preWait := by cases q <;> rfl
@[simp] theorem Core.setSeq_migWait (c : Core) (q : Seqr) (x : SeqSt) : (c.setSeq q x).migWait = c.migWait := by cases q <;> rfl
@[simp] theorem Core.setSeq_stopReq (c : Core) (q : Seqr) (x : SeqSt) : (c.setSeq q x).stopReq = c.stopReq := by cases q <;> rfl
@[simp] theorem Core.setSeq_stopped (c : Core) (q : Seqr) (x : SeqSt) : (c.setSeq q x).stopped = c.stopped := by cases q <;> rfl
@[simp] theorem Core.setSeq_saved (c : Core) (q : Seqr) (x : SeqSt) : (c.setSeq q x).saved = c.saved := by cases q <;> rfl

@[simp] theorem Core.seq_modSeq (c : Core) (q : Seqr) (f : SeqSt → SeqSt) : (c.modSeq q f).seq q = f (c.seq q) :=
  Core.seq_setSeq ..

/-! ## Reads after updates -/

@[simp] theorem State.modCore_byte (f : Core → Core) (a : Nat) : (s.modCore f).byte a = s.byte a := rfl
@[simp] theorem State.modChip_byte (f : Chip → Chip) (a : Nat) : (s.modChip f).byte a = s.byte a := rfl
@[simp] theorem State.modSeq_byte (q : Seqr) (f : SeqSt → SeqSt) (a : Nat) : (s.modSeq q f).byte a = s.byte a := rfl
@[simp] theorem State.modJob_byte (j : Nat) (f : Job → Job) (a : Nat) : (s.modJob j f).byte a = s.byte a := rfl
@[simp] theorem State.modRank_byte (j r : Nat) (f : Rank → Rank) (a : Nat) : (s.modRank j r f).byte a = s.byte a := rfl
@[simp] theorem State.post_byte (k : MsgKind) (args : List Nat) (a : Nat) : (s.post k args).byte a = s.byte a := rfl

@[simp] theorem State.modCore_now (f : Core → Core) : (s.modCore f).now = s.now := rfl
@[simp] theorem State.modSeq_now (q : Seqr) (f : SeqSt → SeqSt) : (s.modSeq q f).now = s.now := rfl

/-- A byte after bytes were written from address k. -/
theorem State.poke_byte (k a : Nat) (bs : List Byte) :
    (s.poke k bs).byte a = if k ≤ a ∧ a < k + bs.length then bs[a - k]?.getD 0 else s.byte a :=
  Memory.get_put ..

/-- A write leaves every byte outside its range. -/
theorem State.poke_byte_out {k a : Nat} {bs : List Byte} (h : a < k ∨ k + bs.length ≤ a) : (s.poke k bs).byte a = s.byte a := by
  rw [State.poke_byte, if_neg (by omega)]

/-- The bytes written are the bytes read. -/
theorem State.poke_bytes (k : Nat) (bs : List Byte) : (s.poke k bs).bytes k bs.length = bs := by
  apply List.ext_getElem
  · simp [State.bytes]
  · intro i h1 h2
    simp only [State.bytes, List.getElem_map, List.getElem_range, State.poke_byte]
    rw [if_pos ⟨by omega, by omega⟩]
    simp [h2]

/-- A doubleword written is the doubleword read. -/
theorem State.pokeWord_word (k : Nat) (x : Word) : (s.pokeWord k x).word k = x := by
  have hl : (leBytes 8 x.toNat).length = 8 := leBytes_length ..
  have h : ((s.pokeWord k x).bytes k 8) = leBytes 8 x.toNat := by
    have := State.poke_bytes s k (leBytes 8 x.toNat)
    rwa [hl] at this
  rw [State.word, h, leVal_leBytes, Nat.mod_eq_of_lt (by simpa using x.isLt)]
  simp

/-! ## Frames of composed updates -/

theorem State.poke_wf (k : Nat) (bs : List Byte) (h : Memory.wf s.mem) : Memory.wf (s.poke k bs).mem :=
  Memory.put_wf _ _ h

theorem State.pokeWord_wf (k : Nat) (x : Word) (h : Memory.wf s.mem) : Memory.wf (s.pokeWord k x).mem :=
  Memory.put_wf _ _ h

end Sys2Proof.Machine
end

