-- ==== Sys2Proof/Laws/Keeps.lean ====
section
/-!
SUPPORT. Every memory operation keeps the canonical form of memory: translation, reads, stores, stores by physical address,
atomics and the accesses of CTL and MOV.
-/
namespace Sys2Proof.Machine

/-- The machine's memory has its canonical form. -/
abbrev State.ok (s : State) : Prop := Memory.wf s.mem

/-! ## Computations that may fault -/

/-- Where the computation answers, the state in its answer has the form. -/
def Leaves {ε α : Type} (st : α → State) (x : Except ε α) : Prop := ∀ a, x = .ok a → (st a).ok

theorem leaves_error {ε α : Type} {st : α → State} (c : ε) : Leaves st (.error c) := fun _ e => nomatch e

theorem leaves_ok {ε α : Type} {st : α → State} {a : α} (h : (st a).ok) : Leaves (ε := ε) st (.ok a) :=
  fun _ e => Except.ok.inj e ▸ h

theorem leaves_ite {ε α : Type} {st : α → State} {p : Prop} [Decidable p] {x y : Except ε α} (hx : Leaves st x)
    (hy : Leaves st y) : Leaves st (if p then x else y) := by
  by_cases h : p
  · rwa [if_pos h]
  · rwa [if_neg h]

/-- Such a computation faults, or answers with the form kept. -/
theorem leaves_cases {ε α : Type} {st : α → State} {x : Except ε α} (hx : Leaves st x) :
    (∃ c, x = .error c) ∨ ∃ a, x = .ok a ∧ (st a).ok := by
  cases x with
  | error c => exact .inl ⟨c, rfl⟩
  | ok a => exact .inr ⟨a, rfl, hx a rfl⟩

/-! ## Translation -/

theorem enterLeaf_ok {s : State} (r : Req) (va : Nat) (l : Leaf) (h : s.ok) : (enterLeaf s r va l).1.ok := by
  unfold enterLeaf
  simp only
  repeat' split
  all_goals first | exact h | exact State.pokeWord_wf _ _ _ h

theorem prefetch_ok {s : State} (r : Req) (va n : Nat) (h : s.ok) : (prefetch s r va n).ok := by
  unfold prefetch
  repeat' split
  all_goals first | exact h | exact enterLeaf_ok _ _ _ h

theorem findLeaf_leaves {s : State} (r : Req) (va : Nat) (k : Kind) (h : s.ok) : Leaves (·.1) (findLeaf s r va k) := by
  have walked : Leaves (·.1) (walkLeaf s r va k) := by
    unfold walkLeaf
    cases translate s r.asid va k r.priv with
    | error c => exact leaves_error c
    | ok l => exact leaves_ok (enterLeaf_ok r va l h)
  unfold findLeaf
  repeat' split
  all_goals first | exact walked | exact leaves_ok h

theorem leafFor_leaves {s : State} (r : Req) (va n : Nat) (k : Kind) (h : s.ok) : Leaves (·.1) (leafFor s r va n k) := by
  obtain ⟨c, e⟩ | ⟨⟨u, l⟩, e, hu⟩ := leaves_cases (findLeaf_leaves r va k h) <;> simp only [leafFor, e]
  · exact leaves_error c
  · have ahead := prefetch_ok r va n hu
    exact leaves_ite (leaves_ok (State.pokeWord_wf _ _ _ ahead)) (leaves_ok ahead)

theorem leafFor_ok {s t : State} {r : Req} {va n : Nat} {k : Kind} {l : Leaf} (h : s.ok) (e : leafFor s r va n k = .ok (t, l)) :
    t.ok := leafFor_leaves r va n k h _ e

theorem sendOn_mem (c : Nat) (k : Option Nat) (body : List Nat) (s : State) : (sendOn c k body s).mem = s.mem := by
  cases k <;> rfl

theorem sendFlit_mem (s : State) (r : Req) (t va n : Nat) (wr : Bool) : (sendFlit s r t va n wr).mem = s.mem := by
  unfold sendFlit
  split
  · rfl
  · exact sendOn_mem ..

theorem sendMoved_mem (s : State) (r : Req) (t o n va : Nat) (wr : Bool) : (sendMoved s r t o n va wr).mem = s.mem := by
  unfold sendMoved
  split
  · rfl
  · exact sendOn_mem ..

theorem tellPlace_mem (s : State) (j r : Nat) (e : PlaceEntry) : (tellPlace j r e s).mem = s.mem := by
  unfold tellPlace
  induction (farChips s j) generalizing s with
  | nil => rfl
  | cons c l ih => exact ih _

theorem wakeCold_mem (j t : Nat) (s : State) : (wakeCold j t s).mem = s.mem := by
  simp only [wakeCold]
  split
  · exact tellPlace_mem ..
  · rfl

theorem serveExport_leaves {s : State} (r : Req) (t o n fva : Nat) (k : Kind) (h : s.ok) :
    Leaves (·.1) (serveExport s r t o n fva k) := by
  unfold serveExport
  simp only
  cases s.rank? r.job t with
  | none => exact leaves_ite (leaves_error _) (leaves_ok ((congrArg Memory.wf (sendFlit_mem ..)).mpr h))
  | some rk =>
    obtain ⟨c, e⟩ | ⟨⟨u, l⟩, e, hu⟩ := leaves_cases (leafFor_leaves (s.unitReq r.job t false) (rk.expBase.toNat + o) n k h) <;> simp only [e]
    · exact leaves_error _
    · refine leaves_ite (leaves_error _) (leaves_ite (leaves_error _) (leaves_ok ?_))
      exact (congrArg Memory.wf ((sendMoved_mem ..).trans (wakeCold_mem ..))).mpr hu

theorem serveExport_ok {s u : State} {r : Req} {t o n fva : Nat} {k : Kind} {p : Piece} (h : s.ok)
    (e : serveExport s r t o n fva k = .ok (u, p)) : u.ok := serveExport_leaves r t o n fva k h _ e

/-! ## Accesses piece by piece -/

theorem locate_leaves {s : State} (r : Req) (va n : Nat) (k : Kind) (h : s.ok) : Leaves (·.1) (locate s r va n k) := by
  unfold locate
  split
  · exact leaves_error _
  · exact leaves_ok h
  · exact serveExport_leaves _ _ _ _ _ _ h
  · obtain ⟨c, e⟩ | ⟨⟨u, l⟩, e, hu⟩ := leaves_cases (leafFor_leaves r va n k h) <;> simp only [e]
    · exact leaves_error _
    · refine leaves_ite (leaves_error _) (leaves_ite ?_ (leaves_ok hu))
      exact leaves_ite (leaves_error _) (leaves_ite (leaves_error _) (serveExport_leaves _ _ _ _ _ _ hu))

theorem locate_ok {s t : State} {r : Req} {va n : Nat} {k : Kind} {p : Piece} (h : s.ok)
    (e : locate s r va n k = .ok (t, p)) : t.ok := locate_leaves r va n k h _ e

theorem locateAll_leaves (k : Kind) (fuel : Nat) :
    ∀ (s : State) (r : Req) (va n : Nat), s.ok → Leaves (·.1) (locateAll s r k fuel va n) := by
  induction fuel with
  | zero => exact fun s r va n h => leaves_ok h
  | succ f ih =>
    intro s r va n h
    simp only [locateAll]
    refine leaves_ite (leaves_ok h) ?_
    generalize min n (pieceUnit s - va % pieceUnit s) = m
    obtain ⟨c, e⟩ | ⟨⟨u, x⟩, e, hu⟩ := leaves_cases (locate_leaves { r with bytes := r.bytes.take m } va m k h) <;> simp only [e]
    · exact leaves_error c
    · obtain ⟨c, e'⟩ | ⟨⟨w, xs⟩, e', hw⟩ := leaves_cases (ih u { r with bytes := r.bytes.drop m } (va + m) (n - m) hu) <;> simp only [e']
      · exact leaves_error c
      · exact leaves_ok hw

theorem unqueue_mem (s : State) (r : Req) (op : FabOp) (va n : Nat) : (unqueue s r op va n).mem = s.mem := by
  unfold unqueue
  split <;> rfl

theorem agentWay_leaves (r : Req) (k : Kind) (l : List (Nat × Nat)) : ∀ s : State, s.ok → Leaves id (agentWay r k l s) := by
  induction l with
  | nil => exact fun s h => leaves_ok h
  | cons p l ih =>
    intro s h
    exact leaves_ite (ih _ (by rw [State.ok, unqueue_mem]; exact h)) (leaves_error _)

theorem access_leaves {s : State} (r : Req) (va n : Nat) (k : Kind) (h : s.ok) : Leaves (·.1) (access s r va n k) := by
  unfold access
  split
  · exact leaves_error _
  · have way : Leaves id (if r.agent then agentWay r k (pageParts va n) s else .ok s) :=
      leaves_ite (agentWay_leaves r k _ s h) (leaves_ok h)
    obtain ⟨c, e⟩ | ⟨u, e, hu⟩ := leaves_cases way <;> simp only [e]
    · exact leaves_error _
    · exact locateAll_leaves k _ u r va n hu

theorem access_ok {s t : State} {r : Req} {va n : Nat} {k : Kind} {ps : List Piece} (h : s.ok)
    (e : access s r va n k = .ok (t, ps)) : t.ok := access_leaves r va n k h _ e

theorem logLine_mem (s : State) (pa va : Nat) (asid : BitVec 16) : (logLine s pa va asid).mem = s.mem := by
  unfold logLine
  repeat' split
  all_goals rfl

theorem markDirty_mem (s : State) (pa n : Nat) : (markDirty s pa n).mem = s.mem := by
  unfold markDirty
  split <;> rfl

theorem foldl_mem {α : Type} (f : State → α → State) (h : ∀ s a, (f s a).mem = s.mem) (l : List α) (s : State) :
    (l.foldl f s).mem = s.mem := by
  induction l generalizing s with
  | nil => rfl
  | cons a l ih => rw [List.foldl_cons, ih, h]

theorem beforeStore_mem (s : State) (p : Piece) : (beforeStore s p).mem = s.mem := by
  unfold beforeStore
  split
  · rfl
  · simp only [markDirty_mem]
    exact foldl_mem _ (fun s a => logLine_mem ..) _ _

theorem clearPoison_mem (s : State) (p : Piece) : (clearPoison s p).mem = s.mem := by
  simp only [clearPoison]
  split <;> rfl

theorem recheck_mem (s : State) : (recheck s).mem = s.mem := rfl

theorem writePieces_ok (ps : List Piece) : ∀ {s : State} (bs : List Byte), s.ok → (writePieces s ps bs).ok := by
  induction ps with
  | nil => intro s bs h; exact h
  | cons p ps ih =>
    intro s bs h
    simp only [writePieces]
    apply ih
    have put : ((clearPoison (beforeStore s p) p).poke p.key (List.take p.len bs)).ok := by
      apply State.poke_wf
      rw [clearPoison_mem, beforeStore_mem]
      exact h
    split
    · exact h
    · exact put

/-! ## Reads, stores and atomics -/

theorem readMem_leaves {s : State} (r : Req) (va n : Nat) (h : s.ok) : Leaves (·.1) (readMem s r va n) := by
  obtain ⟨c, e⟩ | ⟨⟨u, ps⟩, e, hu⟩ := leaves_cases (access_leaves r va n .read h)
  · simpa only [readMem, e] using leaves_error c
  · simp only [readMem, e]
    cases readPieces u ps with
    | error c => exact leaves_error c
    | ok bs => exact leaves_ok hu

theorem writeMem_leaves {s : State} (r : Req) (va : Nat) (bs : List Byte) (h : s.ok) : Leaves id (writeMem s r va bs) := by
  obtain ⟨c, e⟩ | ⟨⟨u, ps⟩, e, hu⟩ := leaves_cases (access_leaves { r with bytes := bs } va bs.length .write h)
  · simpa only [writeMem, e] using leaves_error c
  · simp only [writeMem, e]
    cases ps.findSome? (poisonAt u true) with
    | some a => exact leaves_error _
    | none => exact leaves_ok (writePieces_ok _ _ hu)

theorem rmw_leaves {s : State} (r : Req) (va : Nat) (f : Nat → Except Cause Nat) (h : s.ok) : Leaves (·.1) (rmw s r va f) := by
  obtain ⟨c, e⟩ | ⟨⟨u, ps⟩, e, hu⟩ := leaves_cases (access_leaves r va 8 .write h)
  · simpa only [rmw, e] using leaves_error c
  · simp only [rmw, e]
    cases readPieces u ps with
    | error c => exact leaves_error c
    | ok bs =>
      simp only
      cases f (leVal bs) with
      | error c => exact leaves_error _
      | ok y => exact leaves_ok (writePieces_ok _ _ hu)

/-- A read keeps the form. -/
theorem readMem_ok {s t : State} {r : Req} {va n : Nat} {bs : List Byte} (h : s.ok) (e : readMem s r va n = .ok (t, bs)) :
    t.ok := readMem_leaves r va n h _ e

/-- A store keeps the form. -/
theorem writeMem_ok {s t : State} {r : Req} {va : Nat} {bs : List Byte} (h : s.ok) (e : writeMem s r va bs = .ok t) : t.ok :=
  writeMem_leaves r va bs h _ e

/-- A store by physical address keeps the form. -/
theorem writePhys_ok {s : State} (pa : Nat) (bs : List Byte) (h : s.ok) : (writePhys s pa bs).ok :=
  writePieces_ok _ _ h

/-- A read-modify-write keeps the form. -/
theorem rmw_ok {s t : State} {r : Req} {va v : Nat} {f : Nat → Except Cause Nat} (h : s.ok) (e : rmw s r va f = .ok (t, v)) :
    t.ok := rmw_leaves r va f h _ e

theorem performOp_leaves {s : State} (r : Req) (op : AccOp) (addr size : Nat) (h : s.ok) :
    Leaves (·.1) (performOp s r op addr size) := by
  have read (n : Nat) := leaves_cases (readMem_leaves r addr n h)
  unfold performOp
  cases accCheck s addr size with
  | some f => exact leaves_error f
  | none =>
    cases op with
    | again | flight => exact leaves_ok h
    | store x =>
      obtain ⟨c, e⟩ | ⟨u, e, hu⟩ := leaves_cases (writeMem_leaves r addr (leBytes size x.toNat) h) <;> simp only [e]
      · exact leaves_error c
      · exact leaves_ok hu
    | load =>
      obtain ⟨c, e⟩ | ⟨⟨u, bs⟩, e, hu⟩ := read size <;> simp only [e]
      · exact leaves_error c
      · exact leaves_ok hu
    | tidw =>
      obtain ⟨c, e⟩ | ⟨⟨u, bs⟩, e, hu⟩ := read 64 <;> simp only [e]
      · exact leaves_error c
      · cases Desc.check (BitVec.ofNat 512 (leVal bs)) with
        | some c => exact leaves_error _
        | none => exact leaves_ok hu
    | cring =>
      obtain ⟨c, e⟩ | ⟨⟨u, bs⟩, e, hu⟩ := read 32 <;> simp only [e]
      · exact leaves_error c
      · exact leaves_ite (leaves_error _) (leaves_ok hu)
    | atom | cas | expct | arrv =>
      simp only
      split
      · exact leaves_error _
      · rename_i e
        exact leaves_ok (rmw_leaves _ addr _ h _ e)

/-- An access of CTL or MOV keeps the form. -/
theorem performOp_ok {s t : State} {r : Req} {op : AccOp} {addr size : Nat} {x : Option Word} (h : s.ok)
    (e : performOp s r op addr size = .ok (t, x)) : t.ok := performOp_leaves r op addr size h _ e

end Sys2Proof.Machine
end

