-- ==== Sys2Proof/Laws/Ops.lean ====
section
/-!
SUPPORT. What the shared operations of the scalar sequencers do: the ends of a meaning, operands, results, positions.
-/
namespace Sys2Proof.Machine

/-! ## Ends of a meaning -/

@[simp] theorem finish_ok (q : Seqr) (s : State) : finish q (.ok s) = .next s := rfl
@[simp] theorem finish_stall (q : Seqr) (s : State) : finish q (.stall s) = .next (stalled q s) := rfl
@[simp] theorem finish_wait (q : Seqr) (on : Awaited) (s : State) : finish q (.wait on s) = .next (waiting q on s) := rfl
@[simp] theorem finish_trap (q : Seqr) (f : Flt) (aux : Nat) (s : State) : finish q (.trap f aux s) = .next (takeTrap q f aux s) := rfl
@[simp] theorem finish_raise (q : Seqr) (c : Cause) (s : State) : finish q (.raise c s) = .next (takeTrap q ⟨c, 0, none⟩ 0 s) := rfl
@[simp] theorem finish_stop (q : Seqr) (f : Fault) : finish q (.stop f) = .fault f := rfl

/-! ## Operands -/

@[simp] theorem withSrc_val {q : Seqr} {a : Src} {s : State} {x : Word} {k : Word → Out} (h : readSrc s q a = .val x) :
    withSrc q a s k = k x := by simp [withSrc, h]
@[simp] theorem withSrc_wait {q : Seqr} {a : Src} {s : State} {k : Word → Out} (h : readSrc s q a = .wait) :
    withSrc q a s k = .stall s := by simp [withSrc, h]
@[simp] theorem withSrc_bad {q : Seqr} {a : Src} {s : State} {c : Cause} {k : Word → Out} (h : readSrc s q a = .bad c) :
    withSrc q a s k = .raise c s := by simp [withSrc, h]

@[simp] theorem withDst_free {q : Seqr} {nw : Bool} {d : BitVec 6} {s : State} {k : Out} (h : DstFree s q nw d) :
    withDst q nw d s k = k := by
  unfold DstFree at h
  simp [withDst, h]

theorem withDst_busy {q : Seqr} {nw : Bool} {d : BitVec 6} {s : State} {k : Out} (h : ¬ DstFree s q nw d) :
    withDst q nw d s k = .stall s := by
  unfold DstFree at h
  simp only [Bool.not_eq_false] at h
  simp [withDst, h]

/-- A register that no access owes reads its value. -/
theorem readSrc_reg {s : State} {q : Seqr} {n : BitVec 6} (hc : (s.core.seq q).cap.ops = [])
    (h : owes s q (regIx s.core q n.toNat) = false) : readSrc s q (.r n) = .val (reg s q n) := by
  simp [readSrc, capOf, hc, h]

/-- An instruction issued again reads the values it was issued with. -/
theorem readSrc_cap {s : State} {q : Seqr} {a : Src} {x : Word} (h : capOf s q a = some x) : readSrc s q a = .val x := by
  simp [readSrc, h]

/-- What reading any source can give: a value, a wait for an access in flight, or ENC_LATCH. -/
theorem readSrc_cases (s : State) (q : Seqr) (a : Src) :
    (∃ x, readSrc s q a = .val x) ∨ readSrc s q a = .wait ∨ readSrc s q a = .bad .encLatch := by
  unfold readSrc
  cases capOf s q a with
  | some x => simp
  | none =>
    cases a with
    | r n => by_cases h : owes s q (regIx s.core q n.toNat) <;> simp [h]
    | b n =>
      simp only [readLat]
      repeat' split
      all_goals simp

@[simp] theorem notInUh_out {s : State} {k : Out} (h : s.core.uh = false) : notInUh s k = k := by simp [notInUh, h]
@[simp] theorem notInUh_in {s : State} {k : Out} (h : s.core.uh = true) : notInUh s k = .raise .uhIllegal s := by simp [notInUh, h]
@[simp] theorem notUnderDet_off {s : State} {k : Out} (h : s.myJob.det = false) : notUnderDet s k = k := by simp [notUnderDet, h]

/-! ## Shapes -/

theorem alu3_ok {q : Seqr} {lat : Nat} {f : Word → Word → Word} {o : S3} {s : State} {a b : Word}
    (ha : readSrc s q o.a = .val a) (hb : readSrc s q o.b = .val b) (hd : DstFree s q o.nw o.d) :
    alu3 q lat f o s = .ok (issued q 1 1 (putResult q lat o.nw o.d (f a b) s)) := by
  simp [alu3, ha, hb, hd]

theorem alu2_ok {q : Seqr} {f : Word → Word} {o : S2} {s : State} {a : Word}
    (ha : readSrc s q o.a = .val a) (hd : DstFree s q o.nw o.d) :
    alu2 q f o s = .ok (issued q 1 1 (putResult q 1 o.nw o.d (f a) s)) := by
  simp [alu2, ha, hd]

theorem aluI_ok {w : Nat} {q : Seqr} {f : Word → BitVec w → Word} {o : SI w} {s : State} {a : Word}
    (ha : readSrc s q o.a = .val a) (hd : DstFree s q o.nw o.d) :
    aluI q f o s = .ok (issued q 1 1 (putResult q 1 o.nw o.d (f a o.imm) s)) := by
  simp [aluI, ha, hd]

theorem aluL_ok {q : Seqr} {o : SL} {s : State} (hd : DstFree s q o.nw o.d) :
    aluL q o s = .ok (issued q 2 1 (putResult q 1 o.nw o.d (o.imm.signExtend 64) s)) := by
  simp [aluL, hd]

/-- Everything a three-operand instruction can do: its result, a wait, or ENC_LATCH. -/
theorem alu3_cases (q : Seqr) (lat : Nat) (f : Word → Word → Word) (o : S3) (s : State) :
    (∃ a b, readSrc s q o.a = .val a ∧ readSrc s q o.b = .val b
      ∧ alu3 q lat f o s = .ok (issued q 1 1 (putResult q lat o.nw o.d (f a b) s)))
    ∨ alu3 q lat f o s = .stall s ∨ alu3 q lat f o s = .raise .encLatch s := by
  rcases readSrc_cases s q o.a with ⟨a, ha⟩ | ha | ha
  · rcases readSrc_cases s q o.b with ⟨b, hb⟩ | hb | hb
    · by_cases hd : DstFree s q o.nw o.d
      · exact .inl ⟨a, b, ha, hb, alu3_ok ha hb hd⟩
      · exact .inr (.inl (by simp [alu3, ha, hb, withDst_busy hd]))
    · exact .inr (.inl (by simp [alu3, ha, hb]))
    · exact .inr (.inr (by simp [alu3, ha, hb]))
  · exact .inr (.inl (by simp [alu3, ha]))
  · exact .inr (.inr (by simp [alu3, ha]))

/-- A conditional branch that reads its source: taken, or past. -/
theorem branch_ok {q : Seqr} {o : SBr} {s : State} {a : Word} (ha : readSrc s q o.a = .val a) :
    branch q o s = .ok (if brTaken o.cond a then transfer q (lineAt (s.core.seq q).line o.off.toInt) 1 2 s
      else issued q 1 1 s) := by
  simp only [branch, withSrc_val ha]
  split <;> rfl

/-- Everything a loop instruction can do. -/
theorem enterLoop_cases (q : Seqr) (n : Nat) (count : W32) (e : Nat) (s : State) :
    (count = 0 ∧ enterLoop q n count e s
      = .ok (issued q n 1 (s.modSeq q fun y => { y with skip := some (lineAt (s.core.seq q).line (e + 1)) })))
    ∨ (count ≠ 0 ∧ 6 ≤ (s.core.seq q).loops.length ∧ enterLoop q n count e s = .raise .loopDepth s)
    ∨ (count ≠ 0 ∧ (s.core.seq q).loops.length < 6 ∧ enterLoop q n count e s
      = .ok (issued q n 1 (s.modSeq q fun y =>
          { y with loops := ⟨count, lineAt (s.core.seq q).line 1, lineAt (s.core.seq q).line e⟩ :: y.loops }))) := by
  by_cases h : count = 0
  · exact .inl ⟨h, by simp [enterLoop, h]⟩
  · by_cases h6 : 6 ≤ (s.core.seq q).loops.length
    · exact .inr (.inl ⟨h, h6, by rw [enterLoop, if_neg h, if_pos h6]⟩)
    · exact .inr (.inr ⟨h, by omega, by rw [enterLoop, if_neg h, if_neg h6]⟩)

/-! ## Frames of results and positions -/

section
variable (q : Seqr) (s : State)

@[simp] theorem issued_mem (n cost : Nat) : (issued q n cost s).mem = s.mem := rfl
@[simp] theorem issued_byte (n cost a : Nat) : (issued q n cost s).byte a = s.byte a := rfl
@[simp] theorem issued_chip (n cost : Nat) : (issued q n cost s).chip = s.chip := rfl
@[simp] theorem issued_jobs (n cost : Nat) : (issued q n cost s).jobs = s.jobs := rfl
@[simp] theorem issued_ranks (n cost : Nat) : (issued q n cost s).ranks = s.ranks := rfl
@[simp] theorem issued_cores (n cost : Nat) : (issued q n cost s).cores = s.cores := rfl
@[simp] theorem issued_seq (n cost : Nat) : (issued q n cost s).core.seq q
    = { s.core.seq q with lane := min 8 ((s.core.seq q).lane + n), ready := s.now + cost, point := false, stall := false, cap := {}, last := s.now,
                          count := (s.core.seq q).count + 1 } := by
  simp [issued]
@[simp] theorem transfer_mem (l : BitVec 47) (j cost : Nat) : (transfer q l j cost s).mem = s.mem := rfl
@[simp] theorem transfer_byte (l : BitVec 47) (j cost a : Nat) : (transfer q l j cost s).byte a = s.byte a := rfl
@[simp] theorem transfer_line (l : BitVec 47) (j cost : Nat) : ((transfer q l j cost s).core.seq q).line = l := by
  simp [transfer]
@[simp] theorem putResult_mem (lat : Nat) (nw : Bool) (d : BitVec 6) (x : Word) : (putResult q lat nw d x s).mem = s.mem := rfl
@[simp] theorem putResult_byte (lat : Nat) (nw : Bool) (d : BitVec 6) (x : Word) (a : Nat) :
    (putResult q lat nw d x s).byte a = s.byte a := rfl
@[simp] theorem putResult_now (lat : Nat) (nw : Bool) (d : BitVec 6) (x : Word) : (putResult q lat nw d x s).now = s.now := rfl

end

/-! ## Registers -/

/-- s0 reads zero, in both banks. -/
@[simp] theorem getS_zero (c : Core) : c.getS 0 = 0 := by simp [Core.getS]
@[simp] theorem getS_zero_sys (c : Core) : c.getS 64 = 0 := by simp [Core.getS]

/-- A write to s0 is discarded. -/
@[simp] theorem putS_zero (c : Core) (x : Word) : c.putS 0 x = c := by simp [Core.putS]

/-- A CTL register after a write. -/
theorem getS_putS (c : Core) (i j : Nat) (x : Word) (h0 : i ≠ 0) (h64 : i ≠ 64)
    (hi : i < 56 ∨ (64 ≤ i ∧ i < 112)) : (c.putS i x).getS j = if j = i then x else c.getS j := by
  by_cases h1 : i < 48
  · have e : c.putS i x = { c with s := c.s.setIfInBounds i x } := by simp [Core.putS, h0, h64, h1]
    rw [e]
    by_cases hj : j = i
    · subst hj
      simp [Core.getS, h0, h64, h1]
    · rw [if_neg hj]
      simp only [Core.getS]
      split
      · rfl
      · split
        · rw [Vector.getElem?_setIfInBounds_ne (Ne.symm hj)]
        · rfl
  · by_cases h2 : i < 64
    · have h3 : i < 56 := by omega
      have e : c.putS i x = { c with shadow := c.shadow.setIfInBounds (i - 48) x } := by
        simp [Core.putS, h0, h1, h2]
        omega
      rw [e]
      by_cases hj : j = i
      · subst hj
        have : j - 48 < 8 := by omega
        simp [Core.getS, h0, h64, h1, h2, this]
      · rw [if_neg hj]
        simp only [Core.getS]
        split
        · rfl
        · split
          · rfl
          · split
            · rw [Vector.getElem?_setIfInBounds_ne (by omega)]
            · rfl
    · have h3 : 64 ≤ i ∧ i < 112 := by omega
      have e : c.putS i x = { c with sysS := c.sysS.setIfInBounds (i - 64) x } := by
        simp [Core.putS, h0, h64, h1, h2]
      rw [e]
      by_cases hj : j = i
      · subst hj
        have : j - 64 < 48 := by omega
        simp [Core.getS, h0, h64, h1, h2, this]
      · rw [if_neg hj]
        simp only [Core.getS]
        split
        · rfl
        · split
          · rfl
          · split
            · rfl
            · rw [Vector.getElem?_setIfInBounds_ne (by omega)]

/-! ## Halted agents, lost arrays -/

/-- Agents that go on change nothing but their core. -/
theorem resumeAgents_only (a : Nat → Bool) (b c : W32 → Bool) (s : State) :
    resumeAgents a b c s = { s with core := (resumeAgents a b c s).core } := rfl

/-- What an SRAM error has struck is of the core alone; free values are drawn. -/
theorem loseItem_only (x : CoreItem) (s : State) :
    loseItem x s = { s with core := (loseItem x s).core, freeCtr := s.freeCtr + 16 } := rfl

end Sys2Proof.Machine
end

