-- ==== Sys2Proof/Laws/Results.lean ====
section
/-!
SUPPORT. What a result leaves: the one lemma that callers of putResult and issued cite.
-/
namespace Sys2Proof.Machine

/-- A destination a sequencer's encodings can name. -/
def dstInRange (q : Seqr) (d : BitVec 6) : Prop :=
  match q with
  | .ctl => d.toNat < 48
  | .acs | .mov => d.toNat < 32
  | .vec => False

theorem ctlIx_range (c : Core) {n : Nat} (h : n < 48) : ctlIx c n < 56 ∨ (64 ≤ ctlIx c n ∧ ctlIx c n < 112) := by
  unfold ctlIx
  split
  · omega
  · split
    · omega
    · omega

@[simp] theorem getReg_setSeq (c : Core) (q p : Seqr) (x : SeqSt) (j : Nat) : (c.setSeq p x).getReg q j = c.getReg q j := by
  cases p <;> rfl

@[simp] theorem getReg_modSeq (c : Core) (q p : Seqr) (f : SeqSt → SeqSt) (j : Nat) :
    (c.modSeq p f).getReg q j = c.getReg q j := getReg_setSeq ..

@[simp] theorem getReg_setLat (c : Core) (q p : Seqr) (l : List (Latch Word)) (j : Nat) :
    (c.setLat p l).getReg q j = c.getReg q j := by
  cases p <;> simp only [Core.setLat] <;> (try split) <;> rfl

@[simp] theorem lat_setSeq (c : Core) (q p : Seqr) (x : SeqSt) : (c.setSeq p x).lat q = c.lat q := by
  cases p <;> cases q <;> rfl

@[simp] theorem lat_modSeq (c : Core) (q p : Seqr) (f : SeqSt → SeqSt) : (c.modSeq p f).lat q = c.lat q := lat_setSeq ..

theorem lat_setLat (c : Core) {q : Seqr} (h : q ≠ .vec) (l : List (Latch Word)) : (c.setLat q l).lat q = l := by
  cases q
  · cases hp : c.priv <;> simp [Core.setLat, Core.lat, hp]
  · rfl
  · exact absurd rfl h
  · rfl

@[simp] theorem lat_putReg (c : Core) (q p : Seqr) (i : Nat) (x : Word) : (c.putReg p i x).lat q = c.lat q := by
  cases p
  · simp only [Core.putReg, Core.putS]
    split
    · rfl
    · split
      · cases q <;> rfl
      · split <;> cases q <;> rfl
  all_goals cases q <;> rfl

@[simp] theorem pend_putReg (c : Core) (p : Seqr) (i : Nat) (x : Word) : (c.putReg p i x).pend = c.pend := by
  cases p
  · simp only [Core.putReg, Core.putS]
    split
    · rfl
    · split
      · rfl
      · split <;> rfl
  all_goals rfl

@[simp] theorem pend_setLat (c : Core) (q : Seqr) (l : List (Latch Word)) : (c.setLat q l).pend = c.pend := by
  cases q <;> simp only [Core.setLat] <;> (try split) <;> rfl

@[simp] theorem seq_setLat (c : Core) (q p : Seqr) (l : List (Latch Word)) : (c.setLat q l).seq p = c.seq p := by
  cases q <;> cases p <;> simp only [Core.setLat] <;> (try split) <;> rfl

@[simp] theorem seq_putReg (c : Core) (q p : Seqr) (i : Nat) (x : Word) : (c.putReg q i x).seq p = c.seq p := by
  cases q
  · simp only [Core.putReg, Core.putS]
    split
    · rfl
    · split
      · cases p <;> rfl
      · split <;> cases p <;> rfl
  all_goals cases p <;> rfl

/-- A register after a write to another or the same register of its file. -/
theorem getReg_putReg (c : Core) {q : Seqr} {d : BitVec 6} (hd : dstInRange q d) (x : Word) (j : Nat) :
    (c.putReg q (regIx c q d.toNat) x).getReg q j
      = if j = regIx c q d.toNat ∧ discards q j = false then x else c.getReg q j := by
  cases q
  · have hr := ctlIx_range c (n := d.toNat) hd
    change (c.putS (ctlIx c d.toNat) x).getS j = if j = ctlIx c d.toNat ∧ discards .ctl j = false then x else c.getS j
    generalize ctlIx c d.toNat = i at hr ⊢
    by_cases h0 : i = 0
    · subst h0
      rw [putS_zero]
      by_cases hj : j = 0 <;> simp [hj, discards]
    · by_cases h64 : i = 64
      · subst h64
        have : c.putS 64 x = c := by simp [Core.putS]
        rw [this]
        by_cases hj : j = 64 <;> simp [hj, discards]
      · rw [getS_putS c _ j x h0 h64 hr]
        by_cases hj : j = i
        · simp [hj, h0, h64, discards]
        · simp [hj]
  · have : d.toNat < 32 := hd
    simp only [Core.putReg, Core.getReg, regIx, discards]
    by_cases hj : j = d.toNat
    · subst hj; simp [this]
    · simp [hj, Vector.getElem?_setIfInBounds_ne (Ne.symm hj)]
  · exact absurd hd (by simp [dstInRange])
  · have : d.toNat < 32 := hd
    simp only [Core.putReg, Core.getReg, regIx, discards]
    by_cases hj : j = d.toNat
    · subst hj; simp [this]
    · simp [hj, Vector.getElem?_setIfInBounds_ne (Ne.symm hj)]

@[simp] theorem regIx_setLat (c : Core) (q p : Seqr) (l : List (Latch Word)) (n : Nat) :
    regIx (c.setLat p l) q n = regIx c q n := by
  cases p <;> simp only [Core.setLat] <;> (try split) <;> cases q <;> rfl

/-- A core with other results in flight. -/
def Core.withPend (c : Core) (p : List Pend) : Core := { c with pend := p }

section
variable (c : Core) (p : List Pend) (q : Seqr)
@[simp] theorem lat_withPend : (c.withPend p).lat q = c.lat q := by cases q <;> rfl
@[simp] theorem getReg_withPend (j : Nat) : (c.withPend p).getReg q j = c.getReg q j := by cases q <;> rfl
@[simp] theorem seq_withPend : (c.withPend p).seq q = c.seq q := by cases q <;> rfl
@[simp] theorem pend_withPend : (c.withPend p).pend = p := rfl
@[simp] theorem regIx_withPend (n : Nat) : regIx (c.withPend p) q n = regIx c q n := by cases q <;> rfl
@[simp] theorem x_setLat (l : List (Latch Word)) : (c.setLat q l).x = c.x := by
  cases q <;> simp only [Core.setLat] <;> (try split) <;> rfl
theorem withPend_pend : c.withPend c.pend = c := rfl
end

/-- The latches, registers, results in flight and place of a sequencer, changed in any way, are its own parts. -/
theorem onlyOwn_step (q : Seqr) (s : State) (l : List (Latch Word)) (p : List Pend) (f : SeqSt → SeqSt) :
    OnlyOwn q s { s with core := ((s.core.setLat q l).withPend p).modSeq q f } := by
  cases q
  · cases hp : s.core.priv <;>
      simp [OnlyOwn, Core.setLat, Core.modSeq, Core.setSeq, ownParts, Core.withPend, hp]
  all_goals rfl

theorem onlyOwn_put (q : Seqr) (s : State) (l : List (Latch Word)) (p : List Pend) (i : Nat) (x : Word) (f : SeqSt → SeqSt) :
    OnlyOwn q s { s with core := (((s.core.setLat q l).withPend p).putReg q i x).modSeq q f } := by
  cases q
  · cases hp : s.core.priv <;>
      simp only [OnlyOwn, Core.setLat, Core.withPend, Core.putReg, Core.putS, Core.modSeq, Core.setSeq, ownParts, hp, if_true,
        if_false, Bool.false_eq_true] <;> (repeat' split) <;> rfl
  all_goals simp only [OnlyOwn, Core.setLat, Core.withPend, Core.putReg, Core.modSeq, Core.setSeq, ownParts]

/-- Everything an instruction does that puts a result and goes on. -/
theorem putResult_computes {q : Seqr} {d : BitVec 6} (hd : dstInRange q d) (lat n : Nat) (nw : Bool) (x : Word) (s : State) :
    Computes q lat n nw d x s (issued q n 1 (putResult q lat nw d x s)) := by
  have hq : q ≠ .vec := by rintro rfl; exact hd
  let l := pushLat ⟨x, if s.core.x then s.now + lat else 0, 0⟩ (s.core.lat q)
  let i := regIx s.core q d.toNat
  let f : SeqSt → SeqSt := fun y =>
    { y with lane := min 8 (y.lane + n), ready := s.now + 1, point := false, stall := false, count := y.count + 1, cap := {}, last := s.now }
  have goes (c : Core) (h : c.seq q = s.core.seq q) : GoesOn q n 1 s { s with core := c.modSeq q f } := by
    simp [GoesOn, Core.modSeq, h, f]
  by_cases hl : s.core.x = true ∧ 1 < lat
  · let p := s.core.pend ++ [⟨if nw then .none else dstOf q i x, s.now + lat, (entryHere q s).1⟩]
    have e : issued q n 1 (putResult q lat nw d x s) = { s with core := ((s.core.setLat q l).withPend p).modSeq q f } := by
      have : putResult q lat nw d x s = { s with core := (s.core.setLat q l).withPend p } := by
        simp [putResult, putAt, State.modCore, hl.1, hl.2, l, i, p, Core.withPend]
      rw [this]
      rfl
    rw [e]
    refine ⟨⟨?_, ?_, ?_⟩, goes _ (by simp), onlyOwn_step q s l _ f, fun _ => rfl⟩
    · simp [lat_setLat _ hq, l, pushLat]
    · simp [hl]
    · simp [Core.modSeq, hl, p, i]
  · by_cases hw : nw = true
    · subst hw
      have e : issued q n 1 (putResult q lat true d x s)
          = { s with core := ((s.core.setLat q l).withPend s.core.pend).modSeq q f } := by
        have hp : s.core.pend = (s.core.setLat q l).pend := by simp
        rw [hp, withPend_pend]
        have : putResult q lat true d x s = { s with core := s.core.setLat q l } := by
          cases hx : s.core.x
          · simp [putResult, putAt, State.modCore, hx, l]
          · have h1 : ¬ 1 < lat := fun h => hl ⟨hx, h⟩
            simp [putResult, putAt, State.modCore, hx, h1, l]
        rw [this]
        rfl
      rw [e]
      refine ⟨⟨?_, ?_, ?_⟩, goes _ (by simp), onlyOwn_step q s l _ f, fun _ => rfl⟩
      · simp [lat_setLat _ hq, l, pushLat]
      · simp
      · simp [Core.modSeq, hl]
    · obtain rfl : nw = false := by simpa using hw
      let p := if s.core.x then s.core.pend.filter fun p => !p.yields q i (s.now + lat) else s.core.pend
      have e : issued q n 1 (putResult q lat false d x s)
          = { s with core := (((s.core.setLat q l).withPend p).putReg q i x).modSeq q f } := by
        have : putResult q lat false d x s = { s with core := ((s.core.setLat q l).withPend p).putReg q i x } := by
          cases hx : s.core.x
          · have hp : s.core.pend = (s.core.setLat q l).pend := by simp
            simp only [p, hx, if_false, Bool.false_eq_true, hp, withPend_pend]
            simp [putResult, putAt, State.modCore, hx, l, i]
          · have h1 : ¬ 1 < lat := fun h => hl ⟨hx, h⟩
            simp [putResult, putAt, State.modCore, hx, h1, l, i, p, Core.withPend]
        rw [this]
        rfl
      rw [e]
      refine ⟨⟨?_, ?_, ?_⟩, goes _ (by simp), onlyOwn_put q s l p i x f, fun _ => rfl⟩
      · simp [lat_setLat _ hq, l, pushLat]
      · intro j
        have := getReg_putReg ((s.core.setLat q l).withPend p) hd x j
        simp only [regIx_withPend, getReg_withPend, regIx_setLat, getReg_setLat] at this
        simpa [hl, i] using this
      · cases hx : s.core.x
        · simp [Core.modSeq, p, hx]
        · have h1 : ¬ 1 < lat := fun h => hl ⟨hx, h⟩
          simp [Core.modSeq, p, hx, h1, i]

end Sys2Proof.Machine
end

