-- ==== Sys2Proof/Tests/Slice0.lean ====
section
/-!
SUPPORT. Tests: ill-formed terms that the check of WellFormed refuses, words written out from the spec's encodings, single steps with
results worked out by hand, and for every statement states and operands that meet its hypotheses.
-/
namespace Sys2Proof.Machine.Tests

set_option Elab.async false

/-! ## Small states -/

/-- A tensor descriptor of two dimensions of 64, F16, tiles of 64 by 64, at a scratchpad address (03 R92). -/
def ti : Desc :=
  BitVec.ofNat 512 (0xFFF0000010000 + 1 * 2 ^ 56 + 2 * 2 ^ 52 + 2 ^ 62 + 64 * 2 ^ 64 + 64 * 2 ^ 96 + 1 * 2 ^ 192 + 64 * 2 ^ 232
    + 64 * 2 ^ 256 + 64 * 2 ^ 296)

/-- Rank 0 of job 1, of two ranks: rank 1 is on chip 5. -/
def k0 : Rank := { job := 1, rank := 0, ti := (Vector.replicate 256 0).setIfInBounds 0 ti }

def j0 : Job :=
  { num := 1, v := 2, det := false, place := [{ state := .active }, { state := .active, chip := 5 }],
    groups := [{ g := 0, memb := [0, 1] }] }

/-- A core of rank 0, its CTL in lane 1 of line 4. -/
def c0 : Core := { State.reset.core with job := 1, rank := 0, ctl := { line := 4, lane := 1, run := true, entered := true } }

/-- A chip of one core that runs rank 0 of job 1. -/
def w0 : State := { State.reset with core := c0, cores := [], ranks := [k0], jobs := [j0] }

def withCore (f : Core → Core) : State := { w0 with core := f c0 }
def withChip (f : Chip → Chip) : State := { w0 with chip := f w0.chip }
def withJob (f : Job → Job) : State := { w0 with jobs := [f j0] }

/-- A byte of core 0's scratchpad, and its key. -/
def sp : Nat := 0xFFF0000000000
def spk : Nat := spadKey 1 0 0

/-- An access to it performs as it issues. -/
theorem performs_read (q : Seqr) (n : Nat) (h : n = 8 ∨ n = 32 ∨ n = 64) : Performs q w0 sp n .read w0 ⟨spk, n, 0, sp, sp⟩ := by
  rcases h with rfl | rfl | rfl <;> cases q <;> constructor <;> first | rfl | exact .inl rfl | exact fun _ => rfl
theorem performs_write (q : Seqr) : Performs q w0 sp 8 .write w0 ⟨spk, 8, 0, sp, sp⟩ := by
  cases q <;> constructor <;> first | rfl | exact .inl rfl | exact fun _ => rfl

/-- No page is pinned where no frame is held, and no command is ahead. -/
theorem may_accept (q : Seqr) (s : State) (k : Toks) (hf : s.chip.frames = []) (hc : s.core.cmds = []) : MayAccept q s k := by
  refine ⟨by simp [hc], by simp [hc], fun a p => ?_⟩
  unfold pinFull; split <;> simp [hf]

/-! ## Hypotheses met: CTL, ACS, MOV -/

theorem meets_CtlIntegerResults : (1 : BitVec 6).toNat < 48 ∧ readSrc w0 .ctl (.r 0) = .val 0 ∧ DstFree w0 .ctl false 1
    ∧ readSrc w0 .ctl (.r 1) = .val 0 := by
  repeat' first | refine And.intro ?_ ?_ | decide +kernel | rfl
theorem meets_DivideIntResults : let o : S3 := ⟨false, 47, .r 1, .r 0⟩
    o.d.toNat < 48 ∧ readSrc w0 .ctl o.a = .val 0 ∧ readSrc w0 .ctl o.b = .val 0 ∧ DstFree w0 .ctl o.nw o.d :=
  ⟨by decide, rfl, rfl, rfl⟩
theorem meets_AcsAndMovIntegerResults : (31 : BitVec 6).toNat < 32
    ∧ (readSrc w0 .acs (.r 0) = .val 0 ∧ readSrc w0 .acs (.r 31) = .val 0 ∧ DstFree w0 .acs false 31)
    ∧ readSrc w0 .mov (.r 0) = .val 0 ∧ readSrc w0 .mov (.r 31) = .val 0 ∧ DstFree w0 .mov false 31 := by
  repeat' first | refine And.intro ?_ ?_ | decide +kernel | rfl
theorem meets_BranchesAndJumps : readSrc w0 .ctl (.r 0) = .val 0
    ∧ (Seqr.ctl, Instr.br ⟨.eqz, .r 0, 3⟩) ∈ [(.ctl, .br ⟨.eqz, .r 0, 3⟩), (.acs, .abr ⟨.eqz, .r 0, 3⟩), (.mov, .dbr ⟨.eqz, .r 0, 3⟩)] :=
  ⟨rfl, by simp⟩
/-- A core whose s2 holds a lane's address, 4 × 9, and s3 an address of no lane. -/
def jr : State := withCore fun c => (c.putS 2 36).putS 3 37
theorem meets_LinkAndRegisterJump : ((47 : BitVec 6).toNat < 48 ∧ DstFree jr .ctl false 47)
    ∧ (readSrc jr .ctl (.r 2) = .val 36 ∧ (36 : Word).toNat % 4 = 0 ∧ (36 : Word).toNat < 2 ^ 52)
    ∧ readSrc jr .ctl (.r 3) = .val 37 ∧ (37 : Word).toNat % 4 ≠ 0 := by
  repeat' first | refine And.intro ?_ ?_ | decide +kernel | rfl
theorem meets_LoopEntries : w0.core.uh = false ∧ readSrc w0 .ctl (.r 1) = .val 0 ∧ readSrc w0 .acs (.r 1) = .val 0
    ∧ readSrc w0 .mov (.r 1) = .val 0 ∧ w0.core.ctl.loops = []
    ∧ (withCore fun c => { c with ctl := { c.ctl with loops := [⟨2, 5, 6⟩] } }).core.ctl.loops = ⟨2, 5, 6⟩ :: [] := by
  repeat' first | refine And.intro ?_ ?_ | decide +kernel | rfl

/-! ## Hypotheses met: accesses -/

/-- s2, a2 and d2 hold a scratchpad address. -/
def ac : State := withCore fun c => { (c.putS 2 (BitVec.ofNat 64 sp)) with d := c.d.setIfInBounds 2 (BitVec.ofNat 64 sp) }
theorem performs_ac (q : Seqr) (k : Kind) (n : Nat) (hn : n = 8 ∨ n = 32 ∨ n = 64) : Performs q ac sp n k ac ⟨spk, n, 0, sp, sp⟩ := by
  rcases hn with rfl | rfl | rfl <;> cases q <;> cases k <;> constructor <;> first | rfl | exact .inl rfl | exact fun _ => rfl
theorem meets_LoadsGiveMemory : (⟨false, 5, .r 2, false, .d, 0⟩ : SLd).ok 48 false = true ∧ readSrc ac .ctl (.r 2) = .val (BitVec.ofNat 64 sp)
    ∧ DstFree ac .ctl false 5 ∧ Performs .ctl ac sp (sizeBytes .d) .read ac ⟨spk, 8, 0, sp, sp⟩ :=
  ⟨rfl, rfl, rfl, performs_ac .ctl .read 8 (.inl rfl)⟩
theorem meets_StoresPutBytes : (⟨.r 5, .r 2, .d, 0⟩ : SSt).ok 32 true = true ∧ readSrc ac .mov (.r 2) = .val (BitVec.ofNat 64 sp)
    ∧ readSrc ac .mov (.r 5) = .val 0 ∧ Performs .mov ac sp (sizeBytes .d) .write ac ⟨spk, 8, 0, sp, sp⟩ :=
  ⟨rfl, rfl, rfl, performs_ac .mov .write 8 (.inl rfl)⟩
/-- s2 holds an address past 2^52, s3 an odd one. -/
def odd : State := withCore fun c => (c.putS 2 (2 ^ 52)).putS 3 1
theorem meets_MisalignedAccessTraps : readSrc odd .ctl (.r 2) = .val (2 ^ 52) ∧ DstFree odd .ctl false 5 ∧ odd.core.accq = []
    ∧ odd.delay = false ∧ (∀ op, mayGo odd (odd.req (accClient .ctl)) op (2 ^ 52) 8 = true)
    ∧ readSrc odd .ctl (.r 3) = .val 1 ∧ (∀ op, mayGo odd (odd.req (accClient .ctl)) op 1 8 = true)
    ∧ regionOf odd.myJob.width odd.myJob.v 1 8 = .ok .priv := by
  repeat' first | rfl | exact fun _ => rfl | refine And.intro ?_ ?_
theorem meets_AtomicsReturnTheOldWord : (⟨false, 5, .r 2, .r 3⟩ : S3).ok 48 = true ∧ readSrc ac .ctl (.r 2) = .val (BitVec.ofNat 64 sp)
    ∧ readSrc ac .ctl (.r 3) = .val 0 ∧ DstFree ac .ctl false 5 ∧ Performs .ctl ac (BitVec.ofNat 64 sp).toNat 8 .write ac ⟨spk, 8, 0, sp, sp⟩
    ∧ ac.myJob.det = false ∧ ({ ac with jobs := [{ j0 with det := true }] } : State).myJob.det = true :=
  ⟨rfl, rfl, rfl, rfl, performs_ac .ctl .write 8 (.inl rfl), rfl, rfl⟩
/-- The target word is poisoned. -/
def acBad : State := { ac with poison := [spk / 64] }
theorem meets_DeterministicRequestsWait : readSrc ac .ctl (.r 2) = .val (BitVec.ofNat 64 sp) ∧ readSrc ac .ctl (.r 3) = .val 0
    ∧ (accCheck ac 1 8).isSome = true ∧ accCheck ac 0 8 = none ∧ (detWord ac .ctl 0).isOk = false
    ∧ accCheck ac sp 8 = none ∧ detWord ac .ctl sp = .ok (0, sp) ∧ detPoison ac .ctl sp = none
    ∧ detWord acBad .ctl sp = .ok (0, sp) ∧ (detPoison acBad .ctl sp).isSome = true
    ∧ ac.myJob.group? ac.core.atomGroup.toNat = some { g := 0, memb := [0, 1] } ∧ ac.core.rank ∈ [0, 1] ∧ ac.myJob.dets = []
    ∧ (acBad.modJob 1 fun j => { j with groups := [{ g := 0, memb := [1] }] }).myJob.group? 0 = some { g := 0, memb := [1] }
    ∧ regionOf ac.myJob.width ac.myJob.v 0 8 = .ok .priv ∧ regionOf ac.myJob.width ac.myJob.v sp 8 = .ok (.spad 0)
    ∧ regionOf ac.myJob.width ac.myJob.v (sp + 0x2FFFFF) 8 = .error .spadHole
    ∧ (detRequest .ctl (some .add) 0 0 sp sp 0 ac).isOk = true ∧ (detRequest .ctl none 0 0 sp sp 0 ac).isOk = true
    ∧ detRequest .ctl (some .add) 0 0 sp 0 0 ac = .error ⟨.detResult, 0, none⟩
    ∧ mayGo ac (ac.req 0) (.read 8) sp 8 = true ∧ (ac.rank? 1 0).any (fun k => !k.cold) = true := by
  repeat' first | refine And.intro ?_ ?_ | decide +kernel | rfl
/-- A word that another chip holds, with a lane toward it. -/
theorem meets_DeterministicRequestsWait_far : let s : State := { ac with chip := { ac.chip with egress := [{ k := 0, peer := 5, wave := 0, st := .baseline }], ports := ac.chip.ports.setIfInBounds 1 [16] } }
    mayGo s (s.req 0) (.read 8) (fabLo + 2 ^ 33) 8 = true ∧ accCheck s (fabLo + 2 ^ 33) 8 = none ∧ detWord s .ctl (fabLo + 2 ^ 33) = .ok (1, 0)
    ∧ farChip s 1 1 = some 5 ∧ detPoison s .ctl (fabLo + 2 ^ 33) = none := by
  repeat' first | refine And.intro ?_ ?_ | decide +kernel | rfl
theorem meets_RingsAndArrivalWords : readSrc ac .mov (.r 2) = .val (BitVec.ofNat 64 sp) ∧ readSrc ac .mov (.r 3) = .val 0
    ∧ Performs .mov ac (BitVec.ofNat 64 sp).toNat 32 .read ac ⟨spk, 32, 0, sp, sp⟩
    ∧ ringDescOk ac.myJob.width ac.myJob.v 0 = false
    ∧ ringDescOk ac.myJob.width ac.myJob.v (BitVec.ofNat 256 (2 ^ 52 * 5)) = true ∧ inFab (BitVec.ofNat 64 sp).toNat = false
    ∧ Performs .mov ac (BitVec.ofNat 64 sp).toNat 8 .write ac ⟨spk, 8, 0, sp, sp⟩ :=
  ⟨rfl, rfl, performs_ac .mov .read 32 (by simp), by decide +kernel, by decide +kernel, by decide, performs_ac .mov .write 8 (by simp)⟩

/-! ## Hypotheses met: tasks, the matrix engine -/

theorem meets_ForkStartsSequencers : (7 : BitVec 3) ≠ 0 ∧ w0.core.uh = false ∧ (∀ q, forkNames 7 q = true → (w0.core.seq q).run = false)
    ∧ let s := withCore fun c => { c with mov := { c.mov with run := true } }
      s.core.uh = false ∧ ∃ q, forkNames 7 q = true ∧ (s.core.seq q).run = true :=
  ⟨by decide, rfl, fun q h => (by cases q <;> first | rfl | cases h), rfl, .mov, rfl, rfl⟩
theorem rest : AtRest w0 := by
  repeat' first | refine And.intro ?_ ?_ | decide +kernel | rfl
/-- VEC runs; a marker of MTX is pending, or eight. -/
def busy : State := withCore fun c => { c with vec := { c.vec with run := true }, marks := List.replicate 8 (markerOf w0 .mtx) }
theorem not_rest : ¬ AtRest busy := fun h => by cases h.2.1
theorem meets_TasksMeetAndEnd_meet : w0.core.uh = false ∧ AtRest w0 ∧ w0.core.marks = [] ∧ busy.core.uh = false ∧ ¬ AtRest busy
    ∧ busy.core.marks ≠ [] ∧ (∀ g ∈ markEngines 31, (w0.core.marks.filter (·.eng == g)).length < 8)
    ∧ ∃ g ∈ markEngines 8, 8 ≤ (busy.core.marks.filter (·.eng == g)).length :=
  ⟨rfl, rest, rfl, rfl, not_rest, by decide, by decide, .mtx, by decide, by decide⟩
theorem meets_TasksMeetAndEnd :
    ((∀ p ∈ ac.core.strm.toList, p.st = .halted → p.store = false) ∧ readSrc ac .ctl (.r 2) = .val (BitVec.ofNat 64 sp)
      ∧ suspCheck ac sp = none ∧ ac.core.watch[0]? = some none ∧ (∀ p ∈ busy.core.strm.toList, p.st = .halted → p.store = false)
      ∧ suspCheck busy 8 = none)
    ∧ (w0.job? 1 = some j0 ∧ j0.group? 0 = some { g := 0, memb := [0, 1] } ∧ w0.core.rank ∈ [0, 1] ∧ w0.core.accq.any (·.q == .ctl) = false
      ∧ j0.group? 255 = none ∧ DstFree w0 .ctl false 8) := by
  repeat' first | refine And.intro ?_ ?_ | decide +kernel | rfl
/-- Members that have arrived, and none at all. -/
theorem meets_TasksMeetAndEnd_arrived : let g : Group := { g := 0, memb := [0, 1], arrived := [(0, false)] }
    let s := withJob fun j => { j with groups := [g, { g := 3, memb := [1] }] }
    s.job? s.core.job = some { j0 with groups := [g, { g := 3, memb := [1] }] } ∧ g.arrived.any (·.1 == s.core.rank) = true
    ∧ s.core.rank ∉ [1] := ⟨rfl, rfl, by decide⟩
def slots (l : List SlotSt) : State := withCore fun c =>
  { c with slots := (l.zipIdx.foldl (fun v p => v.setIfInBounds p.2 { (v[p.2]?.getD {}) with st := p.1 }) c.slots) }
theorem meets_MatrixSetUpAndCommands :
    (w0.core.uh = false ∧ readSrc w0 .ctl (.r 1) = .val 0
      ∧ (slotAt w0 31).st = .free ∧ (slotAt (slots [.claimed]) 0).st = .claimed ∧ (slotAt (slots [.claimed]) 0).rel = false
      ∧ (slotAt (slots [.nest]) 0).st = .nest)
    ∧ ((254 : BitVec 8) ≠ 255 ∧ readSrc ac .ctl (.r 2) = .val (BitVec.ofNat 64 sp) ∧ entryUsed ac 254 = false
      ∧ Desc.check 0 = none ∧ Desc.check (2 ^ 62) = some .tiDesc)
    ∧ (mtxFull w0 = false ∧ mxgoCheck w0 w0.core.nestSh = none
      ∧ (∀ i < 32, inRange w0.core.nestSh i = true → (slotAt w0 i).st = .free) ∧ nestTri w0.core.nestSh = 0) := by
  repeat' first | refine And.intro ?_ ?_ | decide +kernel | rfl
theorem meets_MatrixSetUpAndCommands_performs : Performs .ctl ac (BitVec.ofNat 64 sp).toNat 64 .read ac ⟨spk, 64, 0, sp, sp⟩
    ∧ ∀ k, MayAccept .ctl w0 k := ⟨performs_ac .ctl .read 64 (by simp), fun k => may_accept .ctl w0 k rfl rfl⟩
/-- A value that fits its field and one that does not; CTL has an access in flight. -/
theorem meets_MatrixSetUpAndCommands_fields : mxField 0 0 = some (0, 16, .u) ∧ mxFits 0 16 .u 0xFFFF = true ∧ mxFits 0 16 .u 0x10000 = false
    ∧ mxField 7 4 = some (1344, 25, .u) ∧ mxFits 1344 25 .u 0x1000000 = true ∧ mxFits 1344 25 .u 0x1000001 = false
    ∧ (slots [.claimed]).core.cmds.any (·.namesSlot 0) = false
    ∧ (withCore fun c => { c with accq := [{ id := 1, q := .ctl, op := .store 5, addr := sp, size := 8, line := 4, lane := 1, w0 := 0,
                                             w1 := 0, uh := false }] }).core.accq.any (·.q == .ctl) = true := by
  repeat' first | refine And.intro ?_ ?_ | decide +kernel | rfl
/-- Slots 0 and 1 claimed, of one type and length: MXMMA's checks pass. -/
def mma : Mma := { t := ⟨0, 0, 0, 1⟩, zero := true, den := false, rnd := .dflt, acc := 0, osA := 0, osB := 1, entry := 0, tyA := .bf16, tyB := .bf16 }

theorem meets_MatrixSetUpAndCommands_mma : let s := slots [.claimed, .claimed]
    mtxFull s = false ∧ MayAccept .ctl s mma.t ∧ mmaCheck s mma = none ∧ nestTri s.core.nestSh = 0 :=
  ⟨by decide +kernel, may_accept _ _ _ rfl rfl, by decide +kernel, by decide +kernel⟩

/-! ## Hypotheses met: system registers, traps -/

/-- A frame that holds trapped state. -/
def held : Trap :=
  { cause := some .trapUser, agent := .ctl, fva := 0, pc := 132, tag := 1, aux := 5, act := .park, ticks := 0, uh := false, uepc := 0, pre := false,
    ctl := c0.ctl, acs := {}, vec := {}, mov := {}, replay := [], done := false }
theorem meets_SystemRegisterReads : (47 : BitVec 6).toNat < 48 ∧ DstFree w0 .ctl false 47 ∧ w0.core.priv = false := ⟨by decide, rfl, rfl⟩
theorem meets_SystemRegisterWrites : readSrc w0 .ctl (.r 1) = .val 0 ∧ w0.core.priv = false
    ∧ readSrc (withCore fun c => { c with priv := true }) .ctl (.r 1) = .val 0
    ∧ (withCore fun c => { c with priv := true }).core.priv = true := by
  repeat' first | refine And.intro ?_ ?_ | decide +kernel | rfl
theorem meets_TrapTakesTheTrap : w0.job? w0.core.job = some j0 ∧ j0.rolling = false ∧ actOf (actByte w0 w0.core.job .trapUser) = .park :=
  ⟨rfl, rfl, by decide +kernel⟩
theorem meets_ReturnsRestore : w0.core.priv = false
    ∧ (let s := withCore fun c => { c with priv := true }
       s.core.priv = true ∧ ∀ tr, s.core.trap = some tr → tr.done = true)
    ∧ (let s := withCore fun c => { c with priv := true, trap := some held }
       s.core.priv = true ∧ s.core.trap = some held ∧ held.done = false ∧ ∀ a ∈ held.replay, a.op ≠ .again) :=
  ⟨rfl, ⟨rfl, fun _ h => by cases h⟩, rfl, rfl, rfl, fun _ h => by cases h⟩
theorem meets_TheHandlerReturns : w0.core.uh = false ∧ (withCore fun c => { c with uh := true }).core.uh = true := ⟨rfl, rfl⟩
theorem meets_TheUserHandler : (withCore fun c => { c with uh := true }).core.uh = true
    ∧ let s := withCore fun c => { c with uie := true, uipend := 0x80, icache := [⟨0, 0, 4, [0x10, 0x02020003, 0, 0, 0, 0, 0, 0]⟩] }
      handlerDue s = true ∧ nextLane s = some 1 ∧ s.core.uipend.getLsbD 7 = true ∧ ∀ k < 7, s.core.uipend.getLsbD k = false := by
  repeat' first | refine And.intro ?_ ?_ | decide +kernel | rfl

/-! ## Hypotheses met: ACS and VEC -/

/-- Record 0 runs, record 1 is halted, lq0 is served by record 0. -/
def strm : State := withCore fun c =>
  { c with strm := (c.strm.setIfInBounds 0 { (strmAt w0 0) with st := .running }).setIfInBounds 1 { (strmAt w0 1) with st := .halted } }
theorem meets_StreamRecordsAreWritten : (strmAt strm 0).st ≠ .idle ∧ (strmAt w0 0).st = .idle ∧ readSrc w0 .acs (.r 1) = .val 0
    ∧ (0 : BitVec 5) ≠ 19 ∧ (0 : BitVec 5) ≠ 20 ∧ (spwField 0).isSome = true ∧ readSrc strm .acs (.r 1) = .val 0 := by
  repeat' first | refine And.intro ?_ ?_ | decide +kernel | rfl
/-- A record whose image names ti0, one dimension of 64. -/
theorem meets_StreamsStartAndEnd : (15 : Nat) < 16 ∧ queueServed strm false 0 1 = true ∧ queueServed w0 false 0 15 = false
    ∧ (startCheck w0 false 0 15).isSome = true ∧ queueServed w0 true 3 0 = false := by
  repeat' first | refine And.intro ?_ ?_ | decide +kernel | rfl
theorem meets_VectorArithmeticRoundsOnce : isFloat .f32 = true ∧ (VOp.v 191).dstOk = true ∧ (VOp.lq 0).srcOk = true ∧ (VOp.v 0).srcOk = true
    ∧ (⟨.bf16, .sq 3, .v 0, 0, false, .dflt, false⟩ : VUr).ok isFloat = true := by
  repeat' first | refine And.intro ?_ ?_ | decide +kernel | rfl
theorem meets_VectorCodesElementwise : (VOp.v 191).dstOk = true ∧ (VOp.v 0).srcOk = true ∧ isInt .i64 = true ∧ isFloat .e5m2 = true := by
  repeat' first | refine And.intro ?_ ?_ | decide +kernel | rfl
theorem meets_VectorSelectionsAndSums : (⟨.i8, .v 0, .v 1, .v 2, 0, false⟩ : VB).ok anyTy = true
    ∧ (Instr.vbcstElem ⟨.f32, .v 0, .v 1, 1023, 0⟩).wf = true ∧ (Instr.vperm ⟨⟨.i8, .v 0, .v 1, .v 2, 0, false⟩, 3⟩).wf = true
    ∧ (Instr.vslide ⟨⟨.i8, .v 0, .v 1, .v 2, 0, false⟩, 0x80⟩).wf = true ∧ (Instr.vxpnd ⟨.bf16, .v 0, .v 1, 1, 1, 0, false⟩).wf = true
    ∧ (Instr.vcvt ⟨.f32, .bf16, .v 0, .v 1, 0, false, .dflt, false, 1⟩).wf = true
    ∧ (Instr.vcbx ⟨.v 0, .v 1, 15, false, 3, 0, false⟩).wf = true ∧ (Instr.vcbq ⟨.v 0, .v 1, 15, true, 7, 0, false⟩).wf = true
    ∧ (Instr.vdot ⟨.bf16, .f16, .v 0, .v 1, .v 2, .v 3, 0, 0, 0, false, .dflt⟩).wf = true
    ∧ (Instr.vred ⟨.max, ⟨.f32, .v 0, .v 1, 0, false, .dflt, false⟩⟩).wf = true
    ∧ (Instr.vscan ⟨.i32, .v 0, .v 1, 0, false, .dflt, true⟩).wf = true
    ∧ (∀ o ∈ [VOp.v 1, .v 2], vsrcCause w0 o = none) ∧ (vreads [.v 1, .v 2] w0).isSome = true ∧ sqFull w0 false (.v 0) = false := by
  repeat' first | refine And.intro ?_ ?_ | decide +kernel | rfl
theorem meets_VectorMasks : (Instr.vcmp ⟨.lt, .f32, 15, .v 0, .v 1, 0⟩).wf = true ∧ (Instr.vcls ⟨.f32, 1, .v 0, 511, 0⟩).wf = true
    ∧ (1 : BitVec 4) ≠ 0 ∧ (Instr.vcmprs ⟨.i8, .sq 0, 1, .v 0, 1⟩).wf = true ∧ sqFull w0 false (.sq 0) = false
    ∧ (vreads [.v 0] w0).isSome = true := by
  repeat' first | refine And.intro ?_ ?_ | decide +kernel | rfl
/-- A mask of element 0 alone; element 0's offset is aligned, or not. -/
def atomAt (x : VWord) : State := withCore fun c => { c with m := c.m.setIfInBounds 1 1, v := c.v.setIfInBounds 1 x }
theorem meets_VectorAtomicsAndControl : (∀ o ∈ [VOp.v 1, .v 2], vsrcCause (atomAt 1) o = none) ∧ (vreads [.v 1, .v 2] (atomAt 1)).isSome = true
    ∧ (List.range 1024).filter (active (atomAt 1) 1) = [0]
    ∧ elemOf .n32 ((atomAt 1).core.v[1]?.getD 0) 0 = 1 ∧ elemOf .n32 ((atomAt 0x300000).core.v[1]?.getD 0) 0 = 0x300000
    ∧ regionOf w0.myJob.width w0.myJob.v (spadLo + 0x300000) 4 = .error .spadHole
    ∧ regionOf w0.myJob.width w0.myJob.v (spadLo + 0x2FFFFC) 4 = .ok (.spad 0x2FFFFC)
    ∧ elemOf .n32 ((atomAt 0x2FFFFC).core.v[1]?.getD 0) 0 = 0x2FFFFC ∧ gated (atomAt 0x2FFFFC) .vec = false
    ∧ w0.poison.contains ((spk + 0x2FFFFC) / 64) = false ∧ noKey w0 (spk + 0x2FFFFC) = false
    ∧ (vatomBad (atomAt 1) [1]).isSome = true ∧ vatomBad (atomAt 0) [0] = none
    ∧ (vatomAll (vatomSel .add) [(0, 1)] (atomAt 0)).isOk = true := by
  repeat' first | refine And.intro ?_ ?_ | decide +kernel | rfl
/-! ## Hypotheses met: MOV, DRN -/

/-- d2 holds a scratchpad address, d3 and d4 fabric addresses of rank 1, d5 a length of 8, d6 1; ring 0 is bound; ti1 is ti0's twin elsewhere. -/
def mv : State :=
  { withCore fun c => { c with
      d := ((((c.d.setIfInBounds 2 (BitVec.ofNat 64 sp)).setIfInBounds 3 (BitVec.ofNat 64 (fabLo + 2 ^ 33))).setIfInBounds 4
        (BitVec.ofNat 64 (fabLo + 2 ^ 33 + 64))).setIfInBounds 5 8).setIfInBounds 6 1
      rings := c.rings.setIfInBounds 0 (some 0) } with
    ranks := [{ k0 with ti := k0.ti.setIfInBounds 1 (ti + 0x20000) }] }
def nt : Toks := ⟨0, 0, 0, 0⟩
theorem meets_MovCommandsAccepted : mv.core.rings[mv.core.curRing]? = some (some 0) ∧ (∀ x ∈ mv.core.cmds, x.seq ≠ mv.core.seqCtr)
    ∧ (∀ k, MayAccept .mov mv k) := ⟨rfl, (fun _ h => nomatch h), fun k => may_accept .mov mv k rfl rfl⟩
theorem meets_MovCommandsAccepted_tiles : readSrc mv .mov (.r 0) = .val 0
    ∧ ((mv.myRank.tensor 0).vld = true ∧ (mv.myRank.tensor 1).vld = true)
    ∧ (mv.myRank.tensor 0).ty = (mv.myRank.tensor 1).ty ∧ (mv.myRank.tensor 0).tileR = (mv.myRank.tensor 1).tileR
    ∧ (mv.myRank.tensor 0).tileC = (mv.myRank.tensor 1).tileC ∧ tilesShare (mv.myRank.tensor 0) 0 (mv.myRank.tensor 1) 0 = false
    ∧ readSrc mv .mov (.r 2) = .val (BitVec.ofNat 64 sp) ∧ (mv.myRank.tensor 1).tileC ≤ 64 ∧ (BitVec.ofNat 64 sp).toNat % 8 = 0
    ∧ rangeCheck mv sp 8 .read = none
    ∧ tileMeets (mv.myRank.tensor 1) 0 sp (sp + imageBytes mv (mv.myRank.tensor 1) sp - 1 : Nat) = false ∧ localWord mv sp = none := by
  repeat' first | refine And.intro ?_ ?_ | decide +kernel | rfl
theorem meets_MovCommandsAccepted_others :
    (xferCheck mv true (fabLo + 2 ^ 33) sp 8 (fabLo + 2 ^ 33 + 64) = none ∧ xferCheck mv false sp (fabLo + 2 ^ 33) 8 (sp + 64) = none
      ∧ fatmCheck mv ⟨nt, .add, false, 3, 6, 2⟩ (fabLo + 2 ^ 33) sp = none
      ∧ fatmCheck mv ⟨nt, .add, true, 3, 6, 2⟩ (fabLo + 2 ^ 33) sp = none
      ∧ (fatmRequest ⟨nt, .add, true, 3, 6, 2⟩ (BitVec.ofNat 64 (fabLo + 2 ^ 33)) 1 (BitVec.ofNat 64 sp) mv).isOk = true
      ∧ fcolCheck mv ⟨nt, .bcast, .sum, 0, 1, 0⟩ = none)
    ∧ (readSrc mv .mov (.r 6) = .val 1 ∧ (1 : Word).toNat < mv.myJob.v ∧ (1 : Word).toNat ≠ mv.core.rank ∧ (1 : Word) ≠ 0
      ∧ (1 : Word).toNat ≤ (2047 : Word).toNat ∧ (2047 : Word).toNat ≤ 2047
      ∧ mv.myJob.v ≤ (2 : Word).toNat ∧ mv.core.rank = 0 ∧ (0 : Word).toNat % 64 = 0 ∧ (8 : Word).toNat % 64 ≠ 0) := by
  repeat' first | refine And.intro ?_ ?_ | decide +kernel | rfl
theorem meets_MovCommandsAccepted_elsewhere :
    { mv with core := { mv.core with rank := 1 } }.core.rank ≠ 0 ∧ mv.core.mov.run = false := ⟨by decide, rfl⟩
/-- A claimed slot 0. -/
theorem meets_MovCommandsAccepted_copyo : let s := { mv with core := { mv.core with slots := (slots [.claimed]).core.slots } }
    (tensorArg s 0).isOk = true ∧ slotTy (s.myRank.tensor 0).ty = true ∧ (s.myRank.tensor 0).tileR ≤ 64
    ∧ (s.myRank.tensor 0).tileC * tyBits (s.myRank.tensor 0).ty ≤ 2048 ∧ (slotAt s 0).st = .claimed ∧ (slotAt s 0).rel = false := by
  repeat' first | refine And.intro ?_ ?_ | decide +kernel | rfl
theorem meets_BatchesAndRankQueries : (0 : Nat) ≤ (0 : BitVec 6).toNat
    ∧ (0 : BitVec 6).toNat < (withCore fun c => { c with openB := [1] }).core.openB.length
    ∧ (31 : BitVec 6).toNat < 32 ∧ DstFree w0 .mov false 31 ∧ w0.myJob.group? 0 = some { g := 0, memb := [0, 1] }
    ∧ ([0, 1] : List Nat)[0]? = some w0.core.rank ∧ (∀ k < 0, ([0, 1] : List Nat)[k]? ≠ some w0.core.rank) ∧ w0.core.rank ∉ [1] :=
  ⟨by decide, by decide, by decide, rfl, rfl, rfl, fun _ h => by omega, by decide⟩
/-- A drain of an element, its output binding ti n, its statistics ti0 or 255. -/
def drainOf (n e : Nat) : State := withCore fun c =>
  { c with drnRun := true, drnElem := e
           drains := [{ seq := 0, k := 0, acc := 0, entry := 0, m0 := 0, n0 := 0, e := e, rmax := 0, terms := [], halt := none, fva := 0
                        nest := BitVec.ofNat 1536 (n * 2 ^ 1280 + n * 2 ^ 1288 + n * 2 ^ 1296 + n * 2 ^ 1304) }] }
/-- ti0 as it stands, as no tensor at all, and as cb4 codes. -/
def drainBare : State := { drainOf 0 63 with ranks := [{ k0 with ti := Vector.replicate 256 0 }] }
def drainCb4 : State := { drainOf 0 63 with ranks := [{ k0 with ti := k0.ti.setIfInBounds 0 (ti + BitVec.ofNat 512 (3 * 2 ^ 52)) }] }
theorem meets_MicroOpResults : (bindNum (drainOf 0 63) 0 ≠ 255 ∧ (bindDesc (drainOf 0 63) 0).vld = true)
    ∧ bindNum (drainOf 255 0) 0 = 255 ∧ bindNum (drainOf 0 63) 3 ≠ 255 ∧ (bindDesc (drainOf 0 63) 3).vld = true
    ∧ (drainOf 0 63).core.drnElem % 64 = 63 ∧ (drainOf 0 0).core.drnElem % 64 ≠ 63 ∧ bindNum (drainOf 0 63) 1 ≠ 255
    ∧ (bindDesc (drainOf 0 63) 1).vld = true ∧ bindNum (drainOf 255 0) 1 = 255 ∧ bindNum drainBare 0 ≠ 255 ∧ (bindDesc drainBare 0).vld = false
    ∧ (bindDesc drainBare 1).vld = false
    ∧ (readTensor (drainOf 0 63) (drnReq (drainOf 0 63)) (bindDesc (drainOf 0 63) 1) 0 0 0 0).isOk = true
    ∧ (bindDesc (drainOf 0 63) 0).ty ≠ .cb4 ∧ (bindDesc (drainOf 0 63) 3).ty ≠ .cb4
    ∧ (bindDesc drainCb4 0).ty = .cb4 ∧ (bindDesc drainCb4 3).ty = .cb4 ∧ (bindDesc drainCb4 3).vld = true
    ∧ (drainOf 0 0).core.drnStores = [] ∧ (drainOf 0 0).core.drnRun = true
    ∧ (drainOf 0 0).core.drains.map (·.e) = [0] ∧ (drainOf 0 4095).core.drains.map (·.e) = [4095] := by
  repeat' first | refine And.intro ?_ ?_ | decide +kernel | rfl
theorem meets_MicroOpResults_lend (e : Nat) : putStores (drainOf 0 e).core.drnStores (drainOf 0 e) = .ok (drainOf 0 e) := rfl
/-! ## Hypotheses met: steps inside a core -/

/-- What an answer gives satisfies p. -/
def okAnd {ε α : Type} (e : Except ε α) (p : α → Bool) : Bool :=
  match e with
  | .ok x => p x
  | .error _ => false
def errAnd {ε α : Type} (e : Except ε α) (p : ε → Bool) : Bool :=
  match e with
  | .ok _ => false
  | .error x => p x
/-- A page table of one LPDDR-6 page at virtual address 0 of ASID 0, readable, writable, with code; and more bits of its leaf. -/
def pagePa : Nat := 0x20000100000
def leafAt : Nat := 0x20000050000
def paged (bits : Nat) (s : State) : State :=
  let t : Nat := 0x20000000000
  let s : State := { s with chip := { s.chip with asBase := 0x20000001000 } }
  (((((s.pokeWord (t + 0x1000) (BitVec.ofNat 64 (2 ^ 52 + t + 0x10000))).pokeWord (t + 0x10000) (BitVec.ofNat 64 (t + 0x20000 + 1))).pokeWord
    (t + 0x20000) (BitVec.ofNat 64 (t + 0x30000 + 1))).pokeWord (t + 0x30000) (BitVec.ofNat 64 (t + 0x40000 + 1))).pokeWord
    (t + 0x40000) (BitVec.ofNat 64 (t + 0x50000 + 1))).pokeWord leafAt (BitVec.ofNat 64 (pagePa + 0x2F + bits))
/-- Line 4 is cached and holds no instruction of CTL; more state as asked. -/
def lined (f : Core → Core) : State := withCore fun c => f { c with icache := [⟨0, 0, 4, List.replicate 8 0⟩] }
theorem empty_line : ∀ i < 8, 1 ≤ i → tagBad ((List.replicate 8 (0 : W32))[0]?.getD 0) i = false
    ∧ tagOf ((List.replicate 8 (0 : W32))[0]?.getD 0) i ≠ seqTag .ctl := by decide
theorem meets_LinesAreWalked :
    ((lined id).core.ctl.run = true ∧ cachedLine (lined id) 4 = some (List.replicate 8 0) ∧ (lined id).core.ctl.lane = 1
      ∧ (lined id).core.ctl.skip = none ∧ (lined fun c => { c with ctl := { c.ctl with skip := some 9 } }).core.ctl.skip = some 9
      ∧ (lined fun c => { c with uh := true }).core.uh = true
      ∧ (∀ e ∈ [LoopEnt.mk 1 3 4], e.last = 4 ∧ e.count.toNat ≤ 1) ∧ (LoopEnt.mk 2 3 4).last = (lined id).core.ctl.line
      ∧ 1 < (LoopEnt.mk 2 3 4).count.toNat ∧ (LoopEnt.mk 2 3 5).last ≠ (lined id).core.ctl.line)
    ∧ (w0.core.ctl.run = true ∧ w0.core.cmds = [] ∧ busy.core.ctl.run = true ∧ busy.core.vec.run = true)
    ∧ (let s := paged 0 (withCore fun c => { c with ctl := { c.ctl with line := 0 } })
       s.core.ctl.run = true ∧ cachedLine s s.core.ctl.line = none ∧ wayOpen s (s.req 1) 0 32 = true
       ∧ okAnd (fetchLine s.core.ctl.line s) (fun r => !r.1.core.x) = true) := by
  repeat' first | refine And.intro ?_ ?_ | decide +kernel | rfl

/-- An access of CTL that has issued: a load, a store, or a load that met a fault. -/
def acc (op : AccOp) (addr : Nat) : Acc := { id := 1, q := .ctl, op := op, addr := addr, size := 8, line := 4, lane := 1, w0 := 0, w1 := 0, uh := false }
def issuedAcc (a : Acc) : State := withCore fun c => { c with accq := [a], accId := 2 }
theorem meets_LinesAreWalked_held : let s := issuedAcc (acc (.store 5) sp)
    s.core.accq ≠ [] ∧ s.core.acs.run = false ∧ s.core.vec.run = false ∧ s.core.mov.run = false ∧ ∀ l ∈ s.core.sq.toList, l = [] := by
  repeat' first | refine And.intro ?_ ?_ | decide +kernel | rfl
theorem meets_AccessesPerform_way (a : Acc) (ha : a = acc (.load false 47 false) sp ∨ a = acc (.store 5) sp) :
    let s := issuedAcc a
    s.core.accq.find? (fun b => b.q == .ctl) = some a ∧ a.flt = false ∧ gated s .ctl = false
    ∧ mayGo s (s.req (accClient .ctl)) (a.op.fab a.size) a.addr a.size = true
    ∧ unqueue s (s.req (accClient .ctl)) (a.op.fab a.size) a.addr a.size = s ∧ inSpad a.addr = true ∧ accCheck s a.addr a.size = none := by
  rcases ha with rfl | rfl <;> repeat' first | refine And.intro ?_ ?_ | rfl
theorem meets_AccessesPerform :
    (let a := acc (.load false 47 false) sp
     let s := issuedAcc a
     a.op.dest = some (47, false)
     ∧ okAnd (performOp s (s.req (accClient .ctl)) a.op a.addr a.size) (fun r => r.2 == some 0) = true
     ∧ okAnd (locate s (s.req (accClient .ctl)) a.addr a.size a.op.kind) (fun _ => true) = true)
    ∧ (let a := acc (.store 5) sp
       let s := issuedAcc a
       okAnd (performOp s (s.req (accClient .ctl)) a.op a.addr a.size) (fun r => r.2 == none) = true)
    ∧ (let a := acc (.load false 5 false) 8
       let s := issuedAcc a
       accCheck s a.addr a.size = none ∧ errAnd (locate s (s.req (accClient .ctl)) a.addr a.size a.op.kind) (fun f => f.c == .xlMiss) = true) := by
  repeat' first | refine And.intro ?_ ?_ | decide +kernel | rfl
/-- A marked fault that stands, with the action park or, for a page that came meanwhile, gone. -/
theorem meets_AccessesPerform_traps : let a := { acc (.load false 5 false) 8 with flt := true }
    let s := issuedAcc a
    a.flt = true ∧ errAnd (performOp s (s.req (accClient .ctl)) a.op a.addr a.size) (fun f => f.c == .xlMiss) = true
    ∧ actOf (actByte s s.core.job .xlMiss) = .replay
    ∧ okAnd (performOp (paged 0 s) ((paged 0 s).req (accClient .ctl)) a.op a.addr a.size) (fun _ => true) = true := by
  repeat' first | refine And.intro ?_ ?_ | decide +kernel | rfl
/-! ## Hypotheses met: streams, tasks, engines -/

/-- Record 0 runs over three f32 elements, two an entry, from an address. -/
def streamAt (store : Bool) (base : Nat) (f : Core → Core) : State := 
  let img : Nat := base + 3 * 2 ^ 64 + 2 ^ 80 + 2 ^ 96 + 2 ^ 112 + 4 * 2 ^ 128 + 2 * 2 ^ 256
  withCore fun c => f { c with strm := c.strm.setIfInBounds 0 { image := BitVec.ofNat 512 img, st := .running, store := store } }
theorem meets_StreamsMoveEntries_load : let s := streamAt false sp id
    let x := strmAt s 0
    x.st = .running ∧ gated s .acs = false ∧ x.lin = 0 ∧ x.total = 3 ∧ x.epe = 2 ∧ x.store = false
    ∧ (s.core.lq[x.que]?.getD []).length < 8 ∧ x.que < 8 ∧ amarkHolds s x = false
    ∧ needIdx x 2 = 0 ∧ gather 0 0 0 s = .ok s ∧ hintFull 0 s x 0 2 = false ∧ okAnd (strmReadN x 2 0 s) (fun r => r.2.length == 2) = true := by
  repeat' first | refine And.intro ?_ ?_ | decide +kernel | rfl
theorem meets_StreamsMoveEntries :
    (let e : QEnt := { data := 5, ty := .n8, epe := 0, en := 3 }
       let s := streamAt true sp fun c => { c with sq := c.sq.setIfInBounds 0 [e] }
       let x := strmAt s 0
       x.st = .running ∧ x.imode = 0 ∧ gated s .acs = false ∧ x.lin < x.total ∧ 0 < x.epe ∧ x.store = true ∧ x.lin % x.epe = 0
       ∧ s.core.sq[x.que]? = some (e :: []) ∧ gather 0 0 0 s = .ok s ∧ hintFull 0 s x 0 2 = false ∧ (strmWriteN x e 2 0 0 s).2 = (2, none))
    ∧ (let s := streamAt false 8 id
       (strmFault 0 s).map (fun r => (r.1.c, decide (r.1.va < 2 ^ 52), decide (r.2.jobs = s.jobs), r.2.core.job)) = some (.xlMiss, true, true, 1)
       ∧ actOf (actByte s s.core.job .xlMiss) = .replay) := by
  repeat' first | refine And.intro ?_ ?_ | decide +kernel | rfl

/-- Core 0 holds no task; watch entry 31 is ready; the job runs under DET. -/
def ready : State :=
  let e : WEnt := { waddr := sp, rdy := true, stage := 2, thresh := 0, cont := 9, rtime := 0, save := List.replicate 8 7 }
  { (withCore fun c => { c with ctl := {}, watch := c.watch.setIfInBounds 31 (some e) }) with jobs := [{ j0 with det := true }] }
/-- A forward record in a ring whose REPLY is replay. -/
def fwd : Fwd := { at' := .ring spk, cause := .xlMiss, agent := .ctl, fva := 0, reply := 1 }
/-- A group whose member 0 waits in a BARV; core 0 holds a forward record with a reply; a batch of faults is open. -/
def gathered : State :=
  let f : Core → Core := fun c => { c with barv := some ⟨0, false, 47, false⟩, fwds := [fwd] }
  let g : Core → Core := fun c => { c with trigged := true, marks := [markerOf w0 .mtx] }
  let x : PFault := ⟨0, 1, .xlMiss, false, 0, 1, 5⟩
  let s : State := (withCore fun c => g (f c)).pokeWord spk 1
  { s with chip := { s.chip with faults := [x], faultsAt := some 5, ticks := 5000, frBase := BitVec.ofNat 64 (4 * 2 ^ 52 + pagePa) } }
theorem meets_TasksAndArrivals :
    ((ready.rank? 1 0) = some k0 ∧ ready.core.job = 1 ∧ ready.core.rank = 0 ∧ ready.myJob.det = true)
    ∧ (gathered.core.marks.find? (fun m => m.eng == .mtx) = some (markerOf w0 .mtx) ∧ gathered.core.trigged = true
      ∧ gathered.core.trigSent = false ∧ gathered.core.unperformed = [])
    ∧ (gathered.job? 1 = some j0 ∧ j0.group? 0 = some { g := 0, memb := [0, 1] } ∧ gathered.rank? 1 1 = none ∧ gathered.rank? 1 0 = some k0
      ∧ gathered.core.barv = some ⟨0, false, 47, false⟩ ∧ gathered.core.x = false ∧ regIx gathered.core .ctl 47 = 47)
    ∧ gathered.core.fwds.find? (fun f => f.answer gathered.now != 0) = some fwd
    ∧ (gathered.chip.faultsAt = some 5 ∧ gathered.chip.faults ≠ [] ∧ 5 + 2400 ≤ gathered.now
      ∧ faultRoom gathered.chip = 16 ∧ (gathered.chip.frWait ++ (faultRuns (sortFaults (gathered.chip.faults.take 64))).map PRun.words).length = 1) := by
  repeat' first | refine And.intro ?_ ?_ | decide +kernel | rfl
theorem meets_TasksAndArrivals_task : ∃ x, dispatchOf ready 1 0 = some (ready.core, x) ∧ x.ix = 31 := ⟨_, rfl, rfl⟩
theorem meets_TasksAndArrivals_cores : barvCore gathered 1 0 0 = some gathered.core
    ∧ (gathered.coresOf 1 0).find? (fun c => c.fwds.any fun f => f.answer gathered.now != 0) = some gathered.core := ⟨rfl, rfl⟩
/-- The rank itself holds a forward record with a reply, no core of it does. -/
theorem meets_TasksAndArrivals_kept : let s : State := { w0 with ranks := [{ k0 with fwds := [fwd] }] }
    (s.coresOf 1 0).all (fun c => c.fwds.isEmpty) = true ∧ (s.rank? 1 0).map (·.fwds) = some [fwd]
    ∧ fwd.answer s.now = 1 ∧ replayable .xlMiss = true := by
  repeat' first | refine And.intro ?_ ?_ | decide +kernel | rfl
theorem okAnd_ok {ε α : Type} {e : Except ε α} {p : α → Bool} (h : okAnd e p = true) : ∃ x, e = .ok x ∧ p x = true := by
  cases e with
  | ok x => exact ⟨x, rfl, h⟩
  | error _ => cases h

/-- A one-element tensor at an address. -/
def one (base : Nat) : Desc := BitVec.ofNat 512 (base + 2 * 2 ^ 52 + 2 ^ 62 + 2 ^ 64 + 2 ^ 192 + 2 ^ 232 + 2 ^ 296)
/-- A ring of two records in the scratchpad, which asks for interrupts. -/
def ringAt : BitVec 256 := BitVec.ofNat 256 (sp + 2 ^ 52 + 2 ^ 56 + (sp + 256) * 2 ^ 64 + (sp + 264) * 2 ^ 128)
/-- Command 7 of core 0. -/
def cmd (op : CmdOp) (st : CmdSt) : Cmd := { seq := 7, k := 0, preds := [], op := op, st := st, desc := ringAt, prog := [0xA0000000] }
def withCmd (x : Cmd) (f : Core → Core) : State := withCore fun c => f { c with cmds := [x] }
def cp (src : Nat) : CmdOp := .copy (one (sp + 4096)) (one src) 0 0 none
/-- A command that copies an element, with its way open, one that waits for an earlier one, one whose way is closed. -/
theorem meets_MovCommandsRun_start :
    (let x := cmd (cp sp) .waiting
     let s := withCmd x id
     cmdOf s 7 = some x ∧ x.fault = 0 ∧ x.skip = 0 ∧ cmdDue s x = true
     ∧ okAnd (readImageMasks x s) (fun p =>
         let r := runElems p.2.elem (x.op.total - x.pos) ⟨p.1, x.pos, 0, [], none⟩
         r.pos == x.op.total && r.skipped == 0 && r.bad.isEmpty && r.stop.isNone && cmdOf r.s 7 == some x) = true)
    ∧ (let x := { cmd (cp sp) .waiting with preds := [6] }
       cmdDue (withCmd x fun c => { c with cmds := [{ cmd (cp sp) .running with seq := 6 }, x] }) x = false
         ∧ (x.st = .halted → x.cause ≠ none))
    ∧ (let x := { cmd (cp sp) .halted with halted0 := .running }
       cmdOf (withCmd x id) 7 = some x ∧ x.st = .halted ∧ x.cause = none)
    ∧ (let x := cmd (.fatm .add true (fabLo + 2 ^ 33) 1 sp) .running
       cmdDue { withCmd x id with jobs := [{ j0 with place := [{ state := .active }, { state := .withdrawn }] }] } x = true) := by
  repeat' first | refine And.intro ?_ ?_ | decide +kernel | rfl
/-- Flags in the scratchpad that a copy, an FLD post; a command of its own rank's fault; a record; a ring with room, and full. -/
theorem meets_MovCommandsRun :
    (let x := cmd (.copy (one (sp + 4096)) (one sp) 0 0 (some (sp + 64))) .flag
       let s := (withCmd x id).pokeWord (spk + 64) 2
       x.st = .flag ∧ x.op.flagAddr = some (sp + 64)
       ∧ okAnd (rmw s (movReq s) (sp + 64) (fun v => arriveSub v x.op.okBytes)) (fun r => cmdOf r.1 7 == some x) = true)
    ∧ (let x := cmd (.fld sp (fabLo + 2 ^ 33) 8 (sp + 64)) .flag
       let s := withCmd x id
       x.st = .flag
       ∧ okAnd (rmw s { movReq s with ask := [2, 0, 1] } (sp + 64) (fun v => .ok ((v + 1) % 2 ^ 64))) (fun r => cmdOf r.1 7 == some x) = true)
    ∧ (let x := cmd (cp 8) .running
       let s := withCmd x id
       (haltCause s x).map (·.c) = some .xlMiss ∧ actOf (actByte s s.core.job .xlMiss) = .replay)
    ∧ (let x := cmd (cp sp) .record
       let s := withCmd x id
       x.st = .record ∧ s.core.recs = [] ∧ s.core.batches = [])
    ∧ (let r : Rec := ⟨0, ringAt, 7, 0, 0x0E, 0, 2, 0, true, 0⟩
       let s := withCmd (cmd (cp sp) .record) fun c => { c with recs := [r] }
       s.core.recs.find? (fun r => r.ring == 0) = some r ∧ okAnd (ringPut s (movReq s) r.desc [7, 2, 0, s.now]) (·.isSome) = true
       ∧ okAnd (ringPut (s.pokeWord (spk + 256) 2) (movReq s) r.desc [7, 2, 0, s.now]) (·.isNone) = true) := by
  repeat' first | refine And.intro ?_ ?_ | decide +kernel | rfl

/-- Rank 0's command in a collective of g0; rank 1, on this chip too, brings its own. -/
def colOf (members : List Nat) (joined : List (Nat × Nat × W32)) (started : Bool) : Col :=
  { g := 0, n := 0, members := members, joined := joined, started := started, done := [], failed := [] }
def colState (c : Col) (a b : Desc) (gone : Bool) : State :=
  let s := withCmd (cmd (.fcol .bcast .sum 0 0 (one (sp + 4096)) a c.members) .flag) id
  let far : Core := { c0 with phys := 1, rank := 1, cmds := [cmd (.fcol .bcast .sum 0 0 b a c.members) .flag] }
  { s with cores := [far], ranks := [k0, { k0 with rank := 1 }],
           jobs := [{ j0 with cols := [c], place := [{ state := .active }, { state := if gone then .withdrawn else .active }] }] }
theorem meets_CollectivesDeliver :
    (let c := colOf [0] [(0, 0, 7)] false
     let s := colState c (one sp) 0 false
     findCol s 1 0 0 = some c ∧ colReady s 1 c = true
     ∧ let args := c.joined.filterMap fun m => (colArgs s 1 c m.1).map fun a => (m.1, a)
       (args.any fun a => colUnfit c a || args.any fun b => colClash c a b) = false)
    ∧ (let c := colOf [0, 1] [(0, 0, 7), (1, 0, 7)] false
       let s := colState c (one sp) ti false
       findCol s 1 0 0 = some c ∧ colReady s 1 c = true
       ∧ let args := c.joined.filterMap fun m => (colArgs s 1 c m.1).map fun a => (m.1, a)
         (args.any fun a => colUnfit c a || args.any fun b => colClash c a b) = true)
    ∧ (let c := colOf [0, 1] [(0, 0, 7)] false
       findCol (colState c (one sp) 0 false) 1 0 0 = some c ∧ colReady (colState c (one sp) 0 false) 1 c = false)
    ∧ (let c := colOf [0] [(0, 0, 7)] true
       (match tryItem 1 c 0 0 (colState c (one sp) 0 false) with | .done _ => true | _ => false) = true)
    ∧ (let c := colOf [1, 0] [(0, 0, 7)] true
       (match tryItem 1 c 0 0 (colState c (one sp) 0 true) with | .failed 1 .rankLost _ _ => true | _ => false) = true)
    ∧ (let c := colOf [0] [(0, 0, 7)] true
       let s := { colState c (one sp) 0 false with poison := [spk / 64] }
       (match tryItem 1 c 0 0 s with
         | .failed 0 .memPoison _ u => (memberCmd (failRecord 1 c 0 0 0 .memPoison u) 1 c 0).isSome && (colArgs u 1 c 0).isSome
         | _ => false) = true)
    ∧ (let c := colOf [0] [(0, 0, 7)] true
       let s := colState c (one 8) 0 false
       (match tryItem 1 c 0 0 s with
         | .halt 0 f => (engineFault s 2 (((s.rank? 1 0).map (·.asid)).getD 0) f.va f.c).isSome
         | _ => false) = true ∧ (memberCmd s 1 c 0).isSome = true ∧ c.members = [0] ∧ colItems c .bcast = 1) := by
  repeat' first | refine And.intro ?_ ?_ | decide +kernel | rfl

/-- A nest of the reset image under way. -/
def nst (loaded : Option (Nat × Nat)) : Nest := { seq := 7, nest := nestReset, red := 0, step := 0, started := false, loaded := loaded, rot := 0, cause := none, fva := 0 }
def nestState (x : Nest) (d : Desc) : State := withCmd (cmd (.mxgo nestReset d d) .running) fun c => { c with nest := some x }
def mmaOp : CmdOp := .mxmma nestReset mma 16 0 0 0 0
/-- A drain at its last element. -/
def drn (e : Nat) : Drain := { seq := 7, k := 0, acc := 0, entry := 0, m0 := 0, n0 := 0, e := e, rmax := 0, terms := [], nest := nestReset, halt := none, fva := 0 }
def drainState (n : BitVec 1536) (prog : List W32) : State :=
  withCmd { cmd mmaOp .flag with prog := prog } fun c => { c with drains := [{ drn 4095 with nest := n }] }
theorem meets_MatrixEngineSteps_start :
    (let x := cmd (.mxgo nestReset 0 0) .waiting
     mtxReady (withCmd x fun c => { c with mtxQ := [7] }) = some x)
    ∧ (let x := cmd mmaOp .waiting
       let s := withCmd x fun c => { c with mtxQ := [7] }
       mtxReady s = some x ∧ s.core.accTask[0]? = some x.task ∧ nestTri nestReset = 0)
    ∧ mtxReady w0 = none
    ∧ (let x := cmd mmaOp .running
       mmaReady (withCmd x fun c => { c with mtxQ := [7] }) = some x ∧ mma.den = false ∧ { mma with den := true }.den = true)
    ∧ (let x := cmd mmaOp .flag
       cmdOf (withCmd x id) 7 = some x ∧ x.op.isMtx = true ∧ x.st = .flag ∧ (withCmd x id).core.drains = []) := by
  repeat' first | refine And.intro ?_ ?_ | decide +kernel | rfl
theorem meets_MatrixEngineSteps :
    ((nestState (nst none) 0).core.nest = some (nst none) ∧ needsLoad (nst none) = true
      ∧ okAnd (loadStep (nst none) (nestState (nst none) 0)) (fun _ => true) = true)
    ∧ (let s := nestState (nst none) (one 8)
       errAnd (loadStep (nst none) s) (fun f => f.c == .xlMiss && !f.shut) = true
       ∧ actOf (actByte s s.core.job .xlMiss) = .replay)
    ∧ (mmaReady (nestState (nst none) 0) = none
      ∧ stepReady (nestState (nst (some (0, 1))) 0) = some (nst (some (0, 1))) ∧ nestSteps nestReset ≤ 1 ∧ nestReds nestReset ≤ 1
      ∧ nestTri nestReset = 0 ∧ nestDen nestReset = false ∧ nestAccBase nestReset + 0 % max 1 (nestAccN nestReset) < 16
      ∧ 1 < nestSteps (nestReset + 1 + 2 ^ 784))
    ∧ (let x := { nst none with nest := nestReset + 2 ^ 828 + BitVec.ofNat 1536 ((2 ^ 32 - 64) * 2 ^ 1024) }
       stepReady (nestState x 0) = some x ∧ nestDen x.nest = false)
    ∧ (let s := drainState nestReset [0xA0000000]
       s.core.drains = drn 4095 :: [] ∧ (drn 4095).halt = none ∧ s.core.drnRun = false ∧ s.core.drnReady ≤ s.now ∧ (drn 4095).e = 4095 ∧ (drn 4095).seq = 7
       ∧ engineHeld s = false ∧ okAnd (runElem (drn 4095) s) (fun u => (u.core.drains.drop 1).isEmpty) = true)
    ∧ (let n := nestReset + 255 * 2 ^ 1280
       let s := drainState n [0x88000000, 0xA0000000]
       s.core.trap = none
       ∧ errAnd (runElem { drn 4095 with nest := n } s) (fun f => f.c == .tiReserved && !f.shut) = true ∧ actOf (actByte s s.core.job .tiReserved) = .park) := by
  repeat' first | refine And.intro ?_ ?_ | decide +kernel | rfl
/-- The row's one element that is left runs. -/
theorem meets_MatrixEngineSteps_row : let s := drainState nestReset [0xA0000000]
    ∃ u : Nat → State, u 0 = s ∧ ∀ k < 64 - (drn 4095).e % 64, ∃ y, (u k).core.drains.head? = some y ∧ runElem y (u k) = .ok (u (k + 1)) := by
  intro s
  obtain ⟨r, h, -⟩ := okAnd_ok (e := runElem (drn 4095) s) (p := fun _ => true) (by decide +kernel)
  exact ⟨fun k => if k = 0 then s else r, rfl, fun k hk => by
    obtain rfl : k = 0 := by simp [drn] at hk; exact hk
    exact ⟨drn 4095, rfl, h⟩⟩
/-! ## Hypotheses met: pre-emption, queues, boundaries, moves between chips -/

/-- Core 0 was asked to stop at time 0 and stands at a point; at time 2^21. -/
def asked (f : Core → Core) : State :=
  let s := withCore fun c => f { c with stopReq := some 0, ctl := { c.ctl with point := true } }
  { s with chip := { s.chip with ticks := 2 ^ 21 } }
theorem meets_RanksArePreempted : w0.rank? 1 0 = some k0 ∧ k0.cold = false ∧ mayHalt (asked id).core = true
    ∧ (asked id).core.ctl.cap.ops = [] ∧ (asked id).core.acs.cap.ops = [] ∧ (asked id).core.vec.cap.ops = [] ∧ (asked id).core.mov.cap.ops = []
    ∧ mayStop (asked fun c => { c with trap := some held }).core = true
    ∧ w0.cores = [] ∧ canStop w0.core = false ∧ rankStopped (asked fun c => { c with stopped := true }) 1 0 = true := by
  repeat' first | refine And.intro ?_ ?_ | decide +kernel | rfl
theorem meets_RanksArePreempted_late : lateStop (asked id) 1 0 = some (asked id).core := rfl

/-- A queue of interface 0 at pagePa + 0x8000, its ring, with one entry, at pagePa + 0x4000, and an image at pagePa + 0x2000. -/
def queued (img entry : Nat) (s : State) : State :=
  let s := paged 0 s
  let s := { s with chip := { s.chip with qdBase := BitVec.ofNat 64 (pagePa + 0x8000), svc := 2, mapped := [⟨0, 0, 0, false, false⟩] } }
  let at' (o x : Nat) (s : State) : State := s.pokeWord (pagePa + o) (BitVec.ofNat 64 x)
  let s := at' 0x8000 (pagePa + 0x4000 + 2 ^ 52 + 2 ^ 56) (at' 0x8008 1 s)
  let s := at' 0x4000 entry (at' 0x4008 (pagePa + 0x2000) s)
  at' 0x2000 img (at' 0x2010 0x1000 (at' 0x1000 (2 ^ 52) s))
def entryAt (s : State) : Entry := entryWords s (fld (qdWord s 0 0) 0 52 + 64 * (qServed s 0 % 2 ^ fld (qdWord s 0 0) 52 4))
/-- A chip after reset with a quota record for job 1, its address space, and a placement of one rank staged. -/
def empty : State :=
  let s : State := queued 0x4A4B 1 { State.reset with jobs := [{ num := 1, status := .free, coreq := 4 }] }
  let stage : List Byte := 1 :: List.replicate 65 0 ++ [2] ++ List.replicate 61 0
  { (s.pokeWord 0x20000001008 4096) with chip := { s.chip with staged := [(0, stage)] } }
theorem meets_QueuesAndPrograms_doorbells :
    (let s := queued 0 0 w0
     ideOk s 0 none = true ∧ (tdiAt s 0).st ≠ .locked ∧ qTenant s 0 = 0 ∧ (1 : Nat) < 16 ∧ ideOk s 1 none = true ∧ qTenant s 0 ≠ 1)
    ∧ (let s : State := { w0 with chip := { w0.chip with tdi := w0.chip.tdi.setIfInBounds 15 { st := .locked, ide := some 3 } } }
       (tdiAt s 15).st = .locked ∧ s.chip.recovery = false ∧ ideOk s 15 (some 15) = true)
    ∧ (let s : State := { w0 with chip := { w0.chip with recovery := true } }
       s.chip.recovery = true)
    ∧ (w0.chip.recovery = false ∧ ideOk w0 0 none = true ∧ (4096 : Nat) ≠ 0 ∧ 2 ^ 44 ≤ (BitVec.allOnes 64).toNat)
    ∧ (let s : State := { w0 with chip := { w0.chip with tdi := w0.chip.tdi.setIfInBounds 0 { st := .run } } }
       ideOk s 0 none = false ∧ s.chip.recovery = false)
    ∧ (let s : State := { queued 0 0 w0 with chip := { (queued 0 0 w0).chip with mapped := [], runnable := [⟨0, 3⟩], ticks := 60000 } }
       s.chip.quantum ≤ s.now ∧ s.chip.mapped = [] ∧ s.chip.runnable = [⟨0, 3⟩] ∧ mayMap s 0 = true)
    ∧ w0.now < w0.chip.quantum
    ∧ (let s := withChip fun c => { c with portsNext := some c.ports }
       s.chip.portsNext = some s.chip.ports ∧ s.chip.portsAt ≤ s.now) := by
  repeat' first | refine And.intro ?_ ?_ | decide +kernel | rfl
theorem meets_QueuesAndPrograms_unmap : let q := queued 0 0 w0
    let s : State := { q with chip := { q.chip with mapped := [⟨0, 0, 0, false, true⟩] } }
    (s.chip.mapped.any fun m => m.q == 0 && m.unmapping) = true ∧ queueBusy s 0 = false ∧ qNotify s 0 ≠ qServed s 0 ∧ qErr s 0 = false := by
  repeat' first | refine And.intro ?_ ?_ | decide +kernel | rfl
theorem meets_QueuesAndPrograms_entries :
    (let s := queued 0 0 w0
     takeReady s 0 = true ∧ launchRefusal s 0 (entryAt s) = some .launchEntry)
    ∧ (let s := queued (0x4A4B + 2 ^ 16 + 2 ^ 21) (2 + 2 ^ 32) w0
       takeReady s 0 = true ∧ launchRefusal s 0 (entryAt s) = none ∧ (entryAt s).op = 2)
    ∧ (takeReady empty 0 = true ∧ launchRefusal empty 0 (entryAt empty) = none ∧ (entryAt empty).op = 1
      ∧ (readImage empty (entryAt empty).image).isSome = true)
    ∧ takeReady w0 0 = false := by
  repeat' first | refine And.intro ?_ ?_ | decide +kernel | rfl
theorem meets_QueuesAndPrograms_ends :
    (let s : State := { queued 0x4A4B 0 w0 with
       ranks := [{ k0 with finished := true }], jobs := [{ j0 with succ := some ⟨0, pagePa + 0x2000, false, 0, []⟩, status := .retired }] }
     succReady s 1 0 = true ∧ (readImage s (pagePa + 0x2000)).isSome = true)
    ∧ (let x : Job := { j0 with v := 1, place := [{ state := .active }], groups := [{ g := 0, memb := [0] }] }
       let s : State := { w0 with ranks := [{ k0 with finished := true }], jobs := [x] }
       s.job? 1 = some x ∧ x.oldDone = none ∧ programOver s x = true ∧ x.status ≠ .free)
    ∧ (let x : Job := { j0 with oldDone := some 8, oldCmds := [(0, 0, 7)] }
       x.oldDone = some 8 ∧ oldLeft w0 x = []) := by
  repeat' first | refine And.intro ?_ ?_ | decide +kernel | rfl

/-- A group all of whose members have arrived; a boundary in its part 2 or 8; a checkpoint. -/
def full (g : Nat) : Group := { g := g, memb := [0, 1], arrived := [(0, true), (1, true)] }
def ck : Ckpt := { num := 0, ranks := [], watch := [], groups := [], dets := [], stepNo := 0, spad := [] }
def bounded (part : Nat) (waiting : List Nat) (ckpt : Bool) : State :=
  let s := withJob fun j => { j with bound := some ⟨part, waiting, ckpt, false, 0, [], []⟩ }
  { s with chip := { s.chip with ticks := 2 ^ 23 } }
theorem meets_PhasesAndBoundaries_phases :
    (let x : Job := { j0 with groups := [{ g := 0, memb := [0, 1] }, full 3] }
     let s : State := { w0 with jobs := [x], chip := { w0.chip with ticks := 1 } }
     s.job? 1 = some x ∧ x.group? 3 = some (full 3) ∧ phaseReady s 1 (full 3) = true ∧ (full 3).lastAt < s.now ∧ detsStarted s 1 3 0 = true
     ∧ phaseReady s 1 { g := 0, memb := [0, 1] } = false)
    ∧ (let x : Job := { j0 with groups := [full 0] }
       let s : State := { w0 with jobs := [x], chip := { w0.chip with ticks := 1 } }
       s.job? 1 = some x ∧ x.group? 0 = some (full 0) ∧ phaseReady s 1 (full 0) = true ∧ (full 0).lastAt < s.now ∧ detsStarted s 1 0 0 = true ∧ x.bound = none
       ∧ (full 0).arrived.all (·.2) = true ∧ x.dets = [] ∧ (((phaseOver 1 (full 0) s).job? 1).bind (·.group? 0)).isSome = true
       ∧ phaseReady s 1 { full 0 with arrived := [(0, true), (1, false)] } = true) := by
  repeat' first | refine And.intro ?_ ?_ | decide +kernel | rfl
theorem meets_PhasesAndBoundaries :
    phaseReady w0 1 { g := 0, memb := [0, 1] } = false
    ∧ (boundWaits (bounded 2 [0] false) 1 0 = true ∧ rankQuiet (bounded 2 [0] false) 1 0 = true ∧ migLate (bounded 2 [0] false) 1 0 = true
      ∧ migLate (bounded 8 [0] true) 1 0 = true ∧ ((bounded 8 [] true).job? 1).bind (·.bound) = some ⟨8, [], true, false, 0, [], []⟩)
    ∧ ((withJob fun j => { j with ckpt := some ck, rolling := true }).job? 1).bind (·.ckpt) = some ck ∧ j0.rollEnd = none
      ∧ (((withJob fun j => { j with ckpt := some ck, rolling := true, rollEnd := some 7 }).job? 1).map (·.rollEnd)) = some (some 7)
      ∧ j0.status ≠ .killed ∧ j0.status ≠ .free
    ∧ j0.reqs = [] ∧ (placeOf w0 1 0).state ≠ .withdrawn ∧ (placeOf w0 1 1).state ≠ .withdrawn ∧ (placeOf w0 1 2).state ≠ .withdrawn := by
  repeat' first | refine And.intro ?_ ?_ | decide +kernel | rfl

/-- A page's line is one of its rank's: the leaf lies below the tables that lead to it. -/
theorem leaf_below {s : State} {lvl lo n t va : Nat} {rest : List (Nat × Nat × Nat)} {x : Nat × Nat × Word} (i : Nat) (hi : i < if lvl = 0 then 0x380 else 2 ^ n)
    (hp : physOk (t + 8 * i) = true) (hv : bitOf (Machine.entryAt s (t + 8 * i)) 0 = true)
    (h : if bitOf (Machine.entryAt s (t + 8 * i)) 1 = false then x ∈ leavesBelow s rest (fld (Machine.entryAt s (t + 8 * i)) 8 44 * 256) (va + i * 2 ^ lo)
         else lvl ≠ 0 ∧ x = (va + i * 2 ^ lo, lvl, Machine.entryAt s (t + 8 * i))) : x ∈ leavesBelow s ((lvl, lo, n) :: rest) t va := by
  refine List.mem_flatMap.2 ⟨i, List.mem_range.2 hi, ?_⟩
  simp only [hp, hv, Bool.not_true, Bool.or_false, Bool.false_eq_true, if_false]
  split at h
  · simp [*]
  · simp_all
def pd : State := paged 0 w0
theorem meets_RanksMoveBetweenChips_line : 0 ∈ rankLines pd 0 := by
  refine List.mem_flatMap.2 ⟨(0, 4, pd.word leafAt), List.mem_filter.2 ⟨?_, by decide +kernel⟩, by decide +kernel⟩
  refine leaf_below 0 (by decide) (by decide +kernel) (by decide +kernel) ?_
  rw [if_pos (by decide +kernel)]
  refine leaf_below 0 (by decide) (by decide +kernel) (by decide +kernel) ?_
  rw [if_pos (by decide +kernel)]
  refine leaf_below 0 (by decide) (by decide +kernel) (by decide +kernel) ?_
  rw [if_pos (by decide +kernel)]
  refine leaf_below 0 (by decide) (by decide +kernel) (by decide +kernel) ?_
  rw [if_pos (by decide +kernel)]
  refine leaf_below 0 (by decide) (by decide +kernel) (by decide +kernel) ?_
  rw [if_neg (by decide +kernel)]
  exact ⟨by decide, by decide +kernel⟩
def mig (active : Bool) : Mig := ⟨1, 0, false, 5, 0, 0, [], [], [], active, false, false, []⟩
/-- Transaction 1 of chip 5, the first on its link of lane 9, with none before it to its line. -/
def tx (op : FabOp) : FabTx := ⟨5, 1, false, 1, 0, 64, op, 9, 1, 0⟩
/-- The migrations' port serves the job's tenant. -/
def ported : State := { pd with chip := { pd.chip with migs := [mig true], ports := pd.chip.ports.setIfInBounds 2 [16] } }
theorem meets_RanksMoveBetweenChips :
    (migOf ported 1 0 false = some (mig true) ∧ ported.rank? 1 0 = some k0 ∧ (mig true).active = true ∧ (mig true).flipped = []
      ∧ k0.asid = 0 ∧ portHeld ported 2 1 = true)
    ∧ ((w0.job? 1).isSome = true ∧ w0.rank? 1 1 = none ∧ (5 : Nat) ≠ w0.chip.id ∧ migOf w0 1 1 true = none
      ∧ roomToCome w0 1 { chip := w0.chip.id, state := .moving, pendack := 2 } = true
      ∧ roomToCome w0 1 { chip := w0.chip.id, state := .moving, pendack := 1 } = false)
    ∧ (let m := { mig true with rank := 1, inward := true }
       let s := withChip fun c => { c with migs := [m] }
       migOf s 1 1 true = some m ∧ m.active = true ∧ s.rank? 1 1 = none)
    ∧ (pd.rank? 1 0).isSome = true ∧ (placeOf w0 1 1).chip ≠ 6
    ∧ (let s : State := { withJob fun j => { j with place := [{ state := .moving, pendack := 2 }, {}] } with
         chip := { w0.chip with migs := [mig false] } }
       migOf s 1 0 false = some (mig false) ∧ 1 < (placeOf s 1 0).pendack ∧ 0 < ((s.job? 1).map (·.place.length)).getD 0)
    ∧ (let s : State := { withJob fun j => { j with place := [{ state := .moving, pendack := 1 }, {}] } with
         chip := { w0.chip with migs := [mig false] } }
       migOf s 1 0 false = some (mig false) ∧ (placeOf s 1 0).pendack = 1 ∧ (mig false).markers = [])
    ∧ w0.chip.lost = []
    ∧ (let e : PlaceEntry := { chip := 5, state := .absent }
       (ported.rank? 1 0).isSome = true ∧ migOf ported 1 0 false = some (mig true) ∧ (mig true).active = true ∧ e.state = .absent
       ∧ e.chip = (mig true).chip) := by
  repeat' first | refine And.intro ?_ ?_ | decide +kernel | rfl
theorem meets_RanksMoveBetweenChips_block : let s : State := { State.reset with jobs := [j0] }
    blockFree s (jobWidth s 1) 0 0 = true := by decide +kernel
/-- Lane 9 comes from chip 5, whose first transaction is awaited on it. -/
def linked : State := { pd with chip := { pd.chip with ingress := [{ k := 9, peer := 5, wave := 0, st := .baseline }] } }
/-- The state in which that transaction performs. -/
def performing (s : State) : State :=
  let s : State := { s with chip := { s.chip with ingress := [{ k := 9, peer := 5, wave := 0, st := .baseline, links := [(5, 1)] }] } }
  noteDone 5 1 s
theorem meets_RanksMoveBetweenChips_fabric :
    ((linked.job? 1).isSome = true ∧ linked.chip.lost = [] ∧ linked.chip.rxHeld = [] ∧ rxKey linked (tx (.read 8)) = 5
      ∧ linked.chip.ingress = [{ k := 9, peer := 5, wave := 0, st := .baseline : Lane }]
      ∧ ({ k := 9, peer := 5, wave := 0, st := .baseline : Lane } : Lane).last 5 = 0
      ∧ (tx (.read 8)).link = 0 + 1 ∧ ({ tx (.read 8) with link := 0 } : FabTx).link ≤ 0 ∧ 0 + 1 < ({ tx (.read 8) with link := 2 } : FabTx).link)
    ∧ (doneTx { linked with chip := { linked.chip with rxNext := [(5, 2)] } } 5 1 = true ∧ doneTx linked 5 1 = false
      ∧ doneTx linked 5 0 = true ∧ ({ tx (.read 8) with seq := 2, after := 1 } : FabTx).after = 1) := by
  repeat' first | refine And.intro ?_ ?_ | decide +kernel | rfl
/-- Rank 0 is coming here, so what comes for it is held; rank 0 has left, so it is passed on. -/
theorem meets_RanksMoveBetweenChips_passed :
    (let s : State := { linked with chip := { linked.chip with migs := [{ mig true with inward := true }] } }
     heldTx (performing s) (tx (.read 8)) = true ∧ rxKey s (tx (.read 8)) = 5 ∧ doneTx s 5 1 = false)
    ∧ (let s : State := { linked with chip := { linked.chip with migs := [mig false] } }
       heldTx (performing s) (tx (.write [1])) = false ∧ passTo (performing s) (tx (.write [1])) = some (mig false)) := by
  repeat' first | refine And.intro ?_ ?_ | decide +kernel | rfl
/-- Its export page is mapped, and at offset 64 KiB none is. -/
theorem meets_RanksMoveBetweenChips_served : let u := performing linked
    heldTx u (tx (.read 8)) = false ∧ passTo u (tx (.read 8)) = none ∧ (tx (.read 8)).off.toNat + 8 ≤ 2 ^ 33
    ∧ errAnd (serveExport u (u.unitReq 1 0 false) 0 65536 8 (fabLo + 65536) .read) (fun f => f.c == .xlMiss) = true
    ∧ ({ tx (.read 8) with off := 65536 } : FabTx).off.toNat = 65536
    ∧ ∀ k ∈ [Kind.read, .write], okAnd (serveExport u (u.unitReq 1 0 false) 0 64 8 (fabLo + 64) k)
        (fun r => r.2.len == 8 && (poisonAt r.1 false r.2).isNone && (poisonAt r.1 true r.2).isNone && !noKey r.1 r.2.key) = true := by
  repeat' first | refine And.intro ?_ ?_ | decide +kernel | rfl

/-! ## Hypotheses met: Apertures, leases, lanes -/

/-- Job 1 with an Aperture, at a time. -/
def apert (a : Aperture) (n : Nat) : State :=
  let s := withJob fun j => { j with apt := a }
  { s with chip := { s.chip with ticks := n } }
def plan : AptPlan := { lens := [100, 50], maps := [{ slot := 0, peer := 5, lanes := [3], woff := 10, wlen := 20 }] }
theorem meets_AperturesTurn :
    (let a : Aperture := { next := some plan, at' := 40 }
     (apert a 40).job? 1 = some { j0 with apt := a } ∧ a.next = some plan ∧ a.at' ≤ (apert a 40).now ∧ (apert a 39).now < a.at')
    ∧ (let l : Lane := { k := 3, peer := 5, wave := 0, st := .pending, holder := 16384, job := 1 }
       (plan.maps.any fun m => m.lanes.contains l.k) = true ∧ l.st = .pending)
    ∧ (let a : Aperture := { plan := plan, act := true }
       a.plan.lens[a.slot]? = some 100 ∧ a.slotAt + 12 * 100 ≤ (apert a 1200).now ∧ (apert a 1199).now < a.slotAt + 12 * 100)
    ∧ (let a : Aperture := { plan := plan, act := true }
       (a.plan.maps[0]?).map (fun m => (m.slot, m.woff, m.wlen)) = some (0, 10, 20) ∧ a.openW = []
       ∧ a.slotAt + 12 * 10 ≤ (apert a 120).now ∧ (apert a 119).now < a.slotAt + 12 * 10 ∧ (apert a 359).now < a.slotAt + 12 * (10 + 20))
    ∧ (let a : Aperture := { plan := plan, act := true, openW := [0] }
       a.openW = [0] ∧ a.slotAt + 12 * (10 + 20) ≤ (apert a 360).now) := by
  repeat' first | refine And.intro ?_ ?_ | decide +kernel | rfl

/-- A request for lanes to rank 1 of job 1, and a chip where it waits, with its baseline lane to chip 5. -/
def lreq : LeaseReq :=
  { job := 1, rank := 0, peer := 1, count := 2, min := 1, at' := 0, core := 0, seq := 1, ring := 0, desc := 0 }
def pendLane : Lane := { k := 8, peer := 5, wave := 0, st := .pending, holder := 0, job := 1, peerRank := 1 }
def base : Lane := { k := 0, peer := 5, wave := 0, st := .baseline }
def leasing (q : LeaseReq) (quota : Nat) (f : Chip → Chip) : State :=
  let s := withJob fun j => { j with laneq := quota }
  { s with chip := f { s.chip with leaseQ := [q], egress := [base] } }
/-- Every laser but lane 8's is another job's. -/
def others : List Lane := ((List.range 2048).filter (· != 8)).map fun k => { k := k, peer := 6, wave := 0, st := .leased, job := 9 }
theorem none_dark {s : State} {l : Lane} (h : s.chip.egress = l :: others) (hk : l.k = 8) (hl : l.st ≠ .dark) : darkLanes s = [] := by
  refine List.filter_eq_nil_iff.2 fun k hk' => ?_
  simp only [laneFree, h, others, Bool.not_eq_true, Bool.not_eq_false', List.any_eq_true]
  by_cases h8 : k = 8
  · exact ⟨l, by simp, by simp [hk, hl, h8]⟩
  · exact ⟨{ k := k, peer := 6, wave := 0, st := .leased, job := 9 },
      List.mem_cons_of_mem _ (List.mem_map.2 ⟨k, List.mem_filter.2 ⟨hk', by simpa using h8⟩, rfl⟩), by simp⟩
theorem meets_LeasesAreAgreed_base : peerChips (leasing lreq 4 id) = [5] := by decide +kernel
theorem meets_LeasesAreAgreed_asked : askBaseline (leasing lreq 4 id) 5 = leasing lreq 4 id := rfl
theorem meets_LeasesAreAgreed_rounds :
    (let s := leasing lreq 4 fun c => { c with lost := [5] }
     farChip s 1 1 = some 5 ∧ s.chip.leaseQ = [lreq] ∧ s.chip.lost = [5])
    ∧ (let s := leasing lreq 4 fun c => { c with egress := [base, pendLane] }
       farChip s 1 1 = some 5 ∧ s.chip.lost = [] ∧ jobBusy s 1 = true)
    ∧ (let s := leasing lreq 0 id
       jobBusy s 1 = false ∧ min lreq.count (quotaRoom s 1 + heldBy s 1 0 1) < lreq.min)
    ∧ (let s := leasing { lreq with count := 1 } 4 fun c => { c with egress := [base, { pendLane with st := .leased }] }
       jobBusy s 1 = false ∧ lreq.min ≤ min 1 (quotaRoom s 1 + heldBy s 1 0 1) ∧ min 1 (quotaRoom s 1 + heldBy s 1 0 1) ≤ heldBy s 1 0 1)
    ∧ (let s := leasing lreq 1 id
       jobBusy s 1 = false ∧ lreq.min ≤ min lreq.count (quotaRoom s 1 + heldBy s 1 0 1)
       ∧ heldBy s 1 0 1 < min lreq.count (quotaRoom s 1 + heldBy s 1 0 1)
       ∧ lreq.min - heldBy s 1 0 1 ≤ ((darkLanes s).take 1).length ∧ (darkLanes s).take 1 ≠ []) := by
  repeat' first | refine And.intro ?_ ?_ | decide +kernel | rfl
/-- No laser is dark: too few are held, or enough. -/
theorem meets_LeasesAreAgreed_pool :
    (let s := leasing lreq 4 fun c => { c with egress := { base with k := 8 } :: others }
     darkLanes s = [] ∧ jobBusy s 1 = false ∧ heldBy s 1 0 1 = 0 ∧ lreq.min ≤ min lreq.count (quotaRoom s 1 + 0))
    ∧ (let s := leasing lreq 4 fun c => { c with egress := { pendLane with st := .leased } :: others }
       darkLanes s = [] ∧ jobBusy s 1 = false ∧ lreq.min ≤ heldBy s 1 0 1
       ∧ heldBy s 1 0 1 < min lreq.count (quotaRoom s 1 + heldBy s 1 0 1)) :=
  ⟨⟨none_dark rfl rfl (by decide), by decide +kernel⟩, none_dark (l := { pendLane with st := .leased }) rfl rfl (by decide),
   by decide +kernel⟩
/-- A replacement asks for one lane more than are held. -/
theorem meets_LeasesAreAgreed_repair : let q : LeaseReq := { lreq with count := 1, repair := true }
    let s := leasing q 4 fun c => { c with egress := [base, { pendLane with st := .leased }] }
    farChip s 1 1 = some 5 ∧ heldBy s 1 0 1 = 1 ∧ min (1 + 1) (quotaRoom s 1 + 1) = 2 ∧ jobBusy s 1 = false ∧ s.chip.lost = [] := by
  repeat' first | refine And.intro ?_ ?_ | decide +kernel | rfl
theorem meets_LeasesAreAgreed_answers :
    (freeWave w0 255 = some 0
      ∧ (let s := withChip fun c => { c with ingress := (List.range 8).map fun w => { k := w, peer := 6, wave := w, st := .leased } }
         freeWave s 0 = none)
      ∧ laneState 2 ≠ .dark)
    ∧ (let s := leasing { lreq with count := 1 } 4 fun c => { c with egress := [pendLane] }
       lreq.job ≠ 0 ∧ lreq.rank < 16384 ∧ lreq.peer ≠ 16384 ∧ guarded s 1 0 1 = false ∧ s.chip.leaseQ = [{ lreq with count := 1 }]
       ∧ lreq.got = [] ∧ (s.chip.egress.any fun l => l.k == 8 && l.pendingFor 1 0 1) = true
       ∧ leaseTarget s { lreq with count := 1 } = 1 ∧ heldBy s 1 0 1 = 0
       ∧ clearWave (litWaves s ++ aptWaves s fun _ _ _ => true) (8, 10) = true)
    ∧ (let s := leasing lreq 0 fun c => { c with egress := [pendLane] }
       min lreq.count (quotaRoom s 1 + heldBy s 1 0 1) < lreq.min ∧ clearWave (litWaves s ++ aptWaves s fun _ _ _ => true) (8, 10) = true
       ∧ (s.chip.egress.filter fun l => l.pendingFor 1 0 1 && l.k != 8) = [])
    ∧ (let s := leasing lreq 4 fun c => { c with egress := [pendLane] }
       leaseTarget s lreq = 2 ∧ heldBy s 1 0 1 = 0 ∧ ((darkLanes (releasePending 1 0 1 [8] s)).filter fun k => !lreq.tried.contains k).take 1 ≠ []
       ∧ clearWave (litWaves s ++ aptWaves s fun _ _ _ => true) (8, 10) = true) := by
  repeat' first | refine And.intro ?_ ?_ | decide +kernel | rfl
/-- The pair that came is all there is, and too few. -/
theorem meets_LeasesAreAgreed_short : let q : LeaseReq := { lreq with min := 2 }
    let s := leasing q 4 fun c => { c with egress := pendLane :: others }
    darkLanes (releasePending 1 0 1 [8] s) = [] ∧ s.chip.leaseQ = [q] ∧ heldBy s 1 0 1 = 0 ∧ leaseTarget s q = 2
    ∧ clearWave (litWaves s ++ aptWaves s fun _ _ _ => true) (8, 10) = true :=
  ⟨none_dark (l := pendLane) (by decide +kernel) rfl (by decide), rfl, by decide +kernel, by decide +kernel, by decide +kernel⟩
/-- An attempt that the quota blocks, as it already did, changes nothing. -/
theorem attempt_same {s : State} {q : LeaseReq} {c : Nat} (hf : farChip s q.job q.peer = some c) (hl : c ∉ s.chip.lost)
    (hp : jobBusy s q.job = false) (ht : leaseTarget s q < leastOf s q) (hm : markBlock q 1 s = s) : attempt s q = s := by
  simp [attempt, hf, hl, hp, ht, hm]
theorem meets_LeasesAreAgreed_times :
    (let g : Guard := ⟨[8], 1, 0, 1, 7, none⟩
     let s : State := { w0 with chip := { w0.chip with guards := [g], ticks := 7 } }
     guardOver s = some g ∧ g.req = none ∧ s.chip.resend = [] ∧ s.jobs = [j0] ∧ j0.bound = none ∧ j0.apt.next = none)
    ∧ (guardOver w0 = none ∧ overdue w0 = none)
    ∧ (let q : LeaseReq := { lreq with block := 3 }
       overdue (leasing q 4 fun c => { c with ticks := 240000 }) = some q ∧ q.forced = false
       ∧ overdue (leasing q 4 fun c => { c with ticks := 239999 }) = none)
    ∧ (let n : Notice := ⟨1, 0, 1, [8], 5, 1⟩
       let s := withChip fun c => { c with notices := [n], ticks := 5 }
       noticeOver s = some n)
    ∧ (w0.job? 1 = some j0 ∧ j0.pid = 0 ∧ j0.status = .running) := by
  repeat' first | refine And.intro ?_ ?_ | decide +kernel | rfl
theorem meets_LeasesAreAgreed_forced :
    (let s := leasing lreq 0 fun c => { c with ticks := 240000 }
     overdue s = some lreq ∧ attempt s lreq = s)
    ∧ (let s := leasing { lreq with forced := true } 0 fun c => { c with ticks := 252000 }
       overdue s = some { lreq with forced := true } ∧ attempt s { lreq with forced := true } = s) :=
  ⟨⟨by decide +kernel, attempt_same rfl (fun h => nomatch h) rfl (by decide +kernel) rfl⟩,
   by decide +kernel, attempt_same rfl (fun h => nomatch h) rfl (by decide +kernel) rfl⟩

theorem meets_LanesRetryAndRepair :
    (let s := withChip fun c => { c with ingress := [pendLane], egress := [{ pendLane with st := .leased, unacked := [⟨5, 1, 3⟩, ⟨5, 2, 4⟩] }] }
     s.chip.ingress.find? (·.k == 8) = some pendLane ∧ laneAt s 8 = some { pendLane with st := .leased, unacked := [⟨5, 1, 3⟩, ⟨5, 2, 4⟩] })
    ∧ (let l : Lane := { pendLane with st := .leased, err := 16, unacked := [⟨5, 1, 3⟩] }
       let s := withChip fun c => { c with egress := [l, { pendLane with k := 2, st := .leased }] }
       laneAt s 8 = some l ∧ inUse l = true ∧ 16 ≤ l.err
       ∧ (let u : State := { s with chip := { s.chip with
            egress := s.chip.egress.map fun x => if x.k = 8 then { x with st := .repair, was := l.st } else x } }
          (laneSet u l.job l.holder l.peer).head? = some 2) ∧ (laneAt s 2).isSome = true)
    ∧ (let l : Lane := { pendLane with st := .leased, err := 16, unacked := [⟨5, 1, 3⟩] }
       let s := withChip fun c => { c with egress := [l] }
       laneAt s 8 = some l
       ∧ (let u : State := { s with chip := { s.chip with
            egress := s.chip.egress.map fun x => if x.k = 8 then { x with st := .repair, was := l.st } else x } }
          laneSet u l.job l.holder l.peer ++ (u.chip.egress.filter fun x => x.st == .baseline && x.peer == l.peer).map (·.k) = []))
    ∧ (let l (was : LaneSt) : Lane := { pendLane with st := .repair, was := was }
       laneAt (withChip fun c => { c with egress := [l .notice] }) 8 = some (l .notice) ∧ (l .notice).unacked = []
       ∧ laneAt (withChip fun c => { c with egress := [l .baseline] }) 8 = some (l .baseline)
       ∧ (let s := withChip fun c => { c with egress := [l .leased], leases := [⟨1, 0, 1, 0, 1, 0, 0, 0⟩] }
          laneAt s 8 = some (l .leased) ∧ leaseOf s 1 0 1 = some ⟨1, 0, 1, 0, 1, 0, 0, 0⟩)) := by
  repeat' first | refine And.intro ?_ ?_ | decide +kernel | rfl

/-! ## Hypotheses met: tiers, errors, dies -/

/-- HBM4E's map in one region, the identity; a page's leaf in HBM4E at 0x40000, and a request for it. -/
def idMap : BitVec 2304 := BitVec.ofNat 2304 ((List.range 33).foldl (fun n i => n + 2 ^ (192 + 65 * i)) (33 * 2 ^ 33 + 2 ^ 39))
def mapped (f : Chip → Chip) (s : State) : State := { s with chip := f { s.chip with regions := s.chip.regions.setIfInBounds 0 idMap } }
def inHbm (f : Chip → Chip) : State := (mapped f (paged 0 w0)).pokeWord leafAt (BitVec.ofNat 64 (0x40000 + 0xF))
def inLpd (f : Chip → Chip) : State := mapped f (paged 0 w0)
def wantMove (tier comp : Nat) : Move := { asid := 0, va := 0, size := 2 ^ 16, tier := tier, comp := comp }
/-- The page is found, in the tier, with p of its address. -/
def pageIs (s : State) (tier pa : Nat) : Bool :=
  match pageAt s 0 0 with
  | some p => fld p.leaf.e 5 2 == tier && p.pa == pa && p.size == 2 ^ 16
  | none => false
def withQuota (h l : Nat) (s : State) : State := { s with jobs := [{ j0 with hbmq := h, lpq := l }] }
theorem meets_PagesMoveBetweenTiers_requests :
    (w0.chip.svc ≠ 1 ∧ (let s := withChip fun c => { c with svc := 1, moves := [wantMove 0 0] }
        s.chip.svc = 1 ∧ (wantMove 0 0).tier = 0 ∧ s.chip.moves = [wantMove 0 0] ∧ s.jobs = [j0]))
    ∧ ((wantMove 1 0).busy = false ∧ (wantMove 1 0).evac = false ∧ w0.jobs = [j0] ∧ j0.hbmu ≤ j0.hbmq ∧ pageAt w0 0 0 = none)
    ∧ (pageIs (inLpd id) 1 pagePa = true)
    ∧ (let s := inHbm fun c => { c with frames := [{ pa := 0x40000, pins := 1 }] }
       pageIs s 0 0x40000 = true ∧ pinnedRange s 0x40000 (2 ^ 16) = true)
    ∧ (let s := inHbm fun c => { c with frames := [{ pa := 0x40000, back := some pagePa }] }
       pageIs s 0 0x40000 = true ∧ pinnedRange s 0x40000 (2 ^ 16) = false ∧ backingOf s 0x40000 (2 ^ 16) = some pagePa)
    ∧ (let s := withQuota 0 1 (inHbm id)
       spaceJob s 0 = 0 ∧ pageIs s 0 0x40000 = true ∧ backingOf s 0x40000 (2 ^ 16) = none ∧ (findRun s 1 (2 ^ 16)).isSome = true)
    ∧ (let s := (withQuota 1 1 (inHbm id)).pokeWord (0x20000001000 + 8) (BitVec.ofNat 64 (2 ^ 12))
       spaceJob s 0 = 1 ∧ pageIs s 0 0x40000 = true ∧ ((s.job? 1).map fun x => decide (x.lpu + 1 ≤ x.lpq)) = some true)
    ∧ (let s := (withQuota 1 1 (inLpd id)).pokeWord (0x20000001000 + 8) (BitVec.ofNat 64 (2 ^ 12))
       spaceJob s 0 = 1 ∧ pageIs s 1 pagePa = true ∧ ((s.job? 1).map fun x => decide (x.hbmu + 1 ≤ x.hbmq)) = some true
       ∧ (findRun s 0 (2 ^ 16)).isSome = true)
    ∧ (let s := (withQuota 0 0 (inLpd id)).pokeWord (0x20000001000 + 8) (BitVec.ofNat 64 (2 ^ 12))
       ((s.job? 1).map fun x => decide (x.hbmq < x.hbmu + 1)) = some true ∧ pageIs s 1 pagePa = true) := by
  repeat' first | refine And.intro ?_ ?_ | decide +kernel | rfl

/-- A page gone: what the walk faults with, and none once it has none; a page that no quota has room for, to be demoted or promoted. -/
theorem meets_PagesMoveBetweenTiers_waits :
    (pageAt (inLpd id) 0 (2 ^ 16) = none ∧ moveFault (inLpd id) { wantMove 0 0 with va := 2 ^ 16 } = some .xlMiss
      ∧ (engineFault (inLpd id) 3 0 (2 ^ 16) .xlMiss).isSome = true)
    ∧ (let s := (withQuota 1 0 (inHbm id)).pokeWord (0x20000001000 + 8) (BitVec.ofNat 64 (2 ^ 12))
       spaceJob s 0 = 1 ∧ pageIs s 0 0x40000 = true ∧ pinnedRange s 0x40000 (2 ^ 16) = false
       ∧ ((pageAt s 0 0).map fun p => bitOf p.leaf.e 13) = some false ∧ backingOf s 0x40000 (2 ^ 16) = none
       ∧ ((s.job? 1).map fun x => decide (x.lpq < x.lpu + 1)) = some true)
    ∧ (wantMove 1 0).locked = false ∧ { wantMove 1 0 with locked := true }.locked = true := by
  repeat' first | refine And.intro ?_ ?_ | decide +kernel | rfl

/-- A demotion in progress, with its first line flipped; and its end. -/
def moving (n : Nat) : Move :=
  { wantMove 1 0 with src := 0x40000, dst := pagePa, next := n, busy := true }
theorem meets_PagesMoveBetweenTiers_lines :
    (let s := inHbm fun c => { c with moves := [moving 64], frames := [{ pa := 0x40000, back := some pagePa }] }
     flipping s = some (moving 64) ∧ flipped s = none ∧ cleanChunk s (moving 64) = true ∧ s.poison.Nodup)
    ∧ cleanChunk (inHbm fun c => { c with moves := [moving 64] }) (moving 64) = false
    ∧ (let s := inHbm fun c => { c with moves := [moving (2 ^ 16)] }
       flipped s = some (moving (2 ^ 16)) ∧ flipping s = none ∧ tierOf (moving (2 ^ 16)).dst = 1 ∧ pageIs s 0 0x40000 = true)
    ∧ (let s := inHbm fun c => { c with moves := [{ moving (2 ^ 16) with src := pagePa, dst := 0x40000 }] }
       (flipped s).isSome = true ∧ tierOf pagePa = 1 ∧ tierOf 0x40000 = 0)
    ∧ (let s := inHbm fun c => { c with frames := [{ pa := 0x40000, job := 1, alloc := true }] }
       frameOf s 0x40008 = some { pa := 0x40000, job := 1, alloc := true }) := by
  repeat' first | refine And.intro ?_ ?_ | decide +kernel | rfl

theorem meets_ErrorsAndMappedOutDies :
    (physOk 0x40000 = true ∧ physOk 0x8000000000 = false ∧ tierOf pagePa = 1 ∧ tierOf 0x40000 = 0
      ∧ (hbmLoc (mapped id w0) 0x40000).isSome = true)
    ∧ ((let s := withJob fun j => { j with act := [(actIndex .sramUe, 2)] }
        s.core.job ≠ 0 ∧ (s.job? s.core.job).map (·.rolling) = some false ∧ actOf (actByte s s.core.job .sramUe) = .park)
      ∧ State.reset.core.job = 0 ∧ localRanks w0 1 = [0])
    ∧ (let s := withChip fun c => { c with ueRows := [(0, 0, 0, 0), (0, 0, 1, 0), (0, 0, 2, 0), (0, 0, 3, 0)] }
       busyDie s 0 = none ∧ dieOut s 0 0 = false ∧ dieBad s 0 0 = true ∧ dieBad s 1 0 = false)
    ∧ (let s := withChip fun c => { c with mapBusy := c.mapBusy.setIfInBounds 0 (some 3) }
       busyDie s 0 = some 3 ∧ dieOut s 0 3 = false ∧ (∀ f ∈ s.chip.frames, dieFrame s 0 3 f = false) ∧ busyDie s 1 ≠ some 3)
    ∧ (let s := withChip fun c => { c with mapBusy := c.mapBusy.setIfInBounds 0 (some 3), outD := c.outD.setIfInBounds 0 8 }
       busyDie s 0 = some 3 ∧ dieOut s 0 3 = true ∧ s.chip.regions.toList = List.replicate 8 0)
    ∧ regMeets 0 0 3 = false := by
  repeat' first | refine And.intro ?_ ?_ | decide +kernel | rfl

/-! ## Hypotheses met: bring-up, power, the limit -/

theorem meets_BringUpGivesService :
    ((withChip fun c => { c with recovery := true }).chip.recovery = true ∧ w0.chip.recovery = false)
    ∧ (let s := withChip fun c => { c with fw := some ⟨7, 1, true⟩, svc := 0 }
       s.chip.fw ≠ none ∧ s.chip.recovery = false ∧ s.chip.svc = 0)
    ∧ (let s := withChip fun c => { c with svc := 1, hbmUp := true }
       s.chip.svc = 1 ∧ s.chip.hbmUp = true ∧ ranksSaved s = false)
    ∧ (let s := withChip fun c => { c with svc := 1 }
       s.chip.svc = 1 ∧ s.chip.hbmUp = false)
    ∧ (({ withChip fun c => { c with svc := 1, hbmUp := true } with ranks := [] } : State).ranks = [])
    ∧ (withChip fun c => { c with pwr := .off }).chip.pwr = .off ∧ w0.chip.pwr ≠ .off := by
  repeat' first | refine And.intro ?_ ?_ | decide +kernel | rfl

theorem meets_PowerFollowsItsTarget :
    (w0.chip.pwrTo = none ∧ w0.chip.pwr = .full ∧ w0.chip.loupe ≠ .halt ∧ w0.ranks = [k0] ∧ k0.cold = false ∧ w0.core.job = k0.job
      ∧ w0.core.rank = k0.rank ∧ w0.core.coreId.toNat < 128 ∧ w0.core.stopReq = none ∧ w0.jobs = [j0] ∧ j0.status = .running)
    ∧ (let s := withChip fun c => { c with pwr := .reduced }
       s.chip.pwrTo = none ∧ s.chip.pwr = .reduced ∧ s.chip.throt = false)
    ∧ (let s := withChip fun c => { c with pwr := .reduced, throt := true }
       s.chip.pwrTo = none ∧ s.chip.pwr = .reduced ∧ s.chip.throt = true)
    ∧ (let s := withChip fun c => { c with pwr := .idle, throt := true }
       s.chip.pwrTo = none ∧ s.chip.pwr = .idle ∧ s.chip.throt = true)
    ∧ (withChip fun c => { c with loupe := .halt }).chip.loupe = .halt
    ∧ (let s := withChip fun c => { c with pwrTo := some .reduced, pwrAt := 2560, ticks := 2560 }
       s.chip.pwrTo = some .reduced ∧ s.chip.pwr = .full ∧ s.chip.pwrAt ≤ s.now)
    ∧ (∀ p ∈ [PwrSt.full, .reduced, .idle, .retain], let s : State := { withChip fun c => { c with pwrTo := some p } with ranks := [] }
       s.ranks = [] ∧ s.chip.targetNext = none ∧ s.chip.loupe ≠ .halt ∧ s.chip.pwrTo = some p ∧ s.chip.pwrAt ≤ s.now)
    ∧ (let s := withChip fun c => { c with pwrTo := some .idle }
       s.chip.pwrTo = some .idle ∧ ranksSaved s = false)
    ∧ (let s := withChip fun c => { c with pwr := .retain }
       s.chip.pwr = .retain ∧ s.chip.pwrTo = none)
    ∧ (withChip fun c => { c with recovery := true }).chip.recovery = true ∧ w0.chip.recovery = false
    ∧ (withChip fun c => { c with pwrTo := some .retain }).chip.pwrTo = some .retain := by
  repeat' first | refine And.intro ?_ ?_ | decide +kernel | rfl

theorem meets_TheLimitThrottles :
    (w0.chip.thr = true ∧ w0.chip.limit < 2401 ∧ w0.chip.throt = false ∧ w0.chip.pwr = .full ∧ w0.chip.pwrTo = none)
    ∧ (let s := withChip fun c => { c with throt := true, pwr := .reduced, overAt := some 0, ticks := 1200000 }
       s.chip.limit < 2401 ∧ s.chip.thr = true ∧ s.chip.overAt = some 0 ∧ 0 + 1200000 ≤ s.now ∧ s.chip.gate < 15)
    ∧ (let s := withChip fun c => { c with throt := true, pwr := .reduced, overAt := some 0, ticks := 1200000, gate := 15 }
       s.chip.gate = 15 ∧ s.chip.lmiss = false)
    ∧ (let s := withChip fun c => { c with throt := true, pwr := .reduced, overAt := some 0, ticks := 1199999 }
       s.now < 0 + 1200000)
    ∧ (let s := withChip fun c => { c with underAt := some 0, ticks := 12000000, gate := 1 }
       10 * 2160 ≤ 9 * s.chip.limit ∧ s.chip.underAt = some 0 ∧ 0 + 12000000 ≤ s.now ∧ 0 < s.chip.gate ∧ 9 * s.chip.limit < 10 * 2161)
    ∧ (let s := withChip fun c => { c with underAt := some 0, ticks := 12000000, throt := true, pwr := .reduced, tj := 104 }
       s.chip.gate = 0 ∧ s.chip.throt = true ∧ s.chip.target = 0 ∧ s.chip.tj < 105 ∧ s.chip.pwr = .reduced ∧ s.chip.pwrTo = none)
    ∧ ({ w0 with jobs := [] } : State).jobs = [] ∧ w0.chip.pwr ≠ .off := by
  repeat' first | refine And.intro ?_ ?_ | decide +kernel | rfl

/-! ## Hypotheses met: security, host accesses, the Loupe -/

/-- Interface n of a chip out of manufacturing stands in a state. -/
def iface (n : Nat) (t : Tdi) (f : Chip → Chip) : State :=
  withChip fun c => f { c with secState := .development, tdi := c.tdi.setIfInBounds n t }
theorem meets_InterfacesFollowTheirTable :
    (let s := withChip fun c => { c with attKey := true, attIdx := 2 ^ 20 - 1 }
     s.chip.attKey = true ∧ s.chip.attIdx < 2 ^ 20)
    ∧ (let s := withChip fun c => { c with attKey := true, attIdx := 2 ^ 20 }
       s.chip.attKey = true ∧ 2 ^ 20 ≤ s.chip.attIdx)
    ∧ (w0.chip.secState = .manufacturing ∧ (15 : Nat) < 16)
    ∧ (let s := iface 15 {} id
       (tdiAt s 15).st = .unlocked ∧ s.chip.secState ≠ .manufacturing ∧ s.chip.loupe ≠ .halt ∧ ∀ m ∈ s.chip.mapped, qTenant s m.q ≠ 15)
    ∧ (let s := iface 0 {} fun c => { c with mapped := [⟨0, 0, 0, false, false⟩] }
       (tdiAt s 0).st = .unlocked ∧ ∃ m ∈ s.chip.mapped, qTenant s m.q = 0)
    ∧ (let s := iface 3 { st := .locked } id
       (tdiAt s 3).st = .locked ∧ (tdiAt s 3).st ≠ .unlocked ∧ tdiHeld s 3 = true)
    ∧ ((tdiAt w0 3).st ≠ .locked ∧ tdiHeld w0 3 = false)
    ∧ (let s := iface 0 { st := .run } id
       tdiHeld s 0 = true ∧ s.jobs = [j0] ∧ j0.tenant = 0 ∧ j0.status = .running)
    ∧ (withChip fun c => { c with recovery := true }).chip.recovery = true ∧ w0.chip.recovery = false := by
  repeat' first | refine And.intro ?_ ?_ | decide +kernel | rfl

/-- Interface 0 runs, a page of its job at 0x40000; and a window at 0 or at LPDDR-6's start. -/
def window (base : Word) : State := iface 0 { st := .run } fun c =>
  { c with frames := [{ pa := 0x40000, job := 1, alloc := true }], winBase := base, qdBase := 0x20000008000, asBase := 0x20000100000 }
def auth : DebugAuth := ⟨7, 0, true, 9, true⟩
/-- A descriptor that holds a queue, in the window, of an interface that no one holds. -/
def qdWindow : State := { queued 0 0 w0 with chip := { (queued 0 0 w0).chip with winBase := 0x20000000000 } }
theorem meets_TheHostAndTheLoupe_queue : (0 : Nat) < 4096 ∧ (17 : Nat) < 24 ∧ qdAt qdWindow 0 + 17 - 0x20000000000 + 1 ≤ 2 ^ 36
    ∧ qdWindow.chip.winBase.toNat + (qdAt qdWindow 0 + 17 - 0x20000000000) = qdAt qdWindow 0 + 17
    ∧ shutOut qdWindow (qdAt qdWindow 0 + 17) 1 none = [] ∧ frozenBy qdWindow (qdAt qdWindow 0 + 17) 1 = []
    ∧ bitOf (qdWord qdWindow 0 0) 56 = true := by
  repeat' first | refine And.intro ?_ ?_ | decide +kernel | rfl
theorem meets_TheHostAndTheLoupe :
    (0 < 64 ∧ 0x40000 + 64 ≤ 2 ^ 36 ∧ shutOut (window 0) 0x40000 64 none = [0]
      ∧ shutOut (window 0) 0x80000 64 none = [] ∧ frozenBy (window 0) 0x80000 64 = [] ∧ 0x80000 % 64 + 64 ≤ 64 ∧ physOk 0x80000 = true
      ∧ touched (window 0).chip.qdBase.toNat 64 4096 0x80000 64 = [] ∧ roWords (window 0) 0x80000 64 = []
      ∧ (∀ i < 64, physOk (0x80000 + i) = true → tierHome (window 0) (0x80000 + i) / 64 ∉ (window 0).poison)
      ∧ poisonAt (window 0) true ⟨tierHome (window 0) 0x80000, 64, 0, 0, 0x80000⟩ = none
      ∧ noKey (window 0) (tierHome (window 0) 0x80000) = false)
    ∧ ((window 0x8000000000).chip.winBase.toNat + 0 = 0x8000000000 ∧ shutOut (window 0x8000000000) 0x8000000000 8 none = []
      ∧ frozenBy (window 0x8000000000) 0x8000000000 8 = [] ∧ roWords (window 0x8000000000) 0x8000000000 8 = [] ∧ physOk 0x8000000000 = false)
    ∧ (shutOut (window 0x20000000000) 0x20000008000 8 none = [] ∧ frozenBy (window 0x20000000000) 0x20000008000 8 = [0]
      ∧ tdiHeld (window 0x20000000000) 0 = true)
    ∧ (let s := withChip fun c => { c with secState := .production, nonce := some 7, ownerKey := some 9 }
       s.chip.secState = .production ∧ auth.sigOk = true ∧ auth.toHalt = true ∧ auth.device = s.chip.id ∧ s.chip.nonce = some auth.nonce
       ∧ s.chip.ownerKey = some auth.keyHash ∧ s.chip.pwr ≠ .retain ∧ s.chip.pwrTo ≠ some .retain)
    ∧ (withChip fun c => { c with recovery := true }).chip.recovery = true ∧ w0.chip.recovery = false
    ∧ (w0.chip.secState ≠ .production ∧ w0.chip.loupe ≠ .halt ∧ (withChip fun c => { c with pwr := .retain }).chip.pwr = .retain) := by
  repeat' first | refine And.intro ?_ ?_ | decide +kernel | rfl

/-! ## Hypotheses met: operations, management registers -/

/-- Operation n runs with its arguments. -/
def opRun (n : Nat) (a b : Word) (s : State) : State :=
  { s with chip := { s.chip with opBusy := true, opCmd := some n, opArg0 := a, opArg1 := b } }
theorem on_op (n : Nat) (a b : Word) (s : State) : opOn (opRun n a b s) n = true := by simp [opOn, opRun]
/-- Words in memory at 0x20000001000. -/
def words (l : List Word) (s : State) : State :=
  (l.zipIdx.foldl (fun s p => s.pokeWord (0x20000001000 + 8 * p.2) p.1) s)
def wordAt (s : State) (i : Nat) : Nat := (s.word (0x20000001000 + 8 * i)).toNat
theorem meets_OperationsOfSystemSoftware_pages :
    (let s := opRun 1 0x10001 0 (withQuota 0 1 w0)
     opOn s 1 = true ∧ (0x10001 : Word).toNat < 2 ^ 22 ∧ ((s.job? 1).map fun x => decide (x.lpq < x.lpu + 1)) = some false
     ∧ (findRun s 1 (1 * 2 ^ 16)).isSome = true)
    ∧ ((w0.job? 1).map fun x => decide (x.lpq < x.lpu + 1)) = some true
    ∧ (let s := opRun 2 0x10000 0 (paged 0 w0)
       opOn s 2 = true ∧ (0x10000 : Word).toNat < 2 ^ 21 ∧ (0 : Word).toNat < 2 ^ 52 ∧ pageIs s 1 pagePa = true
       ∧ (∀ m ∈ s.chip.moves, ¬ (m.asid.toNat = 0 ∧ m.va = 0))
       ∧ (match pageAt s 0 0 with | some p => fld p.leaf.e 7 3 | none => 9) = 0 ∧ (0, 0) ≠ (1, 0))
    ∧ (opOn (opRun 3 0x10000 0 w0) 3 = true ∧ (0x10000 : Word).toNat < 2 ^ 32)
    ∧ (opOn (opRun 4 0 0 w0) 4 = true ∧ (0 : Word).toNat < 2 ^ 16) := by
  repeat' first | refine And.intro ?_ ?_ | decide +kernel | rfl
theorem meets_OperationsOfSystemSoftware_records :
    (let s := opRun 5 1 0x20000001000 (words [4, 5, 4 + 2 ^ 16, 0, 0, 0, 0, 0] w0)
     opOn s 5 = true ∧ (1 : Word).toNat < 2 ^ 16 ∧ wordAt s 2 < 2 ^ 40 ∧ wordAt s 4 = 0 ∧ wordAt s 5 = 0 ∧ wordAt s 6 = 0 ∧ wordAt s 7 = 0
     ∧ wordAt s 2 % 2 ^ 8 ≤ 128 ∧ wordAt s 2 / 2 ^ 16 % 2 ^ 12 ≤ 2047 ∧ quotaOver s 1 4 5 = false ∧ s.chip.egress = []
     ∧ s.job? 1 = some j0 ∧ tdiHeld s j0.tenant = false)
    ∧ quotaOver w0 1 (2 ^ 31) 0 = true
    ∧ (let s := opRun 5 1 0x20000001000 (iface 0 { st := .run } id)
       s.job? 1 = some j0 ∧ j0.status ≠ .free ∧ j0.tenant < 16 ∧ tdiHeld s j0.tenant = true)
    ∧ (mapRefusal w0 0 idMap = none ∧ mapRefusal w0 0 1 = some .mapSingular) := by
  repeat' first | refine And.intro ?_ ?_ | decide +kernel | rfl
theorem meets_OperationsOfSystemSoftware_ranks :
    (let a : Word := BitVec.ofNat 64 (1 + 2 ^ 16 * 0x205 + 2 ^ 32)
     opOn (opRun 7 a 0 w0) 7 = true ∧ a.toNat < 2 ^ 40 ∧ a.toNat / 2 ^ 16 % 2 ^ 16 = 0x205 ∧ replayCode 0x205 = true ∧ replayCode 0x101 = false)
    ∧ (w0.rank? 1 0 = some k0 ∧ w0.rank? 1 1 = none ∧ (resumeRankAt 1 0 w0).isSome = true)
    ∧ (let s : State := { w0 with core := { c0 with job := 2 }, ranks := [{ k0 with saved := [c0], parked := true }] }
       (resumeRankAt 1 0 s).isNone = true)
    ∧ (let s := opRun 9 0 0x20000001000 (words [BitVec.ofNat 64 (1 + 2 ^ 32 * 5), 1, 0] w0)
       opOn s 9 = true ∧ wordAt s 0 % 8 = 1 ∧ wordAt s 0 / 2 ^ 3 % 2 ^ 13 = 0 ∧ wordAt s 0 / 2 ^ 16 % 2 ^ 14 = 0 ∧ wordAt s 0 / 2 ^ 30 % 4 = 0
       ∧ wordAt s 0 < 2 ^ 49 ∧ wordAt s 1 % 2 ^ 16 = 1 ∧ wordAt s 1 < 2 ^ 16 ∧ wordAt s 2 = 0 ∧ s.job? 1 = some j0
       ∧ (placeOf s 1 0).state = .active ∧ 0 < j0.v ∧ originOk j0.width 0 0 = true ∧ (placeOf s 1 0).chip = s.chip.id ∧ s.job? 9 = none)
    ∧ (let s := withChip fun c => { c with fw := some ⟨7, 3, true⟩ }
       s.chip.fw = some ⟨7, 3, true⟩) := by
  repeat' first | refine And.intro ?_ ?_ | decide +kernel | rfl
theorem meets_OperationsOfSystemSoftware_tables :
    (let s := opRun 11 0 0x20000001000 w0
     opOn s 11 = true ∧ 8 ≤ (((s.bytes 0x20000001000 64).map fun x => x.setWidth 5).filter fun x : BitVec 5 => !x.getLsbD 4).length)
    ∧ (let s := opRun 11 0 0x20000001000 (words (List.replicate 8 (BitVec.ofNat 64 0x1010101010101010)) w0)
       (((s.bytes 0x20000001000 64).map fun x => x.setWidth 5).filter fun x : BitVec 5 => !x.getLsbD 4).length < 8)
    ∧ (opOn (opRun 12 0x30001 0 w0) 12 = true ∧ 2 ^ 16 ≤ (0x30001 : Word).toNat ∧ (0x30001 : Word).toNat < 2 ^ 32)
    ∧ (opOn (opRun 13 0x10 0 w0) 13 = true ∧ (0x10 : Word).toNat < 2 ^ 8 ∧ (0x10 : Word).toNat / 8 % 2 = 0
      ∧ busyDie w0 0 = none ∧ dieOut w0 0 1 = false)
    ∧ (opOn (opRun 14 3 0x20000001000 w0) 14 = true ∧ (3 : Word).toNat < 16)
    ∧ (let s := withChip fun c => { c with opBusy := true, opCmd := none, opWait := none }
       s.chip.opBusy = true ∧ s.chip.opCmd = none ∧ s.chip.opWait = none ∧ s.chip.opPorts = false)
    ∧ (let s := withChip fun c => { c with opPorts := true, portsNext := some c.ports }
       s.chip.opPorts = true ∧ s.chip.portsNext ≠ none)
    ∧ (w0.chip.recovery = false ∧ w0.chip.pwr ≠ .off ∧ w0.chip.opBusy = false) := by
  repeat' first | refine And.intro ?_ ?_ | decide +kernel | rfl
/-- A record elsewhere, and one in a page of a running interface's job; a DEMOTE of a rank that chip 5 holds. -/
theorem meets_OperationsOfSystemSoftware_hidden :
    (∀ n ∈ [24, 64, 192, 288], hidden w0 0x20000001000 n = false)
    ∧ hidden (window 0) 0x40000 64 = true
    ∧ (let s := opRun 9 0 0x20000001000 (words [BitVec.ofNat 64 (2 + 2 ^ 16), 1, 0] w0)
       opOn s 9 = true ∧ hidden s 0x20000001000 24 = false ∧ s.job? 1 = some j0 ∧ (1 : Nat) < j0.v ∧ (placeOf s 1 1).state = .active
       ∧ (placeOf s 1 1).chip = 5 ∧ (5 : Nat) ≠ s.chip.id)
    ∧ (w0.job? 1 = some j0 ∧ j0.status = .running)
    ∧ (let s := { w0 with jobs := [] }
       s.job? 1 = none) := by
  repeat' first | refine And.intro ?_ ?_ | decide +kernel | rfl
theorem meets_ManagementRegisterWrites_frozen :
    (let s := (paged 0 w0).pokeWord (0x20000001000 + 8) (BitVec.ofNat 64 (2 ^ 12))
     opTenant 4 0 s = some 0 ∧ opTenant 5 1 s = some 0 ∧ tdiHeld s 0 = false)
    ∧ (let s := (words [4, 5, 4 + 2 ^ 16, 0, 0, 0, 0, 0] (window 0)).pokeWord (0x20000100000 + 8) (BitVec.ofNat 64 (2 ^ 12))
       opTenant 4 0 s = some 0 ∧ opTenant 5 1 s = some 0 ∧ tdiHeld s 0 = true
       ∧ okAnd (doAsAdvance 0 0 s) (fun _ => true) = true ∧ okAnd (doQuotaSet 1 0x20000001000 s) (fun _ => true) = true) := by
  repeat' first | refine And.intro ?_ ?_ | decide +kernel | rfl
theorem meets_ManagementRegisterWrites :
    (w0.chip.recovery = false ∧ w0.chip.pwr ≠ .off ∧ w0.chip.opBusy = false)
    ∧ (withChip fun c => { c with opBusy := true }).chip.opBusy = true
    ∧ ((0x0C : Word).toNat < 16 ∧ (0x0C : Word).toNat % 8 ≤ 4 ∧ 4 < (0x0D : Word).toNat % 8 ∧ 16 ≤ (0x10 : Word).toNat)
    ∧ (600 ≤ (600 : Word).toNat ∧ (2400 : Word).toNat ≤ 2400 ∧ (599 : Word).toNat < 600 ∧ 2400 < (2401 : Word).toNat)
    ∧ (1 ≤ (14 : Word).toNat ∧ (14 : Word).toNat ≤ 14 ∧ 14 < (15 : Word).toNat) := by
  repeat' first | refine And.intro ?_ ?_ | decide +kernel | rfl

/-! ## Hypotheses met: encodings, the step -/

theorem meets_ScalarWordsRoundTrip :
    ((Instr.mfsr false 47 0x23).wf = true ∧ encode (.mfsr false 47 0x23) = (.seq .ctl, [0x2D5E0023]))
    ∧ ((Instr.dloop 3 2).wf = true ∧ encode (.dloop 3 2) = (.seq .mov, [0x0B000302]))
    ∧ ((Instr.aldi ⟨false, 31, -1⟩).wf = true ∧ encode (.aldi ⟨false, 31, -1⟩) = (.seq .acs, [0x063E0000, 0xFFFFFFFF]))
    ∧ (Instr.lend.wf = true ∧ (encode .lend).1 ≠ .none ∧ (encode .lend).1 ≠ .seq .vec) := by decide +kernel
theorem meets_VectorWordsRoundTrip :
    let i : Instr := .vadd ⟨.f32, .v 3, .v 2, .v 2, 0, false, .dflt, false⟩
    i.wf = true ∧ encode i = (.seq .vec, [0x01003020, 0x02000000]) := by decide +kernel
/-- The outcome is a next state. -/
def goes (o : Host.Outcome State Fault Refusal) : Bool :=
  match o with
  | .next _ => true
  | _ => false
theorem meets_MemoryStaysCanonical : Memory.wf w0.mem ∧ goes (step w0) = true := by decide +kernel

/-- CTL stands at a lane of line 4, which is cached with these words. -/
def fetched (lane : Nat) (ws : List W32) : State :=
  withCore fun c => { c with ctl := { c.ctl with lane := lane }, icache := [⟨0, 0, 4, ws⟩] }
/-- CTL may issue; its lane bears its tag, and the word there, alone or with the next, is the instruction. -/
def fits (lane : Nat) (ws : List W32) (wide : Bool) (i : Instr) : Prop :=
  let s := fetched lane ws
  s.agenda = [] ∧ s.chip.pwr ≠ .off ∧ s.core.drnRun = false ∧ s.engineTurn = false
  ∧ earliest (candidates s) = some (0, .ctl, 0) ∧ resultDue (s.focus 0) = false ∧ cachedLine (s.focus 0) 4 = some ws
  ∧ s.core.ctl.entered = true ∧ tagBad (ws[0]?.getD 0) lane = false ∧ tagOf (ws[0]?.getD 0) lane = seqTag .ctl
  ∧ hdrX (ws[0]?.getD 0) = s.core.x ∧ handlerDue (s.focus 0) = false ∧ (∀ r ∈ allSeqs, r ≠ .ctl → faultsNow (s.focus 0) r = false) ∧ isWide .ctl (ws[lane]?.getD 0) = wide
  ∧ (if wide then lane < 7 ∧ tagOf (ws[0]?.getD 0) (lane + 1) = 8 ∧ decode .ctl (ws[lane]?.getD 0) (ws[lane + 1]?.getD 0) = .ok i
     else (lane = 7 ∨ tagOf (ws[0]?.getD 0) (lane + 1) ≠ 8) ∧ decode .ctl (ws[lane]?.getD 0) 0 = .ok i)
theorem meets_StepRunsTheDecodedInstruction_lanes :
    fits 1 [0x10, 0x02020003, 0, 0, 0, 0, 0, 0] false (.addi ⟨false, 1, .r 0, 3⟩)
    ∧ fits 7 [0x10000000, 0, 0, 0, 0, 0, 0, 0x02020003] false (.addi ⟨false, 1, .r 0, 3⟩)
    ∧ fits 6 [0x81000000, 0, 0, 0, 0, 0, 0x13040000, 0x40000000] true (.ldi ⟨false, 2, 0x40000000⟩) := by
  unfold fits
  repeat' first | refine And.intro ?_ ?_ | decide +kernel | rfl
/-- A result in flight, due at a time. -/
def inFlight (due : Nat) : Pend := ⟨.s 1 7, due, acc (.store 5) sp⟩
theorem meets_StepRunsTheDecodedInstruction_waits :
    (let s := withCore fun c => { c with icache := [] }
     earliest (candidates s) = some (0, .ctl, 0) ∧ resultDue (s.focus 0) = false ∧ cachedLine (s.focus 0) 4 = none)
    ∧ (let s := withCore fun c => { c with pend := [inFlight 0] }
       earliest (candidates s) = some (0, .ctl, 0) ∧ resultDue (s.focus 0) = true)
    ∧ (let s := withCore fun c => { c with uie := true, uipend := 0x80, icache := [⟨0, 0, 4, [0x10, 0x02020003, 0, 0, 0, 0, 0, 0]⟩] }
       earliest (candidates s) = some (0, .ctl, 0) ∧ resultDue (s.focus 0) = false ∧ handlerDue (s.focus 0) = true
       ∧ (nextLane (s.focus 0)).isSome = true)
    ∧ (let s := withCore fun c => { c with pend := List.replicate 32 (inFlight 100) }
       earliest (candidates s) = some (0, .ctl, 0) ∧ resultDue (s.focus 0) = false
       ∧ 32 ≤ (s.focus 0).core.accq.length + (s.focus 0).core.pend.length)
    ∧ (let s := withCore fun c => { c with pend := List.replicate 31 (inFlight 100) }
       (s.focus 0).core.accq.length + (s.focus 0).core.pend.length < 32) := by
  repeat' first | refine And.intro ?_ ?_ | decide +kernel | rfl
theorem meets_StepRunsTheDecodedInstruction_turns :
    ({ w0 with agenda := [.resultWriteback] } : State).agenda = [.resultWriteback]
    ∧ (let s := withChip fun c => { c with pwr := .off }
       s.agenda = [] ∧ s.chip.pwr = .off)
    ∧ (let s := withCore fun c => { c with drnRun := true, drnPc := 0, drnMem := c.drnMem.setIfInBounds 0 0xA0000000 }
       s.agenda = [] ∧ s.chip.pwr ≠ .off ∧ s.core.drnRun = true ∧ s.core.drnMem[s.core.drnPc]?.getD 0 = 0xA0000000)
    ∧ decodeDrn 0xA0000000 = .ok .lend
    ∧ (let s : State := { issuedAcc (acc (.load false 47 false) sp) with turn := 2 }
       s.core.drnRun = false ∧ (showSpill { s with engineTurn := true }).isNone = true ∧ (engineWork { s with engineTurn := true }).isSome = true)
    ∧ (let s : State := { State.reset with cores := [] }
       s.core.drnRun = false ∧ s.engineTurn = false ∧ earliest (candidates s) = none) := by
  repeat' first | refine And.intro ?_ ?_ | decide +kernel | rfl
/-- An entry whose bytes in the spill area are not yet written. -/
theorem meets_StepRunsTheDecodedInstruction_spill :
    let e : WEnt := { waddr := sp, rdy := true, stage := 2, thresh := 0, cont := 9, rtime := 0, save := List.replicate 8 7 }
    let s : State := { paged 0 w0 with ranks := [{ k0 with spill := [(0, e)] }] }
    s.core.drnRun = false ∧ (showSpill s).isSome = true := by
  repeat' first | refine And.intro ?_ ?_ | decide +kernel | rfl
/-! ## Ill-formed terms, one or more for every check of Instr.wf -/

def z3 (d : BitVec 6) (a b : Src) : S3 := ⟨false, d, a, b⟩
theorem test_ill_formed_ctl : ([.add (z3 48 (.r 1) (.r 2)), .sub (z3 1 (.r 48) (.r 2)), .mul .lo (z3 1 (.r 1) (.r 63)),
    .cas (z3 1 (.r 1) (.r 2)) (.r 50), .addi ⟨false, 48, .r 0, 1⟩, .logi .or ⟨false, 1, .r 48, 1⟩, .shfi .l ⟨false, 60, .r 0, 1⟩,
    .cmpi .eq ⟨false, 1, .r 49, 1⟩, .clz ⟨false, 48, .r 1⟩, .popc ⟨false, 1, .r 48⟩, .ldi ⟨false, 48, 0⟩, .ldih ⟨false, 63, 0⟩,
    .br ⟨.eqz, .r 48, 1⟩, .jal 48 1, .jr (.r 48), .loop (.r 1) 0, .loop (.r 48) 1, .loopi 3 0, .ld ⟨false, 1, .r 1, true, .d, 0⟩,
    .ld ⟨false, 48, .r 1, false, .w, 0⟩, .st ⟨.r 48, .r 1, .w, 0⟩, .atomDet .add (.r 48) (.r 1) (.r 2), .casDet (.r 1) (.r 2) (.r 3) (.r 48),
    .mark 0, .fork 0 8, .susp (.r 0) (.r 1) 8, .susp (.r 48) (.r 1) 8, .barv false 48 false 0, .barv false 1 true 3, .mxcfg 0 7 (.r 1),
    .mxcfg 6 23 (.r 1), .mxcfg 0 0 (.r 48), .mxmma ⟨⟨0, 0, 0, 0⟩, false, false, .dflt, 0, 0, 1, 0, .bf16, .e4m3⟩, .tidw 0 (.r 48),
    .mfsr false 48 0, .mfsr false 1 0x24, .mtsr 0x24 (.r 1), .mtsr 0 (.r 48)] : List Instr).all (fun i => !i.wf) = true := by decide
theorem test_ill_formed_acs : ([.aadd (z3 32 (.r 1) (.r 2)), .aaddi ⟨false, 1, .r 32, 0⟩, .ashfi true ⟨false, 40, .r 1, 0⟩, .aldi ⟨false, 32, 0⟩,
    .abr ⟨.nez, .r 32, 0⟩, .aloop 3 0, .aloopReg (.r 32) 1, .aloopReg (.r 1) 0, .spw 0 21 (.r 1), .spw 0 0 (.r 32)] : List Instr).all
    (fun i => !i.wf) = true := by decide
theorem test_ill_formed_vec : ([.vadd ⟨.i32, .v 1, .v 2, .v 3, 0, false, .dflt, false⟩, .vadd ⟨.f32, .v 192, .v 2, .v 3, 0, false, .dflt, false⟩,
    .vadd ⟨.f32, .lq 0, .v 2, .v 3, 0, false, .dflt, false⟩, .vadd ⟨.f32, .v 1, .sq 0, .v 3, 0, false, .dflt, false⟩,
    .vfma ⟨.f32, .v 1, .v 2, .v 3, .v 200, 0, false, .dflt, false⟩, .vmax ⟨.i8, .v 1, .v 2, .v 3, 0, false⟩, .vabs ⟨.f32, .b 0, .v 2, 0, false⟩,
    .vsqrt ⟨.i64, .v 1, .v 2, 0, false, .dflt, false⟩, .vcvt ⟨.cb4, .f32, .v 1, .v 2, 0, false, .dflt, false, 0⟩,
    .vcvt ⟨.bf16, .f32, .v 1, .v 2, 0, false, .dflt, false, 2⟩, .vcbx ⟨.v 1, .v 2, 0, true, 0, 0, false⟩, .vcbq ⟨.v 1, .v 2, 0, false, 4, 0, false⟩,
    .vldx ⟨⟨.i8, .v 1, .v 2, 0, false, .dflt, false⟩, 0⟩, .vdot ⟨.f32, .f32, .v 1, .v 2, .v 3, .v 4, 0, 0, 0, false, .dflt⟩,
    .vdot ⟨.bf16, .bf16, .v 1, .v 2, .v 3, .v 4, 1, 0, 0, false, .dflt⟩, .vred ⟨.max, ⟨.f32, .v 1, .v 2, 0, false, .rne, false⟩⟩,
    .vred ⟨.sum, ⟨.i32, .v 1, .v 2, 0, false, .rne, false⟩⟩, .vscan ⟨.cb4, .v 1, .v 2, 0, false, .dflt, false⟩, .vcmp ⟨.eq, .cb4, 1, .v 1, .v 2, 0⟩,
    .vcmp ⟨.eq, .f32, 0, .v 1, .v 2, 0⟩, .vcls ⟨.i8, 1, .v 1, 1, 0⟩, .mlog ⟨.and, 0, 1, 2, 0⟩, .mpop ⟨.v 192, 1, 0, false⟩,
    .viadd ⟨.f32, .v 1, .v 2, .v 3, 0, false, false⟩, .vimin ⟨.f32, .v 1, .v 2, .v 3, 0, false⟩, .vshf ⟨.l, ⟨.f32, .v 1, .v 2, .v 3, 0, false⟩⟩,
    .vbcst ⟨.i8, .v 1, 256, 0⟩, .vbcstElem ⟨.f32, .v 1, .v 0, 0, 0⟩, .vbcstElem ⟨.f32, .v 1, .v 2, 1024, 0⟩, .viota ⟨.lq 1, 0, 0⟩,
    .vperm ⟨⟨.f32, .v 1, .v 2, .v 3, 0, false⟩, 1⟩, .vslide ⟨⟨.f32, .b 1, .v 2, .v 3, 0, false⟩, 0⟩, .vcmprs ⟨.f32, .v 1, 0, .v 2, 0⟩,
    .vxpnd ⟨.cb4, .v 1, .v 2, 1, 0, 0, false⟩, .vrng ⟨.v 1, .sq 0, 0, 0, 0, false⟩, .vatom ⟨.add, .v 200, .v 1, 0⟩, .vloop 1 0] : List Instr).all
    (fun i => !i.wf) = true := by decide
theorem test_ill_formed_mov : ([.dadd (z3 32 (.r 1) (.r 2)), .daddi ⟨false, 1, .r 32, 0⟩, .dshfi .l ⟨false, 32, .r 1, 0⟩,
    .dlogi .and ⟨false, 1, .r 33, 0⟩, .dldi ⟨false, 32, 0⟩, .dbr ⟨.eqz, .r 32, 0⟩, .dloop 3 0, .dloopReg (.r 1) 0, .dld ⟨false, 1, .r 1, false, .b, 0⟩,
    .dst ⟨.r 1, .r 2, .h, 0⟩, .cring 0 (.r 32), .expct (.r 32) (.r 1), .arrv (.r 1) (.r 32), .fcol ⟨⟨0, 0, 0, 0⟩, .bcast, .max, 0, 0, 1⟩,
    .bwls (.r 1) (.r 2) (.r 32), .bwrl (.r 32) (.r 1), .bwsl (.r 32), .grped 0 (.r 32), .rnkq false 32 .rank 0, .rnkq false 1 .rank 1] : List Instr).all
    (fun i => !i.wf) = true := by decide
theorem test_ill_formed_drn : ([.lcvt 0 1 .i32 .dflt false, .lsid 0 .const 1 0, .lsid 0 .row 0 1, .lsts .max 1 0 .dflt false] : List Instr).all
    (fun i => !i.wf) = true := by decide

/-! ## Words written out bit by bit from the encodings (02 R42 to R63), and what they decode to -/

theorem test_decode_words : Obligations.DecodeWords := by
  unfold Obligations.DecodeWords; repeat' first | refine And.intro ?_ ?_ | rfl
theorem test_decode_ctl : decode .ctl 0x22600003 0 = .ok (.fork 3 3) ∧ decode .ctl 0x24001020 0xFFFFFFFE = .ok (.susp (.r 2) (.r 1) 0xFFFFFFFE)
    ∧ decode .ctl 0x24000000 0 = .ok .suspEnd ∧ decode .ctl 0x280A0840 0 = .ok (.mxgo ⟨5, 1, 2, 0⟩)
    ∧ decode .ctl 0x1D0C3B00 0 = .ok (.st ⟨.r 6, .r 7, .d, 0⟩) ∧ decode .ctl 0x20000008 0 = .ok (.mark 8)
    ∧ decode .ctl 0x270C3015 0 = .ok (.mxcfg 6 21 (.r 6)) ∧ decode .ctl 0x27022805 0 = .ok (.mxcfg 1 5 (.r 5)) := by
  repeat' first | refine And.intro ?_ ?_ | rfl
theorem test_decode_acs : decode .acs 0x0904080F 0 = .ok (.spw 2 15 (.r 1)) ∧ decode .acs 0x0904180E 0 = .ok (.spw 2 14 (.r 3))
    ∧ decode .acs 0x0A021000 0 = .ok (.sload 1 2) := ⟨rfl, rfl, rfl⟩
theorem test_decode_vec : decode .vec 0x32109080 0x00030000 = .ok (.vcmprs ⟨.bf16, .v 9, 3, .v 8, 0⟩) := rfl
theorem test_decode_mov : decode .mov 0x14001060 0 = .ok (.expct (.r 2) (.r 3)) ∧ decode .mov 0x11000800 0 = .ok (.cring 0 (.r 1))
    ∧ decode .mov 0x1F000000 0 = .ok .dsusp ∧ decode .mov 0x1E040000 0 = .ok (.rnkq false 2 .rank 0)
    ∧ decode .mov 0x1C000800 0 = .ok (.bwsl (.r 1)) ∧ decode .mov 0x07020000 0x00050000 = .ok (.dldi ⟨false, 1, 0x50000⟩)
    ∧ decode .mov 0x0E020012 0x2101C200 = .ok (.copy ⟨⟨1, 0, 0, 0⟩, some 2, 8, 7, 4, 4⟩)
    ∧ decode .mov 0x16000000 0x010649C0 = .ok (.fst ⟨⟨0, 0, 0, 0⟩, 7, 9, 6, 8⟩) := by
  repeat' first | refine And.intro ?_ ?_ | rfl
theorem test_decode_drn : decodeDrn 0x81000006 = .ok (.lsid 1 .const 0 0) ∧ decodeDrn 0x88400000 = .ok (.lst 2 .dflt false) := ⟨rfl, rfl⟩

/-! ## Single steps, the results worked out from the rules -/

/-- Register n of the core after one instruction of a sequencer. -/
def regAfter (q : Seqr) (i : Instr) (n : Nat) (s : State) : Option Word :=
  match exec i s with
  | .next t => some (t.core.getReg q n)
  | _ => none
/-- s1 and s2, a1 and a2, d1 and d2 hold two values. -/
def two (x y : Word) : State := withCore fun c =>
  { c with s := (c.s.setIfInBounds 1 x).setIfInBounds 2 y
           a := (c.a.setIfInBounds 1 x).setIfInBounds 2 y, d := (c.d.setIfInBounds 1 x).setIfInBounds 2 y }
-- 08 R230: results are taken mod 2^64; the signed high product of −1 and −1 is 0, the unsigned one 2^64 − 2.
theorem test_add_wraps : regAfter .ctl (.add ⟨false, 3, .r 1, .r 2⟩) 3 (two (-1) 2) = some 1 := by decide +kernel
theorem test_mul_high : regAfter .ctl (.mul .hi ⟨false, 3, .r 1, .r 2⟩) 3 (two (-1) (-1)) = some 0
    ∧ regAfter .ctl (.mul .hiu ⟨false, 3, .r 1, .r 2⟩) 3 (two (-1) (-1)) = some 0xFFFFFFFFFFFFFFFE := by decide +kernel
-- 08 R231: −7 ÷ 2 is −3 remainder −1; division by zero gives all ones and sets DIVZ.
theorem test_div_truncates : regAfter .ctl (.div .q ⟨false, 3, .r 1, .r 2⟩) 3 (two (-7) 2) = some (-3)
    ∧ regAfter .ctl (.div .m ⟨false, 3, .r 1, .r 2⟩) 3 (two (-7) 2) = some (-1) := by decide +kernel
theorem test_div_by_zero : regAfter .ctl (.div .qu ⟨false, 3, .r 1, .r 2⟩) 3 (two 5 0) = some (-1)
    ∧ (match exec (.div .qu ⟨false, 3, .r 1, .r 2⟩) (two 5 0) with | .next t => t.core.divz | _ => false) = true := by decide +kernel
-- 08 R230: a count of 64 or more gives 0, or copies of the sign; CLZ of 0 is 64; s0 discards.
theorem test_shift_far : regAfter .ctl (.shf .rl ⟨false, 3, .r 1, .r 2⟩) 3 (two (-1) 64) = some 0
    ∧ regAfter .ctl (.shf .ra ⟨false, 3, .r 1, .r 2⟩) 3 (two (-8) 64) = some (-1) := by decide +kernel
theorem test_clz_zero : regAfter .ctl (.clz ⟨false, 3, .r 1⟩) 3 (two 0 0) = some 64 := by decide +kernel
theorem test_s0_discards : regAfter .ctl (.addi ⟨false, 0, .r 1, 3⟩) 0 (two 5 0) = some 0 := by decide +kernel
-- 08 R230: the immediate of CMPI .ltu is sign-extended and read as unsigned.
theorem test_cmpi_unsigned : regAfter .ctl (.cmpi .ltu ⟨false, 3, .r 1, -1⟩) 3 (two 5 0) = some 1 := by decide +kernel
-- 05 R123, 09 R262: ACS and MOV compute alike in their own registers.
theorem test_asub : regAfter .acs (.asub ⟨false, 3, .r 1, .r 2⟩) 3 (two 2 5) = some (-3) := by decide +kernel
theorem test_dshfi : regAfter .mov (.dshfi .ra ⟨false, 3, .r 1, 1⟩) 3 (two (-8) 0) = some (-4) := by decide +kernel
end Sys2Proof.Machine.Tests
end

section
/-!
PROOFS. A task begins; markers, releases, arrivals, forward replies and batches of page faults take effect (O35). First what
translation and stores leave as it was, and what a store by physical address rests on.
-/
namespace Sys2Proof.Machine

/-! ## What translation and stores leave as it was -/

/-- A job without its log, its poison and where its ranks are. -/
def Job.still (j : Job) : Job := { j with place := [], log := [], logFull := false, poisoned := [] }

/-- The machine without what translating an address and storing bytes may change. -/
def State.still (s : State) : State :=
  { s with
    core := { s.core with tlb := [] }
    jobs := s.jobs.map Job.still
    chip := { s.chip with frames := [], outbox := [], sendQ := [], txSeq := [], resend := [], egress := [] }
    mem := [], poison := [] }

section
variable {s : State}

theorem modJob_still (n : Nat) {f : Job → Job} (h : ∀ j, (f j).still = j.still) : (s.modJob n f).still = s.still := by
  have keep (j : Job) : (if j.num = n then f j else j).still = j.still := by
    split
    · exact h j
    · rfl
  simp [State.still, keep]

theorem post_still (k : MsgKind) (args : List Nat) : (s.post k args).still = s.still := rfl

theorem enterLeaf_still (r : Req) (va : Nat) (l : Leaf) : (enterLeaf s r va l).1.still = s.still := by
  simp only [enterLeaf]
  split <;> split <;> split <;> rfl

theorem prefetch_still (r : Req) (va n : Nat) : (prefetch s r va n).still = s.still := by
  unfold prefetch
  repeat' split
  all_goals first | rfl | exact enterLeaf_still ..

theorem walkLeaf_still {r : Req} {va : Nat} {k : Kind} {x : State × Leaf} (h : walkLeaf s r va k = .ok x) : x.1.still = s.still := by
  unfold walkLeaf at h
  split at h
  · cases h
  · cases h
    exact enterLeaf_still ..

theorem findLeaf_still {r : Req} {va : Nat} {k : Kind} {x : State × Leaf} (h : findLeaf s r va k = .ok x) : x.1.still = s.still := by
  unfold findLeaf at h
  split at h
  · exact walkLeaf_still h
  · split at h
    · cases h
      rfl
    · exact walkLeaf_still h

theorem leafFor_still {r : Req} {va n : Nat} {k : Kind} {x : State × Leaf} (h : leafFor s r va n k = .ok x) :
    x.1.still = s.still := by
  unfold leafFor at h
  split at h
  · cases h
  · rename_i e
    have ahead := (prefetch_still r va n).trans (findLeaf_still e)
    simp only at h
    split at h <;> cases h <;> exact ahead

theorem takeNumber_still (c : Nat) : (takeNumber c s).still = s.still := rfl

theorem modLane_still (k : Nat) (f : Lane → Lane) : (modLane s k f).still = s.still := rfl

theorem setResend_still (f : Chip → List (Nat × List Nat)) :
    (s.modChip fun c => { c with resend := f c }).still = s.still := rfl

theorem sendOn_still (c : Nat) (k : Option Nat) (body : List Nat) (s : State) : (sendOn c k body s).still = s.still := by
  cases k with
  | none => exact (post_still ..).trans ((setResend_still ..).trans (takeNumber_still ..))
  | some k => exact (post_still ..).trans ((modLane_still ..).trans (takeNumber_still ..))

theorem sendFlit_still (s : State) (r : Req) (t va n : Nat) (wr : Bool) : (sendFlit s r t va n wr).still = s.still := by
  unfold sendFlit
  split
  · rfl
  · exact sendOn_still ..

theorem sendMoved_still (s : State) (r : Req) (t o n va : Nat) (wr : Bool) : (sendMoved s r t o n va wr).still = s.still := by
  unfold sendMoved
  split
  · rfl
  · exact sendOn_still ..

theorem tellPlace_still (s : State) (j r : Nat) (e : PlaceEntry) : (tellPlace j r e s).still = s.still := by
  unfold tellPlace
  induction (farChips s j) generalizing s with
  | nil => rfl
  | cons c l ih => exact ih _

theorem wakeCold_still (j t : Nat) (s : State) : (wakeCold j t s).still = s.still := by
  simp only [wakeCold]
  split
  · exact (tellPlace_still ..).trans (modJob_still j fun _ => rfl)
  · rfl

theorem serveExport_still {r : Req} {t o n fva : Nat} {k : Kind} {x : State × Piece}
    (h : serveExport s r t o n fva k = .ok x) : x.1.still = s.still := by
  unfold serveExport at h
  simp only at h
  split at h
  · split at h <;> cases h
    exact sendFlit_still ..
  · split at h
    · cases h
    · rename_i e
      split at h
      · cases h
      · split at h <;> cases h
        exact ((sendMoved_still ..).trans (wakeCold_still ..)).trans (leafFor_still e)

theorem locate_still {r : Req} {va n : Nat} {k : Kind} {x : State × Piece} (h : locate s r va n k = .ok x) :
    x.1.still = s.still := by
  unfold locate at h
  split at h
  · cases h
  · cases h
    rfl
  · exact serveExport_still h
  · split at h
    · cases h
    · rename_i e
      have found := leafFor_still e
      simp only at h
      split at h
      · cases h
      · split at h
        · split at h
          · cases h
          · split at h
            · cases h
            · exact (serveExport_still h).trans found
        · cases h
          exact found

theorem locateAll_still (k : Kind) (fuel : Nat) : ∀ {s : State} {r : Req} {va n : Nat} {x : State × List Piece},
    locateAll s r k fuel va n = .ok x → x.1.still = s.still := by
  induction fuel with
  | zero =>
    intro s r va n x h
    cases h
    rfl
  | succ fuel ih =>
    intro s r va n x h
    simp only [locateAll] at h
    split at h
    · cases h
      rfl
    · split at h
      · cases h
      · rename_i first
        split at h
        · cases h
        · rename_i rest
          cases h
          exact (ih rest).trans (locate_still first)

theorem unqueue_still (s : State) (r : Req) (op : FabOp) (va n : Nat) : (unqueue s r op va n).still = s.still := by
  unfold unqueue
  split <;> rfl

theorem agentWay_still (r : Req) (k : Kind) (l : List (Nat × Nat)) : ∀ {s u : State}, agentWay r k l s = .ok u →
    u.still = s.still := by
  induction l with
  | nil =>
    intro s u h
    cases h
    rfl
  | cons p l ih =>
    intro s u h
    simp only [agentWay] at h
    generalize (if k = .write then FabOp.write (List.replicate p.2 0) else .read p.2) = op at h
    split at h
    · exact (ih h).trans (unqueue_still ..)
    · cases h

theorem access_still {r : Req} {va n : Nat} {k : Kind} {x : State × List Piece} (h : access s r va n k = .ok x) :
    x.1.still = s.still := by
  unfold access at h
  split at h
  · cases h
  · split at h
    · cases h
    · rename_i way
      refine (locateAll_still k _ h).trans ?_
      split at way
      · exact agentWay_still r k _ way
      · cases way
        rfl

theorem logLine_still (s : State) (pa va : Nat) (asid : BitVec 16) : (logLine s pa va asid).still = s.still := by
  unfold logLine
  repeat' split
  · rfl
  · rfl
  · rfl
  · rfl
  · exact (post_still ..).trans (modJob_still _ fun _ => rfl)
  · exact modJob_still _ fun _ => rfl

theorem markDirty_still (s : State) (pa n : Nat) : (markDirty s pa n).still = s.still := by
  unfold markDirty
  split <;> rfl

theorem beforeStore_still (s : State) (p : Piece) : (beforeStore s p).still = s.still := by
  unfold beforeStore
  split
  · rfl
  · rw [markDirty_still]
    induction List.range ((p.key % 64 + p.len + 63) / 64) generalizing s with
    | nil => rfl
    | cons i l ih => exact (ih _).trans (logLine_still ..)

theorem clearPoison_still (s : State) (p : Piece) : (clearPoison s p).still = s.still := by
  simp only [clearPoison]
  split
  · simp only [State.still, List.map_map]
    exact congrArg (State.mk _ _ _ · _ _ _ _ _ _ _ _) (List.map_congr_left fun _ _ => rfl)
  · rfl

theorem writePieces_still (ps : List Piece) : ∀ (s : State) (bs : List Byte), (writePieces s ps bs).still = s.still := by
  induction ps with
  | nil => exact fun _ _ => rfl
  | cons p ps ih =>
    intro s bs
    refine (ih ..).trans ?_
    split
    · rfl
    · exact (clearPoison_still ..).trans (beforeStore_still ..)

theorem writeSpill_still (s : State) (k : Rank) (slot : Nat) (ws : List Nat) : (writeSpill s k slot ws).still = s.still := by
  unfold writeSpill
  split
  · rename_i e
    exact (writePieces_still ..).trans (access_still e)
  · rfl

end

/-! ## Fault batches (13 R370) -/

/-- The machine without the ranks, the other cores, the focused core's watch entries and forward records, and the batch of page
faults: what a store by physical address writes does not rest on them. -/
def State.bare (s : State) : State :=
  { s with
    core := { s.core with watch := Vector.replicate 32 none, fwds := [] }
    cores := [], ranks := []
    chip := { s.chip with faults := [], faultsAt := none, frWait := [] } }

theorem logLine_bare (s : State) (pa va : Nat) (asid : BitVec 16) : (logLine s pa va asid).bare = logLine s.bare pa va asid := by
  have sameFrame : frameOf s.bare pa = frameOf s pa := rfl
  have sameJob (j : Nat) : s.bare.job? j = s.job? j := rfl
  simp only [logLine, sameFrame, sameJob]
  repeat' split
  all_goals rfl

theorem markDirty_bare (s : State) (pa n : Nat) : (markDirty s pa n).bare = markDirty s.bare pa n := by
  simp only [markDirty]
  split <;> rfl

theorem beforeStore_bare (s : State) (p : Piece) : (beforeStore s p).bare = beforeStore s.bare p := by
  unfold beforeStore
  split
  · rfl
  · rw [markDirty_bare]
    congr 1
    induction List.range ((p.key % 64 + p.len + 63) / 64) generalizing s with
    | nil => rfl
    | cons i l ih => simp only [List.foldl_cons, ih, logLine_bare]

theorem clearPoison_bare (s : State) (p : Piece) : (clearPoison s p).bare = clearPoison s.bare p := by
  have same : s.bare.poison = s.poison := rfl
  simp only [clearPoison, same]
  split <;> rfl

theorem writePieces_bare (ps : List Piece) : ∀ (s : State) (bs : List Byte), (writePieces s ps bs).bare = writePieces s.bare ps bs := by
  induction ps with
  | nil => exact fun _ _ => rfl
  | cons p ps ih =>
    intro s bs
    have key : noKey s.bare p.key = noKey s p.key := rfl
    have poke (u : State) (bs : List Byte) : (u.poke p.key bs).bare = u.bare.poke p.key bs := rfl
    simp only [writePieces, ih, key]
    congr 1
    split
    · rfl
    · rw [poke, clearPoison_bare, beforeStore_bare]

/-- A store by physical address: what it writes rests on the bare machine alone. -/
theorem writePhys_bare (s : State) (pa : Nat) (bs : List Byte) :
    (writePhys s pa bs).bare = writePieces s.bare (physPieces s.bare pa bs.length) bs :=
  writePieces_bare (physPieces s pa bs.length) s bs

theorem putFaults_bare (rs : List (List Nat)) : ∀ {s t : State}, s.bare = t.bare → (putFaults s rs).bare = (putFaults t rs).bare := by
  induction rs with
  | nil => exact id
  | cons r rs ih =>
    intro s t h
    have base : s.bare.chip.frBase = t.bare.chip.frBase := congrArg (·.chip.frBase) h
    have head : s.bare.chip.frHead = t.bare.chip.frHead := congrArg (·.chip.frHead) h
    change s.chip.frBase = t.chip.frBase at base
    change s.chip.frHead = t.chip.frHead at head
    refine ih ?_
    have step (u : State) : (u.modChip fun c => { c with frHead := c.frHead + 1 }).bare
      = u.bare.modChip fun c => { c with frHead := c.frHead + 1 } := rfl
    rw [step, step, writePhys_bare, writePhys_bare, h, base, head]

theorem writePhys_chip (s : State) (pa : Nat) (bs : List Byte) : (writePhys s pa bs).still.chip = s.still.chip :=
  show (writePieces s (physPieces s pa bs.length) bs).still.chip = s.still.chip from congrArg State.chip (writePieces_still ..)

/-- Records go into the fault ring: its head goes on by their number, and the rest of the chip is as stores leave it. -/
theorem putFaults_chip (rs : List (List Nat)) : ∀ s : State,
    (putFaults s rs).still.chip = { s.still.chip with frHead := s.chip.frHead + BitVec.ofNat 32 rs.length } := by
  induction rs with
  | nil => intro s; simp [putFaults, State.still]
  | cons r rs ih =>
    intro s
    let slot := fld s.chip.frBase 5 47 * 32 + 32 * (s.chip.frHead.toNat % 2 ^ fld s.chip.frBase 52 4)
    let u := writePhys s slot (wordBytes r)
    have stored : u.still.chip = s.still.chip := writePhys_chip ..
    have head : u.chip.frHead = s.chip.frHead := congrArg (·.frHead) stored
    have count : s.chip.frHead + 1 + BitVec.ofNat 32 rs.length = s.chip.frHead + BitVec.ofNat 32 (r :: rs).length := by
      rw [List.length_cons, BitVec.ofNat_add, BitVec.add_assoc, BitVec.add_comm 1]
      rfl
    calc (putFaults (u.modChip fun c => { c with frHead := c.frHead + 1 }) rs).still.chip
      _ = { u.still.chip with frHead := u.chip.frHead + 1 + BitVec.ofNat 32 rs.length } := ih _
      _ = { s.still.chip with frHead := s.chip.frHead + BitVec.ofNat 32 (r :: rs).length } := by rw [stored, head, count]

/-- The records that wait and those of the batch that closes. -/
def batchRecs (s : State) : List (List Nat) :=
  s.chip.frWait ++ (faultRuns (sortFaults (s.chip.faults.take 64))).map PRun.words

/-- The first 64 faults have left the batch, and the records w wait. -/
def closedBatch (w : List (List Nat)) (s : State) : State :=
  s.modChip fun c => { c with frWait := w, faults := c.faults.drop 64, faultsAt := (c.faults.drop 64).head?.map (·.ticks) }

theorem closeBatchFaults_due {s : State} (h : batchDue s = true) : closeBatchFaults s = closedBatch (batchRecs s) s := by
  rw [closeBatchFaults, h]
  rfl

/-- The event of a batch that is due: as many records as the ring has room for go there, the others wait. -/
theorem execFaultBatchClose_due {s : State} (h : batchDue s = true) :
    execFaultBatchClose s =
      let out := (batchRecs s).take (faultRoom s.chip)
      if out.isEmpty then .next (closedBatch (batchRecs s) s)
      else .next ((putFaults (closedBatch ((batchRecs s).drop out.length) s) out).post .event [evFault, out.length]) := by
  simp only [execFaultBatchClose, closeBatchFaults_due h]
  rfl

/-- What records put in the ring of a closed batch leave. -/
theorem putFaults_closed (w rs : List (List Nat)) (s : State) :
    let t := putFaults (closedBatch w s) rs
    t.chip.faults = s.chip.faults.drop 64 ∧ t.chip.frHead = s.chip.frHead + BitVec.ofNat 32 rs.length ∧ t.chip.frWait = w
    ∧ t.chip.faultsAt = (s.chip.faults.drop 64).head?.map (·.ticks) ∧ SameMemory (putFaults s rs) t := by
  have chip := putFaults_chip rs (closedBatch w s)
  have bare : (putFaults (closedBatch w s) rs).bare = (putFaults s rs).bare := putFaults_bare rs rfl
  refine ⟨congrArg (·.faults) chip, congrArg (·.frHead) chip, congrArg (·.frWait) chip, congrArg (·.faultsAt) chip, fun a => ?_⟩
  have same := congrArg (·.byte a) bare
  exact same

/-- A batch that is due closes: n records go into the ring, and the others wait. -/
theorem faultBatchClose_runs {s : State} (h : batchDue s = true) {n : Nat} (hn : n = min (batchRecs s).length (faultRoom s.chip)) :
    Runs .faultBatchClose s fun t =>
      t.chip.faults = s.chip.faults.drop 64 ∧ t.chip.frHead = s.chip.frHead + BitVec.ofNat 32 n ∧ t.chip.frWait = (batchRecs s).drop n
      ∧ (n ≠ 0 → t.chip.outbox.getLast? = some ⟨.event, [evFault, n]⟩)
      ∧ t.chip.faultsAt = (s.chip.faults.drop 64).head?.map (·.ticks) ∧ SameMemory (putFaults s ((batchRecs s).take n)) t := by
  have len : ((batchRecs s).take n).length = n := by rw [List.length_take, hn]; omega
  have take : (batchRecs s).take (faultRoom s.chip) = (batchRecs s).take n := by rw [hn, Nat.min_comm, ← List.take_eq_take_min]
  have run : exec .faultBatchClose s = _ := execFaultBatchClose_due h
  simp only [take, len] at run
  obtain ⟨faults, head, wait, since, mem⟩ := putFaults_closed ((batchRecs s).drop n) ((batchRecs s).take n) s
  rw [len] at head
  by_cases hz : n = 0
  · subst hz
    exact ⟨_, run, faults, head, wait, fun h => absurd rfl h, since, mem⟩
  · have some : ((batchRecs s).take n).isEmpty = false := by
      rw [List.isEmpty_eq_false_iff, ← List.length_pos_iff]
      omega
    rw [some] at run
    exact ⟨_, run, faults, head, wait, fun _ => by simp, since, mem⟩

theorem batchDue_of {s : State} {t0 : Nat} (hat : s.chip.faultsAt = some t0) (hne : s.chip.faults ≠ [])
    (hdue : t0 + 2400 ≤ s.now ∨ 64 ≤ s.chip.faults.length) : batchDue s = true := by
  simp [batchDue, hat, hne, hdue]

/-! ## An action at the focused core -/

theorem atCore_self {s : State} {f : State → State} (h : (f s).core.phys = s.core.phys) : s.atCore s.core.phys f = f s := by
  have here (u : State) : u.focus u.core.phys = u := by simp [State.focus]
  rw [State.atCore, here, ← h, here]

/-! ## Markers, releases, replies -/

theorem markerReachHead_next {s : State} {e : Engine} {m : Marker} (h : s.core.marks.find? (fun m => m.eng == e) = some m) :
    exec (.markerReachHead e) s
      = .next (if markerDone s m then { s with core := { s.core with marks := s.core.marks.erase m } } else s) := by
  change execMarkerReachHead e s = _
  simp only [execMarkerReachHead, h]
  split <;> rfl

theorem trigRelease_next {s : State} (ht : s.core.trigged = true) (hs : s.core.trigSent = false)
    (ha : ∀ a ∈ s.core.unperformed, a.q = .ctl → s.core.trigId ≤ a.id) :
    exec .trigRelease s = .next { s with core := { s.core with trigSent := true } } := by
  have none : (s.core.unperformed.any fun a => a.q == .ctl && a.id < s.core.trigId) = false := by
    simpa using ha
  change execTrigRelease s = _
  simp [execTrigRelease, ht, hs, none, State.modCore]

theorem replied_some {s : State} {l : List Fwd} {f : Fwd} (h : l.find? (fun f => f.answer s.now != 0) = some f) :
    replied s l = some (f, f.answer s.now) := by
  simp [replied, h]

theorem forwardReply_core {s : State} {job rank : Nat} {c : Core} {f : Fwd}
    (hc : (s.coresOf job rank).find? (fun c => c.fwds.any fun f => f.answer s.now != 0) = some c)
    (hf : c.fwds.find? (fun f => f.answer s.now != 0) = some f) :
    exec (.forwardReply job rank) s = .next (s.atCore c.phys fun u =>
      replyAction (f.answer s.now) f (u.modCore fun c => { c with fwds := c.fwds.filter (· != f) })) := by
  have first : (s.coresOf job rank).findSome? (fun c => (replied s c.fwds).map fun f => (c.phys, f))
      = some (c.phys, f, f.answer s.now) := by
    obtain ⟨_, before, after, hl, hb⟩ := List.find?_eq_some_iff_append.1 hc
    refine List.findSome?_eq_some_iff.2 ⟨before, c, after, hl, by rw [replied_some hf]; rfl, fun d hd => ?_⟩
    have quiet : d.fwds.find? (fun f => f.answer s.now != 0) = none := by
      rw [List.find?_eq_none]
      simpa using hb d hd
    simp [replied, quiet]
  change execForwardReply job rank s = _
  simp only [execForwardReply, first]

theorem forwardReply_rank {s : State} {job rank : Nat} {k : Rank} {f : Fwd}
    (hc : ∀ c ∈ s.coresOf job rank, ∀ f ∈ c.fwds, f.answer s.now = 0) (hk : s.rank? job rank = some k)
    (hf : k.fwds.find? (fun f => f.answer s.now != 0) = some f) (hr : replayable f.cause = true) (h1 : f.answer s.now = 1) :
    exec (.forwardReply job rank) s = .next (s.modRank job rank fun k => { k with fwds := k.fwds.filter (· != f) }) := by
  have none : (s.coresOf job rank).findSome? (fun c => (replied s c.fwds).map fun f => (c.phys, f)) = none := by
    simpa [List.findSome?_eq_none_iff, replied] using hc
  change execForwardReply job rank s = _
  simp [execForwardReply, none, hk, replied_some hf, hr, h1]

/-! ## Arrivals (08 R248) -/

/-- The arrival of a rank at the open phase of a group, as the job's table and the other chips hear of it. -/
def arrivedAt (job rank g : Nat) (gr : Group) (st : Bool) (u : State) : State :=
  { u with jobs := u.jobs.map fun x => if x.num = job then
      { x with groups := x.groups.map fun y => if y.g = g then { y with arrived := y.arrived ++ [(rank, st)], lastAt := u.now } else y } else x
           chip := { u.chip with outbox := u.chip.outbox ++ [⟨.arrival, [job, rank, g, b2n st, gr.phase]⟩] } }

section
variable {s : State} {job rank g : Nat} {step : Bool} {jb : Job} {gr : Group} {k : Rank} {b : BarvWait}
variable (hj : s.job? job = some jb) (hg : jb.group? g = some gr) (ha : (gr.arrived.any (·.1 == rank)) = false)
include hj hg ha

theorem arrive_some : arrive job rank g step s = some (arrivedAt job rank g gr step s, gr.phase + 1) := by
  simp only [arrive, hj, Option.bind_some, hg, ha, Bool.false_eq_true, if_false]
  rfl

theorem barvArrive_far (hr : s.rank? job rank = none) :
    exec (.barvArrive job rank g step) s = .next (arrivedAt job rank g gr step s) := by
  change execBarvArrive job rank g step s = _
  simp only [execBarvArrive, hr, arrive_some hj hg ha]

/-- A barrier of the focused core that waited has arrived: the state in which its register takes the phase's number. -/
def barvArrived (job rank g : Nat) (gr : Group) (b : BarvWait) (s : State) : State :=
  arrivedAt job rank g gr b.step (s.modCore fun c => { c with barv := none })

theorem barvArrive_computes (hr : s.rank? job rank = some k) (hc : barvCore s job rank g = some s.core) (hb : s.core.barv = some b)
    (hd : b.d < 48) :
    Runs (.barvArrive job rank g step) s
      (Computes .ctl 2 1 b.nw (BitVec.ofNat 6 b.d) (BitVec.ofNat 64 (gr.phase + 1)) (barvArrived job rank g gr b s)) := by
  let u := barvArrived job rank g gr b s
  have inRange : dstInRange .ctl (BitVec.ofNat 6 b.d) := by
    show (BitVec.ofNat 6 b.d).toNat < 48
    rw [BitVec.toNat_ofNat]
    omega
  have computes := putResult_computes inRange 2 1 b.nw (BitVec.ofNat 64 (gr.phase + 1)) u
  have ⟨_, _, only, _⟩ := computes
  have phys := congrArg (·.core.phys) only
  have arrival : arrive job rank g b.step (s.modCore fun c => { c with barv := none }) = some (u, gr.phase + 1) :=
    arrive_some hj hg ha
  refine ⟨_, ?_, computes⟩
  change execBarvArrive job rank g step s = _
  simp only [execBarvArrive, hr, hc]
  rw [atCore_self] <;> simp only [hb, arrival]
  exact phys

/-- Another register than s0, in a scoreboard region, takes the number at once. -/
theorem barvArrive_runs (hr : s.rank? job rank = some k) (hc : barvCore s job rank g = some s.core) (hb : s.core.barv = some b)
    (hd : b.d < 48) (h0 : b.d ≠ 0) (hnw : b.nw = false) (hx : s.core.x = false) (hix : regIx s.core .ctl b.d = b.d) :
    Runs (.barvArrive job rank g step) s fun t =>
      t.core.getS b.d = BitVec.ofNat 64 (gr.phase + 1) ∧ t.core.barv = none
      ∧ t.core.ctl.lane = min 8 (s.core.ctl.lane + 1) ∧ t.jobs = (arrivedAt job rank g gr b.step s).jobs := by
  obtain ⟨t, run, ⟨_, regs, _⟩, goes, only, _⟩ := barvArrive_computes (step := step) hj hg ha hr hc hb hd
  have code : (BitVec.ofNat 6 b.d).toNat = b.d := by
    rw [BitVec.toNat_ofNat]
    omega
  have ix : regIx (barvArrived job rank g gr b s).core .ctl b.d = b.d := hix
  have interlocked : (barvArrived job rank g gr b s).core.x = false := hx
  have kept : discards .ctl b.d = false := by
    have user : b.d ≠ 64 := by omega
    simp [discards, h0, user]
  have reg : t.core.getS b.d = _ := regs b.d
  rw [code, ix, interlocked, if_pos ⟨rfl, hnw, by simp, kept⟩] at reg
  have jobs := congrArg State.jobs only
  exact ⟨t, run, reg, congrArg (·.core.barv) only, congrArg SeqSt.lane goes, jobs⟩

end

/-! ## A dispatched entry leaves its table (10 R306) -/

/-- A core without its translation cache and watch table, which the choice of a continuation may change. -/
def Core.kept (c : Core) : Core := { c with tlb := [], watch := Vector.replicate 32 none }

section
variable (k : Rank) (x : Ready) (s : State)

/-- The bytes of a spilled entry that was chosen are cleared. -/
theorem spilled_still :
    (if 4096 ≤ x.ix then writeSpill s k (x.ix - 4096) (List.replicate 16 0) else s).still = s.still := by
  split
  · exact writeSpill_still ..
  · rfl

/-- A core of the rank with the chosen entry gone, and the others counted. -/
def takenFrom (c : Core) : Core :=
  if State.owned k.job k.rank c then
    { c with watch := c.watch.mapIdx fun i o => if 32 * c.coreId.toNat + i = x.ix then none else o.map (countPass s k) }
  else c

theorem takenFrom_kept (c : Core) : (takenFrom k x s c).kept = c.kept := by
  unfold takenFrom
  split <;> rfl

theorem takeEntry_core : (takeEntry k x s).core
    = takenFrom k x s (if 4096 ≤ x.ix then writeSpill s k (x.ix - 4096) (List.replicate 16 0) else s).core := rfl

theorem takeEntry_kept : (takeEntry k x s).core.kept = s.core.kept := by
  rw [takeEntry_core, takenFrom_kept]
  exact congrArg (·.core.kept) (spilled_still k x s)

theorem takeEntry_now : (takeEntry k x s).now = s.now :=
  show (State.now _) = _ from congrArg (·.chip.ticks) (spilled_still k x s)

theorem myJob_still : s.still.myJob = s.myJob.still := by
  have find : s.still.job? s.core.job = (s.job? s.core.job).map Job.still := by
    simp only [State.job?, State.still, List.find?_map]
    rfl
  change (s.still.job? s.core.job).getD _ = _
  rw [find, State.myJob]
  cases s.job? s.core.job <;> rfl

theorem takeEntry_det : (takeEntry k x s).myJob.det = s.myJob.det := by
  let w := if 4096 ≤ x.ix then writeSpill s k (x.ix - 4096) (List.replicate 16 0) else s
  have owner : (takeEntry k x s).core.job = w.core.job := congrArg (·.job) (takenFrom_kept k x s w.core)
  have same : (takeEntry k x s).myJob = w.myJob := by
    rw [State.myJob, owner]
    rfl
  calc (takeEntry k x s).myJob.det
    _ = w.myJob.det := congrArg Job.det same
    _ = w.still.myJob.det := by rw [myJob_still]; rfl
    _ = s.still.myJob.det := by rw [spilled_still]
    _ = s.myJob.det := by rw [myJob_still]; rfl

/-- The chosen entry of a core's own table leaves it. -/
theorem takeEntry_watch (ho : State.owned k.job k.rank s.core = true) {i : Nat} (hi : i < 32) (hx : x.ix = 32 * s.core.coreId.toNat + i) :
    (takeEntry k x s).core.watch[i]? = some none := by
  have near : ¬ 4096 ≤ x.ix := by omega
  rw [takeEntry_core, if_neg near, takenFrom, if_pos ho]
  simp [hi, hx]

end

/-! ## A task begins (01 R20; 04 R116; 08 R254; 10 R306) -/

/-- The tiles that no earlier command uses are undefined. -/
def tilesCleared (s : State) : State :=
  ((List.range 16).filter fun i => !(s.core.cmds.flatMap fun x => x.op.tiles).contains i).foldl undefTile s

theorem undefTiles_core (l : List Nat) : ∀ s : State, (l.foldl undefTile s).core = { s.core with acc := (l.foldl undefTile s).core.acc } := by
  induction l with
  | nil => exact fun _ => rfl
  | cons i l ih =>
    intro s
    have one : (undefTile s i).core = { s.core with acc := (undefTile s i).core.acc } := by
      unfold undefTile
      split <;> rfl
    rw [List.foldl_cons, ih, one]

theorem tilesCleared_core (s : State) : (tilesCleared s).core = { s.core with acc := (tilesCleared s).core.acc } :=
  undefTiles_core ..

section
variable (e : WEnt) (s : State)

theorem startTask_phys : (startTask e s).core.phys = s.core.phys := congrArg (·.phys) (tilesCleared_core s)

theorem startTask_watch : (startTask e s).core.watch = s.core.watch := congrArg (·.watch) (tilesCleared_core s)

theorem startTask_taskId : (startTask e s).core.taskId = s.core.taskId + 1 := congrArg (·.taskId + 1) (tilesCleared_core s)

theorem startTask_atomOrder : (startTask e s).core.atomOrder = s.core.coreId.setWidth 16 :=
  congrArg (·.coreId.setWidth 16) (tilesCleared_core s)

theorem startTask_slot {i : Nat} (hi : i < 32) :
    (slotAt (startTask e s) i).st = if s.core.cmds.any (·.namesSlot i) then .nest else .free := by
  have slots : (startTask e s).core.slots = Vector.ofFn fun i : Fin 32 =>
    if (tilesCleared s).core.cmds.any (·.namesSlot i.1) then { slotAt (tilesCleared s) i.1 with st := .nest }
    else undefSlot (tilesCleared s) (224 + 4 * i.1) := rfl
  have cmds : (tilesCleared s).core.cmds = s.core.cmds := congrArg (·.cmds) (tilesCleared_core s)
  rw [slotAt, slots, cmds, Vector.getElem?_ofFn, dif_pos hi, Option.getD_some]
  split <;> rfl

theorem startTask_saved {i : Nat} (hi : i < 8) : (startTask e s).core.getS (i + 1) = e.save[i]?.getD 0 := by
  have bank : (startTask e s).core.s = Vector.ofFn fun i : Fin 48 =>
    if i.1 = 0 then 0 else if i.1 < 9 then e.save[i.1 - 1]?.getD 0 else undefWord s i.1 := rfl
  have main : i + 1 < 48 := by omega
  have saved : i + 1 < 9 := by omega
  have user : i + 1 ≠ 64 := by omega
  simp [Core.getS, bank, main, saved, user]

theorem undefWord_det (h : s.myJob.det = true) (n : Nat) : undefWord s n = 0 := by simp [undefWord, h]

theorem undefVec_det (h : s.myJob.det = true) (n : Nat) : undefVec s n = 0 := by simp [undefVec, h]

theorem startTask_getS_det (h : s.myJob.det = true) {i : Nat} (h9 : 9 ≤ i) (hi : i < 56) : (startTask e s).core.getS i = 0 := by
  have bank : (startTask e s).core.s = Vector.ofFn fun i : Fin 48 =>
    if i.1 = 0 then 0 else if i.1 < 9 then e.save[i.1 - 1]?.getD 0 else undefWord s i.1 := rfl
  have shadow : (startTask e s).core.shadow = Vector.ofFn fun i : Fin 8 => undefWord s (48 + i.1) := rfl
  have beyond : ¬ i < 9 := by omega
  have user : ¬ (i = 0 ∨ i = 64) := by omega
  rw [Core.getS, if_neg user]
  by_cases main : i < 48
  · simp [main, bank, beyond, undefWord_det s h]
  · have high : i < 64 := by omega
    have inBank : i - 48 < 8 := by omega
    simp [inBank, main, high, shadow, undefWord_det s h]

theorem startTask_scalars_det (h : s.myJob.det = true) {i : Nat} (hi : i < 32) :
    (startTask e s).core.a[i]? = some 0 ∧ (startTask e s).core.d[i]? = some 0 := by
  have acs : (startTask e s).core.a = Vector.ofFn fun i : Fin 32 => undefWord s (56 + i.1) := rfl
  have mov : (startTask e s).core.d = Vector.ofFn fun i : Fin 32 => undefWord s (88 + i.1) := rfl
  simp [acs, mov, hi, undefWord_det s h]

theorem startTask_vectors_det (h : s.myJob.det = true) {i : Nat} (hi : i < 192) : (startTask e s).core.v[i]? = some 0 := by
  have vec : (startTask e s).core.v = Vector.ofFn fun i : Fin 192 => undefVec s i.1 := rfl
  simp [vec, hi, undefVec_det s h]

theorem startTask_queues : (∀ r ∈ (startTask e s).core.rings.toList, r = none)
    ∧ (∀ l ∈ (startTask e s).core.lq.toList, l = []) ∧ ∀ l ∈ (startTask e s).core.sq.toList, l = [] := by
  have rings : (startTask e s).core.rings = Vector.replicate 8 none := rfl
  have lq : (startTask e s).core.lq = Vector.replicate 8 [] := rfl
  have sq : (startTask e s).core.sq = Vector.replicate 4 [] := rfl
  simp [rings, lq, sq]

theorem startTask_mask : (startTask e s).core.m[0]? = some (BitVec.allOnes 8192) := by
  have masks : (startTask e s).core.m = Vector.ofFn fun i : Fin 16 =>
    if i.1 = 0 then BitVec.allOnes 8192 else (undefVec s (192 + i.1)).setWidth 8192 := rfl
  simp [masks]

end

/-- The dispatch of a rank's chosen continuation to the focused core: the entry leaves its table, and the task begins. -/
theorem taskDispatch_next {s : State} {job rank : Nat} {k : Rank} {x : Ready} (hk : s.rank? job rank = some k)
    (hd : dispatchOf s job rank = some (s.core, x)) : exec (.taskDispatch job rank) s = .next (startTask x.e (takeEntry k x s)) := by
  have phys : (takeEntry k x s).core.phys = s.core.phys := congrArg (·.phys) (takeEntry_kept k x s)
  have here : (takeEntry k x s).atCore s.core.phys (startTask x.e) = startTask x.e (takeEntry k x s) := by
    rw [← phys]
    exact atCore_self (startTask_phys ..)
  change execTaskDispatch job rank s = _
  simp only [execTaskDispatch, hd, hk, here]

theorem taskDispatch_runs {s : State} {job rank : Nat} {k : Rank} {x : Ready} (hk : s.rank? job rank = some k)
    (hd : dispatchOf s job rank = some (s.core, x)) (hj : s.core.job = job) (hr : s.core.rank = rank) :
     Runs (.taskDispatch job rank) s fun t =>
       t.core.ctl.run = true ∧ t.core.ctl.line = x.e.cont ∧ t.core.ctl.lane = 1 ∧ t.core.ctl.loops = []
       ∧ t.core.ctl.ready = s.now + 24 ∧ t.core.acs.run = false ∧ t.core.vec.run = false ∧ t.core.mov.run = false
       ∧ t.core.stage = some x.e.stage ∧ t.core.taskId = s.core.taskId + 1
       ∧ (∀ i < 8, t.core.getS (i + 1) = x.e.save[i]?.getD 0)
       ∧ (s.myJob.det = true → (∀ i, 9 ≤ i → i < 56 → t.core.getS i = 0) ∧ (∀ i < 32, t.core.a[i]? = some 0 ∧ t.core.d[i]? = some 0)
           ∧ ∀ i < 192, t.core.v[i]? = some 0)
       ∧ t.core.m[0]? = some (BitVec.allOnes 8192)
       ∧ t.core.latC = [] ∧ t.core.latA = [] ∧ t.core.latV = [] ∧ t.core.latM = []
       ∧ (∀ r ∈ t.core.rings.toList, r = none) ∧ (∀ l ∈ t.core.lq.toList, l = []) ∧ (∀ l ∈ t.core.sq.toList, l = [])
       ∧ t.core.uie = false ∧ t.core.uh = false ∧ t.core.divz = false ∧ t.core.atomGroup = 0
       ∧ t.core.atomOrder = s.core.coreId.setWidth 16
       ∧ (∀ i < 32, (slotAt t i).st = (if s.core.cmds.any (·.namesSlot i) then .nest else .free))
       ∧ (∀ i < 32, x.ix = 32 * s.core.coreId.toNat + i → t.core.watch[i]? = some none) := by
  let u := takeEntry k x s
  have kept : u.core.kept = s.core.kept := takeEntry_kept k x s
  have ready : u.now + 24 = s.now + 24 := congrArg (· + 24) (takeEntry_now k x s)
  have det (h : s.myJob.det = true) : u.myJob.det = true := (takeEntry_det k x s).trans h
  have task : u.core.taskId = s.core.taskId := congrArg (·.taskId) kept
  have coreId : u.core.coreId = s.core.coreId := congrArg (·.coreId) kept
  have cmds : u.core.cmds = s.core.cmds := congrArg (·.cmds) kept
  have owned : State.owned k.job k.rank s.core = true := by
    have found := List.find?_some hk
    simp only [Bool.and_eq_true, beq_iff_eq] at found
    simp [State.owned, hj, hr, found]
  obtain ⟨rings, lq, sq⟩ := startTask_queues x.e u
  exact ⟨_, taskDispatch_next hk hd, rfl, rfl, rfl, rfl, ready, rfl, rfl, rfl, rfl, task ▸ startTask_taskId x.e u,
    fun i hi => startTask_saved x.e u hi,
    fun h => ⟨fun i => startTask_getS_det x.e u (det h), fun i => startTask_scalars_det x.e u (det h),
      fun i => startTask_vectors_det x.e u (det h)⟩,
    startTask_mask x.e u, rfl, rfl, rfl, rfl, rings, lq, sq, rfl, rfl, rfl, rfl, coreId ▸ startTask_atomOrder x.e u,
    fun i hi => cmds ▸ startTask_slot x.e u hi,
    fun i hi hx => (congrArg (·[i]?) (startTask_watch x.e u)).trans (takeEntry_watch k x s owned hi hx)⟩

/-- Settles O35: the dispatch of a task from what taking the entry and starting the task leave; the arrivals, releases and replies
from what each event does where it is enabled; the batch from what stores into the fault ring leave. -/
theorem tasksAndArrivals : Obligations.TasksAndArrivals := by
  unfold Obligations.TasksAndArrivals
  refine ⟨fun s job rank k x hk hd hj hr => taskDispatch_runs hk hd hj hr, fun s => ⟨fun e m => markerReachHead_next,
    trigRelease_next, ?_, fun job rank c f => forwardReply_core, fun job rank k f => forwardReply_rank,
    fun t0 hat hne hdue => faultBatchClose_runs (batchDue_of hat hne hdue) rfl⟩⟩
  intro job rank g step jb gr hj hg ha
  exact ⟨barvArrive_far hj hg ha, fun k b => barvArrive_runs hj hg ha⟩

end Sys2Proof.Machine
end

section
/-!
PROOFS. Deterministic requests of CTL (O11): which check answers first, and what a request that passes leaves.
-/
namespace Sys2Proof.Machine

/-! ## What a request that passes leaves (04 R112, R115) -/

/-- The request of CTL on word w, in interval p, for a result at res. -/
def ctlDet (s : State) (op : Option AtomSel) (x e : Word) (addr res p : Nat) (w : Nat × Nat) : Det :=
  { rank := s.core.rank, core := s.core.coreId.toNat, task := s.core.taskId, order := s.core.atomOrder.toNat, mov := false
    idx := s.core.detC, g := s.core.atomGroup.toNat, phase := p, trank := w.1, tva := w.2, fva := addr, op := op, x := x, exp := e
    res := res, seq := 0 }

/-- The chip that holds the target of CTL's request hears of it; a cold rank of this chip gets WAKE. -/
def tellDet (d : Det) (s : State) : State :=
  let ask : List Nat := [5, d.core, d.task, d.order, 0, d.idx, d.g, d.phase, (d.op.map AtomSel.code).getD 9, d.x.toNat, d.exp.toNat, d.res]
  if (s.rank? s.core.job d.trank).isNone then
    sendFlit s { s.req 0 with ask := ask } d.trank (fabLo + d.trank * 2 ^ 33 + (d.tva - (placeOf s s.core.job d.trank).exportBase.toNat)) 8 true
  else wakeCold s.core.job d.trank s

/-- CTL's request stands last in its job's list. -/
def fileDet (d : Det) (s : State) : State :=
  (s.modMyJob fun j => { j with dets := j.dets ++ [d] }).modCore fun c => { c with detC := c.detC + 1 }

section
variable (s : State)

theorem sendOn_core (c : Nat) (k : Option Nat) (body : List Nat) : (sendOn c k body s).core = s.core := by
  cases k <;> rfl

theorem sendFlit_core (r : Req) (t va n : Nat) (wr : Bool) : (sendFlit s r t va n wr).core = s.core := by
  unfold sendFlit
  split
  · rfl
  · exact sendOn_core ..

theorem tellPlace_core (j r : Nat) (e : PlaceEntry) : (tellPlace j r e s).core = s.core := by
  unfold tellPlace
  induction farChips s j generalizing s with
  | nil => rfl
  | cons c l ih => exact ih _

theorem wakeCold_core (j r : Nat) : (wakeCold j r s).core = s.core := by
  simp only [wakeCold]
  split
  · exact tellPlace_core ..
  · rfl

theorem tellDet_core (d : Det) : (tellDet d s).core = s.core := by
  simp only [tellDet]
  split
  · exact sendFlit_core ..
  · exact wakeCold_core ..

/-- A warm rank of this chip has nothing to hear. -/
theorem tellDet_warm {d : Det} (h : ((s.rank? s.core.job d.trank).any fun k => !k.cold) = true) : tellDet d s = s := by
  cases hk : s.rank? s.core.job d.trank with
  | none => simp [hk] at h
  | some k =>
    have warm : k.cold = false := by simpa [hk] using h
    simp [tellDet, wakeCold, hk, warm]

theorem sendOn_tells (c : Nat) (k : Option Nat) (body : List Nat) :
    ∃ m ∈ (sendOn c k body s).chip.outbox, m.kind = .fabric ∧ m.args.head? = some c := by
  cases k <;> exact ⟨_, List.mem_append_right _ (List.mem_singleton_self _), rfl, rfl⟩

theorem tellDet_far {d : Det} {c : Nat} (h : farChip s s.core.job d.trank = some c) :
    ∃ m ∈ (tellDet d s).chip.outbox, m.kind = .fabric ∧ m.args.head? = some c := by
  have away : (s.rank? s.core.job d.trank).isNone = true := by
    cases hk : s.rank? s.core.job d.trank with
    | none => rfl
    | some k => simp [farChip, hk] at h
  have far (r : Req) (hr : r.job = s.core.job) : farChip s r.job d.trank = some c := hr ▸ h
  rw [tellDet, if_pos away, sendFlit, far _ rfl]
  exact sendOn_tells ..

end

/-! ## The checks in their order (04 R112; 08 R235) -/

section
variable {s : State} {q : Seqr} {op : Option AtomSel} {x e : Word} {addr res : Nat} {n : W32} {f : Flt} {w : Nat × Nat} {gr : Group}

theorem detRequest_invalid (h : accCheck s addr 8 = some f) : detRequest q op x e addr res n s = .error f := by
  simp only [detRequest, h]

variable (hv : accCheck s addr 8 = none)
include hv

theorem detRequest_unplaced (h : detWord s q addr = .error f) : detRequest q op x e addr res n s = .error f := by
  simp only [detRequest, hv, h]

variable (hw : detWord s q addr = .ok w)
include hw

theorem detRequest_poisoned (h : detPoison s q addr = some f) : detRequest q op x e addr res n s = .error f := by
  simp only [detRequest, hv, hw, h]

variable (hp : detPoison s q addr = none)
include hp

/-- The issuer is of no such group. -/
theorem detRequest_stranger (h : ∀ gr, s.myJob.group? s.core.atomGroup.toNat = some gr → s.core.rank ∉ gr.memb) :
    detRequest q op x e addr res n s = .error ⟨.detGroup, 0, none⟩ := by
  simp only [detRequest, hv, hw, hp]
  cases hg : s.myJob.group? s.core.atomGroup.toNat with
  | none => rfl
  | some gr => simp [h gr hg]

variable (hg : s.myJob.group? s.core.atomGroup.toNat = some gr) (hm : s.core.rank ∈ gr.memb)
include hg hm

theorem detRequest_resultHole (h : 2 ^ 52 ≤ res) : detRequest q op x e addr res n s = .error ⟨.vaHole, res % 2 ^ 52, none⟩ := by
  simp only [detRequest, hv, hw, hp, hg, List.contains_iff_mem.2 hm, h, if_true, Bool.not_true, Bool.false_eq_true, if_false]

variable (hr : ¬ 2 ^ 52 ≤ res)
include hr

theorem detRequest_resultUnmapped {c : Cause} (hc : c = .vaHole ∨ c = .spadHole) (h : regionOf s.myJob.width s.myJob.v res 8 = .error c) :
    detRequest q op x e addr res n s = .error ⟨c, res, none⟩ := by
  rcases hc with rfl | rfl <;>
    simp only [detRequest, hv, hw, hp, hg, List.contains_iff_mem.2 hm, hr, h, Bool.not_true, Bool.false_eq_true, if_false]

theorem detRequest_resultElsewhere (hvoid : regionOf s.myJob.width s.myJob.v res 8 ≠ .error .vaHole)
    (hhole : regionOf s.myJob.width s.myJob.v res 8 ≠ .error .spadHole)
    (hspad : ∀ o, regionOf s.myJob.width s.myJob.v res 8 ≠ .ok (.spad o)) :
    detRequest q op x e addr res n s = .error ⟨.detResult, res, none⟩ := by
  simp only [detRequest, hv, hw, hp, hg, List.contains_iff_mem.2 hm, hr, Bool.not_true, Bool.false_eq_true, if_false]
  split
  case h_1 void => exact absurd void hvoid
  case h_2 hole => exact absurd hole hhole
  case h_3 | h_4 | h_5 => rfl
  case h_6 o spad => exact absurd spad (hspad o)

/-- A request of CTL whose result goes to a scratchpad. -/
theorem detRequest_spad {o : Nat} (h : regionOf s.myJob.width s.myJob.v res 8 = .ok (.spad o)) (hq : q = .ctl) (hn : n = 0) :
    detRequest q op x e addr res n s =
      if res % 8 ≠ 0 then .error ⟨.memAlign, res, none⟩
      else if 256 ≤ (s.myJob.dets.filter fun d => d.rank == s.core.rank && d.core == s.core.coreId.toNat).length then
        .error ⟨.detLimit, 0, none⟩
      else if s.myJob.det = true ∧ (∃ d ∈ s.myJob.dets, d.trank = w.1 ∧ d.tva = w.2 ∧ d.g ≠ s.core.atomGroup.toNat) then
        .error ⟨.detViolation, addr, none⟩
      else
        let d := ctlDet s op x e addr res (gr.openPhase s.core.rank) w
        .ok (fileDet d (tellDet d s)) := by
  subst hq hn
  have clash : (s.myJob.det && s.myJob.dets.any fun d => d.trank == w.1 && d.tva == w.2 && d.g != s.core.atomGroup.toNat) = true
      ↔ s.myJob.det = true ∧ ∃ d ∈ s.myJob.dets, d.trank = w.1 ∧ d.tva = w.2 ∧ d.g ≠ s.core.atomGroup.toNat := by
    simp [and_assoc]
  simp only [detRequest, hv, hw, hp, hg, List.contains_iff_mem.2 hm, hr, h, clash, Bool.not_true, Bool.false_eq_true, if_false]
  rfl

end

/-! ## CTL's request at issue (08 R238) -/

/-- How CTL ends the issue of a request. -/
def askEnd (n : Nat) (x : Except Flt State) (s : State) : Host.Outcome State Fault Refusal :=
  match x with
  | .error f => .next (takeTrap .ctl f 0 s)
  | .ok t => .next (issued .ctl n 1 t)

/-- Nothing is owed to s0. -/
theorem readSrc_s0 (s : State) : ∃ y, readSrc s .ctl (.r 0) = .val y := by
  have unowed : owes s .ctl (regIx s.core .ctl 0) = false := by
    have : regIx s.core .ctl 0 = 0 ∨ regIx s.core .ctl 0 = 64 := by simp [regIx, ctlIx]
    rcases this with h | h <;> rw [h] <;> rfl
  unfold readSrc
  cases capOf s .ctl (.r 0) with
  | some y => exact ⟨y, rfl⟩
  | none => exact ⟨_, if_neg (by simpa using unowed)⟩

section
variable {s : State} {r a b : Src} {res addr x : Word} (hr : readSrc s .ctl r = .val res) (ha : readSrc s .ctl a = .val addr)
  (hb : readSrc s .ctl b = .val x) (hgo : mayGo s (s.req 0) (.read 8) addr.toNat 8 = true)
include hr ha hb hgo

theorem detIssue_asks {c : Option Src} {y : Word} (hc : readSrc s .ctl (c.getD (.r 0)) = .val y) (n : Nat) (op : Option AtomSel) :
    finish .ctl (detIssue n op r a b c s) = askEnd n (detRequest .ctl op (if op.isSome then x else y) (if op.isSome then 0 else x)
      addr.toNat res.toNat 0 s) s := by
  simp only [detIssue, withSrc_val hr, withSrc_val ha, withSrc_val hb, withSrc_val hc, hgo, Bool.not_true, Bool.false_eq_true, if_false]
  cases op with
  | none =>
    simp only [Option.isSome_none, Bool.false_eq_true, if_false]
    cases detRequest .ctl none y x addr.toNat res.toNat 0 s <;> rfl
  | some op =>
    simp only [Option.isSome_some, if_true]
    cases detRequest .ctl (some op) x 0 addr.toNat res.toNat 0 s <;> rfl

theorem atomDet_asks (op : AtomSel) :
    exec (.atomDet op r a b) s = askEnd 1 (detRequest .ctl (some op) x 0 addr.toNat res.toNat 0 s) s := by
  obtain ⟨y, hy⟩ := readSrc_s0 s
  exact detIssue_asks hr ha hb hgo (c := none) hy 1 (some op)

theorem casDet_asks {c : Src} {y : Word} (hc : readSrc s .ctl c = .val y) :
    exec (.casDet r a b c) s = askEnd 2 (detRequest .ctl none y x addr.toNat res.toNat 0 s) s :=
  detIssue_asks hr ha hb hgo (c := some c) hc 2 none

end

/-- A request that is filed: what the statement asks of the state in which CTL goes on. -/
theorem filed_runs {s : State} {i : Instr} {n : Nat} {d : Det}
    (run : exec i s = .next (issued .ctl n 1 (fileDet d (tellDet d s)))) :
    let u := tellDet d s
    Runs i s fun t =>
      t.jobs = u.jobs.map (fun j => if j.num = s.core.job then { j with dets := j.dets ++ [d] } else j)
      ∧ t.core.detC = s.core.detC + 1 ∧ GoesOn .ctl n 1 u t ∧ NoResult .ctl u t
      ∧ (((s.rank? s.core.job d.trank).any fun k => !k.cold) = true → u = s)
      ∧ (∀ c, farChip s s.core.job d.trank = some c → ∃ m ∈ t.chip.outbox, m.kind = .fabric ∧ m.args.head? = some c)
      ∧ t = { u with core := { s.core with ctl := t.core.ctl, detC := t.core.detC }, jobs := t.jobs } := by
  have core : (tellDet d s).core = s.core := tellDet_core s d
  refine ⟨_, run, ?_, congrArg (·.detC + 1) core, rfl, ⟨fun _ => rfl, rfl, rfl⟩, tellDet_warm s, fun c => tellDet_far s, ?_⟩
  · rw [← core]
    rfl
  · rw [← core]
    rfl

/-- Settles O11: each check that fails ends the issue with its cause, and a request that passes them all is filed. -/
theorem deterministicRequestsWait : Obligations.DeterministicRequestsWait := by
  unfold Obligations.DeterministicRequestsWait
  intro s r a b c res addr x y hr ha hb hc co mine hgo traps asks
  have all {i : Instr} {n : Nat} {op : Option AtomSel} {operand expected : Word}
      (run : exec i s = askEnd n (detRequest .ctl op operand expected addr.toNat res.toNat 0 s) s) : asks i n op operand expected := by
    have fails {f : Flt} (h : detRequest .ctl op operand expected addr.toNat res.toNat 0 s = .error f) : traps i f := by
      change exec i s = _
      rw [run, h]
      rfl
    refine ⟨fun f h => fails (detRequest_invalid h), fun hv => ⟨fun f h => fails (detRequest_unplaced hv h), fun w hw =>
      ⟨fun f h => fails (detRequest_poisoned hv hw h), fun hp => ?_⟩⟩⟩
    split
    case isTrue stranger => exact fails (detRequest_stranger hv hw hp stranger)
    case isFalse known =>
    obtain ⟨gr, hg, hm⟩ : ∃ gr, s.myJob.group? s.core.atomGroup.toNat = some gr ∧ s.core.rank ∈ gr.memb := by
      simpa [co] using known
    split
    case isTrue far => exact fails (detRequest_resultHole hv hw hp hg hm far)
    case isFalse near =>
    split
    case h_1 region => exact fails (detRequest_resultUnmapped hv hw hp hg hm near (.inl rfl) region)
    case h_2 region => exact fails (detRequest_resultUnmapped hv hw hp hg hm near (.inr rfl) region)
    case h_3 o region =>
      have request := detRequest_spad (op := op) (x := operand) (e := expected) hv hw hp hg hm near region rfl rfl
      split
      case isTrue odd => exact fails (by rw [request, if_pos odd])
      case isFalse even =>
      rw [if_neg even] at request
      split
      case isTrue full => exact fails (by rw [request, if_pos full])
      case isFalse room =>
      rw [if_neg room] at request
      split
      case isTrue clash => exact fails (by rw [request, if_pos clash])
      case isFalse free =>
      rw [if_neg free] at request
      intro gr' hg'
      cases hg.symm.trans hg'
      rw [request] at run
      exact filed_runs run
    case h_4 void hole elsewhere =>
      exact fails (detRequest_resultElsewhere hv hw hp hg hm near void hole elsewhere)
  exact ⟨fun op => all (atomDet_asks hr ha hb hgo op), all (casDet_asks hr ha hb hgo hc)⟩

end Sys2Proof.Machine
end

section
/-!
PROOFS. Jobs through the operations of a boundary and of a rollback (O41): what a lookup finds after an update, what storing to a rank's
memory leaves, and what reading a rank's memory leaves of the job.
-/
namespace Sys2Proof.Machine

/-! ## Lookups after updates -/

section
variable {s t : State} {j : Nat} {x : Job}

theorem job?_num (h : s.job? j = some x) : x.num = j := by simpa using List.find?_some h

theorem modJob_job? {f : Job → Job} (hf : ∀ y, (f y).num = y.num) (i : Nat) :
    (s.modJob j f).job? i = (s.job? i).map fun y => if y.num = j then f y else y := by
  have num (y : Job) : (if y.num = j then f y else y).num = y.num := by
    split
    · exact hf y
    · rfl
  simp only [State.job?, State.modJob_jobs, List.find?_map, Function.comp_def, num]

theorem modJob_job?_same {f : Job → Job} (hf : ∀ y, (f y).num = y.num) (h : s.job? j = some x) : (s.modJob j f).job? j = some (f x) := by
  simp [modJob_job? hf, h, job?_num h]

theorem job?_of_jobs (h : t.jobs = s.jobs) (i : Nat) : t.job? i = s.job? i := by
  rw [State.job?, h]
  rfl

/-- What every step of a fold leaves as it was, the fold does. -/
theorem foldl_keeps {α β γ : Type} (view : β → γ) {f : β → α → β} (h : ∀ b a, view (f b a) = view b) (l : List α) (b : β) :
    view (l.foldl f b) = view b := by
  induction l generalizing b with
  | nil => rfl
  | cons a l ih => exact (ih _).trans (h b a)

theorem group?_g {g : Nat} {gr : Group} (h : x.group? g = some gr) : gr.g = g := by simpa using List.find?_some h

end

/-! ## What storing to a rank's memory leaves -/

/-- The machine without what storing bytes to a rank's memory may change: translation, the bytes and their log, and the watch. -/
def State.steady (s : State) : State := s.still.bare

section
variable {s t : State}

theorem steady_job {j : Nat} {x : Job} (h : t.steady = s.steady) (hx : s.job? j = some x) :
    ∃ y, t.job? j = some y ∧ y.still = x.still := by
  have find (u : State) : (u.job? j).map Job.still = u.steady.job? j := by
    simp only [State.job?, State.steady, State.bare, State.still, List.find?_map]
    rfl
  have same : (t.job? j).map Job.still = some x.still := by rw [find, h, ← find, hx, Option.map_some]
  exact Option.map_eq_some_iff.1 same

theorem steady_now (h : t.steady = s.steady) : t.now = s.now := congrArg (·.chip.ticks) h

theorem writeMem_steady {r : Req} {va : Nat} {bs : List Byte} (h : writeMem s r va bs = .ok t) : t.steady = s.steady := by
  unfold writeMem at h
  split at h
  · cases h
  · rename_i u ps found
    split at h
    · cases h
    · cases h
      have stored : (writePieces u ps bs).still = s.still := (writePieces_still ..).trans (access_still found)
      show (writePieces u ps bs).still.bare = s.still.bare
      rw [stored]

theorem putSys_steady (s : State) (j r va : Nat) (bs : List Byte) : (putSys s j r va bs).steady = s.steady := by
  unfold putSys
  split
  · exact writeMem_steady ‹_›
  · rfl

theorem putPhase_steady (j g p : Nat) (s : State) (r : Nat) : (putPhase j g p s r).steady = s.steady := by
  unfold putPhase
  split
  · rfl
  · split
    · exact writeMem_steady ‹_›
    · rfl

theorem putG0_steady (j p : Nat) (s : State) (r : Nat) : (putG0 j p s r).steady = s.steady := by
  unfold putG0
  have word := putPhase_steady j 0 p s r
  simp only
  split
  · exact word
  · split
    · exact word
    · exact (putSys_steady ..).trans word

theorem captureCore_steady (s : State) (c : Core) : (captureCore s c).steady = s.steady :=
  foldl_keeps State.steady (fun _ _ => putSys_steady ..) ..

theorem captureTables_steady (s : State) (x : Job) (k : Rank) (n : Nat) : (captureTables s x k n).steady = s.steady :=
  (foldl_keeps State.steady (fun _ _ => putSys_steady ..) ..).trans (foldl_keeps State.steady (fun _ _ => putSys_steady ..) ..)

end

/-! ## What reading a rank's memory leaves of its job -/

/-- A placement entry without what an access and a return to other cores may change. -/
def settledEntry (e : PlaceEntry) : PlaceEntry := { e with ocol := 0, orow := 0, wake := false }

/-- A job without its poison, and without where and whether awake its ranks are. -/
def Job.settled (x : Job) : Job := { x with place := x.place.map settledEntry, poisoned := [] }

/-- The jobs so. -/
def State.settled (s : State) (j : Nat) : Option Job := (s.job? j).map Job.settled

section
variable {s t : State}

theorem settled_of_jobs (h : t.jobs = s.jobs) : t.settled = s.settled :=
  funext fun j => congrArg (Option.map Job.settled) (job?_of_jobs h j)

theorem setPlace_settled {j r : Nat} {f : PlaceEntry → PlaceEntry} (h : settledEntry (f (placeOf s j r)) = settledEntry (placeOf s j r)) :
    (setPlace s j r f).settled = s.settled := by
  funext i
  simp only [State.settled, setPlace]
  rw [modJob_job?]
  case hf => exact fun _ => rfl
  cases hx : s.job? i with
  | none => rfl
  | some x =>
    simp only [Option.map_some, Option.some.injEq]
    split
    case isFalse => rfl
    case isTrue num =>
    have entries : (x.place.mapIdx fun i e => if i = r then f e else e).map settledEntry = x.place.map settledEntry := by
      refine List.ext_getElem? fun n => ?_
      simp only [List.getElem?_map, List.getElem?_mapIdx]
      cases hn : x.place[n]? with
      | none => rfl
      | some e =>
        by_cases here : n = r
        · have entry : placeOf s j r = e := by simp [placeOf, ← num, job?_num hx, hx, ← here, hn]
          simpa [here, entry] using h
        · simp [here]
    exact congrArg (fun l => { x with place := l, poisoned := [] }) entries

theorem settled_job {j : Nat} {x : Job} (h : t.settled = s.settled) (hx : s.job? j = some x) :
    ∃ y, t.job? j = some y ∧ y.settled = x.settled := by
  have same : t.settled j = some x.settled := by rw [h, State.settled, hx, Option.map_some]
  exact Option.map_eq_some_iff.1 same

/-- Whether a rank is withdrawn does not rest on what reading changes. -/
theorem settled_state {x y : Job} (h : y.settled = x.settled) (r : Nat) : (y.place[r]?.getD {}).state = (x.place[r]?.getD {}).state := by
  have view (z : Job) : (z.place[r]?.getD {}).state = (z.settled.place[r]?.getD {}).state := by
    simp only [Job.settled, List.getElem?_map]
    cases z.place[r]? <;> rfl
  rw [view y, h, ← view x]

theorem placeOf_job {j r : Nat} {x : Job} (h : s.job? j = some x) : placeOf s j r = x.place[r]?.getD {} := by
  simp only [placeOf, h, Option.getD_some]

theorem enterLeaf_jobs (s : State) (r : Req) (va : Nat) (l : Leaf) : (enterLeaf s r va l).1.jobs = s.jobs := by
  simp only [enterLeaf]
  split <;> split <;> split <;> rfl

theorem prefetch_jobs (s : State) (r : Req) (va n : Nat) : (prefetch s r va n).jobs = s.jobs := by
  unfold prefetch
  repeat' split
  all_goals first | rfl | exact enterLeaf_jobs ..

theorem walkLeaf_jobs {r : Req} {va : Nat} {k : Kind} {x : State × Leaf} (h : walkLeaf s r va k = .ok x) : x.1.jobs = s.jobs := by
  unfold walkLeaf at h
  split at h
  · cases h
  · cases h
    exact enterLeaf_jobs ..

theorem findLeaf_jobs {r : Req} {va : Nat} {k : Kind} {x : State × Leaf} (h : findLeaf s r va k = .ok x) : x.1.jobs = s.jobs := by
  unfold findLeaf at h
  split at h
  · exact walkLeaf_jobs h
  · split at h
    · cases h
      rfl
    · exact walkLeaf_jobs h

theorem leafFor_jobs {r : Req} {va n : Nat} {k : Kind} {x : State × Leaf} (h : leafFor s r va n k = .ok x) : x.1.jobs = s.jobs := by
  unfold leafFor at h
  split at h
  · cases h
  · rename_i found
    have ahead := (prefetch_jobs _ r va n).trans (findLeaf_jobs found)
    simp only at h
    split at h <;> cases h <;> exact ahead

theorem sendOn_jobs (c : Nat) (k : Option Nat) (body : List Nat) (s : State) : (sendOn c k body s).jobs = s.jobs := by
  cases k <;> rfl

theorem sendFlit_jobs (s : State) (r : Req) (t va n : Nat) (wr : Bool) : (sendFlit s r t va n wr).jobs = s.jobs := by
  unfold sendFlit
  split
  · rfl
  · exact sendOn_jobs ..

theorem sendMoved_jobs (s : State) (r : Req) (t o n va : Nat) (wr : Bool) : (sendMoved s r t o n va wr).jobs = s.jobs := by
  unfold sendMoved
  split
  · rfl
  · exact sendOn_jobs ..

theorem tellPlace_jobs (j r : Nat) (e : PlaceEntry) (s : State) : (tellPlace j r e s).jobs = s.jobs := by
  refine foldl_keeps State.jobs (fun _ _ => ?_) ..
  rfl

theorem wakeCold_settled (j r : Nat) (s : State) : (wakeCold j r s).settled = s.settled := by
  simp only [wakeCold]
  split
  · exact (settled_of_jobs (tellPlace_jobs ..)).trans (setPlace_settled rfl)
  · rfl

theorem serveExport_settled {r : Req} {t o n fva : Nat} {k : Kind} {x : State × Piece} (h : serveExport s r t o n fva k = .ok x) :
    x.1.settled = s.settled := by
  unfold serveExport at h
  simp only at h
  split at h
  · split at h <;> cases h
    exact settled_of_jobs (sendFlit_jobs ..)
  · split at h
    · cases h
    · rename_i found
      split at h
      · cases h
      · split at h <;> cases h
        exact ((settled_of_jobs (sendMoved_jobs ..)).trans (wakeCold_settled ..)).trans (settled_of_jobs (leafFor_jobs found))

theorem locate_settled {r : Req} {va n : Nat} {k : Kind} {x : State × Piece} (h : locate s r va n k = .ok x) :
    x.1.settled = s.settled := by
  unfold locate at h
  split at h
  · cases h
  · cases h
    rfl
  · exact serveExport_settled h
  · split at h
    · cases h
    · rename_i e
      have found := settled_of_jobs (leafFor_jobs e)
      simp only at h
      split at h
      · cases h
      · split at h
        · split at h
          · cases h
          · split at h
            · cases h
            · exact (serveExport_settled h).trans found
        · cases h
          exact found

theorem locateAll_settled (k : Kind) (fuel : Nat) : ∀ {s : State} {r : Req} {va n : Nat} {x : State × List Piece},
    locateAll s r k fuel va n = .ok x → x.1.settled = s.settled := by
  induction fuel with
  | zero =>
    intro s r va n x h
    cases h
    rfl
  | succ fuel ih =>
    intro s r va n x h
    simp only [locateAll] at h
    split at h
    · cases h
      rfl
    · split at h
      · cases h
      · rename_i first
        split at h
        · cases h
        · rename_i rest
          cases h
          exact (ih rest).trans (locate_settled first)

theorem readMem_settled {r : Req} {va n : Nat} {x : State × List Byte} (hr : r.agent = false) (h : readMem s r va n = .ok x) :
    x.1.settled = s.settled := by
  unfold readMem access at h
  simp only [hr, Bool.false_eq_true, if_false] at h
  cases region : regionOf r.width r.v va n with
  | error c => simp [region] at h
  | ok reg =>
    simp only [region] at h
    split at h
    · cases h
    · rename_i found
      split at h <;> cases h
      exact locateAll_settled .read _ found

theorem loadDrain_settled (s : State) (j r : Nat) : (loadDrain s j r).settled = s.settled := by
  unfold loadDrain
  split
  · rfl
  · split
    · rfl
    · rename_i read
      have kept := readMem_settled rfl read
      exact kept

end

end Sys2Proof.Machine
end

section
/-!
PROOFS. Phases complete; step boundaries quiesce, capture, commit and roll back (O41).
-/
namespace Sys2Proof.Machine

/-! ## A phase is over (04 R112 to R114; 08 R249; 09 R287) -/

section
variable {s : State} {j g : Nat} {x : Job} {gr : Group}

/-- The close of an interval without requests leaves the groups. -/
theorem closeDets_groups (hj : s.job? j = some x) (hd : x.dets = []) (p : Nat) :
    ∃ y, (closeDets j g p s).job? j = some y ∧ y.groups = x.groups := by
  have quiet : closeDets j g p s = s.modJob j fun y => { y with dets := y.dets.filter fun d => !(d.g == g && d.phase == p) } := by
    simp [closeDets, hj, hd, sortDets, detWords]
  rw [quiet]
  exact ⟨_, modJob_job?_same (fun _ => rfl) hj, rfl⟩

theorem nameMembers_groups (memb : List Nat) (hj : s.job? j = some x) :
    ∃ y, (nameMembers j g memb s).job? j = some y ∧ y.groups = x.groups :=
  ⟨_, modJob_job?_same (fun _ => rfl) hj, rfl⟩

theorem phaseOver_groups (hj : s.job? j = some x) (hd : x.dets = []) :
    ∃ lost y, (phaseOver j gr s).job? j = some y ∧ y.groups = x.groups.map fun z => if z.g = gr.g then z.next lost else z := by
  let u := closeDets j gr.g gr.phase s
  let lost (r : Nat) : Bool := (placeOf u j r).state == .withdrawn
  obtain ⟨z, closed, same⟩ : ∃ z, u.job? j = some z ∧ z.groups = x.groups := closeDets_groups hj hd _
  have moved : (modGroup u j gr.g (Group.next lost)).job? j = some _ := modJob_job?_same (fun _ => rfl) closed
  obtain ⟨y, named, groups⟩ := nameMembers_groups (g := gr.g) (gr.next lost).memb moved
  have next : y.groups = x.groups.map fun z => if z.g = gr.g then z.next lost else z := by rw [groups, ← same]
  unfold phaseOver
  simp only
  split
  case isTrue =>
    have due : ((nameMembers j gr.g (gr.next lost).memb (modGroup u j gr.g (Group.next lost))).modJob j (chkptAt gr.phase)).job? j
        = some (chkptAt gr.phase y) := modJob_job?_same (fun z => by unfold chkptAt; split <;> rfl) named
    refine ⟨lost, _, due, ?_⟩
    rw [← next]
    unfold chkptAt
    split <;> rfl
  case isFalse => exact ⟨lost, y, named, next⟩

theorem phaseOver_group (hj : s.job? j = some x) (hd : x.dets = []) (hg : x.group? g = some gr) {gr' : Group}
    (h : ((phaseOver j gr s).job? j).bind (·.group? g) = some gr') : gr'.phase = gr.phase + 1 ∧ gr'.arrived = [] ∧ gr'.edits = [] := by
  obtain ⟨lost, y, found, groups⟩ := phaseOver_groups (gr := gr) hj hd
  have num (z : Group) : (if z.g = gr.g then z.next lost else z).g = z.g := by split <;> rfl
  have next : y.group? g = some (gr.next lost) := by
    have first : x.groups.find? (·.g == g) = some gr := hg
    have search : ((fun z => z.g == g) ∘ fun z : Group => if z.g = gr.g then z.next lost else z) = fun z => z.g == g :=
      funext fun z => congrArg (· == g) (num z)
    rw [Job.group?, groups, List.find?_map, search, first, Option.map_some, if_pos rfl]
  rw [found, Option.bind_some, next] at h
  cases h
  exact ⟨rfl, rfl, rfl⟩

variable (hj : s.job? j = some x) (hg : x.group? g = some gr)
include hj hg

theorem phaseComplete_early (hr : phaseReady s j gr = false) : exec (.phaseComplete j g) s = .next s := by
  change execPhaseComplete j g s = _
  simp [execPhaseComplete, hj, hg, hr]

variable (hr : phaseReady s j gr = true) (hb : g ≠ 0 ∨ x.bound = none) (hl : gr.lastAt < s.now) (hs : detsStarted s j g gr.phase = true)
  (hf : ∀ y ∈ x.groups, y.g < g → phaseReady s j y = false ∨ (y.g = 0 ∧ x.bound.isSome = true))
include hr hb hl hs hf

/-- A complete phase whose turn it is ends: with a boundary, with a report of a mix, or with its words written alone. -/
theorem phaseComplete_next : exec (.phaseComplete j g) s =
    let told := gr.memb.foldl (putPhase j g (gr.phase + 1)) (phaseOver j gr s)
    if stepPhase gr then .next (startBoundary j (phaseOver j gr s))
    else if mixedPhase gr then .next ((localRanks told j).foldl (fun s r => reportItem s j r .barvMix 0) told) else .next told := by
  have first : (x.groups.all fun y => g ≤ y.g || !phaseReady s j y || (y.g == 0 && x.bound.isSome)) = true := by
    rw [List.all_eq_true]
    intro y hy
    by_cases before : y.g < g
    · rcases hf y hy before with h | h <;> simp [h]
    · simp [Nat.le_of_not_lt before]
  have free : (g == 0 && x.bound.isSome) = false := by
    rcases hb with h | h <;> simp [h]
  change execPhaseComplete j g s = _
  simp only [execPhaseComplete, hj, hg, hr, hs, first, free, Nat.not_le.2 hl, Bool.not_true, Bool.or_false, decide_false,
    Bool.false_eq_true, if_false]

end

/-! ## Boundaries (12 R346 to R348; 15 R417, R418) -/

section
variable {s : State} {j : Nat} {x y : Job} {b : Bound}

theorem resumeDispatch_jobs (j : Nat) (l : List Nat) (s : State) : (l.foldl (fun s r => resumeDispatch j r s) s).jobs = s.jobs := by
  refine foldl_keeps State.jobs (fun _ _ => ?_) ..
  rfl

/-- Part 9 counts the boundary and ends it. -/
theorem endBoundary_job (hj : s.job? j = some x) :
    ∃ y, (endBoundary j s).job? j = some y ∧ y.still = Job.still { x with stepNo := x.stepNo + 1, bound := none } := by
  let u := s.modJob j fun x => { x with stepNo := x.stepNo + 1, bound := none }
  have counted : u.job? j = some { x with stepNo := x.stepNo + 1, bound := none } := modJob_job?_same (fun _ => rfl) hj
  let p := (((u.job? j).bind (·.group? 0)).map (·.phase)).getD 0
  have words : ((localRanks u j).foldl (putG0 j p) u).steady = u.steady := foldl_keeps State.steady (fun _ _ => putG0_steady ..) ..
  obtain ⟨y, found, kept⟩ := steady_job words counted
  exact ⟨y, (job?_of_jobs (resumeDispatch_jobs ..) j).trans found, kept⟩

/-- A boundary that stands at part 9 ends. -/
theorem advance_end (hj : s.job? j = some x) (hb : x.bound = some b) (h9 : b.part = 9) (n : Nat) :
    advance (n + 1) j s = endBoundary j s := by
  simp only [advance, hj, Option.bind_some, hb, h9]

/-- Where no boundary is in progress nothing advances. -/
theorem advance_idle (h : (s.job? j).bind (·.bound) = none) (n : Nat) : advance n j s = s := by
  cases n with
  | zero => rfl
  | succ n => simp only [advance, h]

theorem rankQuiesced_next {rank : Nat} (hw : boundWaits s j rank = true) (hq : rankQuiet s j rank = true) :
    exec (.rankQuiesced j rank) s = .next (advance 8 j
      (modBound (((rankCores s j rank).foldl captureCore s).modRank j rank fun k => { k with quiet := true, capAt := s.now }) j
        fun b => { b with waiting := b.waiting.filter (· != rank) })) := by
  have now : ((rankCores s j rank).foldl captureCore s).now = s.now :=
    steady_now (foldl_keeps State.steady captureCore_steady ..)
  change execRankQuiesced j rank s = _
  simp only [execRankQuiesced, hw, hq, now, Bool.not_true, Bool.or_false, Bool.false_eq_true, if_false]

section
variable {rank : Nat} (hj : s.job? j = some x) (hl : migLate s j rank = true) (hb : x.bound = some b)
include hj hl hb

theorem migTimeout_drops (h : b.part ≠ 8) : exec (.migTimeout j rank) s = .next (advance 8 j (reportItem
    (modBound (resumeDispatch j rank (dropPlaceReq j rank s)) j fun b => { b with waiting := b.waiting.filter (· != rank) })
    j rank .migTimeout 0)) := by
  change execMigTimeout j rank s = _
  simp only [execMigTimeout, hl, hj, hb, h, Option.bind_some, Bool.not_true, Bool.false_eq_true, if_false]

/-- The close is put off: the boundary ends, and the next one closes. -/
theorem migTimeout_postpones (h : b.part = 8) : Runs (.migTimeout j rank) s fun t => ∀ y, t.job? j = some y →
    y.chkptDue = true ∧ y.ckptNo = x.ckptNo ∧ y.ckpt = x.ckpt ∧ y.bound = none ∧ y.stepNo = x.stepNo + 1 := by
  let u := modBound (s.modJob j fun x => { x with chkptDue := true }) j fun b => { b with part := 9, waiting := [], ckpt := false }
  let v := (localRanks u j).foldl (fun s r => resumeDispatch j r s) u
  have due : (s.modJob j fun x => { x with chkptDue := true }).job? j = some _ := modJob_job?_same (fun _ => rfl) hj
  have off : v.job? j = some _ := (job?_of_jobs (resumeDispatch_jobs ..) j).trans (modJob_job?_same (fun _ => rfl) due)
  obtain ⟨z, ended, kept⟩ := endBoundary_job off
  have run : exec (.migTimeout j rank) s = .next (endBoundary j v) := by
    rw [← advance_end off (congrArg (Option.map _) hb) rfl 7]
    change execMigTimeout j rank s = _
    simp only [execMigTimeout, hl, hj, hb, h, Option.bind_some, Bool.not_true, Bool.false_eq_true, if_false, if_true]
    rfl
  refine ⟨_, run, fun y hy => ?_⟩
  cases ended.symm.trans hy
  exact ⟨congrArg (·.chkptDue) kept, congrArg (·.ckptNo) kept, congrArg (·.ckpt) kept, congrArg (·.bound) kept, congrArg (·.stepNo) kept⟩

end

/-- A commit makes what the chip captures the job's checkpoint, and ends the boundary. -/
theorem checkpointCommit_runs (hj : s.job? j = some x) (hb : x.bound = some b) (h8 : b.part = 8) (hc : b.ckpt = true) (hw : b.waiting = []) :
    Runs (.checkpointCommit j) s fun t => ∀ y, t.job? j = some y → y.ckptNo = x.ckptNo + 1 ∧ y.bounds = 0 ∧ y.chkptDue = false
      ∧ y.bound = none ∧ y.stepNo = x.stepNo + 1
      ∧ ∃ c, y.ckpt = some c ∧ c.num = x.ckptNo + 1 ∧ c.groups = x.groups ∧ c.dets = x.dets := by
  let n := x.ckptNo + 1
  let u := (s.ranks.filter (·.job == j)).foldl (fun s k => captureTables s x k n) s
  have stored : u.steady = s.steady := foldl_keeps State.steady (fun _ _ => captureTables_steady ..) ..
  obtain ⟨x', found, same⟩ := steady_job stored hj
  let v := u.modJob j fun x => { x with ckptNo := n, ckpt := captureOf u j n, log := [], logFull := false, bounds := 0, chkptDue := false }
  have taken : v.job? j = some _ := modJob_job?_same (fun _ => rfl) found
  let w := modBound ((localRanks v j).foldl (fun s r => resumeDispatch j r s) v) j fun b => { b with part := 9, ckpt := false }
  have closing : w.job? j = some _ := modJob_job?_same (fun _ => rfl) ((job?_of_jobs (resumeDispatch_jobs ..) j).trans taken)
  obtain ⟨z, ended, kept⟩ := endBoundary_job closing
  have bound : x'.bound = some b := (congrArg (·.bound) same).trans hb
  have run : exec (.checkpointCommit j) s = .next (endBoundary j w) := by
    rw [← advance_end closing (congrArg (Option.map _) bound) rfl 7]
    change execCheckpointCommit j s = _
    simp only [execCheckpointCommit, hj, hb, h8, hc, hw]
    rfl
  have capture : captureOf u j n = some _ := congrArg (Option.map _) found
  refine ⟨_, run, fun y hy => ?_⟩
  cases ended.symm.trans hy
  exact ⟨congrArg (·.ckptNo) kept, congrArg (·.bounds) kept, congrArg (·.chkptDue) kept, congrArg (·.bound) kept,
    (congrArg (·.stepNo) kept).trans (congrArg (·.stepNo + 1) same),
    _, (congrArg (·.ckpt) kept).trans capture, rfl, congrArg (·.groups) same, congrArg (·.dets) same⟩

end

end Sys2Proof.Machine
end

section
/-!
PROOFS. Rollback gives the checkpoint's groups, requests and STEP_NO back (O41, its last part), and the whole of O41.
-/
namespace Sys2Proof.Machine

/-! ## Everything of the job stops (15 R421, step 1) -/

section
variable {s : State} {j : Nat} {x : Job}

theorem darkenLanes_jobs (p : Lane → Bool) (s : State) : (darkenLanes p s).jobs = s.jobs := by
  unfold darkenLanes
  refine foldl_keeps State.jobs (fun _ _ => ?_) ..
  unfold tellLane
  split <;> rfl

theorem abandonMove_jobs (m : Mig) (s : State) : (abandonMove m s).jobs = s.jobs := by
  refine (darkenLanes_jobs ..).trans ?_
  refine foldl_keeps State.jobs (fun _ _ => ?_) ..
  split
  · rfl
  · simp only
    split <;> rfl

theorem modBound_idle (f : Bound → Bound) (hj : s.job? j = some x) (hb : x.bound = none) : (modBound s j f).job? j = some x := by
  have same : ({ x with bound := x.bound.map f } : Job) = x := by
    cases x
    cases hb
    rfl
  rw [← same]
  exact modJob_job?_same (fun _ => rfl) hj

/-- The end of a move to another chip leaves a job that has no boundary in progress. -/
theorem settleLoss_job {m : Mig} (hm : m.job = j) (hi : m.inward = false) (ha : m.active = true) (hj : s.job? j = some x)
    (hb : x.bound = none) : (settleLoss m.chip m s).job? j = some x := by
  subst hm
  let u := resumeDispatch m.job m.rank (dropPlaceReq m.job m.rank (abandonMove m s))
  have left : u.job? m.job = some x := modBound_idle _ ((job?_of_jobs (abandonMove_jobs m s) m.job).trans hj) hb
  have idle : (u.job? m.job).bind (·.bound) = none := by rw [left, Option.bind_some, hb]
  have ends : settleLoss m.chip m s = advance 8 m.job u := by simp [settleLoss, hi, ha, u]
  rw [ends, advance_idle idle]
  exact left

/-- Where the boundary in progress has no requests to carry over, the job is left as it was, without the boundary. -/
theorem stopAll_job (hj : s.job? j = some x) (hb : ∀ b, x.bound = some b → b.reqs = []) :
    (stopAll j s).job? j = some { x with bound := none } := by
  have quiet : (x.bound.map (·.reqs)).getD [] = [] := by
    cases h : x.bound with
    | none => rfl
    | some b => exact hb b h
  let y : Job := { x with bound := none, reqs := x.reqs ++ ((x.bound.map (·.reqs)).getD []).filter fun q => !x.reqs.any (·.rank == q.rank) }
  have same : y = { x with bound := none } := by simp [y, quiet]
  rw [← same]
  have start : (s.modJob j fun x =>
      { x with bound := none, reqs := x.reqs ++ ((x.bound.map (·.reqs)).getD []).filter fun q => !x.reqs.any (·.rank == q.rank) }).job? j
      = some y := modJob_job?_same (fun _ => rfl) hj
  refine List.foldlRecOn (motive := fun u : State => u.job? j = some y) _ _ start fun u hu m _ => ?_
  split
  case isTrue moving => exact settleLoss_job moving.1 (by simpa using moving.2.1) moving.2.2 hu rfl
  case isFalse => exact hu

end

/-! ## The log and the capture (15 R421) -/

theorem undoLine_settled (j : Nat) (s : State) (r : LogRec) : (undoLine j s r).settled = s.settled := by
  have cleared (u : State) (p : Piece) : (clearPoison u p).settled = u.settled := by
    funext i
    simp only [clearPoison]
    split
    · simp only [State.settled, State.job?, List.find?_map, Option.map_map]
      rfl
    · rfl
  have marked (u : State) (pa n : Nat) : (markDirty u pa n).jobs = u.jobs := by
    unfold markDirty
    split <;> rfl
  unfold undoLine
  split
  · rfl
  · exact (cleared ..).trans (settled_of_jobs (marked ..))

theorem undoLog_settled (j : Nat) (l : List LogRec) (s : State) : (undoLog j l s).settled = s.settled :=
  foldl_keeps State.settled (undoLine_settled j) ..

theorem rehome_settled (j r col row : Nat) (s : State) : (rehome j r col row s).settled = s.settled := by
  unfold rehome
  simp only
  split
  · rfl
  · exact (settled_of_jobs (tellPlace_jobs ..)).trans (setPlace_settled rfl)

theorem restoreOne_settled (k : Ckpt) (j : Nat) (s : State) (old : Rank) : (restoreOne k j s old).settled = s.settled := by
  have poked (l : List Host.Cell) (u : State) : (l.foldl (fun s c => s.poke c.1 [c.2]) u).settled = u.settled := by
    refine foldl_keeps State.settled (fun _ _ => ?_) ..
    rfl
  unfold restoreOne
  split
  case h_1 => rfl
  case h_2 =>
  simp only
  split
  case isTrue => exact poked ..
  case isFalse =>
  split
  case h_1 =>
    refine (loadDrain_settled ..).trans ?_
    split
    · exact (rehome_settled ..).trans (poked ..)
    · exact (rehome_settled ..).trans (poked ..)
  case h_2 => exact (loadDrain_settled ..).trans (poked ..)

/-- A job with what a rollback takes from the capture. -/
def Job.rolledBack (k : Ckpt) (x : Job) : Job :=
  { x with groups := k.groups, dets := k.dets, cols := [], stepNo := k.stepNo, log := [], logFull := false, chkpt := [],
           chkptDue := false, bounds := 0, oldCmds := [], rolling := false }

/-- The machine once the ranks of the capture are restored. -/
def rankRestored (j : Nat) (k : Ckpt) (s : State) : State :=
  k.ranks.foldl (restoreOne k j)
    ((undoLog j ((((stopAll j s).job? j).map (·.log)).getD []) (stopAll j s)).modJob j (Job.rolledBack k))

/-- The machine before the rollback is told: part 9 runs again unless the capture is the launch state. -/
def rolledBack (j : Nat) (k : Ckpt) (s : State) : State :=
  let t := restoreWithdrawn j (rankRestored j k s)
  let lost (r : Nat) : Bool := (placeOf t j r).state == .withdrawn
  let u := t.modJob j fun x => { x with groups := x.groups.map (keptGroup t j), dets := x.dets.filter fun d => !lost d.rank }
  if k.num = 0 then u else endBoundary j u

theorem rollBack_eq (j : Nat) (k : Ckpt) (s : State) :
    rollBack j k s = (recheck (rolledBack j k s)).post .event [evRolledBack, j, k.num] := rfl

section
variable {s : State} {j : Nat} {x : Job} {k : Ckpt}

theorem restoreWithdrawn_none (hj : s.job? j = some x) (hr : x.reqs = []) : restoreWithdrawn j s = s := by
  simp [restoreWithdrawn, hj, hr, ascNats]

/-- Groups stay whole where no rank is withdrawn. -/
theorem keptGroup_whole (h : ∀ r, (placeOf s j r).state ≠ .withdrawn) : keptGroup s j = id := by
  funext g
  simp [keptGroup, h]

variable (hj : s.job? j = some x) (hb : ∀ b, x.bound = some b → b.reqs = [])
include hj hb

theorem rankRestored_job : ∃ y, (rankRestored j k s).job? j = some y
    ∧ y.settled = Job.settled (Job.rolledBack k { x with bound := none }) := by
  have stopped := stopAll_job hj hb
  obtain ⟨y, undone, same⟩ := settled_job (undoLog_settled j ((((stopAll j s).job? j).map (·.log)).getD []) (stopAll j s)) stopped
  have rolled := modJob_job?_same (f := Job.rolledBack k) (fun _ => rfl) undone
  obtain ⟨z, restored, kept⟩ := settled_job (foldl_keeps State.settled (restoreOne_settled k j) k.ranks _) rolled
  exact ⟨z, restored, kept.trans (congrArg (Job.rolledBack k) same)⟩

variable (hr : x.reqs = []) (hw : ∀ r, (placeOf s j r).state ≠ .withdrawn)
include hr hw

/-- Where no rank is withdrawn and none asks for its return, the job has what the capture held. -/
theorem rolledBack_job : ∃ y, (rolledBack j k s).job? j = some y ∧ y.groups = k.groups ∧ y.dets = k.dets ∧ y.rolling = false
    ∧ (k.num = 0 → y.log = []) ∧ y.stepNo = k.stepNo + (if k.num = 0 then 0 else 1) := by
  obtain ⟨y, restored, same⟩ := rankRestored_job (k := k) hj hb
  have here (r : Nat) : (placeOf (rankRestored j k s) j r).state ≠ .withdrawn := by
    have old := hw r
    rw [placeOf_job hj] at old
    rw [placeOf_job restored, settled_state same]
    exact old
  have reqs : y.reqs = [] := (congrArg (·.reqs) same).trans hr
  let f (x : Job) : Job :=
    { x with groups := x.groups.map (keptGroup (rankRestored j k s) j)
             dets := x.dets.filter fun d => !((placeOf (rankRestored j k s) j d.rank).state == .withdrawn) }
  have placed (r : Nat) : ((placeOf (rankRestored j k s) j r).state == .withdrawn) = false := beq_eq_false_iff_ne.2 (here r)
  have groups : y.groups.map (keptGroup (rankRestored j k s) j) = y.groups := by rw [keptGroup_whole here, List.map_id]
  have dets : y.dets.filter (fun d => !((placeOf (rankRestored j k s) j d.rank).state == .withdrawn)) = y.dets :=
    List.filter_eq_self.2 fun d _ => congrArg (!·) (placed d.rank)
  have whole : f y = y := by simp only [f, groups, dets]
  have left : ((rankRestored j k s).modJob j f).job? j = some y := by
    have found := modJob_job?_same (f := f) (fun _ => rfl) restored
    rwa [whole] at found
  unfold rolledBack
  simp only [restoreWithdrawn_none restored reqs]
  split
  case isTrue zero =>
    exact ⟨y, left, congrArg (·.groups) same, congrArg (·.dets) same, congrArg (·.rolling) same, fun _ => congrArg (·.log) same,
      (congrArg (·.stepNo) same).trans (BitVec.add_zero _).symm⟩
  case isFalse later =>
    obtain ⟨z, ended, kept⟩ := endBoundary_job left
    exact ⟨z, ended, (congrArg (·.groups) kept).trans (congrArg (·.groups) same), (congrArg (·.dets) kept).trans (congrArg (·.dets) same),
      (congrArg (·.rolling) kept).trans (congrArg (·.rolling) same), fun zero => absurd zero later,
      (congrArg (·.stepNo) kept).trans (congrArg (·.stepNo + 1) same)⟩

end

/-- A rollback that goes on to the end. -/
theorem rollback_runs {s : State} {j : Nat} {x : Job} {k : Ckpt} (hj : s.job? j = some x) (hk : x.ckpt = some k) (hr : x.rolling = true)
    (hd : x.status ≠ .killed) (hf : x.status ≠ .free) (he : x.rollEnd = none) :
    Runs (.rollback j) s fun t => t = rollBack j k s ∧ ⟨.event, [evRolledBack, j, k.num]⟩ ∈ t.chip.outbox
      ∧ (x.reqs = [] → (∀ b, x.bound = some b → b.reqs = []) → (∀ r, (placeOf s j r).state ≠ .withdrawn) → ∀ y, t.job? j = some y →
          y.groups = k.groups ∧ y.dets = k.dets ∧ y.rolling = false ∧ (k.num = 0 → y.log = [])
            ∧ y.stepNo = k.stepNo + (if k.num = 0 then 0 else 1)) := by
  have run : exec (.rollback j) s = .next (rollBack j k s) := by
    change execRollback j s = _
    simp [execRollback, hj, hk, hr, hd, hf, he]
  refine ⟨_, run, rfl, List.mem_append_right _ (List.mem_singleton_self _), fun hreq hbound hplace y hy => ?_⟩
  obtain ⟨z, found, restored⟩ := rolledBack_job (k := k) hj hbound hreq hplace
  cases found.symm.trans hy
  exact restored

/-- A rollback whose job's end has come meanwhile: steps 1 and 2 alone. -/
theorem rollback_kills {s : State} {j c : Nat} {x : Job} {k : Ckpt} (hj : s.job? j = some x) (hk : x.ckpt = some k) (hr : x.rolling = true)
    (hd : x.status ≠ .killed) (hf : x.status ≠ .free) (he : x.rollEnd = some c) :
    exec (.rollback j) s = .next (killJob
      ((undoLog j x.log (stopAll j s)).modJob j fun x => { x with rolling := false, rollEnd := none }) j c) := by
  change execRollback j s = _
  simp [execRollback, hj, hk, hr, hd, hf, he]

/-- Settles O41: phases from what a completion answers, boundaries from the end of part 9, the rollback from what each of its steps
leaves of the job. -/
theorem phasesAndBoundaries : Obligations.PhasesAndBoundaries := by
  unfold Obligations.PhasesAndBoundaries
  intro s job x hj
  refine ⟨fun g gr hg hr hb hl hs hf => ?_, fun g gr hg => phaseComplete_early hj hg, fun rank => rankQuiesced_next,
    fun rank b hl hb => ⟨migTimeout_drops hj hl hb, migTimeout_postpones hj hl hb⟩, fun b => checkpointCommit_runs hj,
    fun k c => rollback_kills hj, fun k => rollback_runs hj⟩
  have next := phaseComplete_next hj hg hr hb hl hs hf
  have num := group?_g hg
  refine ⟨fun h => ?_, fun h0 all => ?_, fun h0 all => ?_, fun hd gr' => phaseOver_group hj hd hg⟩
  · rw [next, if_neg (by simp [stepPhase, num, h]), if_neg (by simp [mixedPhase, num, h])]
  · rw [next, if_pos (by simp [stepPhase, num, h0, all])]
  · have mixed : mixedPhase gr = gr.arrived.any (·.2) := by
      have some : (gr.arrived.any fun a => !a.2) = true := by simpa using all
      simp [mixedPhase, num, h0, some]
    rw [next, if_neg (by simp [stepPhase, num, h0, all]), mixed]
    split <;> rfl

end Sys2Proof.Machine
end

section
/-!
PROOFS. Bit fields: what a field and a bit of a word hold after a field is set.
-/
namespace Sys2Proof.Machine

section
variable {w : Nat} (v : BitVec w) (lo n x : Nat)

/-- The number that setting a field comes to: the bits of x in the field, the others as they were. -/
theorem setFld_testBit (a i : Nat) : (a - a / 2 ^ lo % 2 ^ n * 2 ^ lo + x % 2 ^ n * 2 ^ lo).testBit i =
    if lo ≤ i ∧ i < lo + n then x.testBit (i - lo) else a.testBit i := by
  have below : a % 2 ^ lo < 2 ^ lo := Nat.mod_lt _ (Nat.two_pow_pos lo)
  have parts (y : Nat) : y % 2 ^ n * 2 ^ lo = 2 ^ lo * (y % 2 ^ n) := Nat.mul_comm ..
  have whole : a = 2 ^ lo * (2 ^ n * (a / 2 ^ lo / 2 ^ n) + a / 2 ^ lo % 2 ^ n) + a % 2 ^ lo := by
    rw [Nat.div_add_mod, Nat.div_add_mod]
  have set : a - a / 2 ^ lo % 2 ^ n * 2 ^ lo + x % 2 ^ n * 2 ^ lo
      = 2 ^ lo * (2 ^ n * (a / 2 ^ lo / 2 ^ n) + x % 2 ^ n) + a % 2 ^ lo := by
    rw [parts, parts]
    rw [Nat.mul_add] at whole ⊢
    omega
  have inField (y : Nat) : y % 2 ^ n < 2 ^ n := Nat.mod_lt _ (Nat.two_pow_pos n)
  rw [set, Nat.testBit_two_pow_mul_add _ below, Nat.testBit_two_pow_mul_add _ (inField x), Nat.testBit_mod_two_pow]
  by_cases h1 : i < lo
  · have out : ¬ (lo ≤ i ∧ i < lo + n) := by omega
    simp [h1, out]
  · by_cases h2 : i - lo < n
    · have within : lo ≤ i ∧ i < lo + n := by omega
      simp [h1, h2, within]
    · have out : ¬ (lo ≤ i ∧ i < lo + n) := by omega
      have back : lo + (n + (i - lo - n)) = i := by omega
      simp [h1, h2, out, Nat.testBit_div_two_pow, back, Nat.add_comm]

theorem getLsbD_setFld (i : Nat) : (setFld v lo n x).getLsbD i =
    (decide (i < w) && if lo ≤ i ∧ i < lo + n then x.testBit (i - lo) else v.getLsbD i) := by
  rw [setFld, BitVec.getLsbD_ofNat, fld, setFld_testBit]
  rfl

/-- A bit outside the field is as it was. -/
theorem bitOf_setFld_out {i : Nat} (h : ¬ (lo ≤ i ∧ i < lo + n)) : bitOf (setFld v lo n x) i = bitOf v i := by
  change (setFld v lo n x).getLsbD i = v.getLsbD i
  rw [getLsbD_setFld, if_neg h]
  by_cases hi : i < w
  · simp [hi]
  · simp [hi, BitVec.getLsbD_of_ge v i (Nat.le_of_not_lt hi)]

/-- A field of the word holds what it is set to. -/
theorem fld_setFld (h : lo + n ≤ w) : fld (setFld v lo n x) lo n = x % 2 ^ n := by
  refine Nat.eq_of_testBit_eq fun j => ?_
  rw [fld, Nat.testBit_mod_two_pow, Nat.testBit_mod_two_pow, Nat.testBit_div_two_pow]
  by_cases hj : j < n
  · have bit := getLsbD_setFld v lo n x (lo + j)
    have within : lo ≤ lo + j ∧ lo + j < lo + n := by omega
    have inWord : lo + j < w := by omega
    rw [if_pos within, BitVec.getLsbD] at bit
    simp [hj, inWord, Nat.add_comm j lo, bit]
  · simp [hj]

end

end Sys2Proof.Machine
end

section
/-!
PROOFS. Micro-ops of the head drain (O31): what the end of a micro-op leaves, what each micro-op that uses the binding comes to, and the
end of an element.
-/
namespace Sys2Proof.Machine

/-! ## The end of a micro-op (06 R189, R194) -/

section
variable {i : Instr} {s u : State} (run : exec i s = microDone (microOp i s) s)
include run

theorem micro_next (h : microOp i s = .ok u) : exec i s = .next { u with core := { u.core with drnPc := u.core.drnPc + 1 } } := by
  rw [run, h]
  rfl

/-- A micro-op that comes to a value for a temporary. -/
theorem micro_sets {td : BitVec 3} {x : Nat} (h : microOp i s = mSet td x u) :
    exec i s = .next { u with core := { u.core with drnPc := u.core.drnPc + 1
                                                    t := u.core.t.setIfInBounds td.toNat (BitVec.ofNat 32 x) } } :=
  micro_next run h

theorem micro_halts {c : Cause} (h : microOp i s = .error ⟨c, 0, none⟩) :
    exec i s = .next ((haltDrain ⟨c, 0, none⟩ s).modCore fun k => { k with drnRun := false }) := by
  rw [run, h]
  rfl

/-- A micro-op that collects the stores l. -/
theorem micro_collects {l : List DStore} (h : microOp i s = .ok (s.modCore fun c => { c with drnStores := c.drnStores ++ l })) :
    exec i s = .next { s with core := { s.core with drnPc := s.core.drnPc + 1, drnStores := s.core.drnStores ++ l } } :=
  micro_next run h

end

/-- The slow path of a function of a temporary takes at most 96 cycles (04 R119). -/
theorem slowOp_le (fn : Nat) (ta : BitVec 3) (r : Rnd) (s : State) :
    ∃ k ≤ 96, slowOp fn ta r s = { s with core := { s.core with drnSlow := s.core.drnSlow + k } } :=
  ⟨Config.slowPath fn (tyCode .f32) (modeIx (rndMode .rne r)) [tmp s ta] % 97, by omega, rfl⟩

/-- A micro-op that comes to a value for a temporary once the slow path is over. -/
theorem micro_slow {i : Instr} {s : State} (run : exec i s = microDone (microOp i s) s) {fn x : Nat} {ta td : BitVec 3} {r : Rnd}
    (h : microOp i s = mSet td x (slowOp fn ta r s)) : ∃ k ≤ 96,
    exec i s = .next { s with core := { s.core with drnPc := s.core.drnPc + 1, drnSlow := s.core.drnSlow + k
                                                    t := s.core.t.setIfInBounds td.toNat (BitVec.ofNat 32 x) } } := by
  obtain ⟨k, hk, slow⟩ := slowOp_le fn ta r s
  refine ⟨k, hk, ?_⟩
  rw [micro_sets run h, slow]

/-! ## The binding (06 R190) -/

section
variable {s : State} {i : Nat}

theorem bindArg_ok (hn : bindNum s i ≠ 255) (hv : (bindDesc s i).vld = true) : bindArg s i = .ok (bindDesc s i) := by
  simp [bindArg, hn, hv]

theorem bindArg_reserved (hn : bindNum s i = 255) : bindArg s i = .error ⟨.tiReserved, 0, none⟩ := by
  simp [bindArg, hn]

theorem bindArg_invalid (hn : bindNum s i ≠ 255) (hv : (bindDesc s i).vld = false) : bindArg s i = .error ⟨.tiInvalid, 0, none⟩ := by
  simp [bindArg, hn, hv]

end

/-! ## Draws and side operands (04 R120; 06 R189) -/

section
variable {s : State} {td ta tb : BitVec 3} {k : BitVec 8} {r : Rnd} {d : Desc} {f : Flt}

theorem mRng_bound (h : bindArg s 0 = .ok d) : mRng td k s = mSet td (roundTo .f32 .rne false (drawVal (drainDraw s d k))) s := by
  simp only [mRng, h]

theorem mRng_unbound (h : bindArg s 0 = .error f) : mRng td k s = .error f := by
  simp only [mRng, h]

theorem mDrp_bound (h : bindArg s 0 = .ok d) : mDrp td ta tb k r s =
    mSet td (if dropKeep (drainDraw s d k) (fld (curDrain s).nest 1344 25) then toF32 r (XVal.mul (tmpVal s ta) (tmpVal s tb)) else 0) s := by
  simp only [mDrp, h]
  split <;> rfl

theorem mDrp_unbound (h : bindArg s 0 = .error f) : mDrp td ta tb k r s = .error f := by
  simp only [mDrp, h]

variable {mode : SidSel} {ds : BitVec 1} {c : BitVec 2} (hm : mode ≠ .const)
include hm

theorem mSid_reads (h : bindArg s (1 + ds.toNat) = .ok d) {u : State} {x : Nat}
    (hr : readTensor s (drnReq s) d (sidIdx s mode).1 (sidIdx s mode).2 0 0 = .ok (u, x)) :
    mSid td mode ds c s = mSet td (roundTo .f32 .rne false (d.value (bindCbs s) x)) u := by
  simp only [mSid, hm, if_false, h, hr]

theorem mSid_unbound (h : bindArg s (1 + ds.toNat) = .error f) : mSid td mode ds c s = .error f := by
  simp only [mSid, hm, if_false, h]

end

/-- Which place a row, a column and an element select names. -/
theorem sidIdx_of_mem {s : State} {p : SidSel × Int × Int}
    (h : p ∈ [(.row, drainM s, 0), (.col, drainN s, 0), (.elem, drainN s, drainM s)]) : p.1 ≠ .const ∧ sidIdx s p.1 = p.2 := by
  simp only [List.mem_cons, List.not_mem_nil, or_false] at h
  rcases h with rfl | rfl | rfl <;> exact ⟨nofun, rfl⟩

/-! ## Stores of an element (03 R84, R96; 06 R192) -/

/-- The store of value x at an element of a tensor; none outside it. -/
def storeAt (out : Bool) (d : Desc) (i0 i1 i2 : Int) (x : Nat) (r : Rnd) (sat : Bool) (s : State) : List DStore :=
  if d.inside i0 i1 i2 0 then
    let a := elemAddr d.ty d.base (d.offset i0 i1 i2 0)
    [⟨out, a.1, a.2, d.code (bindCbs s) r sat (decodeF .f32 x)⟩]
  else []

theorem collect_eq (out : Bool) (d : Desc) (i0 i1 i2 : Int) (x : Nat) (r : Rnd) (sat : Bool) (s : State) :
    collect out d i0 i1 i2 x r sat s
      = s.modCore fun c => { c with drnStores := c.drnStores ++ storeAt out d i0 i1 i2 x r sat s } := by
  unfold collect storeAt
  cases d.inside i0 i1 i2 0 with
  | false => simp [State.modCore]
  | true => rfl

/-- The value that LSTS stores. -/
def stsValue (src : StsSel) (ta : BitVec 3) (s : State) : Nat :=
  match src with
  | .max => s.core.rmax.toNat
  | .sum => rowSum s.core.terms
  | .val => tmp s ta

section
variable {s : State} {ta k : BitVec 3} {r : Rnd} {sat : Bool} {d : Desc} {src : StsSel}

theorem cbClean_ok (h : d.ty = .cb4 → r = .dflt ∧ sat = false) : cbClean d r sat = .ok () := by
  rw [cbClean, if_neg]
  rintro ⟨cb4, bad⟩
  obtain ⟨rfl, rfl⟩ := h cb4
  simp at bad

theorem cbClean_bad (h : ¬ (d.ty = .cb4 → r = .dflt ∧ sat = false)) : cbClean d r sat = .error ⟨.encRsv, 0, none⟩ := by
  rw [cbClean, if_pos]
  obtain ⟨cb4, bad⟩ := Classical.not_imp.1 h
  refine ⟨cb4, ?_⟩
  by_cases hr : r = .dflt
  · exact .inr (by simpa [hr] using bad)
  · exact .inl hr

theorem mSt_clean (hb : bindArg s 0 = .ok d) (hc : cbClean d r sat = .ok ()) :
    mSt ta r sat s = .ok (collect true d (drainN s) (drainM s) 0 (tmp s ta) r sat s) := by
  simp only [mSt, hb, hc]

theorem mSt_unclean {f : Flt} (hb : bindArg s 0 = .ok d) (hc : cbClean d r sat = .error f) : mSt ta r sat s = .error f := by
  simp only [mSt, hb, hc]

theorem mSts_within (h : s.core.drnElem % 64 ≠ 63) : mSts src ta k r sat s = .ok s := if_pos h

variable (h : s.core.drnElem % 64 = 63) (hb : bindArg s 3 = .ok d)
include h hb

theorem mSts_clean (hc : cbClean d r sat = .ok ()) : mSts src ta k r sat s =
    .ok (collect false d (k.toNat : Int) (drainM s) ((curDrain s).n0.fdiv 64) (stsValue src ta s) r sat s) := by
  simp only [mSts, h, ne_eq, not_true_eq_false, if_false, hb, hc]
  rfl

theorem mSts_unclean {f : Flt} (hc : cbClean d r sat = .error f) : mSts src ta k r sat s = .error f := by
  simp only [mSts, h, ne_eq, not_true_eq_false, if_false, hb, hc]

end

/-! ## The end of an element (06 R188, R192, R195) -/

/-- A drain without the cursors of its next side fetches. -/
def Drain.bare (d : Drain) : Drain := { d with cur0 := 0, cur1 := 0 }

theorem setDrain_drains {s : State} {d : Drain} {ds : List Drain} (h : s.core.drains = d :: ds) (e : Drain) :
    (setDrain e s).core.drains = e :: ds := by
  change e :: s.core.drains.drop 1 = _
  rw [h]
  rfl

theorem head_of_drains {s : State} {d : Drain} {ds : List Drain} (h : s.core.drains = d :: ds) : s.core.drains.head? = some d := by
  rw [h]
  rfl

/-- Naming the side fetches changes the drains alone. -/
theorem showCursors_only (s : State) : showCursors s = { s with core := { s.core with drains := (showCursors s).core.drains } } := by
  unfold showCursors
  split <;> rfl

theorem showCursors_head {s : State} {d : Drain} {ds : List Drain} (h : s.core.drains = d :: ds) :
    ∃ c0 c1, (showCursors s).core.drains = { d with cur0 := c0, cur1 := c1 } :: ds := by
  let at' := s.modCore fun c => { c with drnElem := d.e }
  have shown : showCursors s
      = setDrain { d with cur0 := sideCursor 0 at' (progOf s d), cur1 := sideCursor 1 at' (progOf s d) } s := by
    simp only [showCursors, head_of_drains h]
    rfl
  exact ⟨_, _, (congrArg (·.core.drains) shown).trans (setDrain_drains h _)⟩

/-- Naming the side fetches leaves each drain but for its cursors. -/
theorem showCursors_bare (s : State) : (showCursors s).core.drains.map Drain.bare = s.core.drains.map Drain.bare := by
  cases h : s.core.drains with
  | nil =>
    have none : showCursors s = s := by simp [showCursors, h]
    rw [none, h]
  | cons d ds =>
    obtain ⟨c0, c1, shown⟩ := showCursors_head h
    rw [shown]
    rfl

theorem nextElem_only (d : Drain) (ws : List W32) (s : State) : nextElem d ws s =
    { s with core := { s.core with drains := (nextElem d ws s).core.drains, drnReady := (nextElem d ws s).core.drnReady } } := rfl

theorem nextElem_drains {s : State} {d : Drain} {ds : List Drain} (h : s.core.drains = d :: ds) (ws : List W32) :
    (nextElem d ws s).core.drains = { d with e := d.e + 1, rmax := s.core.rmax, terms := s.core.terms } :: ds :=
  setDrain_drains h _

/-- The drain after its last element leaves the drains and gives its tile up. -/
theorem closeDrain_last {s : State} {d : Drain} {ds : List Drain} (h : s.core.drains = d :: ds) (he : 4096 ≤ d.e) :
    closeDrain s = { s with core := { s.core with drains := (closeDrain s).core.drains, held := setFld s.core.held d.acc 1 0 } }
    ∧ (closeDrain s).core.drains.map Drain.bare = ds.map Drain.bare := by
  have closed : closeDrain s = showCursors { s with core := { s.core with drains := ds, held := setFld s.core.held d.acc 1 0 } } := by
    simp only [closeDrain, head_of_drains h, Nat.not_lt.2 he, if_false]
    simp only [State.modCore, h, List.drop_one, List.tail_cons]
  rw [closed]
  exact ⟨showCursors_only _, showCursors_bare _⟩

theorem closeDrain_within {s : State} {d : Drain} {ds : List Drain} (h : s.core.drains = d :: ds) (he : d.e < 4096) :
    closeDrain s = s := by
  simp only [closeDrain, head_of_drains h, he, if_true]

/-- The unit between elements: no element in progress and none of its stores kept. -/
def elemEnded (u : State) : State := { u with core := { u.core with drnPc := u.core.drnPc + 1, drnStores := [], drnRun := false } }

section
variable {s u : State} {d : Drain} {ds : List Drain} (hp : putStores s.core.drnStores s = .ok u) (hr : u.core.drnRun = true)
  (hd : u.core.drains = d :: ds)
include hp hr hd

theorem lend_next : ∃ ws, exec .lend s = .next (closeDrain (showCursors (nextElem d ws (elemEnded u)))) := by
  have stored : microOp .lend s = .ok (u.modCore fun c => { c with drnStores := [] }) := by
    change mEnd s = _
    simp only [mEnd, hp]
  refine ⟨progOf (elemEnded u) d, ?_⟩
  change execLend s = _
  simp only [execLend, stored, microDone, State.modCore, elemEnded, hr, head_of_drains hd, Bool.not_true, Bool.false_eq_true, if_false]

theorem lend_runs : Runs .lend s fun t =>
    t = { u with core := { u.core with drnPc := u.core.drnPc + 1, drnStores := [], drnRun := false, drains := t.core.drains,
                                       held := t.core.held, drnReady := t.core.drnReady } }
    ∧ (d.e + 1 < 4096 → t.core.held = u.core.held ∧ ∃ c0 c1, t.core.drains =
        { d with e := d.e + 1, rmax := u.core.rmax, terms := u.core.terms, cur0 := c0, cur1 := c1 } :: ds)
    ∧ (4096 ≤ d.e + 1 → (∀ i < 16, t.core.held.getLsbD i = (decide (i ≠ d.acc) && u.core.held.getLsbD i))
        ∧ t.core.drains.map Drain.bare = ds.map Drain.bare) := by
  obtain ⟨ws, run⟩ := lend_next hp hr hd
  have next := nextElem_drains (s := elemEnded u) hd ws
  have moved := nextElem_only d ws (elemEnded u)
  generalize nextElem d ws (elemEnded u) = v at run next moved
  have shown := showCursors_only v
  obtain ⟨c0, c1, drains⟩ := showCursors_head next
  generalize showCursors v = w at run shown drains
  have left : w = { u with core := { u.core with drnPc := u.core.drnPc + 1, drnStores := [], drnRun := false, drains := w.core.drains,
                                                 drnReady := w.core.drnReady } } := by
    rw [shown, moved]
    rfl
  refine ⟨_, run, ?_⟩
  by_cases he : d.e + 1 < 4096
  · rw [closeDrain_within drains he]
    have held : w.core.held = u.core.held := congrArg (·.core.held) left
    refine ⟨?_, fun _ => ⟨held, c0, c1, drains⟩, fun last => absurd he (Nat.not_lt.2 last)⟩
    rw [held]
    exact left
  · obtain ⟨closed, rest⟩ := closeDrain_last drains (Nat.not_lt.1 he)
    generalize closeDrain w = t at closed rest
    have held : t.core.held = setFld u.core.held d.acc 1 0 := by
      rw [closed, left]
    refine ⟨?_, fun within => absurd within he, fun _ => ⟨fun i hi => ?_, rest⟩⟩
    · rw [closed, left]
    · rw [held, getLsbD_setFld, decide_eq_true hi, Bool.true_and]
      by_cases tile : i = d.acc
      · have within : d.acc ≤ i ∧ i < d.acc + 1 := by omega
        rw [if_pos within, Nat.zero_testBit, decide_eq_false (p := i ≠ d.acc) fun other => other tile, Bool.false_and]
      · have out : ¬ (d.acc ≤ i ∧ i < d.acc + 1) := by omega
        rw [if_neg out, decide_eq_true (p := i ≠ d.acc) tile, Bool.true_and]

end

/-- Settles O31: a micro-op ends by what it comes to, so each is cited with what it comes to; LEND by the element that ends. -/
theorem microOpResults : Obligations.MicroOpResults := by
  unfold Obligations.MicroOpResults
  refine ⟨fun s td ta tb tc r => ?_, fun s td ta tb k r => ?_, fun s ta k r sat => ?_⟩
  case refine_1 =>
    exact ⟨micro_sets rfl rfl, micro_sets rfl rfl, micro_sets rfl rfl, micro_slow rfl rfl, micro_slow rfl rfl, micro_slow rfl rfl,
      micro_sets rfl rfl, micro_sets rfl rfl, micro_sets rfl rfl, fun c => micro_sets rfl rfl, fun ty sat => micro_sets rfl rfl⟩
  case refine_2 =>
    have unbound {f : Flt} (h : bindArg s 0 = .error f) : microOp (.lrng td k) s = .error f ∧ microOp (.ldrp td ta tb k r) s = .error f :=
      ⟨mRng_unbound h, mDrp_unbound h⟩
    refine ⟨fun hn hv => ?_, fun hn => ?_, fun hn hv => ?_, (micro_next rfl rfl).trans rfl, ?_, micro_sets rfl rfl, micro_sets rfl rfl,
      micro_sets rfl rfl, micro_sets rfl rfl, fun k => micro_sets rfl rfl, fun ds p hp => ?_⟩
    · have bound := bindArg_ok hn hv
      exact ⟨micro_sets rfl (mRng_bound bound), micro_sets rfl (mDrp_bound bound)⟩
    · have ⟨rng, drp⟩ := unbound (bindArg_reserved hn)
      exact ⟨micro_halts rfl rng, micro_halts rfl drp⟩
    · have ⟨rng, drp⟩ := unbound (bindArg_invalid hn hv)
      exact ⟨micro_halts rfl rng, micro_halts rfl drp⟩
    · refine (micro_next rfl rfl).trans ?_
      simp only [tmp, BitVec.ofNat_toNat, BitVec.setWidth_eq]
      rfl
    · obtain ⟨tensor, place⟩ := sidIdx_of_mem hp
      refine ⟨fun hn hv u c hr => ?_, fun hn => ?_, fun hn hv => ?_⟩
      · rw [← place] at hr
        exact micro_sets rfl (mSid_reads tensor (bindArg_ok hn hv) hr)
      · exact micro_halts rfl (mSid_unbound tensor (bindArg_reserved hn))
      · exact micro_halts rfl (mSid_unbound tensor (bindArg_invalid hn hv))
  case refine_3 =>
    refine ⟨fun hn hv hc => ?_, fun src h => ?_, fun hn hv hc => ?_, fun src h hn hv hc => ?_, fun src h hn hv hc => ?_,
      fun u d ds => lend_runs⟩
    · exact micro_collects rfl ((mSt_clean (bindArg_ok hn hv) (cbClean_ok hc)).trans (congrArg _ (collect_eq ..)))
    · refine (micro_next (i := .lsts src ta k r sat) rfl (mSts_within h)).trans ?_
      simp only [List.append_nil]
    · exact micro_halts rfl (mSt_unclean (bindArg_ok hn hv) (cbClean_bad hc))
    · exact micro_halts rfl (mSts_unclean h (bindArg_ok hn hv) (cbClean_bad hc))
    · exact micro_collects rfl ((mSts_clean h (bindArg_ok hn hv) (cbClean_ok hc)).trans (congrArg _ (collect_eq ..)))

end Sys2Proof.Machine
end

section
/-!
PROOFS. The matrix engine's set-up and commands (O15): the shadow nest, operand slots, tensor entries, and the acceptance of a command.
-/
namespace Sys2Proof.Machine

/-! ## The shadow nest (06 R181) -/

/-- The fields of an image lie within it. -/
theorem mxField_within {l f lo w : Nat} {k : FieldKind} (h : mxField l f = some (lo, w, k)) : lo + w ≤ 1536 := by
  unfold mxField at h
  split at h
  case isTrue level =>
    split at h
    case isTrue field =>
      cases h
      omega
    case isFalse => cases h
  case isFalse =>
    split at h
    all_goals
      have named := List.mem_of_getElem? h
      simp only [List.mem_cons, List.not_mem_nil, or_false, Prod.mk.injEq] at named
      omega

/-- The codes of the image and of the clear form name no field. -/
theorem mxField_none {f : Nat} (h : 21 ≤ f) : mxField 6 f = none := by
  rw [mxField, if_neg (by decide), if_pos rfl]
  exact List.getElem?_eq_none h

/-- CTL goes on with another shadow nest. -/
theorem shadowNest_only (m : BitVec 1536) (s : State) :
    let t := issued .ctl 1 1 (s.modCore fun c => { c with nestSh := m })
    t = { s with core := { s.core with ctl := t.core.ctl, nestSh := m } } ∧ GoesOn .ctl 1 1 s t := ⟨rfl, rfl⟩

section
variable {s : State} (hu : s.core.uh = false)
include hu

section
variable {l : BitVec 3} {f : BitVec 5} {a : Src} {x : Word} {lo w : Nat} {k : FieldKind} (ha : readSrc s .ctl a = .val x)
  (hf : mxField l.toNat f.toNat = some (lo, w, k))
include ha hf

theorem mxcfg_field : exec (.mxcfg l f a) s = finish .ctl (if !mxFits lo w k x then .raise .mxField s
    else .ok (issued .ctl 1 1 (s.modCore fun c => { c with nestSh := setFld c.nestSh lo w x.toNat }))) := by
  have image : ¬ (l = 6 ∧ f = 21) := by
    rintro ⟨rfl, rfl⟩
    cases (mxField_none (by decide)).symm.trans hf
  have clear : ¬ (l = 6 ∧ f = 22) := by
    rintro ⟨rfl, rfl⟩
    cases (mxField_none (by decide)).symm.trans hf
  change execMxcfg l f a s = _
  simp only [execMxcfg, notInUh_out hu, withSrc_val ha, image, clear, if_false, hf]

/-- A value that fits goes into its field and nowhere else. -/
theorem mxcfg_sets (h : mxFits lo w k x = true) : Runs (.mxcfg l f a) s fun t =>
    t = { s with core := { s.core with ctl := t.core.ctl, nestSh := t.core.nestSh } } ∧ GoesOn .ctl 1 1 s t
    ∧ fld t.core.nestSh lo w = x.toNat % 2 ^ w
    ∧ ∀ i, ¬ (lo ≤ i ∧ i < lo + w) → bitOf t.core.nestSh i = bitOf s.core.nestSh i := by
  have run := mxcfg_field hu ha hf
  rw [h] at run
  exact ⟨_, run, rfl, rfl, fld_setFld _ _ _ _ (mxField_within hf), fun i out => bitOf_setFld_out _ _ _ _ out⟩

theorem mxcfg_raises (h : mxFits lo w k x = false) : Raises .ctl (.mxcfg l f a) s .mxField := by
  have run := mxcfg_field hu ha hf
  rw [h] at run
  exact run

end

theorem mxcfg_clears : Runs (.mxcfg 6 22 (.r 0)) s fun t =>
    t = { s with core := { s.core with ctl := t.core.ctl, nestSh := nestReset } } ∧ GoesOn .ctl 1 1 s t := by
  obtain ⟨x, hx⟩ := readSrc_s0 s
  have image : (22 : BitVec 5) ≠ 21 := by decide
  have run : exec (.mxcfg 6 22 (.r 0)) s = .next (issued .ctl 1 1 (s.modCore fun c => { c with nestSh := nestReset })) := by
    change execMxcfg 6 22 (.r 0) s = _
    simp only [execMxcfg, notInUh_out hu, withSrc_val hx, image, and_false, and_self, if_true, if_false, ne_eq, not_true_eq_false, finish_ok]
  exact ⟨_, run, shadowNest_only nestReset s⟩

end

/-! ## Operand slots (06 R169, R170) -/

section
variable {s : State}

/-- Slots changed each by f. -/
theorem slotAt_mapIdx {t : State} {f : Nat → Slot → Slot} (h : t.core.slots = s.core.slots.mapIdx f) {i : Nat} (hi : i < 32) :
    slotAt t i = f i (slotAt s i) := by
  simp [slotAt, h, hi]

theorem slotMine_iff {n : Nat} : slotMine s n = true ↔ (slotAt s n).st = .claimed ∧ (slotAt s n).rel = false := by
  simp [slotMine, slotAt]

/-- A slot with a pending release, once the slots are settled. -/
theorem slotAt_settleSlots {n : Nat} (hn : n < 32) (h : (slotAt s n).rel = true) : slotAt (settleSlots s) n =
    if s.core.cmds.any (·.namesSlot n) then slotAt s n else { slotAt s n with st := .free, rel := false } := by
  rw [slotAt_mapIdx (s := s) rfl hn, h]
  cases s.core.cmds.any (·.namesSlot n) <;> rfl

variable (hu : s.core.uh = false) {n : BitVec 5}
include hu

theorem mxclm_free (h : (slotAt s n.toNat).st = .free) : Runs (.mxclm n) s fun t =>
    t = { s with core := { s.core with ctl := t.core.ctl, slots := t.core.slots } } ∧ GoesOn .ctl 1 1 s t
    ∧ ∀ i < 32, slotAt t i = if i = n.toNat then { slotAt s i with st := .claimed, rel := false } else slotAt s i := by
  let u := setSlots (fun i x => if i = n.toNat then { x with st := .claimed, rel := false } else x) s
  have run : exec (.mxclm n) s = .next (issued .ctl 1 1 u) := by
    change execMxclm n s = _
    simp only [execMxclm, notInUh_out hu, h]
    rfl
  exact ⟨_, run, rfl, rfl, fun i hi => slotAt_mapIdx (s := s) (t := u) rfl hi⟩

theorem mxclm_claimed (h : (slotAt s n.toNat).st = .claimed) : Raises .ctl (.mxclm n) s .mxSlot := by
  change execMxclm n s = _
  simp only [execMxclm, notInUh_out hu, h, finish_raise]

theorem mxclm_nest (h : (slotAt s n.toNat).st = .nest) : Waits .ctl (.mxclm n) { eng := true } s := by
  change execMxclm n s = _
  simp only [execMxclm, notInUh_out hu, h, finish_wait]

theorem mxrel_runs (hc : (slotAt s n.toNat).st = .claimed) (hr : (slotAt s n.toNat).rel = false) : Runs (.mxrel n) s fun t =>
    GoesOn .ctl 1 1 s t ∧ SameMemory s t
    ∧ slotAt t n.toNat = (if s.core.cmds.any (·.namesSlot n.toNat) then { slotAt s n.toNat with rel := true }
        else { slotAt s n.toNat with st := .free, rel := false }) := by
  let u := setSlots (fun i x => if i = n.toNat then { x with rel := true } else x) s
  have mine : slotMine s n.toNat = true := slotMine_iff.2 ⟨hc, hr⟩
  have run : exec (.mxrel n) s = .next (issued .ctl 1 1 (settleSlots u)) := by
    change execMxrel n s = _
    simp only [execMxrel, notInUh_out hu, mine, Bool.not_true, Bool.false_eq_true, if_false]
    rfl
  have released : slotAt u n.toNat = { slotAt s n.toNat with rel := true } := by
    rw [slotAt_mapIdx (s := s) (t := u) rfl n.isLt, if_pos rfl]
  refine ⟨_, run, rfl, fun _ => (issued_byte ..).trans ((State.modCore_byte ..).trans (State.modCore_byte ..)), ?_⟩
  change slotAt (settleSlots u) n.toNat = _
  rw [slotAt_settleSlots n.isLt (congrArg Slot.rel released), released]
  rfl

theorem mxrel_raises (h : (slotAt s n.toNat).st ≠ .claimed ∨ (slotAt s n.toNat).rel = true) : Raises .ctl (.mxrel n) s .mxSlot := by
  have other : slotMine s n.toNat = false := by
    rw [← Bool.not_eq_true, slotMine_iff]
    rintro ⟨claimed, kept⟩
    rcases h with h | h
    · exact h claimed
    · exact Bool.noConfusion (kept.symm.trans h)
  change execMxrel n s = _
  simp only [execMxrel, notInUh_out hu, other, Bool.not_false, if_true, finish_raise]

end

/-! ## Tensor entries (06 R185) -/

section
variable {s u : State} {q : Seqr} {addr n : Nat} {p : Piece}

/-- A read that performs at its issue gives the bytes at its place. -/
theorem readMem_performs (h : Performs q s addr n .read u p) :
    readMem s (s.req (accClient q)) addr n = .ok (u, u.bytes p.key p.len) := by
  simp only [readMem, h.place, readPieces, h.clean, List.append_nil]

section
variable {k : Kind} {op : AccOp} (h : Performs q s addr n k u p) (cost : Nat)
include h

/-- An access that performs at its issue is not held back. -/
theorem issueNow_ok {t : State} {x : Option Word} (he : performOp s (s.req (accClient q)) op addr n = .ok (t, x)) :
    issueNow q op addr n cost s = .ok (issued q 1 cost t) := by
  simp only [issueNow, h.ungated, h.first, h.way, List.any_nil, Bool.not_true, Bool.or_self, Bool.false_eq_true, if_false, he]

theorem issueNow_trap {f : Flt} (he : performOp s (s.req (accClient q)) op addr n = .error f) :
    issueNow q op addr n cost s = .trap f 0 s := by
  simp only [issueNow, h.ungated, h.first, h.way, List.any_nil, Bool.not_true, Bool.or_self, Bool.false_eq_true, if_false, he]

end
end

section
variable {s u : State} (hu : s.core.uh = false) {n : BitVec 8} {a : Src} {addr : Word} {p : Piece} (hn : n ≠ 255)
  (ha : readSrc s .ctl a = .val addr) (he : entryUsed s n.toNat = false)
include hu hn ha he

theorem tidw_issues : exec (.tidw n a) s = finish .ctl (issueNow .ctl (.tidw n.toNat) addr.toNat 64 (accLatency s addr.toNat 0) s) := by
  change execTidw n a s = _
  simp only [execTidw, notInUh_out hu, withSrc_val ha, hn, he, Bool.false_eq_true, if_false]

variable (hp : Performs .ctl s addr.toNat 64 .read u p)
include hp

theorem tidw_puts (hd : Desc.check (BitVec.ofNat 512 (leVal (u.bytes p.key p.len))) = none) : Runs (.tidw n a) s fun t =>
    OnlyPlace .ctl { u with ranks := t.ranks } t
    ∧ t.ranks = u.ranks.map (fun k => if k.job = u.core.job ∧ k.rank = u.core.rank then
        { k with ti := k.ti.setIfInBounds n.toNat (BitVec.ofNat 512 (leVal (u.bytes p.key p.len))) } else k) := by
  let put := u.modMyRank fun k => { k with ti := k.ti.setIfInBounds n.toNat (BitVec.ofNat 512 (leVal (u.bytes p.key p.len))) }
  have performed : performOp s (s.req (accClient .ctl)) (.tidw n.toNat) addr.toNat 64 = .ok (put, none) := by
    simp only [performOp, hp.valid, readMem_performs hp, hd, put]
  have run := tidw_issues hu hn ha he
  rw [issueNow_ok hp _ performed] at run
  exact ⟨_, run, ⟨⟨fun _ => rfl, rfl, rfl⟩, rfl, fun _ => rfl⟩, rfl⟩

theorem tidw_traps {c : Cause} (hd : Desc.check (BitVec.ofNat 512 (leVal (u.bytes p.key p.len))) = some c) :
    exec (.tidw n a) s = .next (takeTrap .ctl ⟨c, addr.toNat, none⟩ 0 s) := by
  have performed : performOp s (s.req (accClient .ctl)) (.tidw n.toNat) addr.toNat 64 = .error ⟨c, addr.toNat, none⟩ := by
    simp only [performOp, hp.valid, readMem_performs hp, hd]
  rw [tidw_issues hu hn ha he, issueNow_trap hp _ performed, finish_trap]

end

/-! ## The acceptance of a command of CTL (07 R208 to R213) -/

section
variable {s : State} {q : Seqr} {k : Toks} {o : Offer} {n : Nat}

/-- A command that pins nothing, where any command may be accepted: it is. -/
theorem accept_ok (hm : MayAccept q s k) (hs : o.spans = []) (f : State → State) :
    accept q n k o s f = .ok (issued q n 1 (f (acceptNow q k o s))) := by
  obtain ⟨room, ordered, _⟩ := hm
  have noKeys : spanKeys s o.spans = [] := by rw [hs]; rfl
  have apart : (s.core.cmds.any fun x => !(ancestors s.core.cmds 64 (boundPreds s.core q k)).contains x.seq
      && conflict o.rd o.wr x.rd x.wr) = false := by
    rw [List.any_eq_false]
    intro x hx
    simp [ordered x hx]
  simp only [accept, Nat.not_le.2 room, noKeys, apart, List.any_nil, Bool.false_eq_true, if_false]

/-- The command as CTL's offer leaves it in the command file. -/
def cmdFiled (s : State) (k : Toks) (o : Offer) : Cmd :=
  { seq := s.core.seqCtr, k := k.k.toNat, preds := boundPreds s.core .ctl k, op := o.op, st := .waiting, ring := s.core.curRing
    desc := (s.core.rings[s.core.curRing]?.getD none).getD 0, rd := o.rd, wr := o.wr, cbs := o.cbs, bind := o.bind, prog := o.prog
    task := s.core.taskId, tis := o.tis, pins := [], gate := s.core.accId }

theorem acceptNow_ctl (hs : o.spans = []) : acceptNow .ctl k o s =
    { s with core := { s.core with
      tok := if k.k = 0 then s.core.tok else s.core.tok.setIfInBounds k.k.toNat s.core.seqCtr
      tokLast := s.core.seqCtr, seqCtr := nextSeq s.core.seqCtr, cmds := s.core.cmds ++ [cmdFiled s k o] } } := by
  have noKeys : spanKeys s o.spans = [] := by rw [hs]; rfl
  simp only [acceptNow, noKeys]
  rfl

/-- A command of CTL is accepted, and its acceptance changes the slots and MTX's queue alone. -/
theorem accepted_ctl {i : Instr} {f : State → State} {g : Vector Slot 32 → Vector Slot 32}
    (hf : ∀ u, f u = { u with core := { u.core with slots := g u.core.slots, mtxQ := u.core.mtxQ ++ [s.core.seqCtr] } })
    (run : exec i s = .next (issued .ctl n 1 (f (acceptNow .ctl k o s)))) (hs : o.spans = []) :
    Runs i s fun t => Accepted .ctl n k o.op .waiting s t ∧ t.core.mtxQ = s.core.mtxQ ++ [s.core.seqCtr]
      ∧ t.core.slots = g s.core.slots := by
  rw [hf, acceptNow_ctl hs] at run
  refine ⟨_, run, ⟨⟨cmdFiled s k o, rfl, rfl, rfl, rfl, rfl, rfl⟩, rfl, rfl, fun i => ?_, rfl, rfl, fun _ => rfl,
    ⟨fun _ => rfl, rfl, rfl⟩, rfl⟩, rfl, rfl⟩
  change (if k.k = 0 then s.core.tok else s.core.tok.setIfInBounds k.k.toNat s.core.seqCtr)[i]? = _
  by_cases h0 : k.k = 0
  · simp [h0]
  · rw [if_neg h0, Vector.getElem?_setIfInBounds]
    by_cases hi : k.k.toNat = i
    · rw [if_pos hi, if_pos k.k.isLt, if_pos ⟨hi.symm, h0⟩]
    · rw [if_neg hi, if_neg fun h => hi h.1.symm]

end

/-! ## MXGO and MXMMA (06 R175, R182, R183) -/

/-- A slot of the shadow nest's range becomes a nest's. -/
def nestOwns (s : State) (i : Nat) (x : Slot) : Slot := if inRange s.core.nestSh i then { x with st := .nest, rel := false } else x

section
variable {s : State} (hu : s.core.uh = false) (hq : mtxFull s = false)
include hu hq

theorem mxgo_runs {k : Toks} (hm : MayAccept .ctl s k) (hc : mxgoCheck s s.core.nestSh = none)
    (hf : ∀ i < 32, inRange s.core.nestSh i = true → (slotAt s i).st = .free) : Runs (.mxgo k) s fun t =>
      Accepted .ctl 2 k (.mxgo s.core.nestSh (s.myRank.tensor (fld s.core.nestSh 768 8))
        (s.myRank.tensor (fld s.core.nestSh 776 8))) .waiting s t
      ∧ t.core.mtxQ = s.core.mtxQ ++ [s.core.seqCtr]
      ∧ ∀ i < 32, slotAt t i = if inRange s.core.nestSh i then { slotAt s i with st := .nest, rel := false } else slotAt s i := by
  have free (st : SlotSt) (h : st ≠ .free) :
      ((s.core.slots.toList.zipIdx.filter fun p => inRange s.core.nestSh p.2).any fun p => p.1.st == st) = false := by
    rw [List.any_eq_false]
    intro p hp
    obtain ⟨named, within⟩ := List.mem_filter.1 hp
    have at' : s.core.slots[p.2]? = some p.1 := by simpa using List.mem_zipIdx_iff_getElem?.1 named
    have here : p.2 < 32 := (Vector.getElem?_eq_some_iff.1 at').1
    have st' := hf p.2 here within
    rw [slotAt, at', Option.getD_some] at st'
    simpa [st'] using h.symm
  have run : exec (.mxgo k) s = finish .ctl (mxgoIssue k s) := by
    change execMxgo k s = _
    simp only [execMxgo, notInUh_out hu]
  simp only [mxgoIssue, hc, free .claimed (by decide), free .nest (by decide), hq, Bool.or_self, Bool.false_eq_true, if_false,
    accept_ok hm, finish_ok] at run
  obtain ⟨t, run, accepted, queued, slots⟩ := accepted_ctl (f := fun u => enqueueMtx s.core.seqCtr (setSlots (nestOwns s) u))
    (g := (·.mapIdx (nestOwns s))) (fun _ => rfl) run rfl
  exact ⟨t, run, accepted, queued, fun i hi => slotAt_mapIdx slots hi⟩

theorem mxmma_runs {o : Mma} (hm : MayAccept .ctl s o.t) (hc : mmaCheck s o = none)
    (ht : nestTri s.core.nestSh = 0 ∨ (nestTri s.core.nestSh ≠ 3 ∧ o.den = true)) : Runs (.mxmma o) s fun t =>
      let a := slotAt s o.osA.toNat
      let b := slotAt s o.osB.toNat
      Accepted .ctl 2 o.t (.mxmma s.core.nestSh o a.klen a.cb b.cb a.scale b.scale) .waiting s t
      ∧ t.core.mtxQ = s.core.mtxQ ++ [s.core.seqCtr] := by
  have nest : ¬ (nestTri s.core.nestSh = 3 ∨ (nestTri s.core.nestSh ≠ 0 ∧ (!o.den) = true)) := by
    rcases ht with h | ⟨h, den⟩
    · simp [h]
    · simp [h, den]
  have run : exec (.mxmma o) s = finish .ctl (mmaIssue o s) := by
    change execMxmma o s = _
    simp only [execMxmma, notInUh_out hu]
  simp only [mmaIssue, hc, hq, Bool.false_eq_true, if_false, accept_ok hm, nest, finish_ok] at run
  obtain ⟨t, run, accepted, queued, _⟩ := accepted_ctl (f := enqueueMtx s.core.seqCtr) (g := id) (fun _ => rfl) run rfl
  exact ⟨t, run, accepted, queued⟩

end

/-- Settles O15: each instruction from its checks, where they pass and where one fails; MXGO and MXMMA from what the acceptance of a
command of CTL leaves. -/
theorem matrixSetUpAndCommands : Obligations.MatrixSetUpAndCommands := by
  unfold Obligations.MatrixSetUpAndCommands
  refine ⟨fun s hu => ⟨fun l f a x lo w k ha hf => ?_, mxcfg_clears hu, fun n => ⟨mxclm_free hu, mxclm_claimed hu, mxclm_nest hu,
    mxrel_runs hu, mxrel_raises hu⟩, fun n a addr u p hn ha he hp => ⟨tidw_puts hu hn ha he hp, fun c => tidw_traps hu hn ha he hp⟩⟩,
    fun s hu hq => ⟨fun k => mxgo_runs hu hq, fun o => mxmma_runs hu hq⟩⟩
  cases fits : mxFits lo w k x with
  | true => exact mxcfg_sets hu ha hf fits
  | false => exact mxcfg_raises hu ha hf fits

end Sys2Proof.Machine
end

section
/-!
PROOFS. BARV of a member (O14): its arrival notes the time as well, which the statement leaves as it was.
-/
namespace Sys2Proof.Machine

/-- A member that has not arrived, with CTL's accesses performed, arrives: the phase's entry names the rank and the time, and the
register takes the number of the phase after the one in progress (08 R248). -/
theorem barv_arrives {s : State} {nw step : Bool} {d : BitVec 6} {g : BitVec 8} {jb : Job} {gr : Group} (hu : s.core.uh = false)
    (hd : DstFree s .ctl nw d) (hj : s.job? s.core.job = some jb) (hg : jb.group? g.toNat = some gr) (hm : s.core.rank ∈ gr.memb)
    (hq : (s.core.accq.any (·.q == .ctl)) = false) (ha : (gr.arrived.any (·.1 == s.core.rank)) = false) :
    exec (.barv nw d step g) s = .next (issued .ctl 1 1 (putResult .ctl 2 nw d (BitVec.ofNat 64 (gr.phase + 1))
      ((arrivedAt s.core.job s.core.rank g.toNat gr step s).modCore fun c => { c with barv := none }))) := by
  have mine : s.myJob = jb := by rw [State.myJob, hj, Option.getD_some]
  have member : (!gr.memb.contains s.core.rank) = false := by rw [List.contains_iff_mem.2 hm, Bool.not_true]
  change execBarv nw d step g s = _
  simp only [execBarv, notInUh_out hu, withDst_free hd, mine, hg, member, hq, arrive_some hj hg ha, Bool.false_eq_true, if_false,
    finish_ok]

/-- Rank 0 of job 1 holds the focused core and is the one member of g0, which nobody has arrived at; the machine has run for a tick. -/
def loneMember : State :=
  { State.reset with
    core := { Core.reset 0 with job := 1 }
    jobs := [{ num := 1, groups := [{ g := 0, memb := [0] }] }]
    chip := { ticks := 1 } }

/-- Refutes O14: BARV's arrival also notes when it came, so the group of `loneMember` does not keep its former time of arrival, 0. -/
theorem not_tasksMeetAndEnd : ¬ Obligations.TasksMeetAndEnd := by
  unfold Obligations.TasksMeetAndEnd
  rintro ⟨-, -, barriers⟩
  have free : DstFree loneMember .ctl false 8 := rfl
  obtain ⟨arrives, -⟩ := barriers loneMember false 8 false 0 (by decide) rfl free
  have claim := arrives _ _ rfl rfl
  have member : ¬ loneMember.core.rank ∉ [0] := by decide
  have performed : ¬ (loneMember.core.accq.any (·.q == .ctl)) = true := by decide
  have absent : ¬ (([] : List (Nat × Bool)).any (·.1 == loneMember.core.rank)) = true := by decide
  rw [if_neg member, if_neg performed, if_neg absent] at claim
  obtain ⟨t, run, -, -, -, groups, -⟩ := claim
  cases (barv_arrives (step := false) (g := 0) rfl free rfl rfl (by decide) rfl rfl).symm.trans run
  have times := congrArg (·.flatMap fun j : Job => j.groups.map (·.lastAt)) groups
  have noted : [1] = [0] := times
  cases noted

end Sys2Proof.Machine
end

section
/-!
PROOFS. Causes whose action is to park the rank or to replay (O33, O36): what they leave of the core of the agent that met them.
-/
namespace Sys2Proof.Machine

/-- The action of a cause rests on the jobs' tables alone. -/
theorem actByte_still {s t : State} (h : t.jobs.map Job.still = s.jobs.map Job.still) (j : Nat) (c : Cause) :
    actByte t j c = actByte s j c := by
  have own (u : State) : actByte u j c
      = ((((u.jobs.map Job.still).find? (·.num == j)).getD { num := j }).act.lookup (actIndex c)).getD (actLaunch c) := by
    have found : (u.jobs.map Job.still).find? (·.num == j) = (u.job? j).map Job.still := by
      simp only [State.job?, List.find?_map]
      rfl
    rw [actByte, found]
    cases u.job? j <;> rfl
  rw [own, h, ← own]

/-- A cause whose action is to park the rank or to replay: the agent waits. -/
def AwaitsAction (s : State) (j : Nat) (c : Cause) : Prop := actOf (actByte s j c) = .park ∨ actOf (actByte s j c) = .replay

section
variable {s : State} {j : Nat} {c : Cause} (h : AwaitsAction s j c)
include h

theorem applyFor_core (r i : Nat) (ag : Agent) (va : Nat) : (applyFor s j r i c ag va).core = s.core := by
  have noted : (if bitOf (actByte s j c) 4 then s.post .event [evNotice, j, r, causeCode c, va] else s).core = s.core := by
    split <;> rfl
  unfold applyFor
  simp only
  split
  · rfl
  · rcases h with park | replay
    · simp only [park]
      rfl
    · simp only [replay]
      exact noted

theorem raiseItem_core (r i : Nat) (ag : Agent) (va : Nat) : (raiseItem s j r i c ag va).core = s.core := by
  unfold raiseItem
  split
  · exact applyFor_core h ..
  · split
    · rfl
    · split
      · rename_i l _
        have tables := congrArg State.jobs
          (modJob_still (s := s) j (f := fun x => { x with poisoned := (r, l) :: x.poisoned }) fun _ => rfl)
        exact applyFor_core (by rwa [AwaitsAction, actByte_still tables]) ..
      · exact applyFor_core h ..

end

/-- What the action of such a cause leaves of its core: all but the list of actions that hold. -/
theorem applyAction_core {s : State} {c : Cause} (h : AwaitsAction s s.core.job c) (ag : Agent) (va : Nat) :
    ∃ acts, (applyAction s c ag va).core = { s.core with acts := acts } := by
  unfold applyAction
  simp only
  split
  · exact ⟨_, raiseItem_core h ..⟩
  · exact ⟨_, raiseItem_core (s := s.modCore _) h ..⟩

theorem noteFault_chip (s : State) (cl : Nat) (f : Flt) : ∃ c, noteFault s cl f = { s with chip := c } := by
  unfold noteFault
  split <;> exact ⟨_, rfl⟩

theorem poisonError_core (s : State) (known : Bool) (va : Nat) : (poisonError s known va).core = s.core := by
  unfold poisonError
  split <;> rfl

/-- The same of an agent's halt, where no replica is asked for. -/
theorem agentFault_core {s : State} {f : Flt} (h : AwaitsAction s s.core.job f.c) (cl : Nat) (ag : Agent) :
    ∃ acts, (agentFault cl ag f false s).core = { s.core with acts := acts } := by
  obtain ⟨chip, noted⟩ := noteFault_chip s cl f
  obtain ⟨acts, held⟩ := applyAction_core (s := { s with chip := chip }) h ag f.va
  refine ⟨acts, ?_⟩
  simp only [agentFault, agentCause, noted]
  split
  · exact (poisonError_core ..).trans held
  · exact held

end Sys2Proof.Machine
end

section
/-!
PROOFS. Commands of MOV (O36): the command file after an update, how a command ends, and what an agent's halt leaves of its core.
-/
namespace Sys2Proof.Machine

/-! ## Pins that end (13 R378) -/

theorem unpinPage_chip (s : State) (key : Nat) : ∃ c, unpinPage s key = { s with chip := c } := by
  unfold unpinPage pinBy
  split <;> exact ⟨_, rfl⟩

/-- Pins that end change nothing but the chip's frames. -/
theorem unpinPages_chip (keys : List Nat) : ∀ s : State, ∃ c, keys.foldl unpinPage s = { s with chip := c } := by
  induction keys with
  | nil => exact fun _ => ⟨_, rfl⟩
  | cons key keys ih =>
    intro s
    obtain ⟨_, one⟩ := unpinPage_chip s key
    obtain ⟨_, rest⟩ := ih (unpinPage s key)
    exact ⟨_, by rw [List.foldl_cons, rest, one]⟩

/-! ## The command file (07 R208) -/

section
variable {s : State} {seq : W32} {x : Cmd}

theorem cmdOf_seq (h : cmdOf s seq = some x) : x.seq = seq := by simpa using List.find?_some h

theorem find?_modFirst {α : Type} (p : α → Bool) {f : α → α} (h : ∀ a, p (f a) = p a) (l : List α) :
    (modFirst p f l).find? p = (l.find? p).map f := by
  induction l with
  | nil => rfl
  | cons a l ih => by_cases ha : p a <;> simp [modFirst, ha, h, ih]

/-- The command after a change that keeps its number. -/
theorem cmdOf_modCmd {f : Cmd → Cmd} (hf : ∀ y, (f y).seq = y.seq) (h : cmdOf s seq = some x) :
    cmdOf (modCmd s seq f) seq = some (f x) := by
  have found := find?_modFirst (fun y : Cmd => y.seq == seq) (f := f) (fun y => by rw [hf]) s.core.cmds
  rw [show s.core.cmds.find? (·.seq == seq) = some x from h] at found
  exact found

/-- The oldest command with a number is the first that equals it. -/
theorem eraseP_seq (h : cmdOf s seq = some x) : s.core.cmds.eraseP (·.seq == seq) = s.core.cmds.erase x := by
  obtain ⟨this, before, after, split, others⟩ := List.find?_eq_some_iff_append.1 h
  have apart : x ∉ before := fun mem => by simpa [this] using others x mem
  rw [split, List.eraseP_append_right _ (by simpa using others), List.erase_append_right _ apart]
  simp [this]

end

/-! ## Ends of a command (07 R211; 09 R267, R271) -/

/-- What has done without a fault: its record waits, OK with its bytes. -/
structure Recorded (x : Cmd) (seq : W32) (u t : State) : Prop where
  recs : t.core.recs = u.core.recs ++ [⟨x.ring, x.desc, seq, 0, x.op.code, 0, x.op.okBytes, 0, true, x.task⟩]
  cmd : ∃ y, cmdOf t seq = some y ∧ y.st = .record ∧ y.status = 0
  mem : SameMemory u t

section
variable {s : State} {seq : W32} {x : Cmd} (hx : cmdOf s seq = some x)
include hx

theorem endData_clean (hf : x.fault = 0) : endData seq s = finishCmd seq 0 0 x.op.okBytes 0 s := by
  simp only [endData, hx, hf, if_true]

theorem finishCmd_ok : Recorded x seq s (finishCmd seq 0 0 x.op.okBytes 0 s) := by
  have run : finishCmd seq 0 0 x.op.okBytes 0 s
      = (modCmd s seq fun y => { y with st := .record, status := 0, fault := 0, bytes := x.op.okBytes, addr := 0 }).modCore fun c =>
        { c with recs := c.recs ++ [⟨x.ring, x.desc, seq, 0, x.op.code, 0, x.op.okBytes, 0, true, x.task⟩] } := by
    simp only [finishCmd, hx]
  rw [run]
  exact ⟨rfl, ⟨_, cmdOf_modCmd (fun _ => rfl) hx, rfl, rfl⟩, fun _ => rfl⟩

theorem endData_recorded (hf : x.fault = 0) : Recorded x seq s (endData seq s) := by
  rw [endData_clean hx hf]
  exact finishCmd_ok hx

end

/-! ## A data command runs (09 R267) -/

section
variable {s : State} {seq : W32} {x : Cmd} (hx : cmdOf s seq = some x)
include hx

theorem movCommandStart_due (h : cmdDue s x = true) : exec (.movCommandStart seq) s = .next (runCmd x s) := by
  have turn : ¬ (x.st = .halted ∧ x.cause = none) := by
    rintro ⟨st, -⟩
    simp [cmdDue, st] at h
  change execMovCommandStart seq s = _
  simp only [execMovCommandStart, hx, turn, h, if_false, if_true]

theorem movCommandStart_early (h : cmdDue s x = false) (hc : x.st = .halted → x.cause ≠ none) :
    exec (.movCommandStart seq) s = .next s := by
  have held : ¬ (x.st = .halted ∧ x.cause = none) := fun ⟨st, cause⟩ => hc st cause
  change execMovCommandStart seq s = _
  simp only [execMovCommandStart, hx, held, h, if_false, Bool.false_eq_true]

theorem movCommandStart_resumes (h : x.st = .halted) (hc : x.cause = none) : exec (.movCommandStart seq) s = .next (takePins x s) := by
  change execMovCommandStart seq s = _
  simp only [execMovCommandStart, hx, h, hc, and_self, if_true]

end

/-- What a command's entry says once it stands behind its last element and has met no poison. -/
def ranThrough (y z : Cmd) : Cmd := { z with st := .running, masks := y.masks, pos := y.op.total }

/-- All elements performed, none of them passed over: the flag is due, or the command has done. -/
theorem runElemsOf_through {v u : State} {x y : Cmd} (hr : runElems y.elem (y.op.total - y.pos) ⟨v, y.pos, 0, [], none⟩
    = ⟨u, y.op.total, 0, [], none⟩) (hu : cmdOf u y.seq = some x) :
    let w := modCmd u y.seq (ranThrough y)
    cmdOf w y.seq = some (ranThrough y x)
      ∧ runElemsOf y v = if y.op.flagAddr.isSome then modCmd w y.seq fun z => { z with st := .flag } else endData y.seq w := by
  have stands : cmdOf (modCmd u y.seq (ranThrough y)) y.seq = some (ranThrough y x) := cmdOf_modCmd (fun _ => rfl) hu
  refine ⟨stands, ?_⟩
  simp only [runElemsOf, hr, List.foldl_nil, ne_eq, not_true_eq_false, and_false, if_false, List.headD_nil, ite_self, Nat.add_zero]
  unfold ranThrough at stands
  simp only [stands]
  rfl

/-- Reading the image of a command gives it its masks alone (09 R279). -/
theorem readImageMasks_cmd {s v : State} {x y : Cmd} (h : readImageMasks x s = .ok (v, y)) : ∃ m, y = { x with masks := m } := by
  unfold readImageMasks at h
  split at h
  · split at h <;> cases h
    exact ⟨_, rfl⟩
  · cases h
    exact ⟨_, rfl⟩

/-- A data command goes through its elements. -/
theorem runData_through {s v u : State} {x y : Cmd} (hf : x.fault = 0) (hm : readImageMasks x s = .ok (v, y))
    (hr : runElems y.elem (x.op.total - x.pos) ⟨v, x.pos, 0, [], none⟩ = ⟨u, x.op.total, 0, [], none⟩)
    (hu : cmdOf u x.seq = some x) :
    if x.op.flagAddr.isSome then
      (∃ z, cmdOf (runData x s) x.seq = some z ∧ z.st = .flag ∧ z.pos = x.op.total) ∧ SameMemory u (runData x s)
    else Recorded x x.seq u (runData x s) := by
  have ran : runData x s = runElemsOf y v := by simp only [runData, hm]
  obtain ⟨m, rfl⟩ := readImageMasks_cmd hm
  obtain ⟨stands, run⟩ := runElemsOf_through hr hu
  rw [ran, run]
  split
  · exact ⟨⟨_, cmdOf_modCmd (fun _ => rfl) stands, rfl, rfl⟩, fun _ => rfl⟩
  · obtain ⟨recs, cmd, mem⟩ := endData_recorded stands hf
    exact ⟨recs, cmd, mem⟩

/-! ## Arrival and flag (09 R276, R282) -/

section
variable {s u : State} {seq : W32} {x : Cmd} {a v : Nat} (hx : cmdOf s seq = some x) (hf : x.fault = 0) (hst : x.st = .flag)
  (hu : cmdOf u seq = some x)
include hx hf hst hu

theorem copyArrival_recorded (ha : x.op.flagAddr = some a) (hd : ∀ d o l f, x.op ≠ .fst d o l f ∧ x.op ≠ .fld d o l f)
    (hr : rmw s (movReq s) a (fun v => arriveSub v x.op.okBytes) = .ok (u, v)) : Runs (.copyArrival seq) s (Recorded x seq u) := by
  have run : exec (.copyArrival seq) s = .next (endData seq u) := by
    change execCopyArrival seq s = _
    simp only [execCopyArrival, hx, ha, hst]
    split
    · rename_i op
      exact absurd op (hd _ _ _ _).1
    · rename_i op
      exact absurd op (hd _ _ _ _).2
    · rename_i place _ _ _
      cases place
      simp only [hr]
    · rename_i other
      exact (other a rfl rfl).elim
  exact ⟨_, run, endData_recorded hu hf⟩

theorem fstFlagIncrement_recorded {d o l f : Nat} (hop : x.op = .fst d o l f ∨ x.op = .fld d o l f)
    (hr : rmw s { movReq s with ask := [2, 0, 1] } f (fun v => .ok ((v + 1) % 2 ^ 64)) = .ok (u, v)) :
    Runs (.fstFlagIncrement seq) s (Recorded x seq u) := by
  have run : exec (.fstFlagIncrement seq) s = .next (endData seq u) := by
    change execFstFlagIncrement seq s = _
    rcases hop with hop | hop <;> simp only [execFstFlagIncrement, hx, hop, hst, hr]
  exact ⟨_, run, endData_recorded hu hf⟩

end

/-! ## Halts (09 R267; 13 R378) -/

/-- The command's entry once it has halted with a fault. -/
def haltedOn (f : Flt) (x : Cmd) : Cmd := { x with st := .halted, halted0 := x.st, cause := some f.c, fva := f.va }

section
variable {s : State} {seq : W32} {x : Cmd} {f : Flt} (hx : cmdOf s seq = some x)
include hx

theorem haltCmd_of : haltCmd seq f s = modCmd (x.pins.foldl unpinPage (quitQueues s.core.phys s)) seq (haltedOn f) := by
  simp only [haltCmd, hx]
  rfl

theorem movCommandHalt_runs (hc : haltCause s x = some f) (ha : AwaitsAction s s.core.job f.c) (c : Cause) (a : BitVec 52) :
    Runs (.movCommandHalt seq c a) s fun t => cmdOf t seq = some (haltedOn f x) := by
  have run : exec (.movCommandHalt seq c a) s = .next (agentFault 5 .mov f false (haltCmd seq f s)) := by
    change execMovCommandHalt seq c a s = _
    simp only [execMovCommandHalt, hx, hc]
  obtain ⟨chip, freed⟩ := unpinPages_chip x.pins (quitQueues s.core.phys s)
  have halted : haltCmd seq f s = modCmd { quitQueues s.core.phys s with chip := chip } seq (haltedOn f) := by
    rw [haltCmd_of hx, freed]
  rw [halted] at run
  obtain ⟨acts, core⟩ := agentFault_core (s := modCmd { quitQueues s.core.phys s with chip := chip } seq (haltedOn f)) ha 5 .mov
  refine ⟨_, run, ?_⟩
  simp only [cmdOf, core]
  exact cmdOf_modCmd (fun _ => rfl) hx

/-! ## Retirement and records (07 R210; 09 R272, R273) -/

theorem movCommandRetire_runs (hst : x.st = .record) (hr : ∀ r ∈ s.core.recs, r.retires = true → r.seq ≠ seq) :
    Runs (.movCommandRetire seq) s fun t =>
      t.core.cmds = s.core.cmds.erase x
      ∧ t.core.openB = (if s.core.batches.any (·.contains seq) then s.core.openB else s.core.openB.erase seq)
      ∧ t.core.batches = (modFirst (·.contains seq) (·.erase seq) s.core.batches).filter (fun b => !b.isEmpty) ∧ SameMemory s t := by
  have written : (s.core.recs.any fun r => r.retires && r.seq == seq) = false := by simpa using hr
  have run : exec (.movCommandRetire seq) s = .next (retireCmd seq s) := by
    change execMovCommandRetire seq s = _
    simp only [execMovCommandRetire, hx, hst, written]
    rfl
  refine ⟨_, run, ?_⟩
  simp only [retireCmd, hx]
  obtain ⟨chip, freed⟩ := unpinPages_chip x.pins s
  rw [freed, ← eraseP_seq hx]
  exact ⟨rfl, rfl, rfl, fun _ => rfl⟩

variable {n : BitVec 3} {r : Rec} (hn : s.core.recs.find? (fun r => r.ring == n.toNat) = some r) (hs : r.seq = seq)
include hn hs

theorem ringRecordWrite_runs {u : State} {slot : Nat} (hst : x.st ≠ .halted)
    (hp : ringPut s (movReq s) r.desc (r.words s.now) = .ok (some (u, slot))) :
    let live : Bool := u.core.stage.isSome && !u.core.suspending && r.task == u.core.taskId
    exec (.ringRecordWrite n) s = .next { u with core := { u.core with
      recs := u.core.recs.erase r
      uipend := if bitOf r.desc 56 && live then u.core.uipend ||| BitVec.ofNat 8 (2 ^ r.ring) else u.core.uipend } } := by
  have goes : ((cmdOf s r.seq).map (·.st) == some .halted) = false := by simp [hs, hx, hst]
  change execRingRecordWrite n s = _
  simp only [execRingRecordWrite, headRec, hn, goes, hp, Bool.false_eq_true, if_false]
  rfl

end

theorem ringRecordWrite_full {s : State} {n : BitVec 3} {r : Rec} (hn : s.core.recs.find? (fun r => r.ring == n.toNat) = some r)
    (hp : ringPut s (movReq s) r.desc (r.words s.now) = .ok none) : exec (.ringRecordWrite n) s = .next s := by
  change execRingRecordWrite n s = _
  simp only [execRingRecordWrite, headRec, hn, hp, ite_self]

/-- Settles O36: each event from what it does where it is enabled; a data command from what its run through the elements leaves. -/
theorem movCommandsRun : Obligations.MovCommandsRun := by
  unfold Obligations.MovCommandsRun
  intro s seq x hx hf _ recorded data
  have hs := cmdOf_seq hx
  have of {i : Instr} {s u : State} (h : Runs i s (Recorded x seq u)) : Runs i s (recorded u) := by
    obtain ⟨t, run, recs, cmd, mem⟩ := h
    exact ⟨t, run, recs, cmd, mem⟩
  refine ⟨movCommandStart_early hx, movCommandStart_resumes hx, fun due => ⟨movCommandStart_due hx due, ?_, ?_⟩,
    fun st => ⟨fun a u v ha hd hr hu => of (copyArrival_recorded hx hf st hu ha hd hr),
      fun d o l f u v hop hr hu => of (fstFlagIncrement_recorded hx hf st hu hop hr)⟩, ?_, ?_,
    fun n r u slot hn hr hst => ringRecordWrite_runs hx hn hr hst, fun n r hn _ => ringRecordWrite_full hn⟩
  · intro hdata v y u hm hr hu
    have kind : runCmd x s = runData x s := by
      simp only [data] at hdata
      split at hdata
      case h_6 => cases hdata
      all_goals
        rename_i op
        simp only [runCmd, op]
    subst hs
    have ends := runData_through hf hm hr hu
    refine ⟨_, movCommandStart_due hx due, ?_⟩
    rw [kind]
    split
    case isTrue posts => rwa [if_pos posts] at ends
    case isFalse posts =>
      rw [if_neg posts] at ends
      exact ⟨ends.recs, ends.cmd, ends.mem⟩
  · intro op a v r hop
    have kind : runCmd x s = modCmd s seq fun y => { y with st := .flag } := by simp only [runCmd, hop, hs]
    refine ⟨_, movCommandStart_due hx due, ?_⟩
    rw [kind]
    exact ⟨⟨_, cmdOf_modCmd (fun _ => rfl) hx, rfl⟩, fun _ => rfl⟩
  · intro f hc ha c a
    obtain ⟨t, run, halted⟩ := movCommandHalt_runs hx hc ha c a
    exact ⟨t, run, _, halted, rfl, rfl, rfl, rfl⟩
  · intro hst hr
    obtain ⟨t, run, cmds, openB, batches, mem⟩ := movCommandRetire_runs hx hst hr
    refine ⟨t, run, cmds, fun apart => ?_, batches, mem⟩
    have alone : s.core.batches.any (·.contains seq) = false := by simpa using apart
    rw [openB, alone]
    rfl

end Sys2Proof.Machine
end

section
/-!
PROOFS. Accesses in flight (O33): one that performs, and one whose fault makes its core trap.
-/
namespace Sys2Proof.Machine

/-! ## An access performs (07 R198, R203, R204) -/

/-- What an access of the queue leaves: it is gone, its value delivered, or it is marked. -/
def accEnd (a : Acc) (op : Except Flt (State × Option Word)) (s : State) : State :=
  match op with
  | .error _ => markAcc a.id s
  | .ok (u, none) => dropAcc a.id u
  | .ok (u, some x) => deliver a x (dropAcc a.id u)

section
variable {s : State} {q : Seqr} {a : Acc} (ha : headAcc s q = some a)
include ha

theorem headAcc_seqr : a.q = q := by simpa using List.find?_some ha

theorem performHead_ready (hf : a.flt = false) (hg : gated s q = false)
    (hm : mayGo s (s.req (accClient q)) (a.op.fab a.size) a.addr a.size = true) :
    performHead q s = accEnd a (performOp (unqueue s (s.req (accClient q)) (a.op.fab a.size) a.addr a.size) (s.req (accClient q))
      a.op a.addr a.size) s := by
  have ready : headReady s q = true := by simp [headReady, ha, hf, hg, hm]
  simp only [performHead, ha, ready, Bool.not_true, Bool.false_eq_true, if_false]
  rfl

end

/-- A register of CTL or MOV after a write to a register by number. -/
theorem getReg_putReg_ix (c : Core) {q : Seqr} (hq : q = .ctl ∨ q = .mov) {d : Nat} (hd : d < if q = .ctl then 56 else 32)
    (x : Word) (j : Nat) : (c.putReg q d x).getReg q j = if j = d ∧ discards q j = false then x else c.getReg q j := by
  rcases hq with rfl | rfl
  · have low : d < 56 := hd
    have user : d ≠ 64 := by omega
    by_cases zero : d = 0
    · subst zero
      by_cases hj : j = 0 <;> simp [hj, discards, Core.putReg, Core.getReg]
    · change (c.putS d x).getS j = _
      rw [getS_putS c d j x zero user (.inl low)]
      by_cases hj : j = d <;> simp [hj, discards, zero, user, Core.getReg]
  · have low : d < 32 := hd
    by_cases hj : j = d
    · simp [hj, discards, Core.putReg, Core.getReg, low]
    · simp [hj, Core.putReg, Core.getReg, Vector.getElem?_setIfInBounds_ne (Ne.symm hj)]

@[simp] theorem accq_setLat (c : Core) (q : Seqr) (l : List (Latch Word)) : (c.setLat q l).accq = c.accq := by
  cases q
  · simp only [Core.setLat]
    split <;> rfl
  all_goals rfl

@[simp] theorem accq_putReg (c : Core) (q : Seqr) (i : Nat) (x : Word) : (c.putReg q i x).accq = c.accq := by
  cases q
  · simp only [Core.putReg, Core.putS]
    repeat' split
    all_goals rfl
  all_goals rfl

/-- A core whose sequencer's latches that wait for the access have its value. -/
def ownLatched (a : Acc) (x : Word) (c : Core) : Core := c.setLat a.q ((c.lat a.q).map (fillLat a.id x))

/-- The same core, whose latches set aside for the user completion handler have the value too. -/
def latched (a : Acc) (x : Word) (c : Core) : Core := { ownLatched a x c with latSet := (ownLatched a x c).latSet.map (fillLat a.id x) }

section
variable (a : Acc) (x : Word) (c : Core)

theorem latched_lat (h : a.q ≠ .vec) : (latched a x c).lat a.q = (c.lat a.q).map (fillLat a.id x) := by
  have apart : (latched a x c).lat a.q = (ownLatched a x c).lat a.q := by
    unfold latched
    cases a.q <;> rfl
  rw [apart, ownLatched, lat_setLat c h]

theorem latched_getReg (j : Nat) : (latched a x c).getReg a.q j = c.getReg a.q j := by
  have apart : (latched a x c).getReg a.q j = (ownLatched a x c).getReg a.q j := by
    unfold latched
    cases a.q <;> rfl
  rw [apart, ownLatched, getReg_setLat]

theorem latched_accq : (latched a x c).accq = c.accq := accq_setLat ..

end

section
variable {u : State} {a : Acc} {d : Nat} {nw : Bool} (hd : a.op.dest = some (d, nw))
include hd

theorem deliver_core (x : Word) : (deliver a x u).core = if nw then latched a x u.core else (latched a x u.core).putReg a.q d x := by
  cases nw <;> simp only [deliver, hd] <;> rfl

/-- The value of an access of CTL or MOV reaches its latch and its register. -/
theorem deliver_reaches (hq : a.q = .ctl ∨ a.q = .mov) (hr : d < if a.q = .ctl then 56 else 32) (x : Word) :
    let t := deliver a x u
    t.core.accq = u.core.accq ∧ t.core.lat a.q = (u.core.lat a.q).map (fillLat a.id x)
    ∧ ∀ j, t.core.getReg a.q j = if j = d ∧ nw = false ∧ discards a.q j = false then x else u.core.getReg a.q j := by
  have scalar : a.q ≠ .vec := by rcases hq with h | h <;> rw [h] <;> decide
  simp only [deliver_core hd]
  cases nw with
  | true => simp [latched_accq, latched_lat _ _ _ scalar, latched_getReg]
  | false => simp [latched_accq, latched_lat _ _ _ scalar, latched_getReg, getReg_putReg_ix _ hq hr]

end

/-! ## A trap enters (15 R407 to R412) -/

/-- A core without what an instruction in flight that completes may write, and without the accesses in flight. -/
def Core.unwritten (c : Core) : Core :=
  { c with
    s := Vector.replicate 48 0, shadow := Vector.replicate 8 0, sysS := Vector.replicate 48 0, a := Vector.replicate 32 0
    d := Vector.replicate 32 0, v := Vector.replicate 192 0, m := Vector.replicate 16 0, strm := Vector.replicate 16 {}
    latC := [], latA := [], latV := [], latM := [], pend := [], accq := [] }

theorem commit_unwritten (c : Core) (x : Dst) : (c.commit x).unwritten = c.unwritten := by
  cases x
  case s i y =>
    simp only [Core.commit, Core.putS]
    repeat' split
    all_goals rfl
  all_goals rfl

theorem settle_unwritten (s : State) : (settle s).core.unwritten = s.core.unwritten :=
  foldl_keeps Core.unwritten (fun c (p : Pend) => commit_unwritten c p.dst) (byDue s.core.pend) s.core

theorem settle_accq (s : State) : (settle s).core.accq = s.core.accq := by
  refine foldl_keeps Core.accq (fun c (p : Pend) => ?_) (byDue s.core.pend) s.core
  cases p.dst
  case s i y => exact accq_putReg c .ctl i y
  all_goals rfl

section
variable {s t : State} (hc : t.core.unwritten = s.core.unwritten) (hr : t.ranks = s.ranks)
include hc hr

theorem cachedLine_unwritten (line : BitVec 47) : cachedLine t line = cachedLine s line := by
  have job := congrArg Core.job hc
  have rank := congrArg Core.rank hc
  have icache := congrArg Core.icache hc
  simp only [Core.unwritten] at job rank icache
  simp only [cachedLine, State.myRank, State.rank?, job, rank, icache, hr]

theorem nextOwn_unwritten (q : Seqr) (n : Nat) : ∀ x : SeqSt, nextOwn t q n x = nextOwn s q n x := by
  have uh := congrArg Core.uh hc
  simp only [Core.unwritten] at uh
  induction n with
  | zero => exact fun _ => rfl
  | succ n ih => intro x; simp only [nextOwn, cachedLine_unwritten hc hr, uh, ih]

/-- Where a sequencer stands in a frame does not rest on what completes as the trap enters. -/
theorem atEntry_unwritten (q : Seqr) : atEntry q t = atEntry q s := by
  have seq : t.core.seq q = s.core.seq q := by
    have same := congrArg (·.seq q) hc
    cases q <;> exact same
  have lanes : (entryHere q t).2 = (entryHere q s).2 := by simp only [entryHere, seq, cachedLine_unwritten hc hr]
  simp only [atEntry, seq, lanes, nextOwn_unwritten hc hr]

end

theorem writeFrame_steady (s : State) : (writeFrame s).steady = s.steady := by
  unfold writeFrame
  split
  · rfl
  · split
    · exact writeMem_steady ‹_›
    · rfl

/-- Writing the frame leaves what the core holds of the trap, where its sequencers stand and its accesses; and the jobs' tables. -/
theorem writeFrame_keeps (s : State) : (writeFrame s).core.trap = s.core.trap ∧ (∀ q, (writeFrame s).core.seq q = s.core.seq q)
    ∧ (writeFrame s).core.accq = s.core.accq ∧ (writeFrame s).core.job = s.core.job
    ∧ (writeFrame s).jobs.map Job.still = s.jobs.map Job.still := by
  have same := writeFrame_steady s
  exact ⟨congrArg (·.core.trap) same, fun q => by have at' := congrArg (·.core.seq q) same; cases q <;> exact at',
    congrArg (·.core.accq) same, congrArg (·.core.job) same, congrArg (·.jobs) same⟩

/-- What a frame holds of the core that traps with a cause. -/
structure Framed (c : Cause) (ag : Agent) (va pc tag : Nat) (extra : List Acc) (words : Option Acc) (s : State) (tr : Trap) : Prop where
  cause : tr.cause = some c
  agent : tr.agent = ag
  fva : tr.fva = va
  tag : tr.tag = tag
  pc : tr.pc.toNat = pc % 2 ^ 52
  pre : tr.pre = false
  done : tr.done = false
  replay : tr.replay = byNum (s.core.accq ++ extra ++ againEntries s)
  words : tr.words = words
  seqs : tr.ctl = atEntry .ctl s ∧ tr.acs = atEntry .acs s ∧ tr.vec = atEntry .vec s ∧ tr.mov = atEntry .mov s

/-- A trap that enters with a cause: its frame, and a core that stands still with no access in flight. -/
theorem enterTrap_frames (s : State) (c : Cause) (ag : Agent) (va aux : Nat) (act : Act) (pc tag : Nat) (extra : List Acc)
    (words : Option Acc) :
    let t := enterTrap (some c) ag va aux act pc tag extra words s
    (∃ tr, t.core.trap = some tr ∧ Framed c ag va pc tag extra words s tr) ∧ (∀ q, (t.core.seq q).run = false) ∧ t.core.accq = []
    ∧ t.core.job = s.core.job ∧ t.jobs.map Job.still = s.jobs.map Job.still := by
  have core : (settle (quitQueues s.core.phys s)).core.unwritten = s.core.unwritten := settle_unwritten (quitQueues s.core.phys s)
  have waiting : (settle (quitQueues s.core.phys s)).core.accq = s.core.accq := settle_accq (quitQueues s.core.phys s)
  have ranks : (settle (quitQueues s.core.phys s)).ranks = s.ranks := rfl
  have stand (q : Seqr) : atEntry q (settle (quitQueues s.core.phys s)) = atEntry q s := atEntry_unwritten core ranks q
  have job := congrArg Core.job core
  have again : againEntries (quitQueues s.core.phys s) = againEntries s := rfl
  have keep : keepsFlight (some c) (quitQueues s.core.phys s) = false := rfl
  simp only [enterTrap, keep, Bool.false_eq_true, if_false]
  obtain ⟨trap, seqs, accq, job', jobs⟩ := writeFrame_keeps ((settle (quitQueues s.core.phys s)).modCore _)
  refine ⟨⟨_, trap, ?_⟩, fun q => ?_, accq, job'.trans job, jobs⟩
  · refine ⟨rfl, rfl, rfl, rfl, BitVec.toNat_ofNat .., rfl, rfl, ?_, rfl, stand .ctl, stand .acs, stand .vec, stand .mov⟩
    simp only [recordHalted, waiting, again, List.append_nil]
  · rw [seqs]
    cases q <;> rfl

theorem seqCause_core {s : State} {c : Cause} (h : AwaitsAction s s.core.job c) (ag : Agent) (va : Nat) :
    ∃ acts, (seqCause s c ag va).core = { s.core with acts := acts } := by
  obtain ⟨acts, held⟩ := applyAction_core h ag va
  refine ⟨acts, ?_⟩
  unfold seqCause
  simp only
  split
  · exact (poisonError_core ..).trans held
  · exact held

theorem awaitsAction_of {s t : State} {c : Cause} (h : AwaitsAction s s.core.job c) (hj : t.core.job = s.core.job)
    (ht : t.jobs.map Job.still = s.jobs.map Job.still) : AwaitsAction t t.core.job c := by
  rwa [AwaitsAction, hj, actByte_still ht]

/-- The core as the trap of a faulted access enters: an access whose cause is not replayable is none of the replay queue. -/
def heldBack (a : Acc) (f : Flt) (s : State) : State :=
  if replayable f.c then noteFault s (accClient a.q) f else dropAcc a.id (noteFault s (accClient a.q) f)

section
variable (a : Acc) (f : Flt) (s : State)

theorem heldBack_only : ∃ chip, heldBack a f s =
    { s with chip := chip, core := { s.core with
        accq := if replayable f.c then s.core.accq else s.core.accq.filter fun b => b.id != a.id } } := by
  obtain ⟨chip, noted⟩ := noteFault_chip s (accClient a.q) f
  refine ⟨chip, ?_⟩
  rw [heldBack, noted]
  split <;> rfl

theorem againEntries_only (l : List Acc) (chip : Chip) :
    againEntries { s with chip := chip, core := { s.core with accq := l } } = againEntries s := rfl

theorem atEntry_only (l : List Acc) (chip : Chip) (q : Seqr) :
    atEntry q { s with chip := chip, core := { s.core with accq := l } } = atEntry q s := by
  have core : ({ s with chip := chip, core := { s.core with accq := l } } : State).core.unwritten = s.core.unwritten := rfl
  exact atEntry_unwritten core rfl q

end

theorem heldTrap_enters (a : Acc) (f : Flt) (s : State) : ∃ act, heldTrap a f s =
    seqCause (enterTrap (some f.c) (seqAgent a.q) f.va 0 act (lanePc a.line a.lane) (seqTag a.q) []
      (if replayable f.c then none else some a) (heldBack a f s)) f.c (seqAgent a.q) f.va := by
  unfold heldTrap
  exact ⟨_, rfl⟩

/-- The trap of an access that faulted, under an action that parks or replays. -/
theorem heldTrap_frames {s : State} {a : Acc} {f : Flt} (h : AwaitsAction s s.core.job f.c) :
    (∃ tr, (heldTrap a f s).core.trap = some tr ∧ Framed f.c (seqAgent a.q) f.va (lanePc a.line a.lane) (seqTag a.q) []
      (if replayable f.c then none else some a) (heldBack a f s) tr)
    ∧ (∀ q, ((heldTrap a f s).core.seq q).run = false) ∧ (heldTrap a f s).core.accq = [] := by
  obtain ⟨act, run⟩ := heldTrap_enters a f s
  obtain ⟨frame, stands, accq, job, jobs⟩ := enterTrap_frames (heldBack a f s) f.c (seqAgent a.q) f.va 0 act
    (lanePc a.line a.lane) (seqTag a.q) [] (if replayable f.c then none else some a)
  rw [run]
  generalize enterTrap _ _ _ _ _ _ _ _ _ _ = u at *
  obtain ⟨chip, only⟩ := heldBack_only a f s
  have waits : AwaitsAction u u.core.job f.c := by
    refine awaitsAction_of h (job.trans ?_) (jobs.trans ?_) <;> rw [only]
  obtain ⟨acts, held⟩ := seqCause_core waits (seqAgent a.q) f.va
  rw [held]
  refine ⟨frame, fun q => ?_, accq⟩
  have still := stands q
  cases q <;> exact still

/-- The access whose trap enters: CTL's before MOV's. -/
theorem trapEntry_head {s : State} {q : Seqr} {a : Acc} (hq : q = .ctl ∨ q = .mov) (ha : headAcc s q = some a) (hf : a.flt = true)
    (hc : q = .ctl ∨ ∀ b, headAcc s .ctl = some b → b.flt = false) :
    ((headAcc s .ctl).filter (·.flt)).or ((headAcc s .mov).filter (·.flt)) = some a := by
  rcases hc with rfl | quiet
  · simp [ha, hf]
  · have none : (headAcc s .ctl).filter (·.flt) = none := by simpa using quiet
    rcases hq with rfl | rfl
    · rw [quiet a ha] at hf
      cases hf
    · simp [none, ha, hf]

section
variable {s : State} {q : Seqr} {a : Acc} (hq : q = .ctl ∨ q = .mov) (ha : headAcc s q = some a) (hf : a.flt = true)
  (hc : q = .ctl ∨ ∀ b, headAcc s .ctl = some b → b.flt = false)
include hq ha hf hc

theorem trapEntry_traps {f : Flt} (h : performOp s (s.req (accClient a.q)) a.op a.addr a.size = .error f) :
    exec .trapEntry s = .next (heldTrap a f s) := by
  change execTrapEntry s = _
  simp only [execTrapEntry, trapEntry_head hq ha hf hc, h]

theorem trapEntry_lifts {r : State × Option Word} (h : performOp s (s.req (accClient a.q)) a.op a.addr a.size = .ok r) :
    exec .trapEntry s = .next { s with core := { s.core with
      accq := s.core.accq.map fun b => if b.id = a.id then { b with flt := false } else b } } := by
  change execTrapEntry s = _
  simp only [execTrapEntry, trapEntry_head hq ha hf hc, h]
  rfl

end

/-- Settles O33: an access that may go ends by what its operation comes to; one that is marked, by the trap that enters. -/
theorem accessesPerform : Obligations.AccessesPerform := by
  unfold Obligations.AccessesPerform
  intro s q a hq ha may sent
  have head : headAcc s q = some a := ha
  have hs : a.q = q := headAcc_seqr head
  refine ⟨?_, fun hv => ⟨fun u p hl => ?_, fun f hl => ?_⟩, fun hf hc => ⟨fun f he hact => ?_,
    fun r he => trapEntry_lifts hq ha hf hc he⟩⟩
  · intro hf hg hm performs
    have all {i : Instr} {op : Except Flt (State × Option Word)} {u0 : State} (run : exec i s = .next (accEnd a op u0)) :
        performs i op u0 := by
      refine ⟨fun u he => ?_, fun u x d nw he hd hr => ?_, fun f he => ?_⟩ <;> subst he
      · exact run
      · subst hs
        obtain ⟨accq, lat, regs⟩ := deliver_reaches (u := dropAcc a.id u) hd hq hr x
        exact ⟨_, run, accq, lat, regs, fun _ => rfl⟩
      · exact run
    have ready := performHead_ready ha hf hg hm
    refine ⟨all ?_, fun hspad => all ?_, fun u hu hm' => all ?_⟩
    · change execMemoryAccessPerform q s = _
      rw [execMemoryAccessPerform, ready]
    · change execScratchpadAccessComplete q s = _
      simp only [execScratchpadAccessComplete, head, hspad, if_true, ready]
      rfl
    · change execGenStaleRetry q s = _
      subst hu
      simp only [execGenStaleRetry, head]
      exact congrArg Host.Outcome.next (performHead_ready (s := s.modCore _) ha hf hg hm')
  · change execTranslationWalk q s = _
    simp only [execTranslationWalk, head, hv, hl, ne_eq, not_true_eq_false, if_false]
  · change execTranslationWalk q s = _
    simp only [execTranslationWalk, head, hv, hl, ne_eq, not_true_eq_false, if_false]
    rfl
  · obtain ⟨⟨tr, trap, framed⟩, still, accq⟩ := heldTrap_frames (a := a) hact
    obtain ⟨chip, only⟩ := heldBack_only a f s
    obtain ⟨ctl, acs, vec, mov⟩ := framed.seqs
    have stand (p : Seqr) : atEntry p (heldBack a f s) = atEntry p s := by rw [only, atEntry_only]
    have replay : tr.replay
        = byNum ((if replayable f.c then s.core.accq else s.core.accq.filter fun b => b.id != a.id) ++ againEntries s) := by
      rw [framed.replay, only, againEntries_only, List.append_nil]
    exact ⟨_, trapEntry_traps hq ha hf hc he, tr, trap, framed.cause, hs ▸ framed.agent, framed.fva, hs ▸ framed.tag, framed.pc,
      framed.pre, framed.done, replay, framed.words, ctl.trans (stand _), acs.trans (stand _), vec.trans (stand _),
      mov.trans (stand _), still, accq⟩

end Sys2Proof.Machine
end
